-- ==== Sys2Proof/Word.lean ====
section
/-! DEFINITION. The word types of the KV-7 and their plainest arithmetic. -/

namespace Sys2Proof

/-- A byte. -/
abbrev Byte := BitVec 8

/-- A 32-bit word: a v register, an instruction word. -/
abbrev W32 := BitVec 32

/-- A 64-bit word: a k or x register, a cistern, an address. -/
abbrev W64 := BitVec 64

end Sys2Proof
end

