-- ==== Sys2Proof/Config.lean ====
section
/-! DEFINITION. What is fixed for the part (R2 and the tables that repeat its figures), and the free values: constants
without a body, so that nothing in Lean can evaluate them or prove a value of them. -/

namespace Sys2Proof.Config

/-- A free choice the device makes, the `k`-th one at count `n` (log entry 5). -/
opaque freeBit : Nat → Nat → Bool

/-- A free number the device chooses, the `k`-th one at count `n` (log entry 5). -/
opaque freeNat : Nat → Nat → Nat

/-- What a special function gives for an operand, before the bound of R74 is put on it: operation 0-6, operand bits
(log entry 6). -/
opaque special : Nat → BitVec 32 → Int

/-- The key inside a wrapped key (R402; log entry 7). -/
opaque unwrapKey : BitVec 512 → BitVec 512

/-- The key that boot loads into a key slot, for the slots into which it loads one (R420; log entry 121). -/
opaque bootKey : Nat → Option (BitVec 512)

/-- RSA-4096 signature of bytes under the F-die's identity key (R422; log entry 7). -/
opaque sign : List Byte → BitVec 4096

/-- Bytes that the spec leaves open: what the host reads of a poisoned line, and what another agent has written to its own
line after it took it back (log entry 8). -/
opaque freeByte : Nat → Nat → BitVec 8

/-- Hardware queues of the package (R342). -/
def queues : Nat := 64
/-- Physical clusters of a C-die (R2, R351). -/
def clustersPerDie : Nat := 13
/-- C-dies (R2). -/
def cdies : Nat := 8
/-- Bytes of a basin (R2). -/
def basinBytes : Nat := 2097152
/-- Cisterns of a cluster (R2). -/
def cisternsPerCluster : Nat := 256
/-- Crew slots of a SIMT core (R12). -/
def crewSlots : Nat := 96
/-- Fast crew-registers of a SIMT core (R12). -/
def fastRegs : Nat := 4096
/-- Slow crew-registers of a SIMT core (R12). -/
def slowRegs : Nat := 2048
/-- Copies a copy engine holds (R176). -/
def copyPlaces : Nat := 16
/-- Depth of a matrix queue (R186). -/
def mxDepth : Nat := 4
/-- Bytes that a copy engine moves in a clk (R176). -/
def copyRate : Nat := 256
/-- Bytes from which a copy waits for a draw grant (R176). -/
def drawCopyBytes : Nat := 65536
/-- Most batches outstanding, and most instructions in a batch (R109). -/
def maxBatches : Nat := 8
/-- Lines of an L1 of 256 KiB (R102), and of an L2 slice of 2 MiB (R2). -/
def l1Lines : Nat := 2048
def sliceLines : Nat := 16384
/-- Subscription records of a cluster (R117). -/
def maxSubs : Nat := 256
/-- Entries of an L2 slice's standpipe table, and subscribers of one entry (R119). -/
def pipeEntries : Nat := 2048
def pipeSubs : Nat := 4
/-- Time after which a dirty word drains, in tb (R106). -/
def dirtyLimit : Nat := 2048
/-- Nodes of a device, open keys of a node (R190, R193). -/
def maxNodes : Nat := 4096
def maxKeys : Nat := 64
/-- Deepest siphon build (R140). -/
def maxDepth : Nat := 6
/-- Entries of a cluster's TLB and of an H-die's second-level TLB (R399). -/
def tlbEntries : Nat := 512
def tlb2Entries : Nat := 16384
/-- Directory entries of an H-die (R405). -/
def dirEntries : Nat := 262144

end Sys2Proof.Config
end

