-- ==== Sys2Proof/Syntax.lean ====
section
/-! DEFINITION. The instruction set as one inductive: one constructor per row of spec/opcode_table.json.
Rows 0 to 169 are instruction words and carry the fields of the word; rows 170 to 272 are operations and events of the
part without a word and carry their plain parameters. -/

namespace Sys2Proof

/-- What a fabric flit carried (R410), named by what it belongs to. -/
inductive FlitLoad where
  /-- a directory update or an invalidation acknowledgement of a line -/
  | directory (line : Nat)
  /-- line data of a load, an atomic or a prefetch, by the number of its entry -/
  | lineData (load : Nat)
  /-- line data of an instruction fetch of a unit of a cell -/
  | instrData (cell unit : Nat)
  /-- data of a copy piece -/
  | copyData (copy : Nat)
  /-- a standpipe push, close or freeze -/
  | standpipe (msg : Nat)
  /-- a remote emit index or its record pull -/
  | remoteEmit (num : Nat)
  /-- an access request, a drained word or an atomic, by the number of its entry -/
  | request (entry : Nat)
  /-- a line written back -/
  | writeBack (line : Nat)
  /-- COPY data of a hardware queue -/
  | command (q : Nat)
  /-- a plane fence, by the number of its release -/
  | fence (seq : Nat)
  /-- anything else -/
  | other
deriving DecidableEq, Repr

/-- What the context creation command gives (R339, R347, R386, R394, R395). -/
structure CtxParams where
  dev : Nat
  root : BitVec 48
  keyIds : List (BitVec 8)
  queues : List Nat
  topPri : BitVec 3
  lw : Nat
  poolBase : BitVec 48
  poolSize : Nat
  /-- index of the handler node, none for 0 in HANDLER. -/
  handler : Option (BitVec 16)
deriving DecidableEq, Repr

/-- A host group as the host names it: its bridge package, and the packages whose BAR0 windows the bridge shows, in their order (R418). -/
structure HostGroup where
  bridge : BitVec 16
  members : List (BitVec 16)
deriving DecidableEq, Repr

/-- Every instruction word, operation and event of the part. -/
inductive Instr where
  /-- R225: Integer add at 32 or 64 bits, wrapping or saturating as F selects. -/
  | add (f : BitVec 2) (b : BitVec 7) (a : BitVec 7) (d : BitVec 7)
  /-- R225: Integer subtract at 32 or 64 bits, wrapping or saturating as F selects. -/
  | sub (f : BitVec 2) (b : BitVec 7) (a : BitVec 7) (d : BitVec 7)
  /-- R226: Integer multiply giving the low, high, 64-bit or wide product. -/
  | mul (f : BitVec 4) (b : BitVec 7) (a : BitVec 7) (d : BitVec 7)
  /-- R226: Integer multiply-add into D. -/
  | mad (f : BitVec 2) (b : BitVec 7) (a : BitVec 7) (d : BitVec 7)
  /-- R227: Integer quotient truncated toward zero, never trapping. -/
  | div (f : BitVec 2) (b : BitVec 7) (a : BitVec 7) (d : BitVec 7)
  /-- R227: Integer remainder with the sign of the dividend. -/
  | rem (f : BitVec 2) (b : BitVec 7) (a : BitVec 7) (d : BitVec 7)
  /-- R228: Lesser of two integers, signed or unsigned, at 32 or 64 bits. -/
  | min (w : BitVec 1) (s : BitVec 1) (b : BitVec 7) (a : BitVec 7) (d : BitVec 7)
  /-- R228: Greater of two integers, signed or unsigned, at 32 or 64 bits. -/
  | max (w : BitVec 1) (s : BitVec 1) (b : BitVec 7) (a : BitVec 7) (d : BitVec 7)
  /-- R229: Bitwise and. -/
  | and (b : BitVec 7) (a : BitVec 7) (d : BitVec 7)
  /-- R229: Bitwise or. -/
  | or (b : BitVec 7) (a : BitVec 7) (d : BitVec 7)
  /-- R229: Bitwise exclusive or. -/
  | xor (b : BitVec 7) (a : BitVec 7) (d : BitVec 7)
  /-- R229: Bitwise a and not b. -/
  | andn (b : BitVec 7) (a : BitVec 7) (d : BitVec 7)
  /-- R229: Bitwise a or not b. -/
  | orn (b : BitVec 7) (a : BitVec 7) (d : BitVec 7)
  /-- R229: Bitwise not of a xor b. -/
  | xnor (b : BitVec 7) (a : BitVec 7) (d : BitVec 7)
  /-- R229: Bitwise complement of a. -/
  | not (a : BitVec 7) (d : BitVec 7)
  /-- R230: Logical shift left at 32 or 64 bits. -/
  | shl (w : BitVec 1) (b : BitVec 7) (a : BitVec 7) (d : BitVec 7)
  /-- R230: Logical shift right with zero fill. -/
  | shr (w : BitVec 1) (b : BitVec 7) (a : BitVec 7) (d : BitVec 7)
  /-- R230: Arithmetic shift right with sign fill. -/
  | sar (w : BitVec 1) (b : BitVec 7) (a : BitVec 7) (d : BitVec 7)
  /-- R230: Rotate left. -/
  | rol (w : BitVec 1) (b : BitVec 7) (a : BitVec 7) (d : BitVec 7)
  /-- R231: Count of one bits. -/
  | popc (w : BitVec 1) (a : BitVec 7) (d : BitVec 7)
  /-- R231: Count of leading zero bits. -/
  | clz (w : BitVec 1) (a : BitVec 7) (d : BitVec 7)
  /-- R231: Count of trailing zero bits. -/
  | ctz (w : BitVec 1) (a : BitVec 7) (d : BitVec 7)
  /-- R231: Bit reversal. -/
  | brev (w : BitVec 1) (a : BitVec 7) (d : BitVec 7)
  /-- R231: Signed bit-field extract. -/
  | bfxS (b : BitVec 7) (a : BitVec 7) (d : BitVec 7)
  /-- R231: Unsigned bit-field extract. -/
  | bfxN (b : BitVec 7) (a : BitVec 7) (d : BitVec 7)
  /-- R231: Bit-field insert into D. -/
  | bfi (b : BitVec 7) (a : BitVec 7) (d : BitVec 7)
  /-- R231: Byte select from eight source bytes. -/
  | bsel (b : BitVec 7) (a : BitVec 7) (d : BitVec 7)
  /-- R232: Integer compare writing all ones or zero. -/
  | cmp (c : BitVec 4) (b : BitVec 7) (a : BitVec 7) (d : BitVec 7)
  /-- R233: Select a or b by D being nonzero. -/
  | sel (b : BitVec 7) (a : BitVec 7) (d : BitVec 7)
  /-- R234: Register move at the destination width. -/
  | mov (a : BitVec 7) (d : BitVec 7)
  /-- R234: 64-bit move. -/
  | movPair (a : BitVec 7) (d : BitVec 7)
  /-- R234: Sign-extend byte. -/
  | sxb (a : BitVec 7) (d : BitVec 7)
  /-- R234: Sign-extend halfword. -/
  | sxh (a : BitVec 7) (d : BitVec 7)
  /-- R234: Zero-extend byte. -/
  | zxb (a : BitVec 7) (d : BitVec 7)
  /-- R234: Zero-extend halfword. -/
  | zxh (a : BitVec 7) (d : BitVec 7)
  /-- R234: Sign-extend word to 64 bits. -/
  | sxw (a : BitVec 7) (d : BitVec 7)
  /-- R234: Zero-extend word to 64 bits. -/
  | zxw (a : BitVec 7) (d : BitVec 7)
  /-- R235: Address computation a plus b shifted by F. -/
  | lea (s : BitVec 3) (b : BitVec 7) (a : BitVec 7) (d : BitVec 7)
  /-- R236: Add sign-extended immediate. -/
  | addi (i : BitVec 11) (a : BitVec 7) (d : BitVec 7)
  /-- R236: And with sign-extended immediate. -/
  | andi (i : BitVec 11) (a : BitVec 7) (d : BitVec 7)
  /-- R236: Or with sign-extended immediate. -/
  | ori (i : BitVec 11) (a : BitVec 7) (d : BitVec 7)
  /-- R236: Xor with sign-extended immediate. -/
  | xori (i : BitVec 11) (a : BitVec 7) (d : BitVec 7)
  /-- R236: Shift left by immediate count. -/
  | shli (i : BitVec 6) (a : BitVec 7) (d : BitVec 7)
  /-- R236: Logical shift right by immediate count. -/
  | shri (i : BitVec 6) (a : BitVec 7) (d : BitVec 7)
  /-- R236: Arithmetic shift right by immediate count. -/
  | sari (i : BitVec 6) (a : BitVec 7) (d : BitVec 7)
  /-- R232: Integer compare with sign-extended 7-bit immediate. -/
  | cmpi (c : BitVec 4) (i : BitVec 7) (a : BitVec 7) (d : BitVec 7)
  /-- R237: Write sign-extended 18-bit immediate. -/
  | mvl (i : BitVec 18) (d : BitVec 7)
  /-- R237: Replace bits [31:14] of D with the immediate. -/
  | mvh (i : BitVec 18) (d : BitVec 7)
  /-- R236: Multiply by sign-extended immediate. -/
  | muli (i : BitVec 11) (a : BitVec 7) (d : BitVec 7)
  /-- R260: Float add rounded once in the given mode. -/
  | fadd (m : BitVec 2) (t : BitVec 2) (b : BitVec 7) (a : BitVec 7) (d : BitVec 7)
  /-- R260: Float subtract. -/
  | fsub (m : BitVec 2) (t : BitVec 2) (b : BitVec 7) (a : BitVec 7) (d : BitVec 7)
  /-- R260: Float multiply. -/
  | fmul (m : BitVec 2) (t : BitVec 2) (b : BitVec 7) (a : BitVec 7) (d : BitVec 7)
  /-- R260: Fused multiply-add with one rounding. -/
  | ffma (m : BitVec 2) (t : BitVec 2) (b : BitVec 7) (a : BitVec 7) (d : BitVec 7)
  /-- R262: Float minimum, number or NaN-propagating. -/
  | fmin (n : BitVec 1) (t : BitVec 2) (b : BitVec 7) (a : BitVec 7) (d : BitVec 7)
  /-- R262: Float maximum, number or NaN-propagating. -/
  | fmax (n : BitVec 1) (t : BitVec 2) (b : BitVec 7) (a : BitVec 7) (d : BitVec 7)
  /-- R263: Float compare writing all ones or zero. -/
  | fcmp (w : BitVec 1) (c : BitVec 3) (b : BitVec 7) (a : BitVec 7) (d : BitVec 7)
  /-- R264: Clear sign bits. -/
  | fabs (t : BitVec 2) (a : BitVec 7) (d : BitVec 7)
  /-- R264: Invert sign bits. -/
  | fneg (t : BitVec 2) (a : BitVec 7) (d : BitVec 7)
  /-- R264: Copy sign bits from b. -/
  | fcpys (t : BitVec 2) (b : BitVec 7) (a : BitVec 7) (d : BitVec 7)
  /-- R265: Correctly rounded float divide. -/
  | fdiv (m : BitVec 2) (t : BitVec 1) (b : BitVec 7) (a : BitVec 7) (d : BitVec 7)
  /-- R265: Correctly rounded float square root. -/
  | fsqrt (m : BitVec 2) (t : BitVec 1) (a : BitVec 7) (d : BitVec 7)
  /-- R266: Special-function reciprocal. -/
  | rcp (a : BitVec 7) (d : BitVec 7)
  /-- R266: Special-function reciprocal square root. -/
  | rsqrt (a : BitVec 7) (d : BitVec 7)
  /-- R266: Special-function base-2 exponential. -/
  | exp2 (a : BitVec 7) (d : BitVec 7)
  /-- R266: Special-function base-2 logarithm. -/
  | log2 (a : BitVec 7) (d : BitVec 7)
  /-- R266: Special-function sine. -/
  | sin (a : BitVec 7) (d : BitVec 7)
  /-- R266: Special-function cosine. -/
  | cos (a : BitVec 7) (d : BitVec 7)
  /-- R266: Special-function hyperbolic tangent. -/
  | tanh (a : BitVec 7) (d : BitVec 7)
  /-- R267: Paired 16-bit dot product added to D with one rounding. -/
  | fdot2 (m : BitVec 2) (f : BitVec 1) (b : BitVec 7) (a : BitVec 7) (d : BitVec 7)
  /-- R268: Scale by a power of two. -/
  | fscale (m : BitVec 2) (t : BitVec 2) (b : BitVec 7) (a : BitVec 7) (d : BitVec 7)
  /-- R269: Write the class mask of each element. -/
  | fclass (t : BitVec 2) (a : BitVec 7) (d : BitVec 7)
  /-- R270: Narrow two f32 values into an f16 pair. -/
  | cvtF16 (m : BitVec 2) (b : BitVec 7) (a : BitVec 7) (d : BitVec 7)
  /-- R270: Narrow two f32 values into a bf16 pair. -/
  | cvtBf16 (m : BitVec 2) (b : BitVec 7) (a : BitVec 7) (d : BitVec 7)
  /-- R270: Narrow f64 to f32. -/
  | cvtF32 (m : BitVec 2) (a : BitVec 7) (d : BitVec 7)
  /-- R271: Widen an f16 element to f32. -/
  | cvtwF16 (e : BitVec 1) (a : BitVec 7) (d : BitVec 7)
  /-- R271: Widen a bf16 element to f32. -/
  | cvtwBf16 (e : BitVec 1) (a : BitVec 7) (d : BitVec 7)
  /-- R271: Widen f32 to f64. -/
  | cvtwF64 (a : BitVec 7) (d : BitVec 7)
  /-- R272: Convert f32 to integer with saturation. -/
  | cvti (m : BitVec 2) (t : BitVec 2) (a : BitVec 7) (d : BitVec 7)
  /-- R272: Convert f64 to integer with saturation. -/
  | cvtid (m : BitVec 2) (t : BitVec 2) (a : BitVec 7) (d : BitVec 7)
  /-- R273: Convert integer to f32. -/
  | cvtf (m : BitVec 2) (t : BitVec 2) (a : BitVec 7) (d : BitVec 7)
  /-- R273: Convert integer to f64. -/
  | cvtfd (m : BitVec 2) (t : BitVec 2) (a : BitVec 7) (d : BitVec 7)
  /-- R276: Compute the block scale byte of each 32-lane group. -/
  | qscl (a : BitVec 7) (d : BitVec 7)
  /-- R277: Encode a value to a code of the active book. -/
  | qenc (a : BitVec 7) (d : BitVec 7)
  /-- R278: Decode a code and scale byte to f32. -/
  | qdec (b : BitVec 7) (a : BitVec 7) (d : BitVec 7)
  /-- R275: Make LIN8 the crew's active code book. -/
  | qcbLin8
  /-- R275: Load a C4, C6 or C8 code book from the basin as the crew's active book. -/
  | qcb (f : BitVec 2) (a : BitVec 7)
  /-- R239: Philox4x32-10 output word from key and counter. -/
  | rng (w : BitVec 2) (b : BitVec 7) (a : BitVec 7) (d : BitVec 7)
  /-- R238: Four-way byte dot product added to D. -/
  | dot4 (f : BitVec 2) (b : BitVec 7) (a : BitVec 7) (d : BitVec 7)
  /-- R284: Load from global memory or the basin with register offset. -/
  | ld (p : BitVec 1) (f : BitVec 3) (b : BitVec 7) (a : BitVec 7) (d : BitVec 7)
  /-- R284: Load with scaled immediate offset. -/
  | ldi (p : BitVec 1) (f : BitVec 3) (i : BitVec 7) (a : BitVec 7) (d : BitVec 7)
  /-- R285: Store to global memory or the basin with register offset. -/
  | st (p : BitVec 1) (f : BitVec 3) (b : BitVec 7) (a : BitVec 7) (d : BitVec 7)
  /-- R285: Store with scaled immediate offset. -/
  | sti (p : BitVec 1) (f : BitVec 3) (i : BitVec 7) (a : BitVec 7) (d : BitVec 7)
  /-- R286: Acquire load from global memory at an agent scope. -/
  | lda (z : BitVec 1) (s : BitVec 3) (b : BitVec 7) (a : BitVec 7) (d : BitVec 7)
  /-- R286: Release store to global memory at an agent scope. -/
  | stl (z : BitVec 1) (s : BitVec 3) (b : BitVec 7) (a : BitVec 7) (d : BitVec 7)
  /-- R288: Relaxed global atomic read-modify-write. -/
  | atom (f : BitVec 4) (b : BitVec 7) (a : BitVec 7) (d : BitVec 7)
  /-- R288: Basin atomic read-modify-write. -/
  | atomb (f : BitVec 4) (b : BitVec 7) (a : BitVec 7) (d : BitVec 7)
  /-- R290: Close the open batch and wait until at most n batches are outstanding. -/
  | lwait (n : BitVec 3)
  /-- R291: Close the open load batch without waiting. -/
  | lclose
  /-- R157: Order the thread's accesses at a scope and storage. -/
  | fence (g : BitVec 3) (o : BitVec 2) (s : BitVec 2)
  /-- R292: Prefetch a global line into L1, optionally with a long lease. -/
  | pf (l : BitVec 1) (b : BitVec 7) (a : BitVec 7)
  /-- R293: Wait for a full basin granule, read it, optionally clear its bit. -/
  | ldf (z : BitVec 2) (c : BitVec 1) (b : BitVec 7) (a : BitVec 7) (d : BitVec 7)
  /-- R294: Release-store to a basin granule and set its full bit. -/
  | stf (z : BitVec 2) (b : BitVec 7) (a : BitVec 7) (d : BitVec 7)
  /-- R295: Read full/empty bits of a range of granules. -/
  | feQuery (b : BitVec 7) (a : BitVec 7) (d : BitVec 7)
  /-- R295: Set full/empty bits of a range of granules. -/
  | feSet (b : BitVec 7) (a : BitVec 7)
  /-- R295: Clear full/empty bits of a range of granules. -/
  | feClr (b : BitVec 7) (a : BitVec 7)
  /-- R297: Write a BCAST cistern, blocking while it is full or reserved. -/
  | cwr (f : BitVec 4) (a : BitVec 7) (d : BitVec 7)
  /-- R297: Try to write a BCAST cistern without waiting, returning status. -/
  | cwrt (f : BitVec 4) (b : BitVec 7) (a : BitVec 7) (d : BitVec 7)
  /-- R298: Deposit a crew partial into a GATHER cistern. -/
  | cgath (a : BitVec 7) (d : BitVec 7)
  /-- R299: Configure a cistern from a 64-bit word. -/
  | ccfg (a : BitVec 7) (d : BitVec 7)
  /-- R300: Read a cistern's value and F without waiting. -/
  | cpeek (b : BitVec 7) (a : BitVec 7) (d : BitVec 7)
  /-- R300: Drain a cistern to empty. -/
  | cdrn (d : BitVec 7)
  /-- R249: Set the crew's cistern view base CVB. -/
  | cview (i : BitVec 11) (a : BitVec 7)
  /-- R301: Subscribe a basin slot to a global granule and return a status. -/
  | stand (b : BitVec 7) (a : BitVec 7) (d : BitVec 7)
  /-- R302: Close a subscription without waiting. -/
  | unstand (a : BitVec 7)
  /-- R302: Close a subscription and block until it is closed or failed. -/
  | unstandWait (a : BitVec 7)
  /-- R304: Release the thread's stores and seal a BUILDING tile. -/
  | rseal (a : BitVec 7)
  /-- R305: Drop a tile's lines, or reset a poisoned or retired tile to ABSENT. -/
  | rdropShed (a : BitVec 7)
  /-- R305: Drop a tile's lines and make it RETIRED. -/
  | rdropRetire (a : BitVec 7)
  /-- R306: Increment a tile's pin count under the pin cap. -/
  | rpin (a : BitVec 7)
  /-- R306: Decrement a tile's pin count. -/
  | rpinUnpin (a : BitVec 7)
  /-- R307: Read the siphon's copy of a tile's record word +0. -/
  | rsta (a : BitVec 7) (d : BitVec 7)
  /-- R240: Branch when C is nonzero. -/
  | br (o : BitVec 18) (c : BitVec 7)
  /-- R240: Branch when C is zero. -/
  | brz (o : BitVec 18) (c : BitVec 7)
  /-- R240: Unconditional relative jump. -/
  | jmp (o : BitVec 25)
  /-- R241: Write the link to C and branch. -/
  | call (o : BitVec 18) (c : BitVec 7)
  /-- R241: Jump to a register target. -/
  | jr (a : BitVec 7)
  /-- R241: Return to a register target. -/
  | ret (a : BitVec 7)
  /-- R242: Set the thread's meeting register to a target. -/
  | meet (o : BitVec 18)
  /-- R243: Set MR from a register. -/
  | meetrSet (a : BitVec 7)
  /-- R243: Set MR to none. -/
  | meetrClr
  /-- R243: Read MR into a register. -/
  | meetrRd (d : BitVec 7)
  /-- R244: Evaluate a predicate across the bundle. -/
  | poll (f : BitVec 3) (a : BitVec 7) (d : BitVec 7)
  /-- R245: Exchange values between lanes within a segment. -/
  | lanex (s : BitVec 2) (p : BitVec 2) (b : BitVec 7) (a : BitVec 7) (d : BitVec 7)
  /-- R246: Reduce over the bundle by the fixed pairwise tree. -/
  | crdu (f : BitVec 4) (a : BitVec 7) (d : BitVec 7)
  /-- R247: Inclusive or exclusive scan over the bundle. -/
  | scan (e : BitVec 1) (f : BitVec 3) (a : BitVec 7) (d : BitVec 7)
  /-- R250: Arrive at a cell barrier and block until it completes. -/
  | bar (i : BitVec 4)
  /-- R249: Set the crew's register window base WB. -/
  | wbase (i : BitVec 11) (a : BitVec 7)
  /-- R252: No operation. -/
  | nop
  /-- R252: Move the issuing threads to exited. -/
  | exit
  /-- R253: Block while a pre-emption request is pending, else act as nop. -/
  | yield
  /-- R254: Trap with BREAKPOINT. -/
  | brk
  /-- R254: Trap with USER_TRAP carrying a value. -/
  | trap (a : BitVec 7)
  /-- R248: Broadcast the lowest-tid thread's value. -/
  | rfirst (a : BitVec 7) (d : BitVec 7)
  /-- R248: Broadcast a named lane's value. -/
  | rdlane (b : BitVec 7) (a : BitVec 7) (d : BitVec 7)
  /-- R255: Read a special value by selector, FLAGSCLR also clearing flags. -/
  | rdsp (p : BitVec 1) (s : BitVec 6) (a : BitVec 7) (d : BitVec 7)
  /-- R311: Start a copy-engine operation from a parameter block. -/
  | cpy (c : BitVec 2) (k : BitVec 2) (a : BitVec 7)
  /-- R312: Initialise a ring object. -/
  | rginit (b : BitVec 7) (a : BitVec 7)
  /-- R313: Take the next published ring slot, blocking while none. -/
  | rgwait (a : BitVec 7) (d : BitVec 7)
  /-- R313: Release the oldest consumed ring slot. -/
  | rgrel (a : BitVec 7)
  /-- R313: Claim a ring slot for a crew producer, blocking while full. -/
  | rgadvClaim (a : BitVec 7) (d : BitVec 7)
  /-- R313: Publish the oldest claimed ring slot. -/
  | rgadvPub (a : BitVec 7)
  /-- R315: Enqueue a stationary tile load in the matrix queue. -/
  | mxld (a : BitVec 7)
  /-- R315: Enqueue a matrix job. -/
  | mxrun (a : BitVec 7)
  /-- R316: Read and clear-on-read the matrix queue state. -/
  | mxq (d : BitVec 7)
  /-- R317: Release and place a record in an unkeyed node's bin. -/
  | emitPlain (b : BitVec 7) (a : BitVec 7)
  /-- R317: Release and place a record in a keyed node's bin. -/
  | emitKeyed (b : BitVec 7) (a : BitVec 7)
  /-- R317: Send a record address to another device's node and wait for the pull. -/
  | emitRemote (b : BitVec 7) (a : BitVec 7)
  /-- R318: Fire every non-empty bin of a node. -/
  | tbinFlush (a : BitVec 7)
  /-- R318: Return the records waiting in a node's bins and spill. -/
  | tbinQuery (a : BitVec 7) (d : BitVec 7)
  /-- R320: Read a system register instance. -/
  | rdsys (i : BitVec 11) (a : BitVec 7) (d : BitVec 7)
  /-- R320: Write a system register instance, fenced before and after. -/
  | wrsys (i : BitVec 11) (a : BitVec 7) (d : BitVec 7)
  /-- R323: Resume parked threads by reissuing the trapping instruction. -/
  | sysopRestart (b : BitVec 7) (a : BitVec 7)
  /-- R323: Resume parked threads at the next instruction. -/
  | sysopSkip (b : BitVec 7) (a : BitVec 7)
  /-- R323: Kill held, blocked or parked threads. -/
  | sysopKill (b : BitVec 7) (a : BitVec 7)
  /-- R325: Remove the context's TLB entries for a span. -/
  | sysopTlbinv (b : BitVec 7) (a : BitVec 7)
  /-- R325: Write back every dirty word of a span to backing memory. -/
  | sysopWbrange (b : BitVec 7) (a : BitVec 7)
  /-- R325: Write back and remove L2 copies of host- and remote-homed lines of a span. -/
  | sysopInvrange (b : BitVec 7) (a : BitVec 7)
  /-- R324: End every thread of a named cell. -/
  | sysopKillcell (a : BitVec 7)
  /-- R319: Request a draw grant and block until it arrives. -/
  | drawReq (d : BitVec 7)
  /-- R319: Return the crew's draw grant. -/
  | drawRel
  /-- R356: Queue command that checks a kernel and enters its cells in the pending list. -/
  | launch (q : Nat)
  /-- R356: Queue command in which the F-die copies bytes under the context's translation. -/
  | copy (q : Nat) (cmd : Option (BitVec 32))
  /-- R356: Queue command that completes once a counter at its home reaches a value. -/
  | wait (q : Nat) (cmd : Option (BitVec 32))
  /-- R356: Queue command that completes at start. -/
  | signal (q : Nat)
  /-- R357: On completion the command processor applies an atomic maximum of CVAL to the counter as a system release. -/
  | commandComplete (q : Nat) (cmd : BitVec 32)
  /-- R354: Host writes the command count, making new commands available. -/
  | qtailWrite (q : Nat) (val : BitVec 64)
  /-- R354: Host sets the command ring base and size, resetting TAIL and HEAD. -/
  | qbaseWrite (q : Nat) (val : BitVec 64)
  /-- R339: Host command creating a context with tag, page-table root, queues, save pool and settings. -/
  | contextCreate (p : CtxParams)
  /-- R407: Before reset an H-die writes back and releases lines and recalls device lines. -/
  | hdieReset (die : Nat)
  /-- R408: Host read of device memory over CXL.mem. -/
  | hostCxlRead (dev : Nat) (addr : BitVec 48) (len : Nat)
  /-- R408: Host write to device memory, performed at the home after leases. -/
  | hostCxlWrite (dev : Nat) (addr : BitVec 48) (bytes : List Byte)
  /-- R409: Host flips a 64 KiB block from device bias to host bias. -/
  | biasFlipToHost (dev block : Nat)
  /-- R409: Host flips a block back to device bias after releasing its lines. -/
  | biasFlipToDevice (dev block : Nat)
  /-- R347: Write of the trap queue base and size, resetting HEAD and TAIL. -/
  | trapqWrite (ctx : BitVec 32) (val : BitVec 64)
  /-- R347: Write of the trap queue read index, freeing room. -/
  | trapqheadWrite (ctx : BitVec 32) (val : BitVec 64)
  /-- R348: Writing V = 1 creates or replaces a recipe region from its descriptor. -/
  | rregionCreate (ctx : BitVec 32) (r : Nat) (val : BitVec 64)
  /-- R348: Writing V = 0 destroys a recipe region and drops its lines. -/
  | rregionDestroy (ctx : BitVec 32) (r : Nat) (val : BitVec 64)
  /-- R348: Writing V = 1 registers or replaces a node from its descriptor. -/
  | noderegRegister (ctx : BitVec 32) (n : Nat) (val : BitVec 64)
  /-- R348: Writing V = 0 destroys a node. -/
  | noderegDestroy (ctx : BitVec 32) (n : Nat) (val : BitVec 64)
  /-- R347: Write of CTXCTL, SLICE or WATCHDOG with clamping of fields. -/
  | sysregWrite (ctx : BitVec 32) (num : BitVec 11) (val : BitVec 64)
  /-- R361: On a cell end, eviction or new item, the launch unit places every fitting cell in rank order. -/
  | cellPlace (dev : Nat)
  /-- R361: An item that has waited SLICE.LEN stops backfilling below it. -/
  | backfillStop (item : Nat)
  /-- R362: A gang item waiting 10,000 tb evicts same-context cells to make room. -/
  | gangGatherRoom (item : Nat)
  /-- R143: A recipe item with no room evicts cells of its own context. -/
  | recipeGatherRoom (item : Nat)
  /-- R366: A higher-priority waiting item raises a request on another context's cluster. -/
  | preemptRequestRaise (item : Nat)
  /-- R365: A cluster's slice ends; a new one starts or a waiting item raises a request. -/
  | sliceEnd (cl : Nat)
  /-- R368: WATCHDOG.LIMIT after a request, cells still resident trap with SLICE_OVERRUN. -/
  | watchdogExpiry (cl : Nat)
  /-- R384: At the eviction point the cell's engines finish, state is saved and resources freed. -/
  | eviction (cell : Nat)
  /-- R392: A restore item writes state back, requeues engines, relocates subscriptions and resumes threads. -/
  | restore (item : Nat)
  /-- R17: When all end conditions hold the cell's resources are freed and its launch may complete. -/
  | cellEnd (cell : Nat)
  /-- R23: Every 4 clk the bundler regroups eligible threads by PC. -/
  | bundleRegroup (cl core : Nat)
  /-- R21: In the clk after the last arrival, threads held at an MR address are released. -/
  | meetRelease (cell unit : Nat) (m : BitVec 64)
  /-- R251: In the clk after the last arrival, barrier participants become eligible. -/
  | barrierRelease (cell id : Nat)
  /-- R61: A cistern wait that no live thread can end traps with CISTERN_ORPHAN. -/
  | cisternOrphanTrap (cell unit tid : Nat)
  /-- R180: Threads blocked on a ring trap with RING_STATE the clk after FLT is set. -/
  | ringFltTrap (cell : Nat) (ring : BitVec 32)
  /-- R51: A reserved cistern write lands when its release completes, setting value, F and remaining. -/
  | cisternWriteLand (cell n : Nat)
  /-- R55: With G deposits the partials combine in crew order and F is set. -/
  | gatherCombine (cell n : Nat)
  /-- R106: A thread's dirty words drain toward their homes in program order. -/
  | storeDrain (num : Nat)
  /-- R106: A word dirty for 2,048 tb is drained. -/
  | dirtyWordTimeout (num : Nat)
  /-- R105: A drained write is performed at the home once foreign leases have passed. -/
  | writePerformed (num : Nat)
  /-- R153: A release completes once its covered writes are visible at its scope. -/
  | releaseComplete (num : Nat)
  /-- R103: A fetched sector merges into the L1 line and writes load destinations. -/
  | l1FillReturn (num : Nat)
  /-- R403: When a line's latest lease expires with no waiting write, its lease state rises. -/
  | leaseExpiry (line : Nat)
  /-- R107: The home recalls an L1's ownership of a word before serving a foreign access. -/
  | ownershipRecall (cl l1 word : Nat)
  /-- R92: An L2 line is evicted, written back if dirty, or dropped for recipe tiles. -/
  | l2Eviction (line : Nat)
  /-- R121: The home registers a subscriber, fixing its base count and sending seq 0. -/
  | standpipeRegister (msg : Nat)
  /-- R123: A push lands in a LATEST slot, counting overruns. -/
  | latestPushLand (msg : Nat)
  /-- R124: A push lands in a RING slot or is dropped when its target is full. -/
  | ringPushLand (msg : Nat)
  /-- R127: The home takes a close, removes the subscriber and sends the close push. -/
  | standpipeCloseAtHome (msg : Nat)
  /-- R127: The close push writes the final header and frees the record. -/
  | closePushLand (msg : Nat)
  /-- R130: The home takes a freeze, stops pushing and sends a freeze push. -/
  | standpipeFreezeAtHome (msg : Nat)
  /-- R130: The freeze push writes STATE 2 to the header. -/
  | freezePushLand (msg : Nat)
  /-- R131: After restore the home learns the slot's new location and sends catch-up. -/
  | standpipeRelocate (msg : Nat)
  /-- R131: The catch-up push lands and the slot is open again. -/
  | catchUpPushLand (msg : Nat)
  /-- R129: A subscription fails on poison, unmap or unreachable home, writing STATE 5. -/
  | subscriptionFail (cell : Nat) (slot : BitVec 32) (poison : Bool)
  /-- R138: Once the sealing release completes the tile becomes RESIDENT and waiters are served. -/
  | rsealComplete (cell unit tid : Nat)
  /-- R180: An engine operation claims a ring slot, waiting while the ring is full. -/
  | copyRingClaim (copy : Nat)
  /-- R174: The copy engine performs one piece of a copy. -/
  | copyPiece (copy : Nat)
  /-- R175: A copy that ends without fault performs its completion action. -/
  | copyComplete (copy : Nat)
  /-- R186: The array starts a tile load into the shadow plane. -/
  | mxldStart (ent : Nat)
  /-- R187: A tile load ends, or faults and discards its queue. -/
  | mxldComplete (ent : Nat)
  /-- R186: A job starts, swaps planes, claims its ring slot, or faults on format. -/
  | jobStart (ent : Nat)
  /-- R187: A job writes its last output row and publishes its slot. -/
  | jobEnd (ent : Nat)
  /-- R195: The sluice grants a queued heavy-operation request. -/
  | drawGrant (die : Nat)
  /-- R423: Every 10 µs the power master measures power and sets sluice budgets. -/
  | powerBudgetPeriod (watts : Nat)
  /-- R192: A bin fires when T has passed since its first record. -/
  | binTimerExpiry (dev node : Nat) (key : BitVec 64)
  /-- R191: A target launch unit pulls a remote emit's record and completes the emit. -/
  | remoteEmitPull (num : Nat)
  /-- R376: A trap record is written to the trap queue and TAIL increments. -/
  | trapRecordWrite (dev : Nat)
  /-- R394: A crew TIMER reaching a multiple of LW traps with WATCH. -/
  | watchLimit (cell unit : Nat)
  /-- R398: A TLB miss walk completes and resolves or faults the access. -/
  | pageWalk (cl : Nat) (ctx : BitVec 32) (va : BitVec 64)
  /-- R406: A holder receives an invalidation, waits out its leases and answers. -/
  | invalidatingSnoop (line : Nat)
  /-- R413: A plane-fence flit is acknowledged once earlier bulk flits are delivered. -/
  | planeFenceAck (cl port : Nat)
  /-- R419: An unacknowledged Ethernet flit is retransmitted after 100 µs. -/
  | ethernetRetransmitTimeout (port : Nat)
  /-- R420: The security processor verifies firmware, challenges dies, builds the map and opens the host port. -/
  | powerOnReset (fwOk : Bool) (bad : List Nat)
  /-- R402: Unloads a key slot after writing back and dropping its lines. -/
  | keySlotUnload (major : BitVec 8) (slot : BitVec 8)
  /-- R419: Firmware commands setting Ethernet addressing, routes and congestion. -/
  | ethernetConfig (major : BitVec 8) (reg : Nat) (val : BitVec 64)
  /-- R422: Firmware command returning a signed report for a nonce. -/
  | attestationReport (major : BitVec 8) (nonce : BitVec 256)
  /-- R424: Firmware command lowering the package power cap. -/
  | powerCapSet (major : BitVec 8) (watts : Nat)
  /-- R402: Security processor loads a wrapped key into a key slot. -/
  | keySlotLoad (major : BitVec 8) (slot : BitVec 8) (wrapped : BitVec 512)
  /-- R414: A flit failing CRC is retried on its link. -/
  | flitCrcFail (port : Nat) (load : FlitLoad)
  /-- R416: A port trains, negotiating lanes and link version. -/
  | portTrain (port : Nat) (lanes : BitVec 4) (vers : List (BitVec 8)) (peer : BitVec 16)
  /-- R418: System software names one device of a host group as its bridge, and only that device's host port is trained. -/
  | hostGroupBridge (bridge : HostGroup)
  /-- R418: A failed host-group bridge makes the host unreachable for its members. -/
  | bridgeFail
  /-- R346: At fabric bring-up each device is assigned the FABID used in node handles and fabric addresses. -/
  | fabricBringUp (ids : List (BitVec 16))
  /-- R420: A die that does not answer within 100 ms is excluded. -/
  | dieChallengeTimeout (die : Nat)
  /-- R424: When a die's junction temperature falls below 100 °C, the master may grant new heavy operations on that die again. -/
  | temperatureFall (die : Nat)
  /-- R424: A die above 105 °C stops new grants until below 100 °C. -/
  | thermalLimit (die : Nat)
  /-- R424: At 120 °C a hardware trip removes package power. -/
  | thermalTrip
  /-- R407: A slice writes back foreign M lines and gates its data array. -/
  | powerGateEntry (slice : Nat)
  /-- R407: An L2 slice leaves power gating of its data array and serves data again. -/
  | powerGateExit (slice : Nat)
  /-- R406: The home receives an invalidation answer and may perform the waiting write. -/
  | snoopAnswer (line who : Nat) (data : Option (BitVec 1024))
  /-- R93: An uncorrectable HBM or L2 error poisons the line at its home. -/
  | softError (line : Nat)
  /-- R409: The host releases a line it held under the directory, which can let a flip to device bias finish. -/
  | hostLineRelease (line : Nat)
  /-- R381: Host retry answer: stalled accesses translate again and the core resumes. -/
  | hostFaultRetry (ctx : BitVec 32) (page : BitVec 64) (cl : Nat)
  /-- R381: Host fail answer: waiting threads trap with TRANSLATION or PROTECTION. -/
  | hostFaultFail (ctx : BitVec 32) (page : BitVec 64) (cl : Nat) (prot : Bool)
  /-- R358: Writing 1 to QCTL.ERR clears it and resumes the queue. -/
  | qctlErrClear (q : Nat)
  /-- R354: Setting or clearing HALT stops or allows the start of further commands. -/
  | qctlHalt (q : Nat) (on : Bool)
  /-- R394: Host changes the context's crew watch limit LW. -/
  | crewWatchLimitSet (ctx : BitVec 32) (lw : Nat)
  /-- R395: Host replaces the context's page-table root, acting as a full TLB invalidate. -/
  | pageTableRootReplace (ctx : BitVec 32) (root : BitVec 48)
  /-- R399: Host invalidate command acting as sysop.tlbinv. -/
  | hostTlbInvalidate (ctx : BitVec 32) (va len : BitVec 64)
  /-- R371: Destroying a context kills its cells, removes its items and aborts incomplete commands. -/
  | contextDestroy (ctx : BitVec 32)
  /-- R341: Firmware command that changes the partition mode when no context exists. -/
  | partitionModeSet (major : BitVec 8) (mode : BitVec 2)
  /-- R410: Host command writing zeros to a poisoned line at its home. -/
  | poisonClear (line : Nat)
deriving DecidableEq, Repr

end Sys2Proof
end

