-- ==== Sys2Proof/WellFormed.lean ====
section
/-! DEFINITION. Well-formed instructions: the field values that the instruction tables and descriptions leave legal in
every context (R207). What depends on the issuer (context, register classes, role, privilege) is tested by the machine. -/

namespace Sys2Proof

/-- Store sizes of `st` and `sti` (R285): 0 b8, 2 b16, 4 b32, 5 b64, 6 b128. -/
def storeSize (f : BitVec 3) : Bool := f = 0 ∨ f = 2 ∨ f = 4 ∨ f = 5 ∨ f = 6

/-- Register numbers that `rdsys` reads (R321). -/
def rdsysNum (i : BitVec 11) : Bool := i.toNat ≤ 8 ∨ (256 ≤ i.toNat ∧ i.toNat ≤ 264)

/-- Register numbers that `wrsys` writes (R321). -/
def wrsysNum (i : BitVec 11) : Bool := 256 ≤ i.toNat ∧ i.toNat ≤ 263 ∧ i.toNat ≠ 259

/-- The field values are legal in every context. -/
def wellFormed : Instr → Bool
  | .add _ _ _ _ => true
  | .sub _ _ _ _ => true
  | .mul f _ _ _ => decide (f.toNat ≤ 5)
  | .mad _ _ _ _ => true
  | .div _ _ _ _ => true
  | .rem _ _ _ _ => true
  | .min _ _ _ _ _ => true
  | .max _ _ _ _ _ => true
  | .and _ _ _ => true
  | .or _ _ _ => true
  | .xor _ _ _ => true
  | .andn _ _ _ => true
  | .orn _ _ _ => true
  | .xnor _ _ _ => true
  | .not _ _ => true
  | .shl _ _ _ _ => true
  | .shr _ _ _ _ => true
  | .sar _ _ _ _ => true
  | .rol _ _ _ _ => true
  | .popc _ _ _ => true
  | .clz _ _ _ => true
  | .ctz _ _ _ => true
  | .brev _ _ _ => true
  | .bfxS _ _ _ => true
  | .bfxN _ _ _ => true
  | .bfi _ _ _ => true
  | .bsel _ _ _ => true
  | .cmp c _ _ _ => decide (c.toNat ≤ 9)
  | .sel _ _ _ => true
  | .mov _ _ => true
  | .movPair _ _ => true
  | .sxb _ _ => true
  | .sxh _ _ => true
  | .zxb _ _ => true
  | .zxh _ _ => true
  | .sxw _ _ => true
  | .zxw _ _ => true
  | .lea _ _ _ _ => true
  | .addi _ _ _ => true
  | .andi _ _ _ => true
  | .ori _ _ _ => true
  | .xori _ _ _ => true
  | .shli _ _ _ => true
  | .shri _ _ _ => true
  | .sari _ _ _ => true
  | .cmpi c _ _ _ => decide (c.toNat ≤ 9)
  | .mvl _ _ => true
  | .mvh _ _ => true
  | .muli _ _ _ => true
  | .fadd _ _ _ _ _ => true
  | .fsub _ _ _ _ _ => true
  | .fmul _ _ _ _ _ => true
  | .ffma _ _ _ _ _ => true
  | .fmin _ _ _ _ _ => true
  | .fmax _ _ _ _ _ => true
  | .fcmp _ _ _ _ _ => true
  | .fabs _ _ _ => true
  | .fneg _ _ _ => true
  | .fcpys _ _ _ _ => true
  | .fdiv _ _ _ _ _ => true
  | .fsqrt _ _ _ _ => true
  | .rcp _ _ => true
  | .rsqrt _ _ => true
  | .exp2 _ _ => true
  | .log2 _ _ => true
  | .sin _ _ => true
  | .cos _ _ => true
  | .tanh _ _ => true
  | .fdot2 _ _ _ _ _ => true
  | .fscale _ _ _ _ _ => true
  | .fclass _ _ _ => true
  | .cvtF16 _ _ _ _ => true
  | .cvtBf16 _ _ _ _ => true
  | .cvtF32 _ _ _ => true
  | .cvtwF16 _ _ _ => true
  | .cvtwBf16 _ _ _ => true
  | .cvtwF64 _ _ => true
  | .cvti _ _ _ _ => true
  | .cvtid _ _ _ _ => true
  | .cvtf _ _ _ _ => true
  | .cvtfd _ _ _ _ => true
  | .qscl _ _ => true
  | .qenc _ _ => true
  | .qdec _ _ _ => true
  | .qcbLin8 => true
  | .qcb f _ => decide (f ≠ 0)
  | .rng _ _ _ _ => true
  | .dot4 _ _ _ _ => true
  | .ld _ f _ _ _ => decide (f ≠ 7)
  | .ldi _ f _ _ _ => decide (f ≠ 7)
  | .st _ f _ _ _ => storeSize f
  | .sti _ f _ _ _ => storeSize f
  | .lda _ s _ _ _ => decide (s.toNat ≤ 4)
  | .stl _ s _ _ _ => decide (s.toNat ≤ 4)
  | .atom _ _ _ _ => true
  | .atomb _ _ _ _ => true
  | .lwait _ => true
  | .lclose => true
  | .fence g _ s => decide (g.toNat ≤ 4 ∧ s ≠ 0)
  | .pf _ _ _ => true
  | .ldf z _ _ _ _ => decide (z ≠ 3)
  | .stf z _ _ _ => decide (z ≠ 3)
  | .feQuery _ _ _ => true
  | .feSet _ _ => true
  | .feClr _ _ => true
  | .cwr _ _ _ => true
  | .cwrt _ _ _ _ => true
  | .cgath _ _ => true
  | .ccfg _ _ => true
  | .cpeek _ _ _ => true
  | .cdrn _ => true
  | .cview _ _ => true
  | .stand _ _ _ => true
  | .unstand _ => true
  | .unstandWait _ => true
  | .rseal _ => true
  | .rdropShed _ => true
  | .rdropRetire _ => true
  | .rpin _ => true
  | .rpinUnpin _ => true
  | .rsta _ _ => true
  | .br _ _ => true
  | .brz _ _ => true
  | .jmp _ => true
  | .call _ _ => true
  | .jr _ => true
  | .ret _ => true
  | .meet _ => true
  | .meetrSet _ => true
  | .meetrClr => true
  | .meetrRd _ => true
  | .poll f _ _ => decide (f.toNat ≤ 5)
  | .lanex _ p b _ _ => decide (p = 2 → b = 0)
  | .crdu f _ _ => decide (f.toNat ≤ 13)
  | .scan _ _ _ _ => true
  | .bar _ => true
  | .wbase _ _ => true
  | .nop => true
  | .exit => true
  | .yield => true
  | .brk => true
  | .trap _ => true
  | .rfirst _ _ => true
  | .rdlane _ _ _ => true
  | .rdsp _ s a _ => decide (s.toNat ≤ 21 ∧ (s = 19 ∨ a = 0))
  | .cpy _ k _ => decide (k ≠ 3)
  | .rginit _ _ => true
  | .rgwait _ _ => true
  | .rgrel _ => true
  | .rgadvClaim _ _ => true
  | .rgadvPub _ => true
  | .mxld _ => true
  | .mxrun _ => true
  | .mxq _ => true
  | .emitPlain _ _ => true
  | .emitKeyed _ _ => true
  | .emitRemote _ _ => true
  | .tbinFlush _ => true
  | .tbinQuery _ _ => true
  | .rdsys i _ _ => rdsysNum i
  | .wrsys i _ _ => wrsysNum i
  | .sysopRestart _ _ => true
  | .sysopSkip _ _ => true
  | .sysopKill _ _ => true
  | .sysopTlbinv _ _ => true
  | .sysopWbrange _ _ => true
  | .sysopInvrange _ _ => true
  | .sysopKillcell _ => true
  | .drawReq _ => true
  | .drawRel => true
  | .launch q => decide (q < 64)
  | .copy q _ => decide (q < 64)
  | .wait q _ => decide (q < 64)
  | .signal q => decide (q < 64)
  | .commandComplete q _ => decide (q < 64)
  | .qtailWrite q _ => decide (q < 64)
  | .qbaseWrite q _ => decide (q < 64)
  | .qctlErrClear q => decide (q < 64)
  | .qctlHalt q _ => decide (q < 64)
  | .contextCreate _ => true
  | .contextDestroy _ => true
  | .pageTableRootReplace _ _ => true
  | .crewWatchLimitSet _ _ => true
  | .hostTlbInvalidate _ _ _ => true
  | .poisonClear _ => true
  | .partitionModeSet _ _ => true
  | .keySlotLoad _ _ _ => true
  | .keySlotUnload _ _ => true
  | .attestationReport _ _ => true
  | .powerCapSet _ _ => true
  | .ethernetConfig _ _ _ => true
  | .hostCxlRead _ _ _ => true
  | .hostCxlWrite _ _ _ => true
  | .biasFlipToHost _ _ => true
  | .biasFlipToDevice _ _ => true
  | .trapqWrite _ _ => true
  | .trapqheadWrite _ _ => true
  | .rregionCreate _ _ _ => true
  | .rregionDestroy _ _ _ => true
  | .noderegRegister _ _ _ => true
  | .noderegDestroy _ _ _ => true
  | .sysregWrite _ _ _ => true
  | .cellPlace _ => true
  | .backfillStop _ => true
  | .gangGatherRoom _ => true
  | .recipeGatherRoom _ => true
  | .preemptRequestRaise _ => true
  | .sliceEnd _ => true
  | .watchdogExpiry _ => true
  | .eviction _ => true
  | .restore _ => true
  | .cellEnd _ => true
  | .bundleRegroup _ _ => true
  | .meetRelease _ _ _ => true
  | .barrierRelease _ _ => true
  | .cisternOrphanTrap _ _ _ => true
  | .ringFltTrap _ _ => true
  | .cisternWriteLand _ _ => true
  | .gatherCombine _ _ => true
  | .storeDrain _ => true
  | .dirtyWordTimeout _ => true
  | .writePerformed _ => true
  | .releaseComplete _ => true
  | .l1FillReturn _ => true
  | .leaseExpiry _ => true
  | .ownershipRecall _ _ _ => true
  | .l2Eviction _ => true
  | .softError _ => true
  | .standpipeRegister _ => true
  | .latestPushLand _ => true
  | .ringPushLand _ => true
  | .standpipeCloseAtHome _ => true
  | .closePushLand _ => true
  | .standpipeFreezeAtHome _ => true
  | .freezePushLand _ => true
  | .standpipeRelocate _ => true
  | .catchUpPushLand _ => true
  | .subscriptionFail _ _ _ => true
  | .rsealComplete _ _ _ => true
  | .copyRingClaim _ => true
  | .copyPiece _ => true
  | .copyComplete _ => true
  | .mxldStart _ => true
  | .mxldComplete _ => true
  | .jobStart _ => true
  | .jobEnd _ => true
  | .drawGrant _ => true
  | .powerBudgetPeriod _ => true
  | .thermalLimit _ => true
  | .thermalTrip => true
  | .binTimerExpiry _ _ _ => true
  | .remoteEmitPull _ => true
  | .trapRecordWrite _ => true
  | .watchLimit _ _ => true
  | .hostFaultRetry _ _ _ => true
  | .hostFaultFail _ _ _ _ => true
  | .pageWalk _ _ _ => true
  | .invalidatingSnoop _ => true
  | .snoopAnswer _ _ _ => true
  | .powerGateEntry _ => true
  | .hdieReset _ => true
  | .planeFenceAck _ _ => true
  | .flitCrcFail _ _ => true
  | .portTrain _ _ _ _ => true
  | .ethernetRetransmitTimeout _ => true
  | .bridgeFail => true
  | .powerOnReset _ _ => true
  | .dieChallengeTimeout _ => true
  | .temperatureFall _ => true
  | .powerGateExit _ => true
  | .hostLineRelease _ => true
  | .fabricBringUp _ => true
  | .hostGroupBridge _ => true

end Sys2Proof
end

