-- ==== Sys2Proof/Decode.lean ====
section
/-! DEFINITION. Decoding of instruction words (R205-R212), total on any bytes and rejecting by name, and after it the
encoder, both written from the formats and the opcode tables. -/

namespace Sys2Proof

/-- Why bytes are no instruction. -/
inductive Reject where
  /-- fewer than four bytes. -/
  | short
  /-- an OP that R207 lists as illegal. -/
  | opcode
  /-- an F value the tables do not assign, or an unused field or must-be-zero bit that is not 0 (R207). -/
  | field
  /-- a field value the instruction's description makes illegal. -/
  | value
deriving DecidableEq, Repr

/-- Bits [lo + len - 1 : lo] of a word. -/
def bits (w : BitVec 32) (lo len : Nat) : BitVec len := w.extractLsb' lo len

/-- OP 0x00-0x0F (R209). -/
def decodeArith (w : BitVec 32) : Except Reject Instr :=
  match (bits w 0 4).toNat with
  | 1 =>
    if bits w 30 2 = 0 then .ok (.add (bits w 28 2) (bits w 21 7) (bits w 14 7) (bits w 7 7)) else .error .field
  | 2 =>
    if bits w 30 2 = 0 then .ok (.sub (bits w 28 2) (bits w 21 7) (bits w 14 7) (bits w 7 7)) else .error .field
  | 3 =>
    .ok (.mul (bits w 28 4) (bits w 21 7) (bits w 14 7) (bits w 7 7))
  | 4 =>
    if bits w 30 2 = 0 then .ok (.mad (bits w 28 2) (bits w 21 7) (bits w 14 7) (bits w 7 7)) else .error .field
  | 5 =>
    if bits w 30 2 = 0 then .ok (.div (bits w 28 2) (bits w 21 7) (bits w 14 7) (bits w 7 7)) else
    if bits w 30 2 = 1 then .ok (.rem (bits w 28 2) (bits w 21 7) (bits w 14 7) (bits w 7 7)) else .error .field
  | 6 =>
    if bits w 29 1 = 0 ∧ bits w 31 1 = 0 then .ok (.min (bits w 30 1) (bits w 28 1) (bits w 21 7) (bits w 14 7) (bits w 7 7)) else
    if bits w 29 1 = 1 ∧ bits w 31 1 = 0 then .ok (.max (bits w 30 1) (bits w 28 1) (bits w 21 7) (bits w 14 7) (bits w 7 7)) else .error .field
  | 7 =>
    if bits w 28 4 = 0 then .ok (.and (bits w 21 7) (bits w 14 7) (bits w 7 7)) else
    if bits w 28 4 = 1 then .ok (.or (bits w 21 7) (bits w 14 7) (bits w 7 7)) else
    if bits w 28 4 = 2 then .ok (.xor (bits w 21 7) (bits w 14 7) (bits w 7 7)) else
    if bits w 28 4 = 3 then .ok (.andn (bits w 21 7) (bits w 14 7) (bits w 7 7)) else
    if bits w 28 4 = 4 then .ok (.orn (bits w 21 7) (bits w 14 7) (bits w 7 7)) else
    if bits w 28 4 = 5 then .ok (.xnor (bits w 21 7) (bits w 14 7) (bits w 7 7)) else
    if bits w 21 7 = 0 ∧ bits w 28 4 = 6 then .ok (.not (bits w 14 7) (bits w 7 7)) else .error .field
  | 8 =>
    if bits w 28 2 = 0 ∧ bits w 31 1 = 0 then .ok (.shl (bits w 30 1) (bits w 21 7) (bits w 14 7) (bits w 7 7)) else
    if bits w 28 2 = 1 ∧ bits w 31 1 = 0 then .ok (.shr (bits w 30 1) (bits w 21 7) (bits w 14 7) (bits w 7 7)) else
    if bits w 28 2 = 2 ∧ bits w 31 1 = 0 then .ok (.sar (bits w 30 1) (bits w 21 7) (bits w 14 7) (bits w 7 7)) else
    if bits w 28 2 = 3 ∧ bits w 31 1 = 0 then .ok (.rol (bits w 30 1) (bits w 21 7) (bits w 14 7) (bits w 7 7)) else .error .field
  | 9 =>
    if bits w 21 7 = 0 ∧ bits w 28 3 = 0 then .ok (.popc (bits w 31 1) (bits w 14 7) (bits w 7 7)) else
    if bits w 21 7 = 0 ∧ bits w 28 3 = 1 then .ok (.clz (bits w 31 1) (bits w 14 7) (bits w 7 7)) else
    if bits w 21 7 = 0 ∧ bits w 28 3 = 2 then .ok (.ctz (bits w 31 1) (bits w 14 7) (bits w 7 7)) else
    if bits w 21 7 = 0 ∧ bits w 28 3 = 3 then .ok (.brev (bits w 31 1) (bits w 14 7) (bits w 7 7)) else
    if bits w 28 4 = 4 then .ok (.bfxS (bits w 21 7) (bits w 14 7) (bits w 7 7)) else
    if bits w 28 4 = 5 then .ok (.bfxN (bits w 21 7) (bits w 14 7) (bits w 7 7)) else
    if bits w 28 4 = 6 then .ok (.bfi (bits w 21 7) (bits w 14 7) (bits w 7 7)) else
    if bits w 28 4 = 7 then .ok (.bsel (bits w 21 7) (bits w 14 7) (bits w 7 7)) else .error .field
  | 10 =>
    .ok (.cmp (bits w 28 4) (bits w 21 7) (bits w 14 7) (bits w 7 7))
  | 11 =>
    if bits w 28 4 = 0 then .ok (.sel (bits w 21 7) (bits w 14 7) (bits w 7 7)) else .error .field
  | 12 =>
    if bits w 21 7 = 0 ∧ bits w 28 4 = 0 then .ok (.mov (bits w 14 7) (bits w 7 7)) else
    if bits w 21 7 = 0 ∧ bits w 28 4 = 1 then .ok (.movPair (bits w 14 7) (bits w 7 7)) else
    if bits w 21 7 = 0 ∧ bits w 28 4 = 2 then .ok (.sxb (bits w 14 7) (bits w 7 7)) else
    if bits w 21 7 = 0 ∧ bits w 28 4 = 3 then .ok (.sxh (bits w 14 7) (bits w 7 7)) else
    if bits w 21 7 = 0 ∧ bits w 28 4 = 4 then .ok (.zxb (bits w 14 7) (bits w 7 7)) else
    if bits w 21 7 = 0 ∧ bits w 28 4 = 5 then .ok (.zxh (bits w 14 7) (bits w 7 7)) else
    if bits w 21 7 = 0 ∧ bits w 28 4 = 6 then .ok (.sxw (bits w 14 7) (bits w 7 7)) else
    if bits w 21 7 = 0 ∧ bits w 28 4 = 7 then .ok (.zxw (bits w 14 7) (bits w 7 7)) else .error .field
  | 13 =>
    if bits w 31 1 = 0 then .ok (.lea (bits w 28 3) (bits w 21 7) (bits w 14 7) (bits w 7 7)) else .error .field
  | _ => .error .opcode

/-- OP 0x10-0x1F (R209). -/
def decodeImm (w : BitVec 32) : Except Reject Instr :=
  match (bits w 0 4).toNat with
  | 0 =>
    .ok (.addi (bits w 21 11) (bits w 14 7) (bits w 7 7))
  | 1 =>
    .ok (.andi (bits w 21 11) (bits w 14 7) (bits w 7 7))
  | 2 =>
    .ok (.ori (bits w 21 11) (bits w 14 7) (bits w 7 7))
  | 3 =>
    .ok (.xori (bits w 21 11) (bits w 14 7) (bits w 7 7))
  | 4 =>
    if bits w 27 1 = 0 ∧ bits w 28 4 = 0 then .ok (.shli (bits w 21 6) (bits w 14 7) (bits w 7 7)) else .error .field
  | 5 =>
    if bits w 27 1 = 0 ∧ bits w 28 4 = 0 then .ok (.shri (bits w 21 6) (bits w 14 7) (bits w 7 7)) else .error .field
  | 6 =>
    if bits w 27 1 = 0 ∧ bits w 28 4 = 0 then .ok (.sari (bits w 21 6) (bits w 14 7) (bits w 7 7)) else .error .field
  | 7 =>
    .ok (.cmpi (bits w 28 4) (bits w 21 7) (bits w 14 7) (bits w 7 7))
  | 8 =>
    .ok (.mvl (bits w 14 18) (bits w 7 7))
  | 9 =>
    .ok (.mvh (bits w 14 18) (bits w 7 7))
  | 10 =>
    .ok (.muli (bits w 21 11) (bits w 14 7) (bits w 7 7))
  | _ => .error .opcode

/-- OP 0x20-0x2F (R210). -/
def decodeFloat (w : BitVec 32) : Except Reject Instr :=
  match (bits w 0 4).toNat with
  | 0 =>
    .ok (.fadd (bits w 30 2) (bits w 28 2) (bits w 21 7) (bits w 14 7) (bits w 7 7))
  | 1 =>
    .ok (.fsub (bits w 30 2) (bits w 28 2) (bits w 21 7) (bits w 14 7) (bits w 7 7))
  | 2 =>
    .ok (.fmul (bits w 30 2) (bits w 28 2) (bits w 21 7) (bits w 14 7) (bits w 7 7))
  | 3 =>
    .ok (.ffma (bits w 30 2) (bits w 28 2) (bits w 21 7) (bits w 14 7) (bits w 7 7))
  | 4 =>
    if bits w 31 1 = 0 then .ok (.fmin (bits w 30 1) (bits w 28 2) (bits w 21 7) (bits w 14 7) (bits w 7 7)) else .error .field
  | 5 =>
    if bits w 31 1 = 0 then .ok (.fmax (bits w 30 1) (bits w 28 2) (bits w 21 7) (bits w 14 7) (bits w 7 7)) else .error .field
  | 6 =>
    .ok (.fcmp (bits w 31 1) (bits w 28 3) (bits w 21 7) (bits w 14 7) (bits w 7 7))
  | 7 =>
    if bits w 21 7 = 0 ∧ bits w 30 2 = 0 then .ok (.fabs (bits w 28 2) (bits w 14 7) (bits w 7 7)) else
    if bits w 21 7 = 0 ∧ bits w 30 2 = 1 then .ok (.fneg (bits w 28 2) (bits w 14 7) (bits w 7 7)) else
    if bits w 30 2 = 2 then .ok (.fcpys (bits w 28 2) (bits w 21 7) (bits w 14 7) (bits w 7 7)) else .error .field
  | 8 =>
    if bits w 29 1 = 0 then .ok (.fdiv (bits w 30 2) (bits w 28 1) (bits w 21 7) (bits w 14 7) (bits w 7 7)) else .error .field
  | 9 =>
    if bits w 21 7 = 0 ∧ bits w 29 1 = 0 then .ok (.fsqrt (bits w 30 2) (bits w 28 1) (bits w 14 7) (bits w 7 7)) else .error .field
  | 10 =>
    if bits w 21 7 = 0 ∧ bits w 28 4 = 0 then .ok (.rcp (bits w 14 7) (bits w 7 7)) else
    if bits w 21 7 = 0 ∧ bits w 28 4 = 1 then .ok (.rsqrt (bits w 14 7) (bits w 7 7)) else
    if bits w 21 7 = 0 ∧ bits w 28 4 = 2 then .ok (.exp2 (bits w 14 7) (bits w 7 7)) else
    if bits w 21 7 = 0 ∧ bits w 28 4 = 3 then .ok (.log2 (bits w 14 7) (bits w 7 7)) else
    if bits w 21 7 = 0 ∧ bits w 28 4 = 4 then .ok (.sin (bits w 14 7) (bits w 7 7)) else
    if bits w 21 7 = 0 ∧ bits w 28 4 = 5 then .ok (.cos (bits w 14 7) (bits w 7 7)) else
    if bits w 21 7 = 0 ∧ bits w 28 4 = 6 then .ok (.tanh (bits w 14 7) (bits w 7 7)) else .error .field
  | 11 =>
    if bits w 29 1 = 0 then .ok (.fdot2 (bits w 30 2) (bits w 28 1) (bits w 21 7) (bits w 14 7) (bits w 7 7)) else .error .field
  | 12 =>
    .ok (.fscale (bits w 30 2) (bits w 28 2) (bits w 21 7) (bits w 14 7) (bits w 7 7))
  | 13 =>
    if bits w 21 7 = 0 ∧ bits w 30 2 = 0 then .ok (.fclass (bits w 28 2) (bits w 14 7) (bits w 7 7)) else .error .field
  | _ => .error .opcode

/-- OP 0x30-0x3F (R210). -/
def decodeConvert (w : BitVec 32) : Except Reject Instr :=
  match (bits w 0 4).toNat with
  | 0 =>
    if bits w 28 2 = 0 then .ok (.cvtF16 (bits w 30 2) (bits w 21 7) (bits w 14 7) (bits w 7 7)) else
    if bits w 28 2 = 1 then .ok (.cvtBf16 (bits w 30 2) (bits w 21 7) (bits w 14 7) (bits w 7 7)) else
    if bits w 21 7 = 0 ∧ bits w 28 2 = 2 then .ok (.cvtF32 (bits w 30 2) (bits w 14 7) (bits w 7 7)) else .error .field
  | 1 =>
    if bits w 21 7 = 0 ∧ bits w 28 2 = 0 ∧ bits w 31 1 = 0 then .ok (.cvtwF16 (bits w 30 1) (bits w 14 7) (bits w 7 7)) else
    if bits w 21 7 = 0 ∧ bits w 28 2 = 1 ∧ bits w 31 1 = 0 then .ok (.cvtwBf16 (bits w 30 1) (bits w 14 7) (bits w 7 7)) else
    if bits w 21 7 = 0 ∧ bits w 28 4 = 2 then .ok (.cvtwF64 (bits w 14 7) (bits w 7 7)) else .error .field
  | 2 =>
    if bits w 21 7 = 0 then .ok (.cvti (bits w 30 2) (bits w 28 2) (bits w 14 7) (bits w 7 7)) else .error .field
  | 3 =>
    if bits w 21 7 = 0 then .ok (.cvtid (bits w 30 2) (bits w 28 2) (bits w 14 7) (bits w 7 7)) else .error .field
  | 4 =>
    if bits w 21 7 = 0 then .ok (.cvtf (bits w 30 2) (bits w 28 2) (bits w 14 7) (bits w 7 7)) else .error .field
  | 5 =>
    if bits w 21 7 = 0 then .ok (.cvtfd (bits w 30 2) (bits w 28 2) (bits w 14 7) (bits w 7 7)) else .error .field
  | 6 =>
    if bits w 21 7 = 0 ∧ bits w 28 4 = 0 then .ok (.qscl (bits w 14 7) (bits w 7 7)) else .error .field
  | 7 =>
    if bits w 21 7 = 0 ∧ bits w 28 4 = 0 then .ok (.qenc (bits w 14 7) (bits w 7 7)) else .error .field
  | 8 =>
    if bits w 28 4 = 0 then .ok (.qdec (bits w 21 7) (bits w 14 7) (bits w 7 7)) else .error .field
  | 9 =>
    if bits w 7 7 = 0 ∧ bits w 14 7 = 0 ∧ bits w 21 7 = 0 ∧ bits w 28 4 = 0 then .ok (.qcbLin8) else
    if bits w 7 7 = 0 ∧ bits w 21 7 = 0 ∧ bits w 30 2 = 0 then .ok (.qcb (bits w 28 2) (bits w 14 7)) else .error .field
  | 10 =>
    if bits w 30 2 = 0 then .ok (.rng (bits w 28 2) (bits w 21 7) (bits w 14 7) (bits w 7 7)) else .error .field
  | 11 =>
    if bits w 30 2 = 0 then .ok (.dot4 (bits w 28 2) (bits w 21 7) (bits w 14 7) (bits w 7 7)) else .error .field
  | _ => .error .opcode

/-- OP 0x40-0x4F (R211). -/
def decodeMemory (w : BitVec 32) : Except Reject Instr :=
  match (bits w 0 4).toNat with
  | 0 =>
    .ok (.ld (bits w 31 1) (bits w 28 3) (bits w 21 7) (bits w 14 7) (bits w 7 7))
  | 1 =>
    .ok (.ldi (bits w 31 1) (bits w 28 3) (bits w 21 7) (bits w 14 7) (bits w 7 7))
  | 2 =>
    .ok (.st (bits w 31 1) (bits w 28 3) (bits w 21 7) (bits w 14 7) (bits w 7 7))
  | 3 =>
    .ok (.sti (bits w 31 1) (bits w 28 3) (bits w 21 7) (bits w 14 7) (bits w 7 7))
  | 4 =>
    .ok (.lda (bits w 31 1) (bits w 28 3) (bits w 21 7) (bits w 14 7) (bits w 7 7))
  | 5 =>
    .ok (.stl (bits w 31 1) (bits w 28 3) (bits w 21 7) (bits w 14 7) (bits w 7 7))
  | 6 =>
    .ok (.atom (bits w 28 4) (bits w 21 7) (bits w 14 7) (bits w 7 7))
  | 7 =>
    .ok (.atomb (bits w 28 4) (bits w 21 7) (bits w 14 7) (bits w 7 7))
  | 8 =>
    if bits w 7 7 = 0 ∧ bits w 14 7 = 0 ∧ bits w 24 4 = 0 ∧ bits w 28 4 = 0 then .ok (.lwait (bits w 21 3)) else .error .field
  | 9 =>
    if bits w 7 7 = 0 ∧ bits w 14 7 = 0 ∧ bits w 21 7 = 0 ∧ bits w 28 4 = 0 then .ok (.lclose) else .error .field
  | 10 =>
    if bits w 7 7 = 0 ∧ bits w 14 7 = 0 ∧ bits w 25 3 = 0 ∧ bits w 31 1 = 0 then .ok (.fence (bits w 28 3) (bits w 23 2) (bits w 21 2)) else .error .field
  | 11 =>
    if bits w 7 7 = 0 ∧ bits w 29 3 = 0 then .ok (.pf (bits w 28 1) (bits w 21 7) (bits w 14 7)) else .error .field
  | _ => .error .opcode

/-- OP 0x50-0x5F (R211). -/
def decodeShared (w : BitVec 32) : Except Reject Instr :=
  match (bits w 0 4).toNat with
  | 0 =>
    if bits w 31 1 = 0 then .ok (.ldf (bits w 29 2) (bits w 28 1) (bits w 21 7) (bits w 14 7) (bits w 7 7)) else .error .field
  | 1 =>
    if bits w 28 1 = 0 ∧ bits w 31 1 = 0 then .ok (.stf (bits w 29 2) (bits w 21 7) (bits w 14 7) (bits w 7 7)) else .error .field
  | 2 =>
    if bits w 28 4 = 0 then .ok (.feQuery (bits w 21 7) (bits w 14 7) (bits w 7 7)) else
    if bits w 7 7 = 0 ∧ bits w 28 4 = 1 then .ok (.feSet (bits w 21 7) (bits w 14 7)) else
    if bits w 7 7 = 0 ∧ bits w 28 4 = 2 then .ok (.feClr (bits w 21 7) (bits w 14 7)) else .error .field
  | 3 =>
    if bits w 21 7 = 0 then .ok (.cwr (bits w 28 4) (bits w 14 7) (bits w 7 7)) else .error .field
  | 4 =>
    .ok (.cwrt (bits w 28 4) (bits w 21 7) (bits w 14 7) (bits w 7 7))
  | 5 =>
    if bits w 21 7 = 0 ∧ bits w 28 4 = 0 then .ok (.cgath (bits w 14 7) (bits w 7 7)) else .error .field
  | 6 =>
    if bits w 21 7 = 0 ∧ bits w 28 4 = 0 then .ok (.ccfg (bits w 14 7) (bits w 7 7)) else .error .field
  | 7 =>
    if bits w 28 4 = 0 then .ok (.cpeek (bits w 21 7) (bits w 14 7) (bits w 7 7)) else .error .field
  | 8 =>
    if bits w 14 7 = 0 ∧ bits w 21 7 = 0 ∧ bits w 28 4 = 0 then .ok (.cdrn (bits w 7 7)) else .error .field
  | 9 =>
    if bits w 7 7 = 0 then .ok (.cview (bits w 21 11) (bits w 14 7)) else .error .field
  | 10 =>
    if bits w 28 4 = 0 then .ok (.stand (bits w 21 7) (bits w 14 7) (bits w 7 7)) else .error .field
  | 11 =>
    if bits w 7 7 = 0 ∧ bits w 21 7 = 0 ∧ bits w 28 4 = 0 then .ok (.unstand (bits w 14 7)) else
    if bits w 7 7 = 0 ∧ bits w 21 7 = 0 ∧ bits w 28 4 = 1 then .ok (.unstandWait (bits w 14 7)) else .error .field
  | 12 =>
    if bits w 7 7 = 0 ∧ bits w 21 7 = 0 ∧ bits w 28 4 = 0 then .ok (.rseal (bits w 14 7)) else .error .field
  | 13 =>
    if bits w 7 7 = 0 ∧ bits w 21 7 = 0 ∧ bits w 28 4 = 0 then .ok (.rdropShed (bits w 14 7)) else
    if bits w 7 7 = 0 ∧ bits w 21 7 = 0 ∧ bits w 28 4 = 1 then .ok (.rdropRetire (bits w 14 7)) else .error .field
  | 14 =>
    if bits w 7 7 = 0 ∧ bits w 21 7 = 0 ∧ bits w 28 4 = 0 then .ok (.rpin (bits w 14 7)) else
    if bits w 7 7 = 0 ∧ bits w 21 7 = 0 ∧ bits w 28 4 = 1 then .ok (.rpinUnpin (bits w 14 7)) else .error .field
  | 15 =>
    if bits w 21 7 = 0 ∧ bits w 28 4 = 0 then .ok (.rsta (bits w 14 7) (bits w 7 7)) else .error .field
  | _ => .error .opcode

/-- OP 0x60-0x6F (R212). -/
def decodeControl (w : BitVec 32) : Except Reject Instr :=
  match (bits w 0 4).toNat with
  | 0 =>
    .ok (.br (bits w 14 18) (bits w 7 7))
  | 1 =>
    .ok (.brz (bits w 14 18) (bits w 7 7))
  | 2 =>
    .ok (.jmp (bits w 7 25))
  | 3 =>
    .ok (.call (bits w 14 18) (bits w 7 7))
  | 4 =>
    if bits w 7 7 = 0 ∧ bits w 21 7 = 0 ∧ bits w 28 4 = 0 then .ok (.jr (bits w 14 7)) else
    if bits w 7 7 = 0 ∧ bits w 21 7 = 0 ∧ bits w 28 4 = 1 then .ok (.ret (bits w 14 7)) else .error .field
  | 5 =>
    if bits w 7 7 = 0 then .ok (.meet (bits w 14 18)) else .error .field
  | 6 =>
    if bits w 7 7 = 0 ∧ bits w 21 7 = 0 ∧ bits w 28 4 = 0 then .ok (.meetrSet (bits w 14 7)) else
    if bits w 7 7 = 0 ∧ bits w 14 7 = 0 ∧ bits w 21 7 = 0 ∧ bits w 28 4 = 1 then .ok (.meetrClr) else
    if bits w 14 7 = 0 ∧ bits w 21 7 = 0 ∧ bits w 28 4 = 2 then .ok (.meetrRd (bits w 7 7)) else .error .field
  | 7 =>
    if bits w 21 7 = 0 ∧ bits w 31 1 = 0 then .ok (.poll (bits w 28 3) (bits w 14 7) (bits w 7 7)) else .error .field
  | 8 =>
    .ok (.lanex (bits w 30 2) (bits w 28 2) (bits w 21 7) (bits w 14 7) (bits w 7 7))
  | 9 =>
    if bits w 21 7 = 0 then .ok (.crdu (bits w 28 4) (bits w 14 7) (bits w 7 7)) else .error .field
  | 10 =>
    if bits w 21 7 = 0 then .ok (.scan (bits w 31 1) (bits w 28 3) (bits w 14 7) (bits w 7 7)) else .error .field
  | 11 =>
    if bits w 7 7 = 0 ∧ bits w 14 7 = 0 ∧ bits w 25 3 = 0 ∧ bits w 28 4 = 0 then .ok (.bar (bits w 21 4)) else .error .field
  | 12 =>
    if bits w 7 7 = 0 then .ok (.wbase (bits w 21 11) (bits w 14 7)) else .error .field
  | 13 =>
    if bits w 7 7 = 0 ∧ bits w 14 7 = 0 ∧ bits w 21 7 = 0 ∧ bits w 28 4 = 0 then .ok (.nop) else
    if bits w 7 7 = 0 ∧ bits w 14 7 = 0 ∧ bits w 21 7 = 0 ∧ bits w 28 4 = 1 then .ok (.exit) else
    if bits w 7 7 = 0 ∧ bits w 14 7 = 0 ∧ bits w 21 7 = 0 ∧ bits w 28 4 = 2 then .ok (.yield) else
    if bits w 7 7 = 0 ∧ bits w 14 7 = 0 ∧ bits w 21 7 = 0 ∧ bits w 28 4 = 3 then .ok (.brk) else
    if bits w 7 7 = 0 ∧ bits w 21 7 = 0 ∧ bits w 28 4 = 4 then .ok (.trap (bits w 14 7)) else
    if bits w 21 7 = 0 ∧ bits w 28 4 = 5 then .ok (.rfirst (bits w 14 7) (bits w 7 7)) else
    if bits w 28 4 = 6 then .ok (.rdlane (bits w 21 7) (bits w 14 7) (bits w 7 7)) else .error .field
  | 14 =>
    if bits w 27 1 = 0 ∧ bits w 28 3 = 0 then .ok (.rdsp (bits w 31 1) (bits w 21 6) (bits w 14 7) (bits w 7 7)) else .error .field
  | _ => .error .opcode

/-- OP 0x70-0x7F (R212). -/
def decodeSystem (w : BitVec 32) : Except Reject Instr :=
  match (bits w 0 4).toNat with
  | 0 =>
    if bits w 7 7 = 0 ∧ bits w 21 7 = 0 then .ok (.cpy (bits w 30 2) (bits w 28 2) (bits w 14 7)) else .error .field
  | 1 =>
    if bits w 7 7 = 0 ∧ bits w 28 4 = 0 then .ok (.rginit (bits w 21 7) (bits w 14 7)) else .error .field
  | 2 =>
    if bits w 21 7 = 0 ∧ bits w 28 4 = 0 then .ok (.rgwait (bits w 14 7) (bits w 7 7)) else .error .field
  | 3 =>
    if bits w 7 7 = 0 ∧ bits w 21 7 = 0 ∧ bits w 28 4 = 0 then .ok (.rgrel (bits w 14 7)) else .error .field
  | 4 =>
    if bits w 21 7 = 0 ∧ bits w 28 4 = 0 then .ok (.rgadvClaim (bits w 14 7) (bits w 7 7)) else
    if bits w 7 7 = 0 ∧ bits w 21 7 = 0 ∧ bits w 28 4 = 1 then .ok (.rgadvPub (bits w 14 7)) else .error .field
  | 5 =>
    if bits w 7 7 = 0 ∧ bits w 21 7 = 0 ∧ bits w 28 4 = 0 then .ok (.mxld (bits w 14 7)) else .error .field
  | 6 =>
    if bits w 7 7 = 0 ∧ bits w 21 7 = 0 ∧ bits w 28 4 = 0 then .ok (.mxrun (bits w 14 7)) else .error .field
  | 7 =>
    if bits w 14 7 = 0 ∧ bits w 21 7 = 0 ∧ bits w 28 4 = 0 then .ok (.mxq (bits w 7 7)) else .error .field
  | 8 =>
    if bits w 7 7 = 0 ∧ bits w 28 4 = 0 then .ok (.emitPlain (bits w 21 7) (bits w 14 7)) else
    if bits w 7 7 = 0 ∧ bits w 28 4 = 1 then .ok (.emitKeyed (bits w 21 7) (bits w 14 7)) else
    if bits w 7 7 = 0 ∧ bits w 28 4 = 2 then .ok (.emitRemote (bits w 21 7) (bits w 14 7)) else .error .field
  | 9 =>
    if bits w 7 7 = 0 ∧ bits w 21 7 = 0 ∧ bits w 28 4 = 0 then .ok (.tbinFlush (bits w 14 7)) else
    if bits w 21 7 = 0 ∧ bits w 28 4 = 1 then .ok (.tbinQuery (bits w 14 7) (bits w 7 7)) else .error .field
  | 10 =>
    .ok (.rdsys (bits w 21 11) (bits w 14 7) (bits w 7 7))
  | 11 =>
    .ok (.wrsys (bits w 21 11) (bits w 14 7) (bits w 7 7))
  | 12 =>
    if bits w 7 7 = 0 ∧ bits w 28 4 = 0 then .ok (.sysopRestart (bits w 21 7) (bits w 14 7)) else
    if bits w 7 7 = 0 ∧ bits w 28 4 = 1 then .ok (.sysopSkip (bits w 21 7) (bits w 14 7)) else
    if bits w 7 7 = 0 ∧ bits w 28 4 = 2 then .ok (.sysopKill (bits w 21 7) (bits w 14 7)) else
    if bits w 7 7 = 0 ∧ bits w 28 4 = 3 then .ok (.sysopTlbinv (bits w 21 7) (bits w 14 7)) else
    if bits w 7 7 = 0 ∧ bits w 28 4 = 4 then .ok (.sysopWbrange (bits w 21 7) (bits w 14 7)) else
    if bits w 7 7 = 0 ∧ bits w 28 4 = 5 then .ok (.sysopInvrange (bits w 21 7) (bits w 14 7)) else
    if bits w 7 7 = 0 ∧ bits w 21 7 = 0 ∧ bits w 28 4 = 6 then .ok (.sysopKillcell (bits w 14 7)) else .error .field
  | 13 =>
    if bits w 14 7 = 0 ∧ bits w 21 7 = 0 ∧ bits w 28 4 = 0 then .ok (.drawReq (bits w 7 7)) else
    if bits w 7 7 = 0 ∧ bits w 14 7 = 0 ∧ bits w 21 7 = 0 ∧ bits w 28 4 = 1 then .ok (.drawRel) else .error .field
  | _ => .error .opcode

/-- The instruction of a word, before the value checks: OP[6:4] picks the table, OP[3:0] its row. -/
def decodeRaw (w : BitVec 32) : Except Reject Instr :=
  match (bits w 4 3).toNat with
  | 0 => decodeArith w
  | 1 => decodeImm w
  | 2 => decodeFloat w
  | 3 => decodeConvert w
  | 4 => decodeMemory w
  | 5 => decodeShared w
  | 6 => decodeControl w
  | _ => decodeSystem w

/-- Decoding one word (R207): the tables, then the values the descriptions make illegal. -/
def decodeWord (w : BitVec 32) : Except Reject Instr :=
  match decodeRaw w with
  | .ok i => if wellFormed i then .ok i else .error .value
  | .error e => .error e

/-- Four bytes, little-endian (R196). -/
def wordOfBytes (b0 b1 b2 b3 : Byte) : BitVec 32 := b3 ++ b2 ++ b1 ++ b0

/-- Decoding from bytes in the order the part stores them; answers the instruction and the rest. -/
def decode : List Byte → Except Reject (Instr × List Byte)
  | b0 :: b1 :: b2 :: b3 :: rest =>
    match decodeWord (wordOfBytes b0 b1 b2 b3) with
    | .ok i => .ok (i, rest)
    | .error e => .error e
  | _ => .error .short

/-- The word of an instruction (R205), none for the operations and events, which have no word. -/
def encode : Instr → Option (BitVec 32)
  | .add f b a d => some (0#2 ++ f ++ b ++ a ++ d ++ 1#7)
  | .sub f b a d => some (0#2 ++ f ++ b ++ a ++ d ++ 2#7)
  | .mul f b a d => some (f ++ b ++ a ++ d ++ 3#7)
  | .mad f b a d => some (0#2 ++ f ++ b ++ a ++ d ++ 4#7)
  | .div f b a d => some (0#2 ++ f ++ b ++ a ++ d ++ 5#7)
  | .rem f b a d => some (1#2 ++ f ++ b ++ a ++ d ++ 5#7)
  | .min w s b a d => some (0#1 ++ w ++ 0#1 ++ s ++ b ++ a ++ d ++ 6#7)
  | .max w s b a d => some (0#1 ++ w ++ 1#1 ++ s ++ b ++ a ++ d ++ 6#7)
  | .and b a d => some (0#4 ++ b ++ a ++ d ++ 7#7)
  | .or b a d => some (1#4 ++ b ++ a ++ d ++ 7#7)
  | .xor b a d => some (2#4 ++ b ++ a ++ d ++ 7#7)
  | .andn b a d => some (3#4 ++ b ++ a ++ d ++ 7#7)
  | .orn b a d => some (4#4 ++ b ++ a ++ d ++ 7#7)
  | .xnor b a d => some (5#4 ++ b ++ a ++ d ++ 7#7)
  | .not a d => some (768#11 ++ a ++ d ++ 7#7)
  | .shl w b a d => some (0#1 ++ w ++ 0#2 ++ b ++ a ++ d ++ 8#7)
  | .shr w b a d => some (0#1 ++ w ++ 1#2 ++ b ++ a ++ d ++ 8#7)
  | .sar w b a d => some (0#1 ++ w ++ 2#2 ++ b ++ a ++ d ++ 8#7)
  | .rol w b a d => some (0#1 ++ w ++ 3#2 ++ b ++ a ++ d ++ 8#7)
  | .popc w a d => some (w ++ 0#10 ++ a ++ d ++ 9#7)
  | .clz w a d => some (w ++ 128#10 ++ a ++ d ++ 9#7)
  | .ctz w a d => some (w ++ 256#10 ++ a ++ d ++ 9#7)
  | .brev w a d => some (w ++ 384#10 ++ a ++ d ++ 9#7)
  | .bfxS b a d => some (4#4 ++ b ++ a ++ d ++ 9#7)
  | .bfxN b a d => some (5#4 ++ b ++ a ++ d ++ 9#7)
  | .bfi b a d => some (6#4 ++ b ++ a ++ d ++ 9#7)
  | .bsel b a d => some (7#4 ++ b ++ a ++ d ++ 9#7)
  | .cmp c b a d => some (c ++ b ++ a ++ d ++ 10#7)
  | .sel b a d => some (0#4 ++ b ++ a ++ d ++ 11#7)
  | .mov a d => some (0#11 ++ a ++ d ++ 12#7)
  | .movPair a d => some (128#11 ++ a ++ d ++ 12#7)
  | .sxb a d => some (256#11 ++ a ++ d ++ 12#7)
  | .sxh a d => some (384#11 ++ a ++ d ++ 12#7)
  | .zxb a d => some (512#11 ++ a ++ d ++ 12#7)
  | .zxh a d => some (640#11 ++ a ++ d ++ 12#7)
  | .sxw a d => some (768#11 ++ a ++ d ++ 12#7)
  | .zxw a d => some (896#11 ++ a ++ d ++ 12#7)
  | .lea s b a d => some (0#1 ++ s ++ b ++ a ++ d ++ 13#7)
  | .addi i a d => some (i ++ a ++ d ++ 16#7)
  | .andi i a d => some (i ++ a ++ d ++ 17#7)
  | .ori i a d => some (i ++ a ++ d ++ 18#7)
  | .xori i a d => some (i ++ a ++ d ++ 19#7)
  | .shli i a d => some (0#5 ++ i ++ a ++ d ++ 20#7)
  | .shri i a d => some (0#5 ++ i ++ a ++ d ++ 21#7)
  | .sari i a d => some (0#5 ++ i ++ a ++ d ++ 22#7)
  | .cmpi c i a d => some (c ++ i ++ a ++ d ++ 23#7)
  | .mvl i d => some (i ++ d ++ 24#7)
  | .mvh i d => some (i ++ d ++ 25#7)
  | .muli i a d => some (i ++ a ++ d ++ 26#7)
  | .fadd m t b a d => some (m ++ t ++ b ++ a ++ d ++ 32#7)
  | .fsub m t b a d => some (m ++ t ++ b ++ a ++ d ++ 33#7)
  | .fmul m t b a d => some (m ++ t ++ b ++ a ++ d ++ 34#7)
  | .ffma m t b a d => some (m ++ t ++ b ++ a ++ d ++ 35#7)
  | .fmin n t b a d => some (0#1 ++ n ++ t ++ b ++ a ++ d ++ 36#7)
  | .fmax n t b a d => some (0#1 ++ n ++ t ++ b ++ a ++ d ++ 37#7)
  | .fcmp w c b a d => some (w ++ c ++ b ++ a ++ d ++ 38#7)
  | .fabs t a d => some (0#2 ++ t ++ 0#7 ++ a ++ d ++ 39#7)
  | .fneg t a d => some (1#2 ++ t ++ 0#7 ++ a ++ d ++ 39#7)
  | .fcpys t b a d => some (2#2 ++ t ++ b ++ a ++ d ++ 39#7)
  | .fdiv m t b a d => some (m ++ 0#1 ++ t ++ b ++ a ++ d ++ 40#7)
  | .fsqrt m t a d => some (m ++ 0#1 ++ t ++ 0#7 ++ a ++ d ++ 41#7)
  | .rcp a d => some (0#11 ++ a ++ d ++ 42#7)
  | .rsqrt a d => some (128#11 ++ a ++ d ++ 42#7)
  | .exp2 a d => some (256#11 ++ a ++ d ++ 42#7)
  | .log2 a d => some (384#11 ++ a ++ d ++ 42#7)
  | .sin a d => some (512#11 ++ a ++ d ++ 42#7)
  | .cos a d => some (640#11 ++ a ++ d ++ 42#7)
  | .tanh a d => some (768#11 ++ a ++ d ++ 42#7)
  | .fdot2 m f b a d => some (m ++ 0#1 ++ f ++ b ++ a ++ d ++ 43#7)
  | .fscale m t b a d => some (m ++ t ++ b ++ a ++ d ++ 44#7)
  | .fclass t a d => some (0#2 ++ t ++ 0#7 ++ a ++ d ++ 45#7)
  | .cvtF16 m b a d => some (m ++ 0#2 ++ b ++ a ++ d ++ 48#7)
  | .cvtBf16 m b a d => some (m ++ 1#2 ++ b ++ a ++ d ++ 48#7)
  | .cvtF32 m a d => some (m ++ 256#9 ++ a ++ d ++ 48#7)
  | .cvtwF16 e a d => some (0#1 ++ e ++ 0#9 ++ a ++ d ++ 49#7)
  | .cvtwBf16 e a d => some (0#1 ++ e ++ 128#9 ++ a ++ d ++ 49#7)
  | .cvtwF64 a d => some (256#11 ++ a ++ d ++ 49#7)
  | .cvti m t a d => some (m ++ t ++ 0#7 ++ a ++ d ++ 50#7)
  | .cvtid m t a d => some (m ++ t ++ 0#7 ++ a ++ d ++ 51#7)
  | .cvtf m t a d => some (m ++ t ++ 0#7 ++ a ++ d ++ 52#7)
  | .cvtfd m t a d => some (m ++ t ++ 0#7 ++ a ++ d ++ 53#7)
  | .qscl a d => some (0#11 ++ a ++ d ++ 54#7)
  | .qenc a d => some (0#11 ++ a ++ d ++ 55#7)
  | .qdec b a d => some (0#4 ++ b ++ a ++ d ++ 56#7)
  | .qcbLin8 => some (0#25 ++ 57#7)
  | .qcb f a => some (0#2 ++ f ++ 0#7 ++ a ++ 0#7 ++ 57#7)
  | .rng w b a d => some (0#2 ++ w ++ b ++ a ++ d ++ 58#7)
  | .dot4 f b a d => some (0#2 ++ f ++ b ++ a ++ d ++ 59#7)
  | .ld p f b a d => some (p ++ f ++ b ++ a ++ d ++ 64#7)
  | .ldi p f i a d => some (p ++ f ++ i ++ a ++ d ++ 65#7)
  | .st p f b a d => some (p ++ f ++ b ++ a ++ d ++ 66#7)
  | .sti p f i a d => some (p ++ f ++ i ++ a ++ d ++ 67#7)
  | .lda z s b a d => some (z ++ s ++ b ++ a ++ d ++ 68#7)
  | .stl z s b a d => some (z ++ s ++ b ++ a ++ d ++ 69#7)
  | .atom f b a d => some (f ++ b ++ a ++ d ++ 70#7)
  | .atomb f b a d => some (f ++ b ++ a ++ d ++ 71#7)
  | .lwait n => some (0#8 ++ n ++ 0#14 ++ 72#7)
  | .lclose => some (0#25 ++ 73#7)
  | .fence g o s => some (0#1 ++ g ++ 0#3 ++ o ++ s ++ 0#14 ++ 74#7)
  | .pf l b a => some (0#3 ++ l ++ b ++ a ++ 0#7 ++ 75#7)
  | .ldf z c b a d => some (0#1 ++ z ++ c ++ b ++ a ++ d ++ 80#7)
  | .stf z b a d => some (0#1 ++ z ++ 0#1 ++ b ++ a ++ d ++ 81#7)
  | .feQuery b a d => some (0#4 ++ b ++ a ++ d ++ 82#7)
  | .feSet b a => some (1#4 ++ b ++ a ++ 0#7 ++ 82#7)
  | .feClr b a => some (2#4 ++ b ++ a ++ 0#7 ++ 82#7)
  | .cwr f a d => some (f ++ 0#7 ++ a ++ d ++ 83#7)
  | .cwrt f b a d => some (f ++ b ++ a ++ d ++ 84#7)
  | .cgath a d => some (0#11 ++ a ++ d ++ 85#7)
  | .ccfg a d => some (0#11 ++ a ++ d ++ 86#7)
  | .cpeek b a d => some (0#4 ++ b ++ a ++ d ++ 87#7)
  | .cdrn d => some (0#18 ++ d ++ 88#7)
  | .cview i a => some (i ++ a ++ 0#7 ++ 89#7)
  | .stand b a d => some (0#4 ++ b ++ a ++ d ++ 90#7)
  | .unstand a => some (0#11 ++ a ++ 0#7 ++ 91#7)
  | .unstandWait a => some (128#11 ++ a ++ 0#7 ++ 91#7)
  | .rseal a => some (0#11 ++ a ++ 0#7 ++ 92#7)
  | .rdropShed a => some (0#11 ++ a ++ 0#7 ++ 93#7)
  | .rdropRetire a => some (128#11 ++ a ++ 0#7 ++ 93#7)
  | .rpin a => some (0#11 ++ a ++ 0#7 ++ 94#7)
  | .rpinUnpin a => some (128#11 ++ a ++ 0#7 ++ 94#7)
  | .rsta a d => some (0#11 ++ a ++ d ++ 95#7)
  | .br o c => some (o ++ c ++ 96#7)
  | .brz o c => some (o ++ c ++ 97#7)
  | .jmp o => some (o ++ 98#7)
  | .call o c => some (o ++ c ++ 99#7)
  | .jr a => some (0#11 ++ a ++ 0#7 ++ 100#7)
  | .ret a => some (128#11 ++ a ++ 0#7 ++ 100#7)
  | .meet o => some (o ++ 0#7 ++ 101#7)
  | .meetrSet a => some (0#11 ++ a ++ 0#7 ++ 102#7)
  | .meetrClr => some (2097152#25 ++ 102#7)
  | .meetrRd d => some (32768#18 ++ d ++ 102#7)
  | .poll f a d => some (0#1 ++ f ++ 0#7 ++ a ++ d ++ 103#7)
  | .lanex s p b a d => some (s ++ p ++ b ++ a ++ d ++ 104#7)
  | .crdu f a d => some (f ++ 0#7 ++ a ++ d ++ 105#7)
  | .scan e f a d => some (e ++ f ++ 0#7 ++ a ++ d ++ 106#7)
  | .bar i => some (0#7 ++ i ++ 0#14 ++ 107#7)
  | .wbase i a => some (i ++ a ++ 0#7 ++ 108#7)
  | .nop => some (0#25 ++ 109#7)
  | .exit => some (2097152#25 ++ 109#7)
  | .yield => some (4194304#25 ++ 109#7)
  | .brk => some (6291456#25 ++ 109#7)
  | .trap a => some (512#11 ++ a ++ 0#7 ++ 109#7)
  | .rfirst a d => some (640#11 ++ a ++ d ++ 109#7)
  | .rdlane b a d => some (6#4 ++ b ++ a ++ d ++ 109#7)
  | .rdsp p s a d => some (p ++ 0#4 ++ s ++ a ++ d ++ 110#7)
  | .cpy c k a => some (c ++ k ++ 0#7 ++ a ++ 0#7 ++ 112#7)
  | .rginit b a => some (0#4 ++ b ++ a ++ 0#7 ++ 113#7)
  | .rgwait a d => some (0#11 ++ a ++ d ++ 114#7)
  | .rgrel a => some (0#11 ++ a ++ 0#7 ++ 115#7)
  | .rgadvClaim a d => some (0#11 ++ a ++ d ++ 116#7)
  | .rgadvPub a => some (128#11 ++ a ++ 0#7 ++ 116#7)
  | .mxld a => some (0#11 ++ a ++ 0#7 ++ 117#7)
  | .mxrun a => some (0#11 ++ a ++ 0#7 ++ 118#7)
  | .mxq d => some (0#18 ++ d ++ 119#7)
  | .emitPlain b a => some (0#4 ++ b ++ a ++ 0#7 ++ 120#7)
  | .emitKeyed b a => some (1#4 ++ b ++ a ++ 0#7 ++ 120#7)
  | .emitRemote b a => some (2#4 ++ b ++ a ++ 0#7 ++ 120#7)
  | .tbinFlush a => some (0#11 ++ a ++ 0#7 ++ 121#7)
  | .tbinQuery a d => some (128#11 ++ a ++ d ++ 121#7)
  | .rdsys i a d => some (i ++ a ++ d ++ 122#7)
  | .wrsys i a d => some (i ++ a ++ d ++ 123#7)
  | .sysopRestart b a => some (0#4 ++ b ++ a ++ 0#7 ++ 124#7)
  | .sysopSkip b a => some (1#4 ++ b ++ a ++ 0#7 ++ 124#7)
  | .sysopKill b a => some (2#4 ++ b ++ a ++ 0#7 ++ 124#7)
  | .sysopTlbinv b a => some (3#4 ++ b ++ a ++ 0#7 ++ 124#7)
  | .sysopWbrange b a => some (4#4 ++ b ++ a ++ 0#7 ++ 124#7)
  | .sysopInvrange b a => some (5#4 ++ b ++ a ++ 0#7 ++ 124#7)
  | .sysopKillcell a => some (768#11 ++ a ++ 0#7 ++ 124#7)
  | .drawReq d => some (0#18 ++ d ++ 125#7)
  | .drawRel => some (2097152#25 ++ 125#7)
  | .launch _ => none
  | .copy _ _ => none
  | .wait _ _ => none
  | .signal _ => none
  | .commandComplete _ _ => none
  | .qtailWrite _ _ => none
  | .qbaseWrite _ _ => none
  | .qctlErrClear _ => none
  | .qctlHalt _ _ => none
  | .contextCreate _ => none
  | .contextDestroy _ => none
  | .pageTableRootReplace _ _ => none
  | .crewWatchLimitSet _ _ => none
  | .hostTlbInvalidate _ _ _ => none
  | .poisonClear _ => none
  | .partitionModeSet _ _ => none
  | .keySlotLoad _ _ _ => none
  | .keySlotUnload _ _ => none
  | .attestationReport _ _ => none
  | .powerCapSet _ _ => none
  | .ethernetConfig _ _ _ => none
  | .hostCxlRead _ _ _ => none
  | .hostCxlWrite _ _ _ => none
  | .biasFlipToHost _ _ => none
  | .biasFlipToDevice _ _ => none
  | .trapqWrite _ _ => none
  | .trapqheadWrite _ _ => none
  | .rregionCreate _ _ _ => none
  | .rregionDestroy _ _ _ => none
  | .noderegRegister _ _ _ => none
  | .noderegDestroy _ _ _ => none
  | .sysregWrite _ _ _ => none
  | .cellPlace _ => none
  | .backfillStop _ => none
  | .gangGatherRoom _ => none
  | .recipeGatherRoom _ => none
  | .preemptRequestRaise _ => none
  | .sliceEnd _ => none
  | .watchdogExpiry _ => none
  | .eviction _ => none
  | .restore _ => none
  | .cellEnd _ => none
  | .bundleRegroup _ _ => none
  | .meetRelease _ _ _ => none
  | .barrierRelease _ _ => none
  | .cisternOrphanTrap _ _ _ => none
  | .ringFltTrap _ _ => none
  | .cisternWriteLand _ _ => none
  | .gatherCombine _ _ => none
  | .storeDrain _ => none
  | .dirtyWordTimeout _ => none
  | .writePerformed _ => none
  | .releaseComplete _ => none
  | .l1FillReturn _ => none
  | .leaseExpiry _ => none
  | .ownershipRecall _ _ _ => none
  | .l2Eviction _ => none
  | .softError _ => none
  | .standpipeRegister _ => none
  | .latestPushLand _ => none
  | .ringPushLand _ => none
  | .standpipeCloseAtHome _ => none
  | .closePushLand _ => none
  | .standpipeFreezeAtHome _ => none
  | .freezePushLand _ => none
  | .standpipeRelocate _ => none
  | .catchUpPushLand _ => none
  | .subscriptionFail _ _ _ => none
  | .rsealComplete _ _ _ => none
  | .copyRingClaim _ => none
  | .copyPiece _ => none
  | .copyComplete _ => none
  | .mxldStart _ => none
  | .mxldComplete _ => none
  | .jobStart _ => none
  | .jobEnd _ => none
  | .drawGrant _ => none
  | .powerBudgetPeriod _ => none
  | .thermalLimit _ => none
  | .thermalTrip => none
  | .binTimerExpiry _ _ _ => none
  | .remoteEmitPull _ => none
  | .trapRecordWrite _ => none
  | .watchLimit _ _ => none
  | .hostFaultRetry _ _ _ => none
  | .hostFaultFail _ _ _ _ => none
  | .pageWalk _ _ _ => none
  | .invalidatingSnoop _ => none
  | .snoopAnswer _ _ _ => none
  | .powerGateEntry _ => none
  | .hdieReset _ => none
  | .planeFenceAck _ _ => none
  | .flitCrcFail _ _ => none
  | .portTrain _ _ _ _ => none
  | .ethernetRetransmitTimeout _ => none
  | .bridgeFail => none
  | .powerOnReset _ _ => none
  | .dieChallengeTimeout _ => none
  | .temperatureFall _ => none
  | .powerGateExit _ => none
  | .hostLineRelease _ => none
  | .fabricBringUp _ => none
  | .hostGroupBridge _ => none

/-- A word as its bytes, lowest address first (R5). -/
def wordBytes (w : BitVec 32) : List Byte :=
  [w.extractLsb' 0 8, w.extractLsb' 8 8, w.extractLsb' 16 8, w.extractLsb' 24 8]

/-- The instruction the decoder reads from an instruction whose bits are `w` (an instruction is one 32-bit word). -/
def decodeTableWord (nbits w : Nat) : Option Instr :=
  if nbits = 0 then none
  else
    match decode (wordBytes (BitVec.ofNat 32 w)) with
    | .ok (i, _) => some i
    | .error _ => none

end Sys2Proof
end

