-- ==== Sys2Proof/Machine/Cipher.lean ====
section
/-! DEFINITION. AES-256-XTS as R401 names it: one 128-byte line is the data unit, and its number the tweak. -/

namespace Sys2Proof.Machine

/-! ## AES-256 -/

/-- Product in the field of AES. -/
def gfMul (a b : Byte) : Byte :=
  ((List.range 8).foldl (fun (x : Byte × Byte) i =>
    (if b.getLsbD i then x.1 ^^^ x.2 else x.1, (x.2 <<< 1) ^^^ (if x.2.msb then 0x1B else 0))) (0, a)).1

/-- Inverse in the field, 0 of 0: the 254th power. -/
def gfInv (a : Byte) : Byte := (List.range 253).foldl (fun x _ => gfMul x a) a

def subByte (a : Byte) : Byte :=
  let b := gfInv a
  b ^^^ b.rotateLeft 1 ^^^ b.rotateLeft 2 ^^^ b.rotateLeft 3 ^^^ b.rotateLeft 4 ^^^ 0x63

def unsubByte (a : Byte) : Byte := gfInv (a.rotateLeft 1 ^^^ a.rotateLeft 3 ^^^ a.rotateLeft 6 ^^^ 0x05)

def xorBytes (a b : List Byte) : List Byte := List.zipWith (· ^^^ ·) a b

/-- Row `r` of the 16 bytes, which stand column by column, turns by `r` columns, or by `4 - r`. -/
def shiftRows (back : Bool) (x : List Byte) : List Byte :=
  (List.range 16).map (fun i => x.getD (i % 4 + 4 * ((i / 4 + (if back then 4 - i % 4 else i % 4)) % 4)) 0)

/-- The columns, each multiplied by the matrix whose first row is `m`. -/
def mixColumns (m : List Byte) (x : List Byte) : List Byte :=
  (List.range 16).map (fun i => (List.range 4).foldl (fun a j =>
    a ^^^ gfMul (m.getD ((j + 4 - i % 4) % 4) 0) (x.getD (i / 4 * 4 + j) 0)) 0)

/-- The 60 key words, of four bytes each, of a key of 32 bytes. -/
def keyWords (key : List Byte) : List (List Byte) :=
  (List.range 52).foldl (fun ws n =>
    let i := n + 8
    let t := ws.getD (i - 1) []
    let u := if i % 8 = 0 then xorBytes ((t.drop 1 ++ t.take 1).map subByte) [(1 : Byte) <<< (i / 8 - 1), 0, 0, 0]
      else if i % 8 = 4 then t.map subByte else t
    ws ++ [xorBytes (ws.getD (i - 8) []) u]) ((List.range 8).map (fun i => (key.drop (4 * i)).take 4))

/-- Round key `r`. -/
def roundKey (ws : List (List Byte)) (r : Nat) : List Byte := ((ws.drop (4 * r)).take 4).flatten

def aesEncrypt (ws : List (List Byte)) (x : List Byte) : List Byte :=
  let mid := (List.range 13).foldl (fun x r =>
    xorBytes (mixColumns [2, 3, 1, 1] (shiftRows false (x.map subByte))) (roundKey ws (r + 1))) (xorBytes x (roundKey ws 0))
  xorBytes (shiftRows false (mid.map subByte)) (roundKey ws 14)

def aesDecrypt (ws : List (List Byte)) (x : List Byte) : List Byte :=
  let mid := (List.range 13).foldl (fun x r =>
    mixColumns [14, 11, 13, 9] (xorBytes ((shiftRows true x).map unsubByte) (roundKey ws (13 - r)))) (xorBytes x (roundKey ws 14))
  xorBytes ((shiftRows true mid).map unsubByte) (roundKey ws 0)

/-! ## XTS -/

/-- The tweak of the next 16 bytes. -/
def nextTweak (t : BitVec 128) : BitVec 128 := (t <<< 1) ^^^ (if t.msb then 0x87 else 0)

/-- The bytes of a number, lowest first. -/
def leBytes : Nat → Nat → List Byte
  | 0, _ => []
  | n + 1, v => BitVec.ofNat 8 v :: leBytes n (v / 256)

/-- The 128 bytes of a line, 16 by 16, under the two halves of the key: its first 32 bytes are the data key, its last the tweak key. -/
def xts (key : BitVec 512) (line : Nat) (block : List (List Byte) → List Byte → List Byte) (x : List Byte) : List Byte :=
  let ks := leBytes 64 key.toNat
  let t0 := (aesEncrypt (keyWords (ks.drop 32)) (leBytes 16 line)).foldr (fun b n => b.toNat + 256 * n) 0
  let ws := keyWords (ks.take 32)
  ((List.range 8).foldl (fun (a : List Byte × BitVec 128) i =>
    let t := leBytes 16 a.2.toNat
    (a.1 ++ xorBytes (block ws (xorBytes ((x.drop (16 * i)).take 16) t)) t, nextTweak a.2)) ([], BitVec.ofNat 128 t0)).1

/-- The bytes in HBM of a line with a number (its physical address shifted right by 7) under a key; key 0 stands for plaintext (R401). -/
def encryptLine (key : BitVec 512) (line : Nat) (x : List Byte) : List Byte := if key = 0 then x else xts key line aesEncrypt x

def decryptLine (key : BitVec 512) (line : Nat) (x : List Byte) : List Byte := if key = 0 then x else xts key line aesDecrypt x

/-- What a line written under one key reads as under another (R402). -/
def recrypt (old new : BitVec 512) (line : Nat) (x : List Byte) : List Byte := decryptLine new line (encryptLine old line x)

end Sys2Proof.Machine
end

