-- ==== Sys2Proof/Machine/State.lean ====
section
/-! DEFINITION. The state of the KV-7 as plain data: every piece of state that the spec gives the machine,
the two closed lists of reasons to stop, and the state right after reset. -/

namespace Sys2Proof.Machine

/-- Why a step stops with a fault. Safe: the machine stops where the part has no power. -/
inductive Fault where
  /-- Raised by `step` when the package has no power (R424: the thermal trip) and no power-on reset is queued. Safe. -/
  | noPower
deriving DecidableEq, Repr

/-- Why a step is refused. -/
inductive Refusal where
  /-- Raised only by an arm of `exec` whose instruction has no meaning yet. Safe: nothing is claimed of it. -/
  | notModelled (mnemonic : String)
deriving DecidableEq, Repr

/-- Partition mode (R342). -/
inductive Mode where
  | one | two | eight
deriving DecidableEq, Repr

/-- A sparse store: rising keys, no entry that holds 0; an unlisted key reads 0. -/
abbrev Store (w : Nat) := List (Nat × BitVec w)

/-- Memory bytes in the canonical form of `Store`: rising keys, no byte 0 listed. -/
abbrev Memory := List Host.Cell

/-! ## Package, ports, power, boot -/

/-- One fabric port, Ableax (R415) or Ethernet (R419). -/
structure Port where
  st : BitVec 2 := 0
  lanes : BitVec 4 := 0
  vmin : BitVec 4 := 0
  vmaj : BitVec 4 := 0
  retry : BitVec 16 := 0
  uncor : BitVec 16 := 0
  peer : BitVec 16 := 0
  /-- Ethernet: the peers it was trained with, and the link version agreed with each (R419). -/
  peers : List (BitVec 16 × BitVec 8) := []
  /-- bits of link time not yet used by a beat, and of the last 64 beats while bulk flits wait, all and the narrow ones (R411, R412). -/
  credit : Nat := 0
  beats : Nat := 0
  narrow : Nat := 0
  /-- times (tb) of the recent uncorrectable flits, newest first (R414: 64 within one second). -/
  recent : List Nat := []
deriving DecidableEq, Repr

/-- An attestation report (R422): the bytes before the signature and the signature. -/
structure Report where
  body : List Byte
  sig : BitVec 4096
deriving DecidableEq, Repr

/-- The package: power, boot, harvest, partition, keys, ports, host port. -/
structure Package where
  /-- false after a thermal trip (R424). -/
  powered : Bool
  /-- boot has finished and the host port is open (R420). -/
  booted : Bool
  /-- the security processor has verified its firmware and waits for the other dies' answers (R420). -/
  booting : Bool
  /-- dies that answered no challenge or failed it: C-dies 0-7, H-dies 8-11, F-die 12 (R420, R421). -/
  failed : List Nat
  mode : Mode
  /-- fuse bits of each C-die: physical clusters enabled (R351). -/
  fuseCl : List (BitVec 13)
  /-- fuse bits of each C-die: cores enabled (R351). -/
  fuseSc : List (BitVec 52)
  /-- DEVID.FABID of each local device (R346). -/
  fabids : List (BitVec 16)
  /-- loaded key slots 1-255 and their keys (R402). -/
  keys : List (Nat × BitVec 512)
  /-- SHA-512 of each die's firmware, dies 0-12 (R422). -/
  fwHash : List (BitVec 512)
  ports : List Port
  eports : List Port
  /-- Ethernet addressing, routes, congestion settings, by register number (R419). -/
  ethCfg : List (Nat × BitVec 64)
  /-- cap in watts (R424). -/
  cap : Nat
  /-- measured power in watts at the last period (R423). -/
  measured : Nat
  /-- concurrent heavy operations each C-die may run in this period (R423). -/
  budgets : List Nat
  /-- tb at which the present power period ends (R423). -/
  periodEnd : Nat
  /-- dies on which nothing new is granted (R424), C-dies 0-7, H-dies 8-11, F-die 12. -/
  hot : List Nat
  /-- the bridge of the host group, and the group's other members, index 1 first (R418). -/
  bridge : Option (BitVec 16)
  members : List (BitVec 16)
  bridgeUp : Bool
  reports : List Report
  /-- status of each firmware command, newest first (R417). -/
  fwStatus : List (BitVec 8)
  /-- queue numbers whose host interrupt was raised, newest first (R377). -/
  irqs : List Nat
  /-- bytes returned to the host by its reads, newest first (R408). -/
  hostReads : List (List Byte)
  /-- requests to the host for a page (R381): context tag, device, page VA, cluster. -/
  hostReqs : List (BitVec 32 × BitVec 64 × Nat)
deriving DecidableEq, Repr

/-! ## Contexts, queues, launches, nodes, pending work -/

/-- A recipe region (R134, R348): its register and, when V = 1, its descriptor. -/
structure Region where
  desc : BitVec 58 := 0
  err : BitVec 5 := 0
  v : Bool := false
  base : BitVec 64 := 0
  table : BitVec 64 := 0
  zsel : BitVec 2 := 0
  tiles : Nat := 0
  cap : Nat := 0
deriving DecidableEq, Repr

/-- NODEREG instance of a context: DESC and ERR (R348); V is whether the device's node exists for it. -/
structure NodeReg where
  idx : Nat
  desc : BitVec 58
  err : BitVec 5
deriving DecidableEq, Repr

/-- A context (R339, R347). -/
structure Context where
  tag : BitVec 32
  dev : Nat
  /-- physical address of the root table (R395). -/
  root : BitVec 48
  keyIds : List (BitVec 8)
  queues : List Nat
  topPri : BitVec 3
  trapHost : Bool
  chk : Bool
  trapq : BitVec 64
  tqHead : BitVec 32
  tqTail : BitVec 32
  slice : BitVec 32
  watchdog : BitVec 32
  handler : BitVec 64
  regions : List Region
  nodeRegs : List NodeReg
  /-- the first recipe region was created (R15). -/
  reserve : Bool
  drawWait : BitVec 64
  cycles : BitVec 64
  /-- crew watch limit LW, 0 off (R394). -/
  lw : Nat
  poolBase : BitVec 48
  poolSize : Nat
  /-- destroyed: it goes when the last of its killed cells has ended (R371). -/
  dying : Bool
deriving DecidableEq, Repr

/-- A command of a hardware queue that has started and not completed (R356). -/
structure Command where
  idx : BitVec 32
  opc : BitVec 8
  cva : BitVec 64
  cval : BitVec 64
  arg0 : BitVec 64
  arg1 : BitVec 64
  arg2 : BitVec 64
  /-- LAUNCH: its launch number; COPY: bytes moved so far. -/
  prog : Nat
  /-- its work is over; only the counter write is left. -/
  finished : Bool
deriving DecidableEq, Repr

/-- A hardware queue window (R354). -/
structure HwQueue where
  qbase : BitVec 64 := 0
  tail : BitVec 32 := 0
  head : BitVec 32 := 0
  bound : Option (BitVec 32) := none
  err : Bool := false
  halt : Bool := false
  errIndex : BitVec 32 := 0
  errCode : BitVec 8 := 0
  running : List Command := []
deriving DecidableEq, Repr

/-- The kernel header as the launch unit read it (R214, R215). -/
structure Header where
  width : Nat
  ncrew : Nat
  fast : Nat
  slow : Nat
  basin : Nat
  bzero : Bool
  fused : Bool
  gang : Nat
  ncis : Nat
  cdecls : List (Nat × BitVec 30)
  roles : List (Nat × Nat × Nat)
  /-- patch entries: word index, parameter offset, kind. -/
  patches : List (Nat × Nat × Nat)
  spineOff : Nat
  crewOff : Nat
  hbytes : Nat
  node : Bool
  nkeyed : Bool
  ncount : Nat
  nsize : Nat
  ntimer : Nat
deriving DecidableEq, Repr

/-- What a launch gives each of its cells (R10, R194, R213). -/
structure Launch where
  num : Nat
  tag : BitVec 16
  ctx : BitVec 32
  kimg : BitVec 64
  param : BitVec 64
  count : Nat
  hdr : Header
  /-- patched words: VA, kind, value. -/
  patches : List (BitVec 64 × Nat × BitVec 32)
  pri : BitVec 3
  /-- withheld recipe reserve binds its cells (R15). -/
  reserve : Bool
  /-- cell index of the next cell to place. -/
  next : Nat
  ended : Nat
  queue : Option Nat
  node : Option Nat
  /-- bytes of the record batch (R192), in bin order. -/
  batch : List (List Byte)
  /-- the cell of the handler node (R321). -/
  handler : Bool
  /-- tile the recipe cell builds, and its depth (R140). -/
  tile : Option (BitVec 64 × Nat)
deriving DecidableEq, Repr

/-- Kinds of pending item (R360). -/
inductive ItemKind where
  | launch (num : Nat)
  | node (num : Nat)
  | recipe (num : Nat)
  | restore (uids : List Nat)
deriving DecidableEq, Repr

/-- An item of a device's pending list (R360). -/
structure PendItem where
  id : Nat
  dev : Nat
  ctx : BitVec 32
  kind : ItemKind
  pri : BitVec 3
  /-- order of entry; equal entries tie on `sub`. -/
  entry : Nat
  /-- queue number, node index, cell index: the fourth key. -/
  sub : Nat × Nat × Nat
  /-- tb at entry. -/
  since : Nat
  /-- waited SLICE.LEN: nothing ranked below it is placed (R361). -/
  stop : Bool
  /-- physical clusters it holds requests on, each with the tb at which it was raised and its watchdog's end (R366, R368). -/
  reqs : List (Nat × Nat × Nat)
  /-- clusters marked for a gang item, with the order of their slice ends (R366). -/
  marks : List (Nat × Nat)
  /-- uids of the cells it gathers room from, and the clusters it gathers room on (R362, R143). -/
  gather : List Nat
  room : List Nat
deriving DecidableEq, Repr

/-- A node bin (R192, R193). -/
structure Bin where
  key : BitVec 64
  since : Nat
  recs : List (List Byte)
deriving DecidableEq, Repr

/-- A registered node (R190, R349). -/
structure LNode where
  dev : Nat
  idx : Nat
  ctx : BitVec 32
  desc : BitVec 58
  kernel : BitVec 64
  param : BitVec 64
  z : Nat
  c : Nat
  t : Nat
  keyed : Bool
  pri : BitVec 3
  hdr : Header
  bins : List Bin
  /-- spilled records in arrival order: key, arrival tb, record. -/
  spill : List (BitVec 64 × Nat × List Byte)
deriving DecidableEq, Repr

/-- A remote emit on its way to its target (R191). -/
structure RemoteEmit where
  id : Nat
  cell : Nat
  unit : Nat
  tids : List Nat
  src : BitVec 32
  handle : BitVec 64
  va : BitVec 64
deriving DecidableEq, Repr

/-- A trap record or report (R374, R375, R426): eight words, at +0 to +56, and what delivery needs. -/
structure TrapRec where
  dev : Nat
  ctx : BitVec 32
  words : List (BitVec 64)
  /-- raised in a cell of the handler node (R379). -/
  fromHandler : Bool
  /-- clk of the trap, and its place in the arbitration order of that clk (R59, R376). -/
  clk : Nat
  rank : Nat
deriving DecidableEq, Repr

/-- The slice of a cluster (R365). -/
structure ClSlice where
  cl : Nat
  ctx : BitVec 32
  ends : Nat
  /-- order of the last slice end (R366). -/
  endSeq : Nat
deriving DecidableEq, Repr

/-! ## Cells and threads -/

/-- Thread states (R20). -/
inductive TState where
  | eligible | held | blocked | parked | exited
deriving DecidableEq, Repr

/-- A pending POISON or RECIPE_WRITE of a thread (R283): the VA and the PC that met it. -/
structure PendTrap where
  va : BitVec 64
  pc : BitVec 64
  /-- the record that the trap service holds until the thread parks: its words, built when the failure is found. -/
  held : List (BitVec 64)
deriving DecidableEq, Repr

/-- Code, ADDR and AUX of a trap (R373). -/
structure TrapInfo where
  code : BitVec 8
  addr : BitVec 64
  aux : BitVec 64
deriving DecidableEq, Repr

/-- What one thread's execution of an instruction comes to. -/
inductive LaneOut where
  | done
  | jump (pc : BitVec 64)
  | trap (i : TrapInfo)
  /-- a pending trap that the thread takes at this instruction (R283): its held record. -/
  | late (i : TrapInfo) (held : List (BitVec 64))
  | block (kind : Nat) (obj : BitVec 64)
  | stall
  | exit
deriving DecidableEq, Repr

/-- One thread (R20, R199, R389). -/
structure Thread where
  st : TState
  pc : BitVec 64
  mr : Option (BitVec 64)
  /-- number of its bundle; 0: waits for the next regrouping (R23). -/
  bun : Nat
  /-- ready clk (R199). -/
  ready : Nat
  /-- clk at which it last became ready (R26). -/
  age : Nat
  /-- wake kind 1-16 (R383), 0 when not blocked. -/
  wkind : Nat
  wobj : BitVec 64
  /-- order of blocking (R59, R181) and its clk. -/
  wseq : Nat
  wclk : Nat
  /-- trap code when parked. -/
  tcode : BitVec 8
  ppois : Option PendTrap
  prw : Option PendTrap
  /-- an interlocked instruction's first issue has been made (R201): its own order number, 0 when none. -/
  stage : Nat
  /-- answer that a completed interlock left for the instruction's second issue. -/
  answer : Option (BitVec 64)
  /-- the word it blocked in, which completes at its wake; none after a restore: the word is fetched again. -/
  word : Option (BitVec 32)
  /-- MODEL FIELD: values of the cisterns that its waiting instruction has read, by number (R52: read once). -/
  vals : List (Nat × BitVec 64)
  /-- MODEL FIELD: the record that its waiting `emit` has read (R317). -/
  kept : List Byte
  /-- the block that it has fetched, and the context's CHK at that time (R347). -/
  blk : Option (BitVec 64 × Bool)
deriving DecidableEq, Repr

/-- A fixed-latency result under way (R200, R202, R204). -/
structure Pending where
  /-- MODEL FIELD: the issue whose last pass is still to come, and then `land` and `lock` count from its clk; 0 when dated. -/
  iss : Nat
  /-- register: `phys * 128 + tid` for a v register, 32768 + n for a k register, 65536 for WB, 65537 for CVB. -/
  reg : Nat
  land : Nat
  /-- k registers: interlocked until this clk (R200). -/
  lock : Nat
  /-- value when the result was issued, and the result. -/
  old : BitVec 64
  new : BitVec 64
deriving DecidableEq, Repr

/-- A load batch (R109): its number and the instructions in it. -/
structure Batch where
  num : Nat
  count : Nat
  closed : Bool
deriving DecidableEq, Repr

/-- The state a spine thread or a crew has of its own (R32, R45, R71, R274). Unit 0 of a cell is its spine,
unit c + 1 its crew c. -/
structure UnitSt where
  threads : List Thread
  /-- x1-x63 of the spine, k0-k23 of a crew, by number. -/
  regs : Store 64
  /-- v registers by `phys * 128 + tid`. -/
  v : Store 32
  wb : Nat
  cvb : Nat
  /-- sticky flags NV DZ OF UF NX ... in the layout of R71. -/
  flags : BitVec 5
  /-- flags raised by results that land later: issue as in `Pending`, clk and bits (R257). -/
  flagPend : List (Nat × Nat × BitVec 5)
  timer : BitVec 64
  /-- TIMER at its last WATCH: one for each multiple of the limit (R394). -/
  watched : BitVec 64
  /-- active code book: 0 LIN8, 1 C4, 2 C6, 3 C8 (R275). -/
  book : BitVec 2
  bookData : List (BitVec 16)
  pend : List Pending
  batches : List Batch
  drawHeld : Bool
  drawPend : Bool
  /-- flags word of its most recent mxld (R185). -/
  mxFlags : BitVec 5
  /-- a discard since its last mxq (R188). -/
  mxDisc : Bool
  /-- logical core and crew slot; for the spine 0 and the spine thread number (R13). -/
  core : Nat
  slot : Nat
  role : Nat
deriving DecidableEq, Repr

/-- Cistern modes (R47, R48). -/
inductive CMode where
  | free | bcast | gather
deriving DecidableEq, Repr

/-- An accepted write that has not landed (R51): its order number, the value, the override. -/
structure CisWrite where
  seq : Nat
  unit : Nat
  tids : List Nat
  val : BitVec 64
  ovr : BitVec 4
deriving DecidableEq, Repr

/-- A cistern (R47). -/
structure Cistern where
  value : BitVec 64
  full : Bool
  mode : CMode
  rc : BitVec 8
  remaining : BitVec 8
  override : Bool
  g : BitVec 8
  op : BitVec 4
  cls : BitVec 2
  mask : BitVec 128
  /-- partials by crew index. -/
  partials : Store 64
  pending : Option CisWrite
deriving DecidableEq, Repr

/-- A barrier id of a cell (R250, R251): completed instances and the threads that have arrived: unit, tid. -/
structure Barrier where
  instances : BitVec 32
  arrived : List (Nat × Nat)
deriving DecidableEq, Repr

/-- Slot states (R116, R133). -/
inductive SubSt where
  | open | frozen | closing | closed | failed
deriving DecidableEq, Repr

/-- The cluster's own copy of a slot's header, and what the slot watches (R116, R117). -/
structure Slot where
  slot : BitVec 32
  md : BitVec 8
  st : SubSt
  widx : BitVec 32
  ovr : BitVec 16
  sq : BitVec 32
  va : BitVec 64
  /-- memory key of the granule at the home, divided by 16. -/
  gran : Nat
  /-- the failure's cause was poison (R129). -/
  poison : Bool
  /-- it failed while its cell was saved: the header shows it at the restore (R133). -/
  late : Bool
deriving DecidableEq, Repr

/-- A cell placed on a cluster or evicted and awaiting restore. -/
structure Cell where
  uid : Nat
  launch : Nat
  ctx : BitVec 32
  dev : Nat
  tag : BitVec 16
  index : BitVec 32
  count : BitVec 32
  kimg : BitVec 64
  param : BitVec 64
  hdr : Header
  patches : List (BitVec 64 × Nat × BitVec 32)
  pri : BitVec 3
  node : Option Nat
  nrec : BitVec 16
  handler : Bool
  tile : Option (BitVec 64 × Nat)
  gang : Nat
  rank : Nat
  /-- cells placed together with it (R18). -/
  peers : List Nat
  /-- physical cluster 13 * C-die + c, while placed. -/
  cl : Nat
  spineNo : Nat
  basinOff : Nat
  basinSize : Nat
  /-- it stands in the recipe reserve (R143). -/
  inReserve : Bool
  /-- save record: physical address and bytes reserved (R386). -/
  save : BitVec 48
  saveLen : Nat
  /-- order of placement. -/
  placeSeq : Nat
  cis : List Cistern
  bars : List Barrier
  units : List UnitSt
  subs : List Slot
  /-- the eviction point has passed; its steps run (R384). -/
  evicting : Bool
  /-- tb at the eviction point (R388). -/
  evTb : Nat
  /-- order number of the eviction point: what its threads may have read by then is performed before it is saved (R168). -/
  evSeq : Nat
  /-- saved; awaits restore. -/
  evicted : Bool
  /-- every thread was killed by sysop.killcell or context destruction (R324). -/
  killed : Bool
  /-- sysop kill acts on saved state: unit, tid, function 0 restart 1 skip 2 kill (R323). -/
  deferred : List (Nat × Nat × Nat)
deriving DecidableEq, Repr

/-- What a bundle uses in every clk of its passes: banks of its v sources, the special-function unit, the basin port (R27). -/
structure PortUse where
  banks : List Nat
  special : Bool
  basin : Bool
deriving DecidableEq, Repr

/-- Who issues now: the threads of one bundle, the word and its block's control word. -/
structure Issue where
  cell : Nat
  unit : Nat
  tids : List Nat
  pc : BitVec 64
  word : BitVec 32
  ctrl : BitVec 32
  /-- re-issue of a blocked instruction at its wake (R20): takes no port. -/
  wake : Bool
  /-- issue port 0 or 1 (R26). -/
  port : Nat
  /-- MODEL FIELD: the bundle was accepted and took the port, with what it uses. -/
  took : Option PortUse
deriving DecidableEq, Repr

/-! ## Cluster-side memory system, engines -/

/-- An L1 line (R103). Dirty words are the entries of `stores` for it. -/
structure L1Line where
  cl : Nat
  l1 : Nat
  /-- memory key divided by 128. -/
  line : Nat
  data : BitVec 1024
  /-- valid bit of each word. -/
  valid : BitVec 32
  /-- lease expiry in tb. -/
  expiry : Nat
  /-- key id under which the line's bytes are plaintext (R402). -/
  kid : BitVec 8
deriving DecidableEq, Repr

/-- What an entry of the store path is; one with a basin key waits for its turn to write the basin (R150, R153). -/
inductive StoreKind where
  | plain
  /-- `stf`: the bytes and the granule's bit together (R294). -/
  | full
  /-- `rgadv.pub` (true) or `rgrel`: a counter of the ring at `va` moves (R180). -/
  | ring (pub : Bool)
  /-- a release marker at an agent and a storage scope (R152, R153): what the thread does after it is held behind it. -/
  | marker (scope : BitVec 3) (q : BitVec 2)
  /-- an atomic at the home: operation, operand, compare value, load entry that takes the old value. -/
  | atomic (op : BitVec 4) (b : BitVec 64) (d : BitVec 64) (load : Option Nat)
deriving DecidableEq, Repr

/-- Where an entry of the store path stands: held back, dirty in its L1, on its way, at its home. -/
inductive StorePhase where
  | held | dirty | sent | drained
deriving DecidableEq, Repr

/-- A store on its way from its thread to its home (R105, R106, R150). -/
structure StoreEnt where
  seq : Nat
  kind : StoreKind
  ph : StorePhase
  cl : Nat
  l1 : Nat
  cell : Nat
  unit : Nat
  tid : Nat
  ctx : BitVec 32
  va : BitVec 64
  /-- memory key of its first byte. -/
  key : Nat
  kid : BitVec 8
  bytes : List Byte
  /-- tb at which it became dirty; once drained, the order number of its arrival at the home. -/
  born : Nat
  pc : BitVec 64
  /-- MODEL FIELD: the issue that made it; one bundle's entries share it (R281). -/
  iss : Nat
  /-- a scalar-pipe store: one access that stands in the program order of every thread of its bundle (R281). -/
  scal : Bool
  /-- a release, fence or atomic has followed it: it merges into no later store (R150). -/
  shut : Bool
  /-- its L1 line was evicted: it drains now (R106). -/
  urged : Bool
  /-- earlier stores to its words that merged into it: keys and bytes, oldest first (R106). -/
  more : List (Nat × List Byte)
  /-- MODEL FIELD: order number of the earliest store in it; a release after that one covers it (R153). -/
  first : Nat
deriving DecidableEq, Repr

/-- Where a loaded value goes. -/
inductive LoadDst where
  | none
  /-- v registers from physical number `p`. -/
  | v (p : Nat)
  /-- x or k registers from number `n`. -/
  | r (n : Nat)
deriving DecidableEq, Repr

/-- A load or atomic whose batch is open or outstanding (R109-R112). -/
structure LoadEnt where
  num : Nat
  cell : Nat
  unit : Nat
  tid : Nat
  batch : Nat
  dst : LoadDst
  /-- bytes written to the destination: 4, 8, or 16, and the operation of R284. -/
  size : Nat
  sgn : Bool
  n : Nat
  va : BitVec 64
  key : Nat
  kid : BitVec 8
  cl : Nat
  l1 : Nat
  isAtom : Bool
  /-- an acquire: later global accesses of the thread wait for its value (R154). -/
  acq : Bool
  far : Bool
  /-- the value has been taken and written. -/
  done : Bool
  /-- destination bytes before the load, low register first; those of a later instruction that wrote there (R111). -/
  old : List Byte
  /-- the bytes it returned, extended to the destination; empty until then. -/
  val : List Byte
  /-- registers of the destination that a later instruction wrote, as pending numbers (R111). -/
  written : List Nat
  pc : BitVec 64
  /-- MODEL FIELD: the issue that made it; its loads share a batch place (R109). -/
  iss : Nat
  /-- a scalar-pipe load: one access that stands in the program order of every thread of its bundle (R281). -/
  scal : Bool
  /-- bytes that the tile's home has promised it: its line was dropped after it was accepted (R283). -/
  got : Option (List Byte)
deriving DecidableEq, Repr

/-- A fetch of a line into an L1 under way, for loads or a prefetch (R103, R292): 32-byte sectors still to come. -/
structure Fetch where
  num : Nat
  cl : Nat
  l1 : Nat
  line : Nat
  kid : BitVec 8
  long : Bool
  left : BitVec 4
deriving DecidableEq, Repr

/-- A translation held by a cluster TLB (`lvl` 0-2: a leaf at that level) or by an H-die's second-level TLB (R399). -/
structure TlbEnt where
  /-- physical cluster, or 1000 + H-die. -/
  unit : Nat
  ctx : BitVec 32
  lvl : Nat
  /-- VA bits of the page or of the table's reach, shifted down. -/
  page : Nat
  entry : BitVec 64
  /-- a pointer entry at level `lvl`, which only a second-level TLB caches (R399). -/
  ptr : Bool
deriving DecidableEq, Repr

/-- A copy accepted by a copy engine (R171-R177). -/
structure CopyOp where
  num : Nat
  cell : Nat
  unit : Nat
  tid : Nat
  cl : Nat
  f : BitVec 4
  p : List (BitVec 64)
  /-- order number at acceptance; its earlier stores are performed before its first read (R163). -/
  seq : Nat
  /-- bytes performed. -/
  bytes : Nat
  /-- its ring claim: the claim counter, and the basin address of the slot (R180). -/
  claim : Option (Nat × Nat)
  granted : Bool
  /-- faulted while it held a claim: the voided slot waits to be published (R180). -/
  voided : Bool
  /-- stopped at an eviction (R177). -/
  stopped : Bool
deriving DecidableEq, Repr

/-- An entry of a matrix queue (R186). -/
structure MxEnt where
  num : Nat
  cell : Nat
  unit : Nat
  cl : Nat
  isRun : Bool
  /-- a repeated plane load after a restore: 1 the active plane's, moved there when it ends; 2 the shadow plane's (R189). -/
  reload : Nat
  p : List (BitVec 64)
  /-- activation flags fixed at enqueue (R185). -/
  act : BitVec 5
  seq : Nat
  granted : Bool
  running : Bool
  /-- clk at which it started. -/
  started : Nat
  /-- a job's output rows that are written (R187). -/
  rows : Nat
  /-- a job's ring claim: the claim counter, and the basin address of the slot (R180). -/
  claim : Option (Nat × Nat)
  /-- saved with its evicted cell (R189). -/
  stopped : Bool
deriving DecidableEq, Repr

/-- A stationary tile (R182, R183, R186). -/
structure Plane where
  valid : Bool
  /-- owning cell and unit; none: a tile with no owner. -/
  owner : Option (Nat × Nat)
  p : List (BitVec 64)
  /-- 128 columns of stored bytes, metadata bytes, code book entries. -/
  cols : List (List Byte)
  metas : List (List Byte)
  book : List (BitVec 16)
deriving DecidableEq, Repr

/-- The matrix array of a cluster. -/
structure MxArray where
  cl : Nat
  shadow : Plane
  active : Plane
  /-- place of the queue served last in the arbitration order, which outlives its cell (R186, R370: round-robin). -/
  last : Option Nat
deriving DecidableEq, Repr

/-- A queued request to a sluice (R195). -/
structure DrawReq where
  die : Nat
  /-- 0 a unit (cell, unit), 1 a copy (number), 2 a matrix entry (number). -/
  kind : Nat
  cell : Nat
  num : Nat
  pri : BitVec 3
  seq : Nat
  since : Nat
deriving DecidableEq, Repr

/-- A bundle on its issue port: its passes are not over (R24, R26). -/
structure IssuePort where
  cl : Nat
  core : Nat
  port : Nat
  cell : Nat
  unit : Nat
  pc : BitVec 64
  word : BitVec 32
  ctrl : BitVec 32
  tids : List Nat
  /-- threads whose pass is still to come. -/
  rest : List Nat
  /-- clk of the pass under way that are left. -/
  left : Nat
  /-- MODEL FIELD: order number of the issue. -/
  iss : Nat
  /-- WB and CVB at the issue (R41), and the values of the cisterns that it read in its issue clk (R52). -/
  wb : Nat
  cvb : Nat
  vals : List (Nat × BitVec 64)
  /-- the active code book at the issue (R275). -/
  book : BitVec 2
  bookData : List (BitVec 16)
  use : PortUse
  /-- what the threads that have had their pass come to. -/
  outs : List (Nat × LaneOut)
  /-- MODEL FIELD: TIMER when it came to the watch limit in these passes: the threads park when they are over (R394). -/
  watch : Option (BitVec 64)
deriving DecidableEq, Repr

/-- A core stalled on a host-serviced fault (R381): cluster, core (100 for the spine core, 101 for the
engines, which stall no thread), the accesses' page and its bytes. -/
structure CoreStall where
  cl : Nat
  core : Nat
  ctx : BitVec 32
  page : BitVec 64
  size : Nat
  /-- answer: 0 none, 1 retry, 2 fail TRANSLATION, 3 fail PROTECTION. -/
  answer : Nat
deriving DecidableEq, Repr

/-- A change of full/empty bits under way (R295): the next granule's basin address and the granules left. -/
structure FeOp where
  num : Nat
  cell : Nat
  unit : Nat
  tid : Nat
  addr : Nat
  left : Nat
  v : Bool
deriving DecidableEq, Repr

/-- A flit on its way over a port (R411-R414, R419): 0-63 Ableax, 64-71 Ethernet. -/
structure Flit where
  /-- order of sending. -/
  num : Nat
  port : Nat
  /-- who sends it: a cluster, 1000 + a device for what the homes and the F-die send, 2000 for the peer of the port. -/
  src : Nat
  /-- FABID of the device that it goes to. -/
  dst : BitVec 16
  bulk : Bool
  /-- address class; none: the class of the flits that carry no address. -/
  cls : Option Nat
  load : FlitLoad
  /-- beats still to be sent; at 0 it waits, on Ethernet, for its acknowledgement. -/
  left : Nat
  /-- failures of its CRC in a row. -/
  row : Nat
  /-- tb at which it was last sent. -/
  sent : Nat
deriving DecidableEq, Repr

/-- The clusters' memory-side and engine-side state. -/
structure Clusters where
  lines : List L1Line
  stores : List StoreEnt
  loads : List LoadEnt
  fetches : List Fetch
  feOps : List FeOp
  tlb : List TlbEnt
  copies : List CopyOp
  mx : List MxEnt
  arrays : List MxArray
  draws : List DrawReq
  ports : List IssuePort
  stalls : List CoreStall
  /-- context that last used each cluster's basin (R96). -/
  basinCtx : List (Nat × BitVec 32)
  /-- bulk flits sent by a cluster on a port since its last plane fence (R413). -/
  bulk : List (Nat × Nat)
  /-- plane fences sent and not acknowledged: cluster, port, seq of the release. -/
  fences : List (Nat × Nat × Nat)
  /-- flits on their way, in the order sent. -/
  flits : List Flit
  /-- words owned by an L1 (R107): cluster, L1, memory key divided by 4. -/
  owned : List (Nat × Nat × Nat)
  /-- bytes that a cluster's copy engine has moved in this clk (R176). -/
  moved : List (Nat × Nat)
deriving DecidableEq, Repr

/-! ## The home -/

/-- MESI state of a holder (R405). -/
inductive Mesi where
  | m | e | s | i
deriving DecidableEq, Repr

/-- A holder of a line other than its home device: a device by FABID, or the host (65536 and up). -/
structure Holder where
  who : Nat
  st : Mesi
  /-- an invalidation is on its way (R406). -/
  asked : Bool
deriving DecidableEq, Repr

/-- What the home keeps of one 128-byte line (R103-R105, R403, R404, R93, R402). DESIGN CHOICE (log entry 129): of a line that several
devices of the package hold, one record keeps the leases, k and the copy of all. -/
structure HLine where
  line : Nat
  /-- lease state 0-6. -/
  k : Nat
  /-- latest expiry granted to each L1: cluster, L1, tb. -/
  leases : List (Nat × Nat × Nat)
  /-- a write has waited on the line since k last changed. -/
  waited : Bool
  /-- a latest expiry for which k has already risen. -/
  raised : Nat
  poison : Bool
  /-- the L2 holds the line. -/
  present : Bool
  /-- the L2's copy is newer than its backing memory. -/
  dirty : Bool
  /-- key id the L2 holds the line under, and the key its bytes were written under; 0 is plaintext (R402). -/
  kid : BitVec 8
  wkey : BitVec 512
  /-- holders in the directory of its home (R405). -/
  holders : List Holder
  /-- this device's own holding of a line homed elsewhere (R406). -/
  mine : Mesi
  /-- an invalidating snoop waits for the leases to pass (R406). -/
  snoop : Bool
  /-- devices of the package, other than the line's home device, whose L2s hold it (R91, R405). -/
  devs : List Nat
  /-- writes that wait at the home for leases on the line, with the order of their coming (R403, R404). -/
  noted : List (Nat × Nat)
deriving DecidableEq, Repr

/-- A subscriber record at the home (R119). -/
structure HomeSub where
  cell : Nat
  slot : BitVec 32
  ctx : BitVec 32
  va : BitVec 64
  md : BitVec 8
  base : BitVec 32
  /-- 0 open, 1 frozen. -/
  frozen : Bool
  /-- writes counted at the last push sent before a freeze. -/
  atFreeze : BitVec 32
deriving DecidableEq, Repr

/-- A standpipe table entry chain of one granule (R119, R120). -/
structure Pipe where
  gran : Nat
  count : BitVec 32
  subs : List HomeSub
deriving DecidableEq, Repr

/-- Messages between a home and a subscriber's cluster (R121, R122, R127, R130, R131). -/
inductive MsgKind where
  | register | data | closeReq | closePush | freezeReq | freezePush | relocate | catchUp (extra : Nat) | fail (poison : Bool)
deriving DecidableEq, Repr

/-- A message on the standpipe path, in the order sent. -/
structure Msg where
  num : Nat
  cell : Nat
  slot : BitVec 32
  kind : MsgKind
  sq : BitVec 32
  data : BitVec 128
deriving DecidableEq, Repr

/-- Tile states (R136). -/
inductive TileSt where
  | absent | resident | building | poisoned | retired
deriving DecidableEq, Repr

/-- The siphon's copy of a tile's record words and what it keeps of a build (R136, R137, R142). -/
structure Tile where
  ctx : BitVec 32
  base : BitVec 64
  st : TileSt
  gen : BitVec 24
  pin : BitVec 32
  depth : BitVec 64
  /-- cell that owns the build: the producer's, or the recipe cell once placed. -/
  owner : Option Nat
  /-- launch of the recipe cell of a siphon build. -/
  launch : Option Nat
  /-- lines present in L2, by index in the tile. -/
  present : List Nat
  /-- source tiles pinned by the build. -/
  srcs : List (BitVec 64)
  /-- engine operations whose read waits for the end of the build: the order number at which each stopped, its own (R138). -/
  waiters : List (Nat × Nat)
deriving DecidableEq, Repr

/-- A write that no thread made, waiting at its home for leases (R105): the host's (R408), the siphon's (R136). -/
structure HomeWrite where
  num : Nat
  /-- the device that makes it. -/
  dev : Nat
  key : Nat
  kid : BitVec 8
  /-- it clears the line's poison (R410). -/
  clear : Bool
  bytes : List Byte
deriving DecidableEq, Repr

/-- A flip of a bias bit under way (R409). -/
structure Flip where
  dev : Nat
  block : Nat
  toHost : Bool
deriving DecidableEq, Repr

/-- Memory and the homes. -/
structure Home where
  mem : Memory
  /-- full/empty bits by basin granule: 2097152 / 16 per physical cluster. -/
  fe : Store 1
  lines : List HLine
  pipes : List Pipe
  msgs : List Msg
  tiles : List Tile
  writes : List HomeWrite
  /-- 64 KiB blocks in host bias: device, block (R408). -/
  bias : List (Nat × Nat)
  flips : List Flip
  /-- power-gated L2 slices, by global slice number (R407). -/
  gated : List Nat
  /-- H-dies in reset: every snoop answers invalid (R407). -/
  hreset : List Nat
deriving DecidableEq, Repr

/-- Scheduling state: contexts, queues, launches, pending list, nodes, trap service. -/
structure Sched where
  ctxs : List Context
  /-- tag of the next context (R339). -/
  nextTag : BitVec 32
  queues : List HwQueue
  launches : List Launch
  items : List PendItem
  nodes : List LNode
  remotes : List RemoteEmit
  /-- records waiting in the trap service, in trap order (R378). -/
  traps : List TrapRec
  /-- 16-bit launch tag counter of each device (R374). -/
  tagCtr : List (BitVec 16)
  slices : List ClSlice
  /-- records the spill area of a device can hold (R192). -/
  spillRoom : Nat
deriving DecidableEq, Repr

/-- A wait that is over and is served when its turn comes: a thread's, or an event's. -/
inductive Due where
  | thread (cell unit tid : Nat)
  | event (i : Instr)
deriving DecidableEq, Repr

/-- What takes its turn in a clk, in the order of R59 and R101: a basin access that waited for its thread's earlier ones, a woken `ldf`,
a change of full/empty bits that goes on, a bundle or spine thread that issues, a bundle whose passes go on at its port. -/
inductive Turn where
  | basin (num : Nat)
  | wake (cell unit tid : Nat)
  | fe (num : Nat)
  | start (cell unit : Nat) (tids : List Nat) (pc : BitVec 64) (port : Nat)
  | pass (cl core port : Nat)
deriving DecidableEq, Repr

/-- Phases of a clk: the device's own steps, the waits that are over, the turns of bundles and spine threads, the rest. -/
inductive Phase where
  | device | waits | turns | rest
deriving DecidableEq, Repr

/-- The whole machine. -/
structure State where
  /-- the core clock in clk since power-on. -/
  clk : Nat
  /-- MODEL FIELD: a counter every step advances; free values are taken at it, and orders of events from it. -/
  fresh : Nat
  /-- MODEL FIELD: what the host and the world outside do, in order, each with the clk that pass before it. -/
  agenda : List (Nat × Instr)
  /-- MODEL FIELD: host commands that wait for a line at its home. -/
  waiting : List Instr
  /-- MODEL FIELD: accesses that the end of a build serves at once, in the order in which they blocked (R138, R144). -/
  served : List Due
  /-- MODEL FIELD: waits that were over when this clk began, in the order of R59, and the releases that follow from the clk before. -/
  due : List Due
  /-- MODEL FIELD: the phase of the clk. -/
  phase : Phase
  /-- MODEL FIELD: what issues in this clk, in the order of R59. -/
  turns : List Turn
  issue : Issue
  pkg : Package
  sched : Sched
  cells : List Cell
  clu : Clusters
  home : Home
deriving DecidableEq, Repr

/-! ## Reset -/

/-- The package after power-on reset, before boot (R420). Harvest fuses, mode, hashes and budgets: log entries 1 and 9. -/
def Package.reset : Package where
  powered := true
  booted := false
  booting := false
  failed := []
  mode := .one
  fuseCl := List.replicate 8 0x0FFF#13
  fuseSc := List.replicate 8 0x0FFFFFFFFFFFF#52
  fabids := List.replicate 8 0
  keys := []
  fwHash := List.replicate 13 0
  ports := List.replicate 64 {}
  eports := List.replicate 8 {}
  ethCfg := []
  cap := 3200
  measured := 0
  budgets := List.replicate 8 16
  periodEnd := 0
  hot := []
  bridge := none
  members := []
  bridgeUp := true
  reports := []
  fwStatus := []
  irqs := []
  hostReads := []
  hostReqs := []

def Sched.reset : Sched where
  ctxs := []
  nextTag := 1
  queues := List.replicate 64 {}
  launches := []
  items := []
  nodes := []
  remotes := []
  traps := []
  tagCtr := List.replicate 8 0
  slices := []
  spillRoom := 65536

def Clusters.reset : Clusters where
  lines := []
  stores := []
  loads := []
  fetches := []
  feOps := []
  tlb := []
  copies := []
  mx := []
  arrays := []
  draws := []
  ports := []
  stalls := []
  basinCtx := []
  bulk := []
  fences := []
  flits := []
  owned := []
  moved := []

def Home.reset : Home where
  mem := []
  fe := []
  lines := []
  pipes := []
  msgs := []
  tiles := []
  writes := []
  bias := []
  flips := []
  gated := []
  hreset := []

def Issue.none : Issue := ⟨0, 0, [], 0, 0, 0, false, 0, Option.none⟩

/-- The machine right after reset: no context, no cell, every memory byte 0 (log entries 1, 2, 3, 9). -/
def State.reset : State where
  clk := 0
  fresh := 0
  agenda := []
  waiting := []
  served := []
  due := []
  phase := .device
  turns := []
  issue := Issue.none
  pkg := Package.reset
  sched := Sched.reset
  cells := []
  clu := Clusters.reset
  home := Home.reset

end Sys2Proof.Machine
end

