-- ==== Sys2Proof/Machine/Ops.lean ====
section
/-! DEFINITION. Named operations over the state: sparse stores, memory bytes, the parts of the state by name, harvest and
numbering, traps and the return from them. -/

namespace Sys2Proof.Machine

/-- Put an item into a list: in the place of the one it replaces, or in front. -/
def putIn {α : Type} (same : α → Bool) (x : α) (l : List α) : List α :=
  if l.any same then l.map (fun y => if same y then x else y) else x :: l

/-! ## Sparse stores -/

/-- Value at a key; an unlisted key reads 0 (log entry 2). -/
def sget {w : Nat} : Store w → Nat → BitVec w
  | [], _ => 0
  | (a, v) :: r, k => if k < a then 0 else if k = a then v else sget r k

/-- Put a value at a key, keeping keys rising and listing no 0. -/
def sset {w : Nat} : Store w → Nat → BitVec w → Store w
  | [], k, x => if x = 0 then [] else [(k, x)]
  | (a, v) :: r, k, x =>
    if k < a then (if x = 0 then (a, v) :: r else (k, x) :: (a, v) :: r)
    else if k = a then (if x = 0 then r.dropWhile (fun e => decide (e.1 ≤ k)) else (k, x) :: r)
    else (a, v) :: sset r k x

/-- Keys rise above `lo` and no entry is 0. -/
def swfFrom {w : Nat} (lo : Nat) : Store w → Bool
  | [] => true
  | (a, v) :: r => decide (lo ≤ a) && decide (v ≠ 0) && swfFrom (a + 1) r

/-- The canonical form of a sparse store. -/
def swf {w : Nat} (m : Store w) : Bool := swfFrom 0 m

/-- The canonical form of memory: addresses strictly rising, no entry equal to what an unlisted address reads as. -/
def Memory.wf (m : Memory) : Bool := swf m

/-! ## Bytes -/

/-- Number of little-endian bytes (R5). -/
def natOfBytes : List Byte → Nat
  | [] => 0
  | b :: r => b.toNat + 256 * natOfBytes r

/-- The `n` low bytes of a number, little-endian (R5). -/
def bytesOfNat : Nat → Nat → List Byte
  | 0, _ => []
  | n + 1, v => BitVec.ofNat 8 v :: bytesOfNat n (v / 256)

/-- `n` bytes of memory from key `k`. -/
def readBytes (m : Memory) (k : Nat) : Nat → List Byte
  | 0 => []
  | n + 1 => sget m k :: readBytes m (k + 1) n

/-- Bytes written to memory from key `k`. -/
def writeBytes (m : Memory) (k : Nat) : List Byte → Memory
  | [] => m
  | b :: r => writeBytes (sset m k b) (k + 1) r

/-- A little-endian value of `n` bytes at key `k`. -/
def readNat (m : Memory) (k n : Nat) : Nat := natOfBytes (readBytes m k n)

/-! ## Memory keys: a space and an address in it -/

def spaceOf (space addr : Nat) : Nat := space * 2 ^ 64 + addr
/-- Device memory of local device `d` (R397 LOC 0). -/
def keyDev (d a : Nat) : Nat := spaceOf d a
/-- Host memory (R397 LOC 1). -/
def keyHost (a : Nat) : Nat := spaceOf 16 a
/-- Memory of the device with FABID `f` (R397 LOC 2). -/
def keyFab (f a : Nat) : Nat := spaceOf (2 ^ 20 + f) a
/-- Lines of a context's recipe region, by VA (R135). -/
def keyRec (ctx : BitVec 32) (va : Nat) : Nat := spaceOf (2 ^ 32 + ctx.toNat) va
/-- Basin byte of a physical cluster (R94). -/
def keyBasin (cl off : Nat) : Nat := spaceOf (2 ^ 33) (cl * Config.basinBytes + off)
/-- Space of a key. -/
def keySpace (k : Nat) : Nat := k / 2 ^ 64
def keyAddr (k : Nat) : Nat := k % 2 ^ 64
/-- Key of a basin granule's full/empty bit (R99). -/
def feKey (cl off : Nat) : Nat := cl * (Config.basinBytes / 16) + off / 16

/-! ## Parts of the state -/

/-- Time base: 1 tb is 1 ns and 1 clk is 0.625 ns (R2). -/
def State.tb (s : State) : Nat := s.clk * 5 / 8

/-- A new order number. -/
def State.tick1 (s : State) : State := { s with fresh := s.fresh + 1 }

def State.cell? (s : State) (uid : Nat) : Option Cell := s.cells.find? (fun c => c.uid == uid)

def State.updCell (s : State) (uid : Nat) (f : Cell → Cell) : State :=
  { s with cells := s.cells.map (fun c => if c.uid = uid then f c else c) }

def State.ctx? (s : State) (tag : BitVec 32) : Option Context := s.sched.ctxs.find? (fun c => c.tag == tag)

def State.updCtx (s : State) (tag : BitVec 32) (f : Context → Context) : State :=
  { s with sched := { s.sched with ctxs := s.sched.ctxs.map (fun c => if c.tag = tag then f c else c) } }

def State.setMem (s : State) (m : Memory) : State := { s with home := { s.home with mem := m } }

/-- Bytes performed in memory at a key. -/
def State.poke (s : State) (k : Nat) (bs : List Byte) : State := s.setMem (writeBytes s.home.mem k bs)

/-- Element `i` of a list changed by `f`. -/
def modNth {α : Type} (f : α → α) : Nat → List α → List α
  | _, [] => []
  | 0, a :: r => f a :: r
  | n + 1, a :: r => a :: modNth f n r

def Thread.absent : Thread := ⟨.exited, 0, Option.none, 0, 0, 0, 0, 0, 0, 0, 0, Option.none, Option.none, 0, Option.none, Option.none, [], [], Option.none⟩

/-- What a thread keeps of an instruction under way goes: the instruction is over. -/
def Thread.clearWait (t : Thread) : Thread :=
  { t with wkind := 0, wobj := 0, stage := 0, answer := none, word := none, vals := [], kept := [] }

/-- A unit that a cell does not have. -/
def UnitSt.absent : UnitSt :=
  ⟨[], [], [], 0, 0, 0, [], 0, 0, 0, [], [], [], false, false, 0, false, 0, 0, 0⟩

def Cell.unit (c : Cell) (u : Nat) : UnitSt := c.units.getD u UnitSt.absent

def UnitSt.thread (u : UnitSt) (tid : Nat) : Thread := u.threads.getD tid Thread.absent

def Cell.updUnit (c : Cell) (u : Nat) (f : UnitSt → UnitSt) : Cell := { c with units := modNth f u c.units }

def State.updUnit (s : State) (uid u : Nat) (f : UnitSt → UnitSt) : State := s.updCell uid (fun c => c.updUnit u f)

def UnitSt.updThread (u : UnitSt) (tid : Nat) (f : Thread → Thread) : UnitSt := { u with threads := modNth f tid u.threads }

def State.updThread (s : State) (uid u tid : Nat) (f : Thread → Thread) : State :=
  s.updUnit uid u (fun x => x.updThread tid f)

/-- The same change to several threads of one unit. -/
def State.updThreads (s : State) (uid u : Nat) (tids : List Nat) (f : Thread → Thread) : State :=
  tids.foldl (fun s t => s.updThread uid u t f) s

def State.thread (s : State) (uid u tid : Nat) : Thread :=
  match s.cell? uid with
  | some c => (c.unit u).thread tid
  | none => Thread.absent

/-! ## Harvest and numbering (R342, R351) -/

/-- Device of a C-die under the mode (R342). -/
def devOfDie (m : Mode) (die : Nat) : Nat :=
  match m with
  | .one => 0
  | .two => die / 4
  | .eight => die

/-- Number of devices (R342). -/
def numDevs (m : Mode) : Nat :=
  match m with
  | .one => 1
  | .two => 2
  | .eight => 8

/-- Fuse bits of C-die `d` as the harvest registers show them: 0 for an excluded die (R344, R421). -/
def hmapCl (p : Package) (d : Nat) : BitVec 13 := if p.failed.contains d then 0 else p.fuseCl.getD d 0
def hmapSc (p : Package) (d : Nat) : BitVec 52 := if p.failed.contains d then 0 else p.fuseSc.getD d 0

/-- Physical clusters of a device in logical order (R351). -/
def devClusters (p : Package) (dev : Nat) : List Nat :=
  (List.range 104).filter (fun c => devOfDie p.mode (c / 13) == dev && (hmapCl p (c / 13)).getLsbD (c % 13))

/-- Logical number of a physical cluster (R351). -/
def logicalCl (p : Package) (dev cl : Nat) : Nat := (devClusters p dev).findIdx (· == cl)

/-- Physical cores of a cluster in logical order (R351). -/
def clCores (p : Package) (cl : Nat) : List Nat :=
  (List.range 4).filter (fun c => (hmapSc p (cl / 13)).getLsbD (4 * (cl % 13) + c))

/-- E: enabled cores of a cluster (R13). -/
def numCores (p : Package) (cl : Nat) : Nat := (clCores p cl).length

/-- H-die of a memory stack or slice is excluded (R421). -/
def hdieUp (p : Package) (h : Nat) : Bool := !(p.failed.contains (8 + h))

/-- Enabled L2 slices of a device, in ascending slice number (R342-R344). -/
def devSlices (p : Package) (dev : Nat) : List Nat :=
  let all := match p.mode with
    | .one => List.range 128
    | .two => (List.range 64).map (· + 64 * dev)
    | .eight => (List.range 16).map (fun j => 32 * (dev / 2) + 16 * (dev % 2) + j)
  all.filter (fun s => hdieUp p (s / 32))

/-- Home slice of a physical address of a device (R343). -/
def sliceOf (p : Package) (dev addr : Nat) : Nat :=
  let l := devSlices p dev
  l.getD ((addr / 4096) % (max l.length 1)) 0

/-- PMODE.STACKS (R346). -/
def stacksUp (p : Package) : Nat := (List.range 8).foldl (fun a k => if hdieUp p (k / 2) then a + 2 ^ k else a) 0

/-- H-die whose second-level TLB and walkers a C-die uses (R399, R421). -/
def tlbDie (p : Package) (die : Nat) : Nat :=
  let h := die / 2
  if hdieUp p h then h else (if h % 2 = 0 then h + 1 else h - 1)

/-- FABID of a local device (R346). -/
def fabidOf (p : Package) (dev : Nat) : BitVec 16 := p.fabids.getD dev 0

/-- Local device with a FABID, when it is one of the package's. -/
def devOfFabid (p : Package) (f : BitVec 16) : Option Nat :=
  (List.range (numDevs p.mode)).find? (fun d => fabidOf p d == f)

/-- A port up to the device with FABID `f` exists (R414): by Ableax or by Ethernet (R419). -/
def reachable (p : Package) (f : BitVec 16) : Bool :=
  p.ports.any (fun q => q.st == 2 && q.peer == f) || p.eports.any (fun q => q.st == 2 && q.peers.any (fun x => x.1 == f))

/-- The ABI that the firmware implements, as BAR0 shows it: 1.3 (R417). -/
def firmwareAbi : Nat := 0x0103

/-- The host answers: its port is open, and a bridge, if there is one, is healthy (R418, R420). -/
def hostReachable (p : Package) : Bool :=
  p.booted && (match p.bridge with
    | none => true
    | some b => p.bridgeUp && (p.fabids.contains b || reachable p b))

/-! ## Traps (R20, R372-R375) -/

/-- Trap codes (R373). -/
def tIllegal : BitVec 8 := 0x01
def tControl : BitVec 8 := 0x02
def tTarget : BitVec 8 := 0x03
def tKdiv : BitVec 8 := 0x04
def tStallShort : BitVec 8 := 0x05
def tStale : BitVec 8 := 0x06
def tWindow : BitVec 8 := 0x07
def tBreak : BitVec 8 := 0x08
def tUser : BitVec 8 := 0x09
def tMisaligned : BitVec 8 := 0x0A
def tBasin : BitVec 8 := 0x0B
def tOrphan : BitVec 8 := 0x0C
def tCistern : BitVec 8 := 0x0D
def tPrivilege : BitVec 8 := 0x0E
def tRole : BitVec 8 := 0x0F
def tTranslation : BitVec 8 := 0x10
def tProtection : BitVec 8 := 0x11
def tRecDepth : BitVec 8 := 0x12
def tRecFailed : BitVec 8 := 0x13
def tRecWrite : BitVec 8 := 0x14
def tRecRetired : BitVec 8 := 0x15
def tRecCapacity : BitVec 8 := 0x16
def tPoison : BitVec 8 := 0x17
def tStand : BitVec 8 := 0x18
def tRing : BitVec 8 := 0x19
def tMatrix : BitVec 8 := 0x1A
def tCopy : BitVec 8 := 0x1B
def tEmit : BitVec 8 := 0x1C
def tSlice : BitVec 8 := 0x1D
def tWatch : BitVec 8 := 0x1E
def tPatch : BitVec 8 := 0x1F

def TrapInfo.simple (code : BitVec 8) : TrapInfo := ⟨code, 0, 0⟩

/-- Thread designator of the layout of R323. -/
def designator (c : Cell) (u : Nat) : W64 :=
  BitVec.ofNat 64 (c.tag.toNat * 2 ^ 40 + (if u = 0 then 2 ^ 39 else (u - 1) * 2 ^ 32) + c.index.toNat)

/-- Word at +0 of a record (R374). -/
def recWord0 (s : State) (ctx : BitVec 32) (dev cl nthr kind : Nat) (code : BitVec 8) : W64 :=
  BitVec.ofNat 64 (ctx.toNat * 2 ^ 32 + logicalCl s.pkg dev cl % 128 * 2 ^ 24 + nthr * 2 ^ 16 + kind * 2 ^ 8 + code.toNat)

/-- Thread mask of a list of tids. -/
def tidMask (tids : List Nat) : Nat := tids.foldl (fun a t => a ||| 2 ^ t) 0

/-- The 64-byte record of a thread trap, as its eight words (R374). -/
def trapWords (s : State) (c : Cell) (u : Nat) (tids : List Nat) (i : TrapInfo) (pc : W64) : List W64 :=
  let m := tidMask tids
  [recWord0 s c.ctx c.dev c.cl tids.length 0 i.code, designator c u, pc, i.addr, i.aux,
   BitVec.ofNat 64 m, BitVec.ofNat 64 (m / 2 ^ 64), BitVec.ofNat 64 s.tb]

/-- The host port interrupt of a context's lowest queue (R377). -/
def State.interrupt (s : State) (c : Context) : State :=
  match c.queues with
  | [] => s
  | q :: r => { s with pkg := { s.pkg with irqs := r.foldl min q :: s.pkg.irqs } }

/-- Arbitration rank of a unit (R59): cluster, spines by number, then crews by logical core and slot. -/
def unitRank (c : Cell) (u : Nat) : Nat :=
  c.cl * 1000000 + (if u = 0 then c.spineNo else 1000 + 1000 * (c.unit u).core + (c.unit u).slot)

/-- Place of a thread of a unit in the arbitration order (R59). -/
def lanePlace (c : Cell) (u tid : Nat) : Nat := unitRank c u * 128 + tid

/-- A record takes its place among the waiting ones: after those of earlier clk, and in the arbitration order of its own (R376). -/
def insertTrap (r : TrapRec) : List TrapRec → List TrapRec
  | [] => [r]
  | a :: l => if a.clk = r.clk ∧ r.rank < a.rank then r :: a :: l else a :: insertTrap r l

/-- A record joins the trap service's store; with no queue the host is told (R378). -/
def State.sendTrap (s : State) (r : TrapRec) : State :=
  let s1 := { s with sched := { s.sched with traps := insertTrap r s.sched.traps } }
  match s.ctx? r.ctx with
  | some c => if c.trapq.extractLsb' 0 5 = 0 then s1.interrupt c else s1
  | none => s

/-- A host command waits for a line at its home. One that is held already and is tried again keeps its place (R340). -/
def State.hold (s : State) (i : Instr) : State := if s.waiting.contains i then s else { s with waiting := s.waiting ++ [i] }

/-- A host command waits no longer: the first of its kind that waits. -/
def State.unhold (s : State) (i : Instr) : State := { s with waiting := s.waiting.erase i }

/-- A context that the host's commands reach. -/
def State.hostCtx? (s : State) (tag : BitVec 32) : Option Context := (s.ctx? tag).filter (fun c => !c.dying)

def State.updTile (s : State) (ctx : BitVec 32) (base : W64) (f : Tile → Tile) : State :=
  { s with home := { s.home with
      tiles := s.home.tiles.map (fun t => if t.ctx = ctx ∧ t.base = base then f t else t) } }

/-- Requests to a sluice that are taken back: the time they waited counts for their context (R195, R346). -/
def State.dropDraws (s : State) (gone : DrawReq → Bool) : State :=
  let s1 := (s.clu.draws.filter gone).foldl (fun s d =>
    match s.cell? d.cell with
    | some c => s.updCtx c.ctx (fun x => { x with drawWait := x.drawWait + BitVec.ofNat 64 (s.tb - d.since) })
    | none => s) s
  { s1 with clu := { s1.clu with draws := s1.clu.draws.filter (fun d => !gone d) } }

/-- End of every thread of a cell at once (R324): subscriptions, copies and stores run to their ends, queued matrix
entries are dropped, grants returned. -/
def State.killCell (s : State) (uid : Nat) : State :=
  let s1 := s.updCell uid (fun c =>
    { c with killed := true
             units := c.units.map (fun u =>
               { u with drawHeld := false, drawPend := false
                        threads := u.threads.map (fun t =>
                          { t.clearWait with st := .exited, tcode := 0, ppois := none, prw := none, bun := 0 }) }) })
  let gone := (s1.clu.mx.filter (fun e => e.cell == uid && !e.running)).map (·.num)
  let s2 := s1.dropDraws (fun d => (d.kind == 0 && d.cell == uid) || (d.kind == 2 && gone.contains d.num))
  { s2 with clu := { s2.clu with
      mx := s2.clu.mx.filter (fun e => !gone.contains e.num)
      loads := s2.clu.loads.map (fun (l : LoadEnt) => if l.cell = uid then { l with dst := .none } else l) } }

/-- Bytes of memory that hold a region's tile lines are dropped (R139, R144). -/
def clearBytes (m : Memory) (k : Nat) : Nat → Memory
  | 0 => m
  | n + 1 => clearBytes (sset m k 0) (k + 1) n

/-- Bytes of a range of memory that loads already accepted were promised (R283). -/
def State.promise (s : State) (k n : Nat) : State :=
  { s with clu := { s.clu with loads := s.clu.loads.map (fun l =>
      if !l.done && l.got.isNone && decide (k ≤ l.key) && decide (l.key < k + n) then { l with got := some (readBytes s.home.mem l.key l.n) }
      else l) } }

/-- A present line of a tile, by its index, leaves the L2 without being written back (R139); loads that the tile's home has accepted
keep their bytes. -/
def State.dropTileLine (s : State) (t : Tile) (i : Nat) : State :=
  let key := keyRec t.ctx (t.base.toNat + 128 * i)
  let s1 := s.promise key 128
  (s1.setMem (clearBytes s1.home.mem key 128)).updTile t.ctx t.base (fun x => { x with present := x.present.filter (· != i) })

/-- Drop the present lines of a tile from L2 (R139, R144). -/
def State.dropTile (s : State) (t : Tile) : State := t.present.foldl (fun s i => s.dropTileLine t i) s

/-- Region of a context that holds an address (R134). -/
def Region.size (r : Region) : Nat := 16384 * 2 ^ r.zsel.toNat

def Region.holds (r : Region) (va : W64) : Bool :=
  r.v && decide (r.base.toNat ≤ va.toNat) && decide (va.toNat < r.base.toNat + r.tiles * r.size)

def Context.region? (c : Context) (va : W64) : Option Region := c.regions.find? (fun r => r.holds va)

/-- Base of the tile that holds an address of a region. -/
def Region.tileBase (r : Region) (va : W64) : W64 :=
  BitVec.ofNat 64 (r.base.toNat + (va.toNat - r.base.toNat) / r.size * r.size)

/-- Record of the tile with a base, as a VA (R134). -/
def Region.record (r : Region) (base : W64) : W64 :=
  BitVec.ofNat 64 (r.table.toNat + 128 * ((base.toNat - r.base.toNat) / r.size))

def Tile.fresh (ctx : BitVec 32) (base : W64) : Tile := ⟨ctx, base, .absent, 0, 0, 0, none, none, [], [], []⟩

/-- The siphon's copy of a tile; a tile not yet listed is ABSENT (R136). -/
def State.tile (s : State) (ctx : BitVec 32) (base : W64) : Tile :=
  (s.home.tiles.find? (fun t => t.ctx == ctx && t.base == base)).getD (Tile.fresh ctx base)

/-- List a tile so that it can be updated. -/
def State.touchTile (s : State) (ctx : BitVec 32) (base : W64) : State :=
  if s.home.tiles.any (fun t => t.ctx == ctx && t.base == base) then s
  else { s with home := { s.home with tiles := s.home.tiles ++ [Tile.fresh ctx base] } }

/-- STATE codes (R136). -/
def TileSt.code : TileSt → Nat
  | .absent => 0
  | .resident => 1
  | .building => 2
  | .poisoned => 3
  | .retired => 4

/-- The record word at +0 (R136). -/
def Tile.word (t : Tile) : W64 := BitVec.ofNat 64 (t.pin.toNat * 2 ^ 32 + t.gen.toNat * 2 ^ 8 + t.st.code)

/-! ## Lines at the home, and the keys of their bytes (R401, R402) -/

def HLine.fresh (n : Nat) : HLine := ⟨n, 2, [], false, 0, false, false, false, 0, 0, [], .i, false, [], []⟩

def State.line (s : State) (n : Nat) : HLine := (s.home.lines.find? (fun h => h.line == n)).getD (HLine.fresh n)

/-- The key of a key id; id 0 stands for plaintext. -/
def keyOfId (p : Package) (kid : BitVec 8) : BitVec 512 :=
  ((p.keys.find? (fun k => k.1 == kid.toNat)).map (·.2)).getD 0

/-- The 128 bytes of a line. -/
def State.lineBytes (s : State) (line : Nat) : List Byte := readBytes s.home.mem (128 * line) 128

/-- Device memory that was written under another key than an access's: its bytes are not the access's plaintext (R402). -/
def State.otherKey (s : State) (line : Nat) (kid : BitVec 8) : Bool :=
  decide (keySpace (128 * line) < 16) && (s.line line).wkey != keyOfId s.pkg kid

/-- The 128 bytes of a line as an access under a key id finds them (R401, R402). -/
def State.lineUnder (s : State) (line : Nat) (kid : BitVec 8) : List Byte :=
  recrypt (s.line line).wkey (keyOfId s.pkg kid) (keyAddr (128 * line) / 128) (s.lineBytes line)

/-- `n` bytes of one line as an access under a key id finds them. -/
def State.bytesUnder (s : State) (key n : Nat) (kid : BitVec 8) : List Byte :=
  if s.otherKey (key / 128) kid then ((s.lineUnder (key / 128) kid).drop (key % 128)).take n else readBytes s.home.mem key n

/-! ## Page tables (R395-R398) -/

/-- What an access does (R397). -/
inductive Access where
  | load | store | atomic | fetch
deriving DecidableEq, Repr

/-- AUX of TRANSLATION and PROTECTION (R373). -/
def Access.aux : Access → Nat
  | .load => 0
  | .store => 1
  | .atomic => 1
  | .fetch => 2

/-- Bits [63:57] equal bit 56 (R90). -/
def canonical (va : W64) : Bool :=
  let top := va.toNat / 2 ^ 56
  top == 0 || top == 255

/-- Index shift and size in bytes of the table at a level (R395). -/
def lvlShift : Nat → Nat
  | 3 => 44
  | 2 => 30
  | 1 => 21
  | _ => 16
def lvlBits : Nat → Nat
  | 3 => 13
  | 2 => 14
  | 1 => 9
  | _ => 5
/-- Page bytes of a leaf at a level. -/
def pageBytes (lvl : Nat) : Nat := 2 ^ lvlShift lvl

/-- What a walk finds. -/
inductive Walk where
  /-- a valid, well-formed leaf at a level. -/
  | leaf (lvl : Nat) (e : W64)
  /-- TRANSLATION. -/
  | bad
  /-- a fault that the host serves (R381). -/
  | host
deriving DecidableEq, Repr

/-- A leaf entry is malformed (R398 case 3). -/
def leafBad (lvl : Nat) (e : W64) : Bool :=
  let loc := e.extractLsb' 6 2
  let pa := (e.extractLsb' 16 32).toNat
  lvl == 3 || loc == 3 || (e.extractLsb' 8 8 != 0 && loc != 0) || (e.extractLsb' 48 16 != 0 && loc != 2)
    || pa % 2 ^ (lvlShift lvl - 16) != 0

/-- A pointer entry at a level is malformed (R396, R398 case 3). -/
def ptrBad (lvl : Nat) (e : W64) : Bool :=
  lvl == 0 || e.extractLsb' 48 16 != 0 || e.extractLsb' 6 2 != 0 || e.extractLsb' 2 3 != 0
    || (e.extractLsb' 8 40).toNat * 256 % (8 * 2 ^ lvlBits (lvl - 1)) != 0

/-- Index of an address in the table of a level (R395). -/
def lvlIndex (lvl : Nat) (va : W64) : Nat := va.toNat / 2 ^ lvlShift lvl % 2 ^ lvlBits lvl

/-- The entry for an address in the table at `tbl` of level `lvl`, read in plaintext (R395). -/
def State.tableEntry (s : State) (dev : Nat) (va : W64) (lvl tbl : Nat) : W64 :=
  BitVec.ofNat 64 (natOfBytes (s.bytesUnder (keyDev dev (tbl + 8 * lvlIndex lvl va)) 8 0))

/-- Address of the table that a pointer entry names (R396). -/
def ptrTable (e : W64) : Nat := (e.extractLsb' 8 40).toNat * 256

/-- The walk from the table at `tbl` of level `lvl` (R398 cases 2 and 3). -/
def walkFrom (s : State) (dev : Nat) (va : W64) : Nat → Nat → Walk
  | lvl, tbl =>
    let e := s.tableEntry dev va lvl tbl
    if e.getLsbD 0 = false then (if e.getLsbD 5 then .host else .bad)
    else if e.getLsbD 1 then (if leafBad lvl e then .bad else .leaf lvl e)
    else if ptrBad lvl e then .bad
    else match lvl with
      | 0 => .bad
      | l + 1 => walkFrom s dev va l (ptrTable e)
termination_by structural lvl => lvl

/-- Outcome of a translation. -/
inductive Xlate where
  /-- key of the byte, key id, page bytes, whether its home is the host or another device. -/
  | ok (key : Nat) (kid : BitVec 8) (page : Nat) (far : Bool)
  /-- an address of a recipe region of the context (R398 case 1). -/
  | region (key : Nat)
  | trap (code : BitVec 8)
  | host
deriving DecidableEq, Repr

/-- The checks of a leaf (R398 cases 4 and 5) and its address (case 6). DESIGN CHOICE (log entry 41): R2 gives the package 384 GB of HBM
and says nothing of a device physical address beyond them, or beyond the device's share; each names a byte of its own. -/
def leafXlate (p : Package) (_dev : Nat) (lvl : Nat) (e : W64) (va : W64) (acc : Access) : Xlate :=
  let r := e.getLsbD 2
  let w := e.getLsbD 3
  let x := e.getLsbD 4
  let okp := match acc with
    | .load => r
    | .store => w
    | .atomic => r && w
    | .fetch => x
  let kid := e.extractLsb' 8 8
  let off := (e.extractLsb' 16 32).toNat * 2 ^ 16 + va.toNat % pageBytes lvl
  if okp = false then (if e.getLsbD 5 then .host else .trap tProtection)
  else if kid ≠ 0 ∧ p.keys.all (fun k => k.1 != kid.toNat) then .trap tProtection
  else
    let loc := e.extractLsb' 6 2
    if loc = 0 then .ok (keyDev _dev off) kid (pageBytes lvl) false
    else if loc = 1 then .ok (keyHost off) 0 (pageBytes lvl) true
    else match devOfFabid p (e.extractLsb' 48 16) with
      | some d => .ok (keyDev d off) 0 (pageBytes lvl) (d != _dev)
      | none => .ok (keyFab (e.extractLsb' 48 16).toNat off) 0 (pageBytes lvl) true

/-- Page number of an address at a level, as the TLBs hold it. -/
def pageNo (lvl : Nat) (va : W64) : Nat := va.toNat / pageBytes lvl

/-- A leaf translation held for a unit (a cluster, or 1000 + H-die). -/
def tlbFind (s : State) (unit : Nat) (ctx : BitVec 32) (va : W64) : Option TlbEnt :=
  s.clu.tlb.find? (fun t => t.unit == unit && t.ctx == ctx && !t.ptr && t.page == pageNo t.lvl va)

/-- A pointer entry that a second-level TLB caches for an address at a level (R399). -/
def tlbPtr (s : State) (unit : Nat) (ctx : BitVec 32) (va : W64) (lvl : Nat) : Option TlbEnt :=
  s.clu.tlb.find? (fun t => t.unit == unit && t.ctx == ctx && t.ptr && t.lvl == lvl && t.page == pageNo lvl va)

/-- Entries of a unit's TLB (R399). -/
def tlbRoom (unit : Nat) : Nat := if unit < 1000 then Config.tlbEntries else Config.tlb2Entries

/-- An entry enters a TLB; a full one gives up an entry, the device's choice (R399). -/
def tlbPut (s : State) (e : TlbEnt) : State :=
  let mine := s.clu.tlb.filter (fun t => t.unit == e.unit)
  if s.clu.tlb.contains e then s
  else if mine.length < tlbRoom e.unit then { s with clu := { s.clu with tlb := e :: s.clu.tlb } }
  else
    let out := mine[Config.freeNat s.fresh 36 % mine.length]?
    { s with clu := { s.clu with tlb := e :: s.clu.tlb.filter (fun t => some t != out) } }

/-- A walk takes no time of its own. DESIGN CHOICE (log entry 130): so no walker is ever busy, and the bound of 16 walks with its order of
arrival binds nothing. The walk of H-die TLB `h` from the table at `tbl` of level `lvl`: a cached pointer entry stands for the one in memory; with the
pointer entries that it passed (R399, R400). -/
def walkVia (s : State) (h : Nat) (ctx : BitVec 32) (dev : Nat) (va : W64) : Nat → Nat → Walk × List TlbEnt
  | lvl, tbl =>
    let e := ((tlbPtr s h ctx va lvl).map (·.entry)).getD (s.tableEntry dev va lvl tbl)
    if e.getLsbD 0 = false then (if e.getLsbD 5 then .host else .bad, [])
    else if e.getLsbD 1 then (if leafBad lvl e then .bad else .leaf lvl e, [])
    else if ptrBad lvl e then (.bad, [])
    else match lvl with
      | 0 => (.bad, [])
      | l + 1 =>
        let r := walkVia s h ctx dev va l (ptrTable e)
        (r.1, ⟨h, ctx, l + 1, pageNo (l + 1) va, e, true⟩ :: r.2)
termination_by structural lvl => lvl

/-- Find a leaf by the cluster's TLB, the H-die's, or a walk, and keep what a TLB may keep (R399). -/
def findLeaf (s : State) (c : Context) (cl : Nat) (va : W64) : Walk × State :=
  match tlbFind s cl c.tag va with
  | some t => (.leaf t.lvl t.entry, s)
  | none =>
    let h := 1000 + tlbDie s.pkg (cl / 13)
    match tlbFind s h c.tag va with
    | some t => (.leaf t.lvl t.entry, tlbPut s { t with unit := cl })
    | none =>
      let r := walkVia s h c.tag c.dev va 3 c.root.toNat
      let s1 := r.2.foldl tlbPut s
      match r.1 with
      | .leaf l e => (.leaf l e, tlbPut (tlbPut s1 ⟨h, c.tag, l, pageNo l va, e, false⟩) ⟨cl, c.tag, l, pageNo l va, e, false⟩)
      | w => (w, s1)

/-- Translation of an access of a context from a cluster (R398). -/
def translate (s : State) (c : Context) (cl : Nat) (va : W64) (acc : Access) : Xlate × State :=
  if canonical va = false then (.trap tTranslation, s)
  else match c.region? va with
    | some _ => (if acc = .fetch then .trap tProtection else .region (keyRec c.tag va.toNat), s)
    | none =>
      match findLeaf s c cl va with
      | (.leaf l e, s1) => (leafXlate s1.pkg c.dev l e va acc, s1)
      | (.bad, s1) => (.trap tTranslation, s1)
      | (.host, s1) => (.host, s1)

/-- Translation by the launch unit, the F-die and the siphon: a walk that fills no TLB (R399 names clusters' TLBs only). -/
def translateF (s : State) (c : Context) (va : W64) (acc : Access) : Xlate :=
  if canonical va = false then .trap tTranslation
  else match c.region? va with
    | some _ => if acc = .fetch then .trap tProtection else .region (keyRec c.tag va.toNat)
    | none =>
      match walkFrom s c.dev va 3 c.root.toNat with
      | .leaf l e => leafXlate s.pkg c.dev l e va acc
      | .bad => .trap tTranslation
      | .host => .host

/-- `n` bytes at a VA as the F-die reads them, byte by byte under the translation; none on a fault. -/
def readVirt (s : State) (c : Context) (va : W64) : Nat → Option (List Byte)
  | 0 => some []
  | n + 1 =>
    match translateF s c va .load with
    | .ok k kid _ _ => (readVirt s c (va + 1) n).map ((s.bytesUnder k 1 kid).headD 0 :: ·)
    | .region k => (readVirt s c (va + 1) n).map (sget s.home.mem k :: ·)
    | _ => none

/-- A write of the part itself goes to its home, to be performed there as any other (R105). -/
def State.queueWrite (s : State) (dev key : Nat) (kid : BitVec 8) (bs : List Byte) : State :=
  { s with fresh := s.fresh + 1, home := { s.home with writes := s.home.writes ++ [⟨s.fresh, dev, key, kid, false, bs⟩] } }

/-- The siphon's words at +0 and +88 of a record are written at each transition (R136). DESIGN CHOICE (log entry 110): where the record
table's page is not mapped for writing the words are not written, which R136 leaves open. -/
def State.writeRecord (s : State) (ctx : BitVec 32) (base : W64) : State :=
  match s.ctx? ctx with
  | none => s
  | some c =>
    match c.region? base with
    | none => s
    | some r =>
      let t := s.tile ctx base
      let put := fun (s : State) (va : W64) (w : W64) =>
        match translateF s c va .store with
        | .ok k kid _ _ => s.queueWrite c.dev k kid (bytesOfNat 8 w.toNat)
        | _ => s
      put (put s (r.record base) t.word) (r.record base + 88) t.depth

/-- Change a tile and write its record words (R136). -/
def State.moveTile (s : State) (ctx : BitVec 32) (base : W64) (f : Tile → Tile) : State :=
  ((s.touchTile ctx base).updTile ctx base f).writeRecord ctx base

/-- A build's pins on its source tiles go, and their record words say so (R136, R138, R144, R338). -/
def State.unpinSrcs (s : State) (t : Tile) : State :=
  let s1 := t.srcs.foldl (fun s b => s.moveTile t.ctx b (fun x => { x with pin := if x.pin = 0 then 0 else x.pin - 1 })) s
  s1.updTile t.ctx t.base (fun x => { x with srcs := [] })

/-- Put an item into a list that rises in its key; equal keys keep their order. -/
def insertBy {α : Type} (key : α → Nat) (x : α) : List α → List α
  | [] => [x]
  | y :: r => if key x ≤ key y then x :: y :: r else y :: insertBy key x r

def sortBy {α : Type} (key : α → Nat) (l : List α) : List α := l.foldr (insertBy key) []

/-- Cells whose threads may run. -/
def State.running (s : State) : List Cell := s.cells.filter (fun c => !c.evicted && !c.evicting)

/-- A word that acts on a tile's state, `rdrop` or `rpin`, and accesses none of its lines. -/
def isTileOp (w : BitVec 32) : Bool :=
  match decodeWord w with
  | .ok (.rdropShed _) | .ok (.rdropRetire _) | .ok (.rpin _) | .ok (.rpinUnpin _) => true
  | _ => false

/-- A thread that waits on a tile waits with `rdrop` or `rpin`: by the word it blocked in, or, after a restore, by the word at its PC. -/
def State.waitsToAct (s : State) (ctx : BitVec 32) (t : Thread) : Bool :=
  match t.word with
  | some w => isTileOp w
  | none => match (s.ctx? ctx).bind (fun c => readVirt s c t.pc 4) with
    | some b => isTileOp (BitVec.ofNat 32 (natOfBytes b))
    | none => false

/-- Threads of running cells that wait on a tile with an access, or with `rdrop` or `rpin` (`acts`), each wait once, with the order
number of its blocking. -/
def State.tileThreads (s : State) (ctx : BitVec 32) (r : Region) (base : W64) (acts : Bool) : List (Nat × Due) :=
  (s.running.filter (fun c => c.ctx == ctx)).flatMap (fun c => c.units.zipIdx.flatMap (fun u =>
    let mine := (List.range u.1.threads.length).filter (fun i =>
      let t := u.1.thread i
      t.st == .blocked && t.wkind == 8 && r.holds t.wobj && r.tileBase t.wobj == base && s.waitsToAct ctx t == acts)
    (mine.filter (fun i => mine.all (fun j => decide (i ≤ j) || (u.1.thread j).wseq != (u.1.thread i).wseq))).map
      (fun i => ((u.1.thread i).wseq, Due.thread c.uid u.2 i))))

/-- The end of a build serves the accesses that wait on it, threads' and engines', in the order in which they blocked; `rdrop` and `rpin`
act after them, on the state that the build left (R138, R144-R146). -/
def State.serveWaiters (s : State) (ctx : BitVec 32) (base : W64) : State :=
  match (s.ctx? ctx).bind (·.region? base) with
  | none => s
  | some r =>
    let engines := (s.tile ctx base).waiters.flatMap (fun x => [(x.1, Due.event (.copyPiece x.2)), (x.1, Due.event (.mxldComplete x.2))])
    let all := sortBy (·.1) (s.tileThreads ctx r base false ++ engines) ++ sortBy (·.1) (s.tileThreads ctx r base true)
    { s with served := s.served ++ all.map (·.2) }

/-- A build fails (R144): the tile becomes POISONED, pins and lines go, a siphon build's recipe cell is killed. -/
def State.poisonTile (s : State) (ctx : BitVec 32) (base : W64) : State :=
  let t := s.tile ctx base
  if t.st ≠ .building then s
  else
    let s1 := (s.unpinSrcs t).dropTile t
    let s2 := (s1.serveWaiters ctx base).moveTile ctx base (fun x => { x with st := .poisoned, owner := none, launch := none, waiters := [] })
    match t.launch, t.owner with
    | some _, some uid => s2.killCell uid
    | _, _ => s2

/-- Tiles that a cell is building (R137, R140). -/
def State.buildsOf (s : State) (uid : Nat) : List Tile :=
  s.home.tiles.filter (fun t => t.st == .building && t.owner == some uid)

/-- Every build of a cell fails. -/
def State.poisonBuilds (s : State) (uid : Nat) : State :=
  (s.buildsOf uid).foldl (fun s t => s.poisonTile t.ctx t.base) s

/-- A thread parks at `pc`; one whose cell was killed by an earlier record of the same clk has exited (R144). -/
def Thread.park (t : Thread) (code : BitVec 8) (pc : W64) : Thread :=
  if t.st = .exited then t else { t.clearWait with st := .parked, pc := pc, bun := 0, tcode := code }

/-- Threads park at `pc` with the code, and one record with the designator, the thread mask and the time goes to the trap service
(R20, R372, R374). -/
def State.parkOnly (s : State) (uid u : Nat) (tids : List Nat) (code : BitVec 8) (words : Cell → List W64) (pc : W64) : State :=
  match s.cell? uid with
  | none => s
  | some c =>
    (s.updThreads uid u tids (fun t => t.park code pc)).sendTrap ⟨c.dev, c.ctx, words c, c.handler, s.clk, lanePlace c u (tids.headD 0)⟩

/-- TAKING A TRAP: the shared operation (R20, R372, R374). The threads park and their record is sent, and a tile the cell is building
is poisoned (R144). -/
def State.parkWith (s : State) (uid u : Nat) (tids : List Nat) (code : BitVec 8) (words : Cell → List W64) (pc : W64) : State :=
  (s.parkOnly uid u tids code words pc).poisonBuilds uid

def State.park (s : State) (uid u : Nat) (tids : List Nat) (i : TrapInfo) (pc : W64) : State :=
  s.parkWith uid u tids i.code (fun c => trapWords s c u tids i pc) pc

/-- Park the threads of a unit that a test admits, one record for each PC (R372, R374). What a trap does to a build comes after the
last record of the event (R379). -/
def State.parkByPc (s : State) (uid u : Nat) (ok : Nat → Thread → Bool) (i : TrapInfo) : State :=
  match s.cell? uid with
  | none => s
  | some c =>
    let us := c.unit u
    let tids := (List.range us.threads.length).filter (fun t => ok t (us.thread t))
    let pcs := (tids.map (fun t => (us.thread t).pc)).dedup
    pcs.foldl (fun s pc =>
      let at_ := tids.filter (fun t => (us.thread t).pc == pc)
      s.parkOnly uid u at_ i.code (fun c => trapWords s c u at_ i pc) pc) s

/-- A held record completed when its threads park (R283, R374): PC, NTHR and the thread mask. -/
def heldWords (held : List W64) (tids : List Nat) (pc : W64) : List W64 :=
  let m := tidMask tids
  let w0 := held.getD 0 0
  [w0.extractLsb' 24 40 ++ BitVec.ofNat 8 tids.length ++ w0.extractLsb' 0 16, held.getD 1 0, pc, held.getD 3 0, held.getD 4 0,
   BitVec.ofNat 64 m, BitVec.ofNat 64 (m / 2 ^ 64), held.getD 7 0]

/-- Word after the word at `pc` in execution order (R196). -/
def nextPc (pc : W64) : W64 := if pc.extractLsb' 2 3 = 7 then pc + 8 else pc + 4

/-- RETURN FROM A TRAP (R20, R380): a parked thread becomes eligible, at its word again or at the word after it; a thread
whose PC is its MR address is held again. A ready clk that is still to come stands (R199, R380). -/
def Thread.resume (t : Thread) (skip : Bool) (clk : Nat) : Thread :=
  if t.st ≠ .parked then t
  else
    let pc := if skip then nextPc t.pc else t.pc
    let ready := max (clk + 1) t.ready
    { t with pc := pc, tcode := 0, bun := 0, ready := ready, age := ready, wclk := clk, st := if t.mr = some pc then .held else .eligible }

/-- Kill of a held, blocked or parked thread (R20, R323). -/
def Thread.kill (t : Thread) : Thread :=
  match t.st with
  | .held | .blocked | .parked =>
    { t.clearWait with st := .exited, tcode := 0, ppois := none, prw := none, bun := 0 }
  | .eligible | .exited => t

/-- An engine fault report (R375): KIND 1, what was performed, the fault's address and the parameter block. -/
def State.engineFault (s : State) (c : Cell) (u : Nat) (code : BitVec 8) (bytes : Nat) (addr : W64) (p : List W64) : State :=
  s.sendTrap ⟨c.dev, c.ctx,
    [recWord0 s c.ctx c.dev c.cl 0 1 code, designator c u, BitVec.ofNat 64 bytes, addr] ++ p, c.handler, s.clk, lanePlace c u 0⟩

/-- A late drain report (R375): KIND 3. -/
def State.lateDrain (s : State) (c : Cell) (u : Nat) (code : BitVec 8) (va pc : W64) : State :=
  s.sendTrap ⟨c.dev, c.ctx,
    [recWord0 s c.ctx c.dev c.cl 0 3 code, designator c u, pc, va, pc, 0, 0, BitVec.ofNat 64 s.tb], c.handler, s.clk, lanePlace c u 0⟩

/-! ## Basin (R94-R101) -/

def State.basinByte (s : State) (c : Cell) (a : Nat) : Byte := sget s.home.mem (keyBasin c.cl (c.basinOff + a))

def State.readBasin (s : State) (c : Cell) (a n : Nat) : List Byte := readBytes s.home.mem (keyBasin c.cl (c.basinOff + a)) n

def State.writeBasin (s : State) (c : Cell) (a : Nat) (bs : List Byte) : State :=
  s.poke (keyBasin c.cl (c.basinOff + a)) bs

/-- FE[g] of the granule that holds basin byte `a` of the cell. -/
def State.fe (s : State) (c : Cell) (a : Nat) : Bool := sget s.home.fe (feKey c.cl (c.basinOff + a)) == 1#1

def State.setFe (s : State) (c : Cell) (a : Nat) (b : Bool) : State :=
  { s with home := { s.home with fe := sset s.home.fe (feKey c.cl (c.basinOff + a)) (if b then 1#1 else 0#1) } }

/-- Set the bits of `n` consecutive granules from basin address `a`. -/
def State.setFes (s : State) (c : Cell) (a : Nat) (b : Bool) : Nat → State
  | 0 => s
  | n + 1 => (s.setFe c a b).setFes c (a + 16) b n

/-- An engine write of whole granules: bytes and full bits (R99). -/
def State.engineWrite (s : State) (c : Cell) (a : Nat) (bs : List Byte) : State :=
  (s.writeBasin c a bs).setFes c a true (bs.length / 16)

/-- A basin range of `n` bytes at `a` leaves the allocation (R95). -/
def outOfBasin (c : Cell) (a n : Nat) : Bool := decide (c.basinSize < a + n)

end Sys2Proof.Machine
end

