-- ==== Sys2Proof/Machine/Operands.lean ====
section
/-! DEFINITION. Operand forms (R37-R46), reading and writing registers with early results (R111, R202), the tests that
come before an instruction's own (R208), and the shared driver that runs one instruction for the issuing threads. -/

namespace Sys2Proof.Machine

/-! ## Operand forms -/

/-- What a register field names (R37, R38). A v register is given by its physical number. -/
inductive Opnd where
  | x (n : Nat)
  | cis (n : Nat)
  | v (p : Nat)
  | k (n : Nat)
  | zero
  | tid
  | spec (f : Nat)
  | ones
deriving DecidableEq, Repr

/-- Meaning of a field (R37 on the spine, R38 in a crew). -/
def opnd (spine : Bool) (wb cvb : Nat) (f : BitVec 7) : Opnd :=
  let n := f.toNat
  if spine then (if n = 0 then .zero else if n < 64 then .x n else .cis (n - 64))
  else if n < 88 then .v (wb + n)
  else if n < 112 then .k (n - 88)
  else if n < 120 then .cis (cvb + (n - 112))
  else if n = 120 then .zero
  else if n = 121 then .tid
  else if n = 127 then .ones
  else .spec n

/-- The issuing threads with what they issue from. -/
structure Who where
  cell : Cell
  u : Nat
  unit : UnitSt
  tids : List Nat
  pc : W64
  word : BitVec 32
  ctrl : BitVec 32
  wake : Bool
  clk : Nat
  fresh : Nat
  loads : List LoadEnt
  /-- the bundle's passes under way on its port: this issue is one of its later clk (R24). -/
  run : Option IssuePort
  /-- order number of the issue, the same in all its passes. -/
  iss : Nat
  /-- values of the cisterns that the instruction has read already (R52). -/
  vals : List (Nat × W64)
deriving DecidableEq, Repr

def Who.spine (w : Who) : Bool := w.u == 0

/-- The passes under way that the issue goes on with: none on a free port, for the spine, and at a wake (R20, R28). -/
def State.runOf (s : State) (c : Cell) (u : UnitSt) : Option IssuePort :=
  if s.issue.wake ∨ s.issue.unit = 0 then none
  else s.clu.ports.find? (fun p => p.cl == c.cl && p.core == u.core && p.port == s.issue.port && p.cell == c.uid && p.unit == s.issue.unit)

/-- Loads of a unit that registers may still wait for: those of a crew until their batch completes, those of the spine until
their value is there (R111, R112). -/
def State.loadsOf (s : State) (uid u : Nat) : List LoadEnt :=
  s.clu.loads.filter (fun l => l.cell == uid && l.unit == u && (u != 0 || !l.done))

/-- Threads of the issue that can issue: eligible ones, or blocked ones at their wake; a `tid` is below 128 (R10). -/
def State.who (s : State) : Option Who :=
  match s.cell? s.issue.cell with
  | none => none
  | some c =>
    let u := c.unit s.issue.unit
    let st := if s.issue.wake then TState.blocked else TState.eligible
    let tids := s.issue.tids.filter (fun t => decide (t < 128) && (u.thread t).st == st)
    let run := s.runOf c u
    if tids.isEmpty then none
    else some {
      cell := c, u := s.issue.unit, unit := u, tids := tids, pc := s.issue.pc, word := s.issue.word, ctrl := s.issue.ctrl
      wake := s.issue.wake, clk := s.clk, fresh := s.fresh, loads := s.loadsOf c.uid s.issue.unit, run := run
      iss := (run.map (·.iss)).getD s.fresh
      vals := (run.map (·.vals)).getD (u.thread (tids.headD 0)).vals }

/-- Register numbers of pending results: v registers by lane, k registers from 32768, WB and CVB. -/
def regV (p tid : Nat) : Nat := p * 128 + tid
def regK (n : Nat) : Nat := 32768 + n
def regWb : Nat := 65536
def regCvb : Nat := 65537

/-- A result has not landed: its last pass is to come, or its clk is (R202). -/
def Pending.flies (p : Pending) (clk : Nat) : Bool := p.iss != 0 || decide (clk < p.land)

/-- Results of a register that have not landed, newest first (R202). -/
def Who.flying (w : Who) (r : Nat) : List Pending := w.unit.pend.filter (fun p => p.reg == r && p.flies w.clk)

/-- What a register held just before a result lands: the newest later result that landed ahead of it, or what it held when the
result was issued. `newer` are the results issued after it. -/
def Pending.before (p : Pending) (newer : List Pending) (clk : Nat) : W64 :=
  match newer.find? (fun q => q.reg == p.reg && !q.flies clk) with
  | some q => q.new
  | none => p.old

/-- A free choice about a register: the `k`-th kind, a byte or a place in a list. -/
def pick (fresh k r i : Nat) : Bool := Config.freeBit fresh (k * 2 ^ 24 + r * 2 ^ 4 + i)

/-- A value read before a result lands is the value before that result or the result itself (R202). -/
def Who.early (w : Who) (r : Nat) (cur : W64) : W64 :=
  w.unit.pend.zipIdx.foldl (fun v p =>
    if p.1.reg == r && p.1.flies w.clk then
      (if pick w.fresh 1 r p.2 then v else if pick w.fresh 2 r p.2 then p.1.new else p.1.before (w.unit.pend.take p.2) w.clk)
    else v) cur

/-- WB and CVB as this issue sees them (R41): all its passes see the same. -/
def Who.wb (w : Who) : Nat :=
  match w.run with
  | some r => r.wb
  | none => (w.early regWb (BitVec.ofNat 64 w.unit.wb)).toNat
def Who.cvb (w : Who) : Nat :=
  match w.run with
  | some r => r.cvb
  | none => (w.early regCvb (BitVec.ofNat 64 w.unit.cvb)).toNat

def Who.op (w : Who) (f : BitVec 7) : Opnd := opnd w.spine w.wb w.cvb f

/-- Does the load write this register of this thread: its byte offset in the destination. -/
def LoadEnt.offV (l : LoadEnt) (tid p : Nat) : Option Nat :=
  match l.dst with
  | .v q => if l.tid = tid ∧ q ≤ p ∧ p < q + (l.size + 3) / 4 then some (4 * (p - q)) else none
  | _ => none
def LoadEnt.offR (l : LoadEnt) (n : Nat) : Option Nat :=
  match l.dst with
  | .r q => if q ≤ n ∧ n < q + (l.size + 7) / 8 then some (8 * (n - q)) else none
  | _ => none

/-- Byte by byte, one value or another: `k` is the kind of choice. -/
def mixBytes (fresh k r : Nat) (old new : List Byte) : List Byte :=
  (List.zip old new).zipIdx.map (fun x => if pick fresh k r x.2 then x.1.2 else x.1.1)

/-- Loads outstanding on a register whose values have come: the byte offset of the register in each one's destination. -/
def Who.loaded (w : Who) (off : LoadEnt → Option Nat) : List (LoadEnt × Nat) :=
  w.loads.filterMap (fun l => if l.done then (off l).map (fun o => (l, o)) else none)

/-- What a read sees of a register of `n` bytes with loads outstanding: each byte as before a load or as it returned it (R111). -/
def Who.mixed (w : Who) (r n : Nat) (ls : List (LoadEnt × Nat)) (a : W64) : W64 :=
  ls.zipIdx.foldr (fun x v => BitVec.ofNat 64 (natOfBytes (mixBytes w.fresh (3 + x.2) r ((x.1.1.old.drop x.1.2).take n) (bytesOfNat n v.toNat)))) a

/-- v register `p` of thread `tid` as a read sees it (R111, R202). -/
def Who.readV (w : Who) (tid p : Nat) : W32 :=
  let r := regV p tid
  (w.mixed r 4 (w.loaded (fun l => l.offV tid p)) (w.early r ((sget w.unit.v r).setWidth 64))).setWidth 32

/-- k or x register `n` as a read sees it. -/
def Who.readR (w : Who) (n : Nat) : W64 :=
  w.mixed (regK n) 8 (w.loaded (fun l => l.offR n)) (w.early (regK n) (sget w.unit.regs n))

def Cell.cistern? (c : Cell) (n : Nat) : Option Cistern := if n < c.hdr.ncis then c.cis[n]? else none

/-- Special fields 122-126 (R38). -/
def Who.special (w : Who) (f : Nat) : W32 :=
  if f = 122 then BitVec.ofNat 32 (w.u - 1)
  else if f = 123 then w.cell.index
  else if f = 124 then BitVec.ofNat 32 w.cell.hdr.ncrew
  else if f = 125 then w.cell.count
  else BitVec.ofNat 32 w.unit.role

/-- An operand of a thread at width 32 or 64 (R44). -/
def Who.readOp (w : Who) (tid : Nat) (o : Opnd) (width : Nat) : W64 :=
  let full : W64 := match o with
    | .x n => w.readR n
    | .k n => w.readR n
    | .cis n => match w.vals.lookup n with
      | some v => v
      | none => ((w.cell.cistern? n).map (·.value)).getD 0
    | .v p => if width = 32 then (w.readV tid p).setWidth 64
              else ((w.readV tid (p + 1)) ++ (w.readV tid p) : BitVec 64)
    | .zero => 0
    | .tid => BitVec.ofNat 64 tid
    | .spec f => (w.special f).setWidth 64
    | .ones => BitVec.allOnes 64
  if width = 32 then (full.setWidth 32).setWidth 64 else full

/-- A field of a thread at a width. -/
def Who.src (w : Who) (tid : Nat) (f : BitVec 7) (width : Nat) : W64 := w.readOp tid (w.op f) width

/-- Width of an instruction that takes it from its destination (R44). -/
def Who.dstWidth (w : Who) (d : BitVec 7) : Nat :=
  match w.op d with
  | .v _ => 32
  | _ => 64

/-- Lowest tid of the bundle (R31). -/
def Who.lead (w : Who) : Nat := w.tids.headD 0

/-! ## Descriptors -/

/-- Contexts of the opcode map (R209-R212). -/
inductive Side where
  | both | spine | crew
deriving DecidableEq, Repr

/-- Engine classes of R29. -/
inductive RoleReq where
  | any | copy | matrix
deriving DecidableEq, Repr

/-- What the tests before an instruction's own need to know. -/
structure Desc where
  side : Side := .both
  role : RoleReq := .any
  /-- register sources in operand order, with their width in bits (32, 64, 128). -/
  rds : List (BitVec 7 × Nat) := []
  /-- register destination and width. -/
  wr : Option (BitVec 7 × Nat) := none
  /-- a second destination. -/
  wr2 : Option (BitVec 7 × Nat) := none
  /-- a cistern named without being read as a source. -/
  cis : Option (BitVec 7) := none
  /-- executes on the scalar pipe although D names no k register (R30). -/
  scalar : Bool := false
  /-- one operation for the bundle (R170). -/
  once : Bool := false
  /-- further cases of ILLEGAL_INSTRUCTION that depend on the issuer. -/
  bad : Bool := false
  /-- a release, acquire, fence, lwait, bar or exit: takes a pending trap (R283). -/
  settles : Bool := false
  /-- traps with PRIVILEGE, with this AUX. -/
  priv : Option W64 := none
  /-- class latency in clk (R200); 0 for the classes without a fixed latency. -/
  lat : Nat := 0
  /-- uses the special-function unit, the basin port (R27). -/
  special : Bool := false
  basin : Bool := false
  /-- the 4-byte basin words that a thread's access touches (R98). -/
  touch : List (Nat × List Nat) := []
  /-- its threads exchange values or share one result: they all act in the first pass. -/
  whole : Bool := false
  /-- it could not be accepted now: its bundle is not ready (R25). -/
  hold : Bool := false
  /-- it waits for a release or for accesses of its own, which is an interlock (R326): its bundle is not ready. -/
  wait : Bool := false
deriving DecidableEq, Repr

/-- A source field that the instruction cannot take (R43, R280). -/
def badSrc (spine : Bool) (f : BitVec 7) (width : Nat) : Bool :=
  let n := f.toNat
  if spine then decide (width = 128) && (n % 2 == 1 || decide (64 ≤ n))
  else if n < 88 then (width == 64 && n % 2 == 1) || (width == 128 && n % 4 != 0)
  else if width = 128 then (if n < 112 then n % 2 == 1 else n != 120)
  else false

/-- A destination field that the instruction cannot take (R39, R43, R280). -/
def badDst (spine : Bool) (f : BitVec 7) (width : Nat) : Bool :=
  let n := f.toNat
  if spine then decide (64 ≤ n) || (width == 128 && n % 2 == 1)
  else badSrc false f width || (decide (112 ≤ n) && n != 120)

/-- Physical registers a v operand names. -/
def physOf (o : Opnd) (width : Nat) : List Nat :=
  match o with
  | .v p => (List.range (width / 32)).map (p + ·)
  | _ => []

/-- Physical register `p` is allocated (R40). -/
def allocated (h : Header) (p : Nat) : Bool := decide (p < h.fast) || (decide (192 ≤ p) && decide (p < 192 + h.slow))

/-- Number of slow-partition sources (R42). -/
def Who.slow (w : Who) (d : Desc) : Nat :=
  (d.rds.filter (fun r => match w.op r.1 with | .v p => decide (192 ≤ p) | _ => false)).length

/-- D names a k register (R30). -/
def Who.kDst (w : Who) (d : Desc) : Bool :=
  match d.wr with
  | some (f, _) => (match w.op f with | .k _ => true | _ => false)
  | none => false

/-- The crew is converged for the issue (R30). -/
def Who.converged (w : Who) : Bool :=
  (w.unit.threads.zipIdx).all (fun t => t.1.st == .exited || t.1.st == .parked || w.tids.contains t.2)

/-- One execution for the whole bundle: the scalar pipe (R31) or an operation issued once (R170). -/
def Who.single (w : Who) (d : Desc) : Bool := d.once || d.scalar || w.kDst d

/-- Cisterns read as sources, each once, in operand order (R52). -/
def Who.cisSrcs (w : Who) (d : Desc) : List Nat :=
  (d.rds.filterMap (fun r => match w.op r.1 with | .cis n => some n | _ => none)).dedup

/-- Registers the issue reads, as pending numbers of a thread. -/
def Who.regsOf (w : Who) (tid : Nat) (fs : List (BitVec 7 × Nat)) : List Nat :=
  fs.flatMap (fun r => match w.op r.1 with
    | .v p => (List.range (r.2 / 32)).map (fun i => regV (p + i) tid)
    | .k n => if r.2 = 128 then [regK n, regK (n + 1)] else [regK n]
    | .x n => if r.2 = 128 then [regK n, regK (n + 1)] else [regK n]
    | _ => [])

def Desc.dsts (d : Desc) : List (BitVec 7 × Nat) := d.wr.toList ++ d.wr2.toList

/-- A load outstanding on a pending register number of a thread (R111, R112). -/
def Who.loadOn (w : Who) (tid r : Nat) : Bool :=
  w.loads.any (fun l => (if r < 32768 then l.offV tid (r / 128) |>.isSome else l.offR (r - 32768) |>.isSome))

/-- Number that AUX shows for a register (R373; log entry 12 for k registers). -/
def auxReg (r : Nat) : W64 := BitVec.ofNat 64 (if r < 32768 then r / 128 else r - 32768 + 88)

/-- Checking is on for a thread of the issue (R204): by the block, or by the context as it was when the thread's block was fetched
(R347). The tests are those of an issue, and a wake is none (R20). -/
def checking (w : Who) (tid : Nat) : Bool :=
  w.u ≠ 0 && !w.wake && (w.ctrl.getLsbD 28 || (match (w.unit.thread tid).blk with | some b => b.2 | none => false))

/-- The tests of R208 that hold for the whole bundle, in their order. -/
def uniformTrap (w : Who) (d : Desc) : Option TrapInfo :=
  let fs := d.rds ++ d.dsts
  let illegal := (d.side == .spine && !w.spine) || (d.side == .crew && w.spine) || d.bad
    || d.rds.any (fun r => badSrc w.spine r.1 r.2) || d.dsts.any (fun r => badDst w.spine r.1 r.2)
    || d.cis.any (fun f => match w.op f with | .cis _ => false | _ => true)
  let role := w.u ≠ 0 ∧ ((d.role = .copy ∧ (w.unit.role = 2 ∨ w.unit.role = 3)) ∨
    (d.role = .matrix ∧ (w.unit.role = 1 ∨ w.unit.role = 3)))
  let win := (fs.flatMap (fun r => physOf (w.op r.1) r.2)).find? (fun p => !allocated w.cell.hdr p)
  let cisNos := (w.cisSrcs d) ++ (d.cis.toList.filterMap (fun f => match w.op f with | .cis n => some n | _ => none))
  if illegal then some ⟨tIllegal, 0, w.word.setWidth 64⟩
  else match d.priv with
    | some aux => some ⟨tPrivilege, 0, aux⟩
    | none =>
      if role then some ⟨tRole, 0, BitVec.ofNat 64 w.unit.role⟩
      else match win with
        | some p => some ⟨tWindow, 0, BitVec.ofNat 64 p⟩
        | none =>
          match cisNos.find? (fun n => decide (w.cell.hdr.ncis ≤ n)) with
          | some n => some ⟨tCistern, 0, BitVec.ofNat 64 n⟩
          | none => if (w.kDst d || d.scalar) && !w.converged then some (.simple tKdiv) else none

/-- Clk in which a result lands, as far as it is known: undated ones count from now. -/
def Pending.lands (p : Pending) (clk : Nat) : Nat := if p.iss = 0 then p.land else clk + p.land

/-- A result of the register that lands later than clk `own`. -/
def Who.outlasts (w : Who) (own r : Nat) : Bool := (w.flying r).any (fun p => decide (own < p.lands w.clk))

/-- STALE_READ and STALL_SHORT of one thread under checking (R111, R204, R208); `last` is the clk of the last pass. One execution for
the bundle reads the lowest thread's registers, for all its threads (R31, R170). DEDUCED (log entry 105): all its threads then meet
the condition. DESIGN CHOICE (log entry 106): a load, an atomic or an interlocked result, which has no fixed latency, counts as
latency 0 when it writes a register with a result in flight. -/
def threadTrap (w : Who) (d : Desc) (last : Nat) (tid : Nat) : Option TrapInfo :=
  let reader := if w.single d then w.lead else tid
  let rs := w.regsOf reader d.rds
  let ds := w.regsOf tid d.dsts
  let own := fun (r : Nat) => if d.lat = 0 then 0 else last + (if 32768 ≤ r then 2 else d.lat) + 4 * w.slow d
  match (rs.find? (w.loadOn reader)).or (ds.find? (w.loadOn tid)) with
  | some r => some ⟨tStale, 0, auxReg r⟩
  | none =>
    match rs.find? (fun r => !(w.flying r).isEmpty) with
    | some r => some ⟨tStallShort, 0, auxReg r⟩
    | none =>
      match ds.find? (fun r => w.outlasts (own r) r) with
      | some r => some ⟨tStallShort, 0, auxReg r⟩
      | none => none

/-- Interlocks on registers: a k register whose class latency has not passed (R200), a spine register with a load
outstanding (R112); 16 bytes into x0 write x1 (R280). -/
def Who.interlocked (w : Who) (d : Desc) : Bool :=
  let rs := w.regsOf w.lead (d.rds ++ d.dsts)
    ++ (d.dsts.filter (fun r => w.spine && r.2 == 128 && w.op r.1 == .zero)).map (fun _ => regK 1)
  if w.spine then rs.any (w.loadOn 0)
  else rs.any (fun r => decide (32768 ≤ r) && w.unit.pend.any (fun p => p.reg == r && p.iss == 0 && decide (p.land ≤ w.clk) && decide (w.clk < p.lock)))

/-- A cistern source that traps (R56, R57): mode FREE, or GATHER from a crew. -/
def Who.cisTrap (w : Who) (d : Desc) : Option Nat :=
  (w.cisSrcs d).find? (fun n => match w.cell.cistern? n with
    | some c => c.mode == .free || (c.mode == .gather && !w.spine)
    | none => true)

/-- First empty cistern source (R52, R383). -/
def Who.cisEmpty (w : Who) (d : Desc) : Option Nat :=
  (w.cisSrcs d).find? (fun n => match w.cell.cistern? n with | some c => !c.full | none => true)

/-- A counted read of a cistern by a bundle or the spine (R52, R56). -/
def Cistern.read (c : Cistern) : Cistern :=
  match c.mode with
  | .gather => { c with full := false }
  | _ =>
    if c.rc ≠ 0 ∨ c.override then
      if c.remaining.toNat ≤ 1 then { c with remaining := 0, full := false } else { c with remaining := c.remaining - 1 }
    else c

def State.updCis (s : State) (uid n : Nat) (f : Cistern → Cistern) : State :=
  s.updCell uid (fun c => { c with cis := modNth f n c.cis })

/-! ## Register writes -/

/-- Timing of a result: class latency, 0 when it is in place at once; slow sources (R199, R200). -/
structure When where
  lat : Nat
  slow : Nat
deriving DecidableEq, Repr

/-- The result is in place in this clk: an interlocked one, one of the spine, one completed at a wake (R20, R201, R203). -/
def Who.atOnce (w : Who) (t : When) : Bool := w.spine || w.wake || t.lat == 0

/-- What is left in a register of `n` bytes: one of two fixed-latency results in flight (R202), and each byte from the
instruction or from an outstanding load (R111). -/
def Who.settle (w : Who) (t : When) (r n : Nat) (cur new : W64) (ls : List (LoadEnt × Nat)) : W64 :=
  let a := if (w.flying r).isEmpty || w.atOnce t || pick w.fresh 12 r 0 then new else cur
  ls.zipIdx.foldl (fun v x =>
    BitVec.ofNat 64 (natOfBytes (mixBytes w.fresh (100 + x.2) r (bytesOfNat n v.toNat) ((x.1.1.val.drop x.1.2).take n)))) a

/-- Pending list with one more result; what no read and no interlock can see any more is dropped. -/
def addPending (l : List Pending) (clk : Nat) (p : Pending) : List Pending :=
  p :: l.filter (fun q => q.flies clk || decide (clk < q.lock) || q.reg == p.reg || l.any (fun x => x.reg == q.reg && x.flies clk))

/-- Pending list after a write of a register: an interlocked result ends those in flight (R201). -/
def Who.pendWith (w : Who) (t : When) (p : Pending) (l : List Pending) : List Pending :=
  if w.spine then l else if w.atOnce t then l.filter (fun q => q.reg != p.reg) else addPending l w.clk p

/-- Write one v register of one thread. -/
def Who.putV (w : Who) (t : When) (tid p : Nat) (val : W32) (u : UnitSt) : UnitSt :=
  let r := regV p tid
  let cur : W64 := (sget u.v r).setWidth 64
  let new := w.settle t r 4 cur (val.setWidth 64) (w.loaded (fun l => l.offV tid p))
  { u with v := sset u.v r (new.setWidth 32)
           pend := w.pendWith t ⟨w.iss, r, t.lat + 4 * t.slow, 0, w.mixed r 4 (w.loaded (fun l => l.offV tid p)) cur, val.setWidth 64⟩ u.pend }

/-- Write one x or k register; a k register of a longer class stays interlocked for the rest of it (R200). -/
def Who.putR (w : Who) (t : When) (n : Nat) (val : W64) (u : UnitSt) : UnitSt :=
  let r := regK n
  let cur := sget u.regs n
  let new := if w.spine then val else w.settle t r 8 cur val (w.loaded (fun l => l.offR n))
  { u with regs := sset u.regs n new
           pend := w.pendWith t ⟨w.iss, r, 2 + 4 * t.slow, t.lat + 4 * t.slow, w.mixed r 8 (w.loaded (fun l => l.offR n)) cur, val⟩ u.pend }

/-- A later instruction wrote register `r`, at byte `off` of a load's destination: a read sees its bytes or the load's (R111). -/
def LoadEnt.overBy (l : LoadEnt) (r : Nat) (off : Option Nat) (bs : List Byte) : LoadEnt :=
  match off with
  | none => l
  | some o => { l with written := r :: l.written, old := l.old.take o ++ bs ++ l.old.drop (o + bs.length) }

/-- The same for all the registers that `bs` fills, from the operand's register on. -/
def LoadEnt.overBytes (l : LoadEnt) (tid : Nat) (o : Opnd) (bs : List Byte) : LoadEnt :=
  match o with
  | .v p => (List.range (bs.length / 4)).foldl (fun l i =>
      l.overBy (regV (p + i) tid) (l.offV tid (p + i)) ((bs.drop (4 * i)).take 4)) l
  | .k n => (List.range (bs.length / 8)).foldl (fun l i => l.overBy (regK (n + i)) (l.offR (n + i)) ((bs.drop (8 * i)).take 8)) l
  | _ => l

/-- Loads of the unit outstanding on registers that a later instruction wrote, with `bs` from the first register on (R111). -/
def State.markOver (s : State) (w : Who) (tid : Nat) (o : Opnd) (bs : List Byte) : State :=
  if w.loads.isEmpty then s
  else
    { s with clu := { s.clu with loads := s.clu.loads.map (fun l =>
        if l.cell == w.cell.uid && l.unit == w.u then l.overBytes tid o bs else l) } }

/-- Write a result to a destination (R37-R44): a v pair at width 64, a single v register otherwise, the whole of a k or x
register; `zero` and x0 discard. -/
def Who.writeUnit (w : Who) (t : When) (tid : Nat) (f : BitVec 7) (width : Nat) (val : W64) (u : UnitSt) : UnitSt :=
  match w.op f with
  | .x n => w.putR t n val u
  | .k n => w.putR t n val u
  | .v p =>
    let u1 := w.putV t tid p (val.setWidth 32) u
    if width = 64 then w.putV t tid (p + 1) ((val >>> 32).setWidth 32) u1 else u1
  | _ => u

def Who.write (w : Who) (t : When) (tid : Nat) (f : BitVec 7) (width : Nat) (val : W64) (s : State) : State :=
  let bs := bytesOfNat (match w.op f with | .v _ => width / 8 | _ => 8) val.toNat
  (s.markOver w tid (w.op f) bs).updUnit w.cell.uid w.u (w.writeUnit t tid f width val)

/-- Raise sticky flags (R71) in the clk the result lands (R257). -/
def Who.raiseUnit (w : Who) (t : When) (fl : BitVec 5) (u : UnitSt) : UnitSt :=
  if w.spine then { u with flags := u.flags ||| fl }
  else { u with flagPend := (if w.atOnce t then (0, w.clk, fl) else (w.iss, t.lat + 4 * t.slow, fl)) :: u.flagPend }

def Who.raise (w : Who) (t : When) (fl : BitVec 5) (s : State) : State :=
  if fl = 0 then s else s.updUnit w.cell.uid w.u (w.raiseUnit t fl)

/-- Flags of results that landed before a clk (R257). -/
def UnitSt.landed (u : UnitSt) (clk : Nat) : BitVec 5 :=
  u.flagPend.foldl (fun a p => if p.1 = 0 ∧ p.2.1 < clk then a ||| p.2.2 else a) u.flags

/-- The last pass of an issue is over: its results land so many clk after it (R199, R200). -/
def UnitSt.date (u : UnitSt) (iss clk : Nat) : UnitSt :=
  { u with pend := u.pend.map (fun p => if p.iss = iss then { p with iss := 0, land := clk + p.land, lock := clk + p.lock } else p)
           flagPend := u.flagPend.map (fun f => if f.1 = iss then (0, clk + f.2.1, f.2.2) else f) }

/-! ## The driver -/

/-- Stall count after the word at `pc` (R197). -/
def stallCount (ctrl : BitVec 32) (pc : W64) : Nat :=
  let i := (pc.extractLsb' 2 3).toNat
  if i = 0 then 0 else (ctrl.toNat >>> (4 * (i - 1))) % 16

/-- Banks of the v registers that the instruction reads; a register that two source fields name is read once (R27).
DEDUCED (log entry 45). -/
def Who.bankList (w : Who) (d : Desc) : List Nat :=
  (d.rds.flatMap (fun r => physOf (w.op r.1) r.2)).dedup.filterMap (fun p => if p < 192 then some (p % 8) else none)

/-- What the bundle uses on its port (R27). -/
def Who.portUse (w : Who) (d : Desc) : PortUse := ⟨(w.bankList d).dedup, d.special, d.basin⟩

/-- Clk that further distinct words in one of the 64 basin banks add to a pass (R98). -/
def bankExtra (ws : List Nat) : Nat :=
  let ds := ws.dedup
  (List.range 64).foldl (fun a b => max a (ds.countP (fun x => x % 64 == b))) 1 - 1

/-- Clk of one pass: one, one more when the instruction's own v sources share a bank, and those of the basin banks (R24, R27, R98). -/
def Who.passClks (w : Who) (d : Desc) (now : List Nat) : Nat :=
  1 + (if (w.bankList d).Nodup then 0 else 1) + bankExtra ((d.touch.filter (fun x => now.contains x.1)).flatMap (·.2))

/-- Clk of the last pass, as far as it is known when the bundle issues. -/
def Who.lastPass (w : Who) (d : Desc) : Nat :=
  w.clk + (w.tids.length + 31) / 32 * (if (w.bankList d).Nodup then 1 else 2) - 1

def Who.when (w : Who) (d : Desc) : When := ⟨d.lat, w.slow d⟩

/-- The record of a trap: of the clk, or the one held since its failure was found (R283, R374). -/
def State.parkOne (s : State) (w : Who) (tids : List Nat) (o : LaneOut) : State :=
  match o with
  | .trap i => s.park w.cell.uid w.u tids i w.pc
  | .late i held => s.parkWith w.cell.uid w.u tids i.code (fun _ => heldWords held tids w.pc) w.pc
  | _ => s

def LaneOut.code? (o : LaneOut) : Option (BitVec 8) :=
  match o with
  | .trap i => some i.code
  | .late i _ => some i.code
  | _ => none

/-- Park the threads of an outcome list that trapped, one record per code, with the ADDR and AUX of its lowest thread (R374). -/
def parkAll (s : State) (w : Who) (outs : List (Nat × LaneOut)) : State :=
  ((outs.filterMap (fun o => o.2.code?)).dedup).foldl (fun s c =>
    match sortBy (·.1) (outs.filter (fun o => o.2.code? == some c)) with
    | [] => s
    | o :: r => s.parkOne w (o.1 :: r.map (·.1)) o.2) s

/-- A thread goes on at `pc` from clk `ready`, held when it reaches its MR (R20, R199). One that has parked or exited meanwhile stays. -/
def Thread.goOn (t : Thread) (pc : W64) (clk ready bun : Nat) : Thread :=
  if t.st = .exited ∨ t.st = .parked then t
  else { t.clearWait with pc := pc, ready := ready, age := ready, bun := bun, wclk := clk
                          st := if t.mr = some pc then .held else .eligible }

/-- Where an execution goes on, when it does. -/
def LaneOut.next? (o : LaneOut) (pc : W64) : Option W64 :=
  match o with
  | .done => some (nextPc pc)
  | .jump p => some p
  | _ => none

/-- The threads that go on, with their next PC. -/
def goingOf (pc : W64) (outs : List (Nat × LaneOut)) : List (Nat × W64) :=
  outs.filterMap (fun o => (o.2.next? pc).map (fun p => (o.1, p)))

/-- Clk from which the threads may issue again: the stall count runs from the last pass (R199). -/
def Who.readyAt (w : Who) : Nat := if w.spine then w.clk + 1 else w.clk + 1 + stallCount w.ctrl w.pc

/-- The issue is a wake from a wait of a kind (R383). -/
def Who.woke (w : Who) (kind : Nat) : Bool := w.wake && (w.unit.thread w.lead).wkind == kind

/-- A thread that does not go on blocks, waits to try again, or exits; `alone` when no thread of the bundle goes on. A wake that
finds it has to wait for an interlock after all makes it eligible again at its word (R110). -/
def State.stay (s : State) (w : Who) (alone : Bool) (mark : Nat) (o : Nat × LaneOut) : State :=
  match o.2 with
  | .block kind obj => s.updThread w.cell.uid w.u o.1 (fun t =>
      if t.st = .exited ∨ t.st = .parked then t
      else { t with st := .blocked, bun := 0, wkind := kind, wobj := obj, stage := 0, word := some w.word, vals := w.vals
                    ready := if w.wake then t.ready else w.readyAt
                    wclk := if w.woke kind then t.wclk else w.clk, wseq := if w.woke kind then t.wseq else w.iss })
  | .stall => s.updThread w.cell.uid w.u o.1 (fun t =>
      if t.st = .exited ∨ t.st = .parked then t
      else if w.wake then { t with st := .eligible, wkind := 0, wobj := 0, word := none, ready := w.clk + 1, age := w.clk + 1,
                                   bun := 256 * mark, vals := w.vals }
      else { t with ready := w.clk + 1, bun := if alone then t.bun else 256 * mark, vals := w.vals })
  | .exit => s.updThread w.cell.uid w.u o.1 (fun t =>
      { t.clearWait with st := .exited, bun := 0, ppois := none, prw := none, wclk := w.clk })
  | _ => s

/-- Bundle number of a thread that goes on at `pc`: the bundle stays whole, or there is one for each next PC (R23). -/
def Who.bundleFor (w : Who) (going : List (Nat × W64)) (all mark tid : Nat) (pc : W64) : Nat :=
  let pcs := (going.map (·.2)).dedup
  if w.wake then 0
  else if pcs.length == 1 && going.length == all then (w.unit.thread tid).bun
  else 256 * mark + 1 + pcs.findIdx (· == pc)

/-- From when a thread that goes on may issue: its stall count has run since its issue, and a woken one's next instruction comes
after the clk of the wake (R20, R199). -/
def Who.readyFor (w : Who) (tid : Nat) : Nat := if w.wake then max (w.clk + 1) (w.unit.thread tid).ready else w.readyAt

/-- End of an instruction in the clk of its last pass: its results are dated, traps park, blocked threads record their wake, the
rest go on, split into one bundle per next PC (R20, R23, R199). -/
def finish (s : State) (w : Who) (outs : List (Nat × LaneOut)) : State :=
  let going := goingOf w.pc outs
  let s1 := if w.spine || w.wake then s else s.updUnit w.cell.uid w.u (fun u => u.date w.iss w.clk)
  let s2 := going.foldl (fun s' g =>
    s'.updThread w.cell.uid w.u g.1 (fun t => t.goOn g.2 w.clk (w.readyFor g.1) (w.bundleFor going outs.length s.fresh g.1 g.2))) s1
  let s3 := outs.foldl (fun s' o => s'.stay w going.isEmpty s.fresh o) s2
  parkAll s3 w outs

/-- The threads wait to issue the instruction again in the next clk: the bundle is not ready and takes no port (R25). A woken one
waits on where it is. DESIGN CHOICE (log entry 107): the bundle keeps its age, the clk in which its stall count had elapsed, also
where its next instruction waits for an interlocked k register, where R25 and R26 point two ways. -/
def State.stallAll (s : State) (w : Who) : State :=
  if w.wake then s else s.updThreads w.cell.uid w.u w.tids (fun t => { t with ready := w.clk + 1 })

/-- The port's record of a bundle whose passes are not over. -/
def State.setRun (s : State) (r : IssuePort) : State :=
  { s with clu := { s.clu with ports := putIn (fun p => p.cl == r.cl && p.core == r.core && p.port == r.port) r s.clu.ports } }

/-- The passes are over: the port is free. -/
def State.freeRun (s : State) (r : IssuePort) : State :=
  { s with clu := { s.clu with ports := s.clu.ports.filter (fun p => !(p.cl == r.cl && p.core == r.core && p.port == r.port)) } }

/-- The first pass of an issue is made: what its threads come to so far is kept until its last clk (R24). The spine and a wake have
no passes. -/
def State.opening (s : State) (w : Who) (d : Desc) (all : List Nat) (outs : List (Nat × LaneOut)) : State :=
  if w.spine || w.wake then finish s w outs
  else
    let use := w.portUse d
    let s := { s with issue := { s.issue with took := some use } }
    let rest := all.drop 32
    let left := w.passClks d (all.take 32) - 1
    if rest.isEmpty && left == 0 then finish s w outs
    else s.setRun ⟨w.cell.cl, w.unit.core, s.issue.port, w.cell.uid, w.u, w.pc, w.word, w.ctrl, all, rest, left, w.iss, w.wb, w.cvb,
      w.vals, w.unit.book, w.unit.bookData, use, outs, none⟩

/-- Threads act in ascending tid (R24); each sees what the ones before it left. -/
def runLanes (lane : Nat → State → LaneOut × State) : List Nat → State → List (Nat × LaneOut) × State
  | [], s => ([], s)
  | t :: r, s =>
    let (o, s1) := lane t s
    let (os, s2) := runLanes lane r s1
    ((t, o) :: os, s2)

/-- One execution serves every thread: a scalar-pipe instruction, one operation for the bundle, or threads that exchange values. -/
def Who.atOncePass (w : Who) (d : Desc) : Bool := w.single d || d.whole

/-- A WATCH that came due in the passes of a bundle parks its threads now (R372, R394). -/
def State.watchLate (s : State) (w : Who) (r : IssuePort) : State :=
  match r.watch with
  | none => s
  | some t => (s.parkByPc w.cell.uid w.u (fun i x => r.tids.contains i && (x.st == .eligible || x.st == .held)) ⟨tWatch, 0, t⟩).poisonBuilds
      w.cell.uid

/-- A later clk of a bundle's passes: the pass under way goes on, or the next up to 32 threads have theirs (R24). -/
def State.onward (s : State) (w : Who) (d : Desc) (r : IssuePort) (lane : Nat → State → LaneOut × State) : State :=
  let (r1, s1) :=
    if r.left ≠ 0 then ({ r with left := r.left - 1 }, s)
    else
      let now := r.rest.take 32
      let act := if w.atOncePass d then [] else now.filter (fun t => w.tids.contains t && r.outs.all (fun o => o.1 != t))
      let (os, s1) := runLanes lane act s
      ({ r with rest := r.rest.drop 32, left := w.passClks d now - 1, outs := r.outs ++ os }, s1)
  if r1.rest.isEmpty && r1.left == 0 then (finish (s1.freeRun r) w r1.outs).watchLate w r else s1.setRun r1

/-- Threads that no trap keeps from completing the instruction. -/
def completes (outs : List (Nat × LaneOut)) : Bool := outs.any (fun o => o.2.code?.isNone)

/-- The sources' cisterns are read, each once (R52). -/
def State.countCis (s : State) (w : Who) (ns : List Nat) : State := ns.foldl (fun s n => s.updCis w.cell.uid n Cistern.read) s

/-- A bundle or spine thread that blocked in the ways `kinds` on an object: unit and order of blocking, one entry each. -/
def Cell.blockedOn (c : Cell) (kinds : List Nat) (obj : W64) : List (Nat × Nat) :=
  (c.units.zipIdx.flatMap (fun u => u.1.threads.filterMap (fun t =>
    if t.st = .blocked ∧ kinds.contains t.wkind = true ∧ t.wobj = obj then some (u.2, t.wseq) else none))).dedup

/-- The pending trap that a thread takes at a release, acquire, fence, lwait, bar or exit, with its held record (R138, R283). -/
def pendingTrap (w : Who) (tid : Nat) : Option LaneOut :=
  let t := w.unit.thread tid
  match t.ppois, t.prw with
  | some p, _ => some (.late ⟨tPoison, p.va, p.pc⟩ p.held)
  | none, some p => some (.late ⟨tRecWrite, p.va, p.held.getD 4 0⟩ p.held)
  | none, none => none

/-- A pending trap that is taken is no longer pending (R380). -/
def Thread.clearPending (t : Thread) : Thread :=
  if t.ppois.isSome then { t with ppois := none } else { t with prw := none }

/-- The instruction's own work, after every test that comes before it: threads `ok` act, up to 32 of them in this pass; `bad` have
trapped already. A cistern source is read in this clk when some thread of the bundle completes (R24, R52). -/
def State.perform1 (s : State) (w : Who) (d : Desc) (bad : List (Nat × LaneOut)) (ok : List Nat)
    (lane : Who → Nat → State → LaneOut × State) : State :=
  let all := w.tids
  let ns := if w.vals.isEmpty then w.cisSrcs d else []
  let w := { w with tids := ok, vals := if w.vals.isEmpty then ns.map (fun n => (n, w.readOp 0 (.cis n) 64)) else w.vals }
  let (now, later) := if w.spine || w.wake || w.atOncePass d then (ok, []) else
    (ok.filter (fun t => (all.take 32).contains t), ok.filter (fun t => !(all.take 32).contains t))
  let (os, s1) :=
    if w.single d then
      match ok with
      | [] => ([], s)
      | t :: _ => let (o, s1) := lane w t s; (ok.map (fun t => (t, o)), s1)
    else runLanes (lane w) now s
  let s2 := if completes os || (!ns.isEmpty && completes (runLanes (lane w) later s1).1) then s1.countCis w ns else s1
  s2.opening w d all (bad ++ os)

/-- An instruction waits for a release or for accesses of its own, which `s` has begun: an interlock. Threads that trapped park; the
others try again, as eligible ones also after a wake (R110, R326). -/
def State.holdBack (s : State) (w : Who) (d : Desc) (bad : List (Nat × LaneOut)) (ok : List Nat) : State :=
  if !w.wake && bad.isEmpty then s.stallAll w else s.opening w d w.tids (bad ++ ok.map (fun t => (t, .stall)))

/-- Run an instruction for its issuing threads after the tests of R208: first the ones that hold for the bundle, then whether it is
ready (R25), then those of single threads, pending traps, cistern sources, then its wait for a release or for accesses of its own,
which `start` begins, and last the instruction's own work in `lane`. -/
def drive (s : State) (d : Who → Desc) (lane : Who → Nat → State → LaneOut × State)
    (start : Who → State → State := fun _ s => s) : Host.Outcome State Fault Refusal :=
  match s.who with
  | none => .next { s with clu := { s.clu with ports := s.clu.ports.filter (fun p =>
      !(p.cell == s.issue.cell && p.unit == s.issue.unit && p.port == s.issue.port && p.tids == s.issue.tids && !s.issue.wake)) } }
  | some w =>
    let d := d w
    match w.run with
    | some r => .next (s.onward w d r (lane w))
    | none =>
      match uniformTrap w d with
      | some i => .next (s.opening w d w.tids (w.tids.map (fun t => (t, .trap i))))
      | none =>
        if w.interlocked d || d.hold then .next (s.stallAll w)
        else
          let chk := (w.tids.filter (checking w)).filterMap (fun t => (threadTrap w d (w.lastPass d) t).map (fun i => (t, LaneOut.trap i)))
          let held := if d.settles || !(w.cisSrcs d).isEmpty then
              (w.tids.filter (fun t => chk.all (fun b => b.1 != t))).filterMap (fun t => (pendingTrap w t).map (fun i => (t, i))) else []
          let bad := chk ++ held
          let s := s.updThreads w.cell.uid w.u (held.map (·.1)) Thread.clearPending
          let ok := w.tids.filter (fun t => bad.all (fun b => b.1 != t))
          match (if w.vals.isEmpty then w.cisTrap d else none) with
          | some n => .next (s.opening w d w.tids (bad ++ ok.map (fun t => (t, .trap ⟨tCistern, 0, BitVec.ofNat 64 n⟩))))
          | none =>
            match (if w.vals.isEmpty then w.cisEmpty d else none) with
            | some n => .next (s.opening w d w.tids (bad ++ ok.map (fun t => (t, .block 2 (BitVec.ofNat 64 n)))))
            | none => .next (if d.wait && !ok.isEmpty then (start w s).holdBack w d bad ok else s.perform1 w d bad ok lane)

/-- A register-to-register instruction: `f` gives the result and the flags of a thread. -/
def alu (s : State) (d : Who → Desc) (f : Who → Nat → W64 × BitVec 5) : Host.Outcome State Fault Refusal :=
  drive s d (fun w tid s =>
    let (r, fl) := f w tid
    let t := w.when (d w)
    match (d w).wr with
    | some (fd, width) => (.done, w.raise t fl (w.write t tid fd width r s))
    | none => (.done, w.raise t fl s))

end Sys2Proof.Machine
end

