-- ==== Sys2Proof/Machine/Flags.lean ====
section
/-! DEFINITION. Floating-point values, rounding and the sticky flags every rounding raises (R66-R73). A value is exact:
a sign, a natural number and a power of two; it is rounded once, to the format of the result. -/

namespace Sys2Proof.Machine

/-- Sticky flags in the layout of R71. -/
abbrev Flg := BitVec 5
def flNV : Flg := 0b10000
def flDZ : Flg := 0b01000
def flOF : Flg := 0b00100
def flUF : Flg := 0b00010
def flNX : Flg := 0b00001

/-- A format: exponent bits and fraction bits (R66). -/
structure Fmt where
  eb : Nat
  fb : Nat
deriving DecidableEq, Repr

def f16 : Fmt := ⟨5, 10⟩
def bf16 : Fmt := ⟨8, 7⟩
def f32 : Fmt := ⟨8, 23⟩
def f64 : Fmt := ⟨11, 52⟩

def Fmt.width (f : Fmt) : Nat := f.eb + f.fb + 1
def Fmt.bias (f : Fmt) : Nat := 2 ^ (f.eb - 1) - 1
/-- Exponent of the lowest bit of a subnormal. -/
def Fmt.qmin (f : Fmt) : Int := 1 - f.bias - f.fb
/-- Encoding of +infinity. -/
def Fmt.infBits (f : Fmt) : Nat := (2 ^ f.eb - 1) * 2 ^ f.fb
/-- Canonical NaN (R66, R70). -/
def Fmt.nan (f : Fmt) : Nat := f.infBits + 2 ^ (f.fb - 1)
def Fmt.signBit (f : Fmt) (neg : Bool) : Nat := if neg then 2 ^ (f.eb + f.fb) else 0

/-- A floating-point value: a NaN, an infinity, or (-1)^neg * m * 2^e. -/
inductive Fv where
  | nan (signalling : Bool)
  | inf (neg : Bool)
  | fin (neg : Bool) (m : Nat) (e : Int)
deriving DecidableEq, Repr

/-- The value of an encoding (R66). -/
def unpack (f : Fmt) (b : Nat) : Fv :=
  let neg := b / 2 ^ (f.eb + f.fb) % 2 == 1
  let ex := b / 2 ^ f.fb % 2 ^ f.eb
  let fr := b % 2 ^ f.fb
  if ex = 2 ^ f.eb - 1 then (if fr = 0 then .inf neg else .nan (fr / 2 ^ (f.fb - 1) == 0))
  else if ex = 0 then .fin neg fr f.qmin
  else .fin neg (fr + 2 ^ f.fb) (f.qmin + (ex - 1))

/-- Rounding modes (R68). -/
inductive Rm where
  | rne | rtz | rdn | rup
deriving DecidableEq, Repr

def rmOf (m : BitVec 2) : Rm :=
  match m.toNat with
  | 0 => .rne
  | 1 => .rtz
  | 2 => .rdn
  | _ => .rup

/-- One more in the last place: quotient `q`, remainder `r` of a division by `2^sh`. -/
def roundUp (rm : Rm) (neg : Bool) (q r sh : Nat) : Bool :=
  match rm with
  | .rne => decide (2 ^ sh < 2 * r) || (decide (2 * r = 2 ^ sh) && q % 2 == 1)
  | .rtz => false
  | .rdn => neg && decide (r ≠ 0)
  | .rup => !neg && decide (r ≠ 0)

/-- `m * 2^e` as a whole multiple of `2^qe`, rounded; and whether anything was cut off. -/
def toQuantum (rm : Rm) (neg : Bool) (m : Nat) (e qe : Int) : Nat × Bool :=
  if qe ≤ e then (m * 2 ^ (e - qe).toNat, false)
  else
    let sh := (qe - e).toNat
    let q := m / 2 ^ sh
    let r := m % 2 ^ sh
    (if roundUp rm neg q r sh then q + 1 else q, decide (r ≠ 0))

/-- Exponent of the highest bit of `m * 2^e`. -/
def topExp (m : Nat) (e : Int) : Int := e + Nat.log2 m

/-- The encoding of the rounded value of (-1)^neg * m * 2^e, with its flags (R68, R71). A zero takes the sign `neg`. -/
def roundTo (f : Fmt) (rm : Rm) (neg : Bool) (m : Nat) (e : Int) : Nat × Flg :=
  if m = 0 then (f.signBit neg, 0)
  else
    let top := topExp m e
    let qe := max (top - f.fb) f.qmin
    let (q, inexact) := toQuantum rm neg m e qe
    let mag := (qe - f.qmin).toNat * 2 ^ f.fb + q
    let emin := f.qmin + f.fb
    let tiny := decide (top < emin) &&
      !(decide (top = emin - 1) && decide ((toQuantum rm neg m e (top - f.fb)).1 = 2 ^ (f.fb + 1)))
    if f.infBits ≤ mag then
      let toInf := match rm with
        | .rne => true
        | .rtz => false
        | .rdn => neg
        | .rup => !neg
      (f.signBit neg + (if toInf then f.infBits else f.infBits - 1), flOF ||| flNX)
    else (f.signBit neg + mag, if inexact then (if tiny then flUF ||| flNX else flNX) else 0)

/-- The encoding of a value that a rounding gives. -/
def packRound (f : Fmt) (rm : Rm) : Fv → Nat × Flg
  | .nan s => (f.nan, if s then flNV else 0)
  | .inf neg => (f.signBit neg + f.infBits, 0)
  | .fin neg m e => roundTo f rm neg m e

/-- Signed mantissa. -/
def smant (neg : Bool) (m : Nat) : Int := if neg then -(m : Int) else m

/-- Exact sum of two finite values as a signed number times a power of two. -/
def addFin (n1 : Bool) (m1 : Nat) (e1 : Int) (n2 : Bool) (m2 : Nat) (e2 : Int) : Int × Int :=
  let e := min e1 e2
  (smant n1 m1 * 2 ^ (e1 - e).toNat + smant n2 m2 * 2 ^ (e2 - e).toNat, e)

/-- Sign of an exact sum that is zero (R261): of two zeros of one sign that sign, else + except under rdn. -/
def zeroSign (rm : Rm) (z1 n1 z2 n2 : Bool) : Bool := if z1 && z2 && n1 == n2 then n1 else rm == .rdn

/-- Signalling NaN among the operands. -/
def isSnan : Fv → Bool
  | .nan s => s
  | _ => false
def isNan : Fv → Bool
  | .nan _ => true
  | _ => false

/-- The invalid-operation NaN. -/
def invalid (f : Fmt) : Nat × Flg := (f.nan, flNV)

/-- NaN result of NaN operands (R70). -/
def nanOf (f : Fmt) (xs : List Fv) : Nat × Flg := (f.nan, if xs.any isSnan then flNV else 0)

/-- a + b, correctly rounded (R73, R260, R261). -/
def fAdd (f : Fmt) (rm : Rm) (a b : Fv) : Nat × Flg :=
  match a, b with
  | .inf n1, .inf n2 => if n1 = n2 then (f.signBit n1 + f.infBits, 0) else invalid f
  | .inf n1, .fin _ _ _ => (f.signBit n1 + f.infBits, 0)
  | .fin _ _ _, .inf n2 => (f.signBit n2 + f.infBits, 0)
  | .fin n1 m1 e1, .fin n2 m2 e2 =>
    let (x, e) := addFin n1 m1 e1 n2 m2 e2
    if x = 0 then (f.signBit (zeroSign rm (m1 == 0) n1 (m2 == 0) n2), 0)
    else roundTo f rm (decide (x < 0)) x.natAbs e
  | a, b => nanOf f [a, b]

def Fv.neg : Fv → Fv
  | .nan s => .nan s
  | .inf n => .inf !n
  | .fin n m e => .fin (!n) m e

/-- Exact product of two values; none for 0 times infinity. -/
def mulExact : Fv → Fv → Option Fv
  | .fin n1 m1 e1, .fin n2 m2 e2 => some (.fin (n1 != n2) (m1 * m2) (e1 + e2))
  | .inf n1, .inf n2 => some (.inf (n1 != n2))
  | .inf n1, .fin n2 m2 _ => if m2 = 0 then none else some (.inf (n1 != n2))
  | .fin n1 m1 _, .inf n2 => if m1 = 0 then none else some (.inf (n1 != n2))
  | .nan s, _ => some (.nan s)
  | _, .nan s => some (.nan s)

/-- a * b (R73, R260). -/
def fMul (f : Fmt) (rm : Rm) (a b : Fv) : Nat × Flg :=
  if isNan a || isNan b then nanOf f [a, b]
  else match mulExact a b with
    | none => invalid f
    | some p => packRound f rm p

/-- a * b + d with one rounding (R73, R260). -/
def fFma (f : Fmt) (rm : Rm) (a b d : Fv) : Nat × Flg :=
  if isNan a || isNan b then nanOf f [a, b, d]
  else match mulExact a b with
    | none => invalid f
    | some p => if isNan d then nanOf f [d] else fAdd f rm p d

/-- a / b (R73, R265). -/
def fDiv (f : Fmt) (rm : Rm) (a b : Fv) : Nat × Flg :=
  match a, b with
  | .inf _, .inf _ => invalid f
  | .inf n1, .fin n2 _ _ => (f.signBit (n1 != n2) + f.infBits, 0)
  | .fin n1 _ _, .inf n2 => (f.signBit (n1 != n2), 0)
  | .fin n1 m1 e1, .fin n2 m2 e2 =>
    if m2 = 0 then (if m1 = 0 then invalid f else (f.signBit (n1 != n2) + f.infBits, flDZ))
    else
      let k := f.fb + 3 + Nat.log2 m2
      let q := m1 * 2 ^ k / m2
      let r := m1 * 2 ^ k % m2
      roundTo f rm (n1 != n2) (2 * q + (if r = 0 then 0 else 1)) (e1 - e2 - k - 1)
  | a, b => nanOf f [a, b]

/-- Integer square root, by bits from `2^n` down. -/
def isqrt (v : Nat) : Nat → Nat → Nat
  | 0, r => r
  | n + 1, r =>
    let c := r + 2 ^ n
    isqrt v n (if c * c ≤ v then c else r)

/-- Square root (R73, R265). -/
def fSqrt (f : Fmt) (rm : Rm) (a : Fv) : Nat × Flg :=
  match a with
  | .nan s => nanOf f [.nan s]
  | .inf n => if n then invalid f else (f.infBits, 0)
  | .fin n m e =>
    if m = 0 then (f.signBit n, 0)
    else if n then invalid f
    else
      let odd := e % 2 != 0
      let m0 := if odd then 2 * m else m
      let e0 := if odd then e - 1 else e
      let k := f.fb + 3
      let v := m0 * 2 ^ (2 * k)
      let r := isqrt v (Nat.log2 v / 2 + 1) 0
      roundTo f rm false (2 * r + (if r * r = v then 0 else 1)) (e0 / 2 - k - 1)

/-- Order of two finite or infinite values: compares their real values. -/
def fvLt (a b : Fv) : Bool :=
  match a, b with
  | .inf n1, .inf n2 => n1 && !n2
  | .inf n1, .fin _ _ _ => n1
  | .fin _ _ _, .inf n2 => !n2
  | .fin n1 m1 e1, .fin n2 m2 e2 => decide ((addFin n1 m1 e1 (!n2) m2 e2).1 < 0)
  | _, _ => false
def fvEq (a b : Fv) : Bool := !isNan a && !isNan b && !fvLt a b && !fvLt b a

def fvNeg : Fv → Bool
  | .nan _ => false
  | .inf n => n
  | .fin n _ _ => n

/-- fmin (R72, R262): bits of the lesser operand. `prop`: the NaN-propagating variant. -/
def fMin (f : Fmt) (prop isMax : Bool) (x y : Nat) : Nat × Flg :=
  let a := unpack f x
  let b := unpack f y
  let fl := if isSnan a || isSnan b then flNV else 0
  if isNan a && isNan b then (f.nan, fl)
  else if isNan a then (if prop then f.nan else y, fl)
  else if isNan b then (if prop then f.nan else x, fl)
  else
    let less := fvLt a b || (fvEq a b && fvNeg a)
    (if less != isMax then x else y, fl)

/-- a * 2^n rounded (R268). -/
def fScale (f : Fmt) (rm : Rm) (n : Int) (a : Fv) : Nat × Flg :=
  match a with
  | .fin s m e => roundTo f rm s m (e + n)
  | a => packRound f rm a

/-- Class mask of an encoding (R269). -/
def fClass (f : Fmt) (b : Nat) : Nat :=
  match unpack f b with
  | .nan s => if s then 1 else 2
  | .inf n => if n then 4 else 512
  | .fin n m _ =>
    if m = 0 then (if n then 32 else 64)
    else if m < 2 ^ f.fb then (if n then 16 else 128)
    else (if n then 8 else 256)

/-- An integer rounded to a float (R75, R273). -/
def ofInt (f : Fmt) (rm : Rm) (i : Int) : Nat × Flg := roundTo f rm (decide (i < 0)) i.natAbs 0

/-- A float rounded to an integer in [lo, hi] (R75, R272). -/
def toInt (rm : Rm) (lo hi : Int) (a : Fv) : Int × Flg :=
  match a with
  | .nan _ => (0, flNV)
  | .inf n => (if n then lo else hi, flNV)
  | .fin n m e =>
    let (q, inexact) := toQuantum rm n m e 0
    let i := smant n q
    if hi < i then (hi, flNV) else if i < lo then (lo, flNV) else (i, if inexact then flNX else 0)

/-- Scale value of a scale byte (R78): m * 2^e; none for a NaN block. -/
def scaleOf (s : BitVec 8) : Option (Nat × Int) :=
  let e := s.toNat / 8
  let m := s.toNat % 8
  if s = 0xFF then none
  else if e = 0 then some (m, -17)
  else some (8 + m, (e : Int) - 18)

end Sys2Proof.Machine
end

