-- ==== Sys2Proof/Machine/Links.lean ====
section
/-! DEFINITION. Flits on the fabric's two planes (R411-R414, R416, R419): how they are sent, how a port's link carries them, and when
they have arrived. -/

namespace Sys2Proof.Machine

/-! ## Sending -/

/-- Beats of a flit, and bytes of payload that one carries (R411). -/
def flitBeats (bulk : Bool) : Nat := if bulk then 8 else 2
def flitPayload (bulk : Bool) : Nat := if bulk then 224 else 48

/-- Port `i` of the package, 64-71 the Ethernet ports, is up to a device (R414, R419). -/
def portReaches (p : Package) (f : BitVec 16) (i : Nat) : Bool :=
  if i < 64 then (p.ports.getD i {}).st == 2 && (p.ports.getD i {}).peer == f
  else (p.eports.getD (i - 64) {}).st == 2 && (p.eports.getD (i - 64) {}).peers.any (fun x => x.1 == f)

/-- The ports that reach a device. -/
def portsTo (p : Package) (f : BitVec 16) : List Nat := (List.range 72).filter (portReaches p f)

/-- The device across the fabric that an access to a key goes to: the home of another package's memory, or a bridge elsewhere for host
memory (R397, R418). -/
def peerOf (p : Package) (key : Nat) : Option (BitVec 16) :=
  if keySpace key = 16 then p.bridge.filter (fun b => !p.fabids.contains b)
  else if 2 ^ 20 ≤ keySpace key ∧ keySpace key < 2 ^ 32 then some (BitVec.ofNat 16 (keySpace key - 2 ^ 20))
  else none

/-- Address class of a key (R413): its home L2 slice. DESIGN CHOICE (log entry 120): another package's slices are not in the state;
addresses of one slice of any device, whose slices number a multiple of 16, agree in this number. -/
def flitClass (key : Nat) : Nat := keyAddr key / 4096 % 16

/-- The port of a flit: that of the flits it has to follow, else one that reaches the device, the sender's choice (R413, R414). -/
def State.portFor (s : State) (src : Nat) (f : BitVec 16) (bulk : Bool) (cls : Option Nat) : Option Nat :=
  let l := portsTo s.pkg f
  match s.clu.flits.find? (fun x => x.src == src && x.dst == f && x.bulk == bulk && x.cls == cls && l.contains x.port) with
  | some x => some x.port
  | none => if l.length ≤ 1 then l.head? else l[Config.freeNat s.fresh 38 % l.length]?

/-- `n` bytes go to a device in as many flits as they fill; a cluster remembers the ports that carry its bulk flits (R411, R413). -/
def State.sendFlits (s : State) (src : Nat) (f : BitVec 16) (n : Nat) (bulk : Bool) (cls : Option Nat) (load : FlitLoad) : State :=
  match s.portFor src f bulk cls with
  | none => s
  | some p =>
    let k := max 1 ((n + (flitPayload bulk - 1)) / flitPayload bulk)
    { s with fresh := s.fresh + k, clu := { s.clu with
      flits := s.clu.flits ++ (List.range k).map (fun i => ⟨s.fresh + i, p, src, f, bulk, cls, load, flitBeats bulk, 0, s.tb⟩)
      bulk := if !bulk || 1000 ≤ src || s.clu.bulk.contains (src, p) then s.clu.bulk else (src, p) :: s.clu.bulk } }

/-- The same towards the home of a key, when it lies across the fabric (R412). -/
def State.sendTo (s : State) (src key n : Nat) (bulk : Bool) (load : FlitLoad) : State :=
  match peerOf s.pkg key with
  | none => s
  | some f => s.sendFlits src f n bulk (some (flitClass key)) load

/-- Something is on its way in a flit. -/
def State.inFlight (s : State) (l : FlitLoad) : Bool := s.clu.flits.any (fun f => f.load == l)

/-- A release at fabric or system scope sends a plane fence on every port that carried a bulk flit of its cluster since the last, before
its own order number (R413). -/
def State.sendFences (s : State) (cl : Nat) (scope : BitVec 3) : State :=
  if scope.toNat < 3 ∨ s.clu.bulk.all (fun b => b.1 != cl) = true then s
  else
    let ps := s.clu.bulk.filter (fun b => b.1 == cl)
    let peer := fun (p : Nat) => ((s.clu.flits.find? (fun f => f.port == p)).map (·.dst)).getD (s.pkg.ports.getD p {}).peer
    { s with fresh := s.fresh + 1, clu := { s.clu with
      fences := s.clu.fences ++ ps.map (fun b => (cl, b.2, s.fresh))
      flits := s.clu.flits ++ ps.map (fun b => ⟨s.fresh, b.2, cl, peer b.2, false, none, .fence s.fresh, flitBeats false, 0, s.tb⟩)
      bulk := s.clu.bulk.filter (fun b => b.1 != cl) } }

/-! ## The links -/

def Package.port (p : Package) (i : Nat) : Port := if i < 64 then p.ports.getD i {} else p.eports.getD (i - 64) {}

def State.updAnyPort (s : State) (i : Nat) (f : Port → Port) : State :=
  { s with pkg := { s.pkg with ports := if i < 64 then modNth f i s.pkg.ports else s.pkg.ports
                               eports := if i < 64 then s.pkg.eports else modNth f (i - 64) s.pkg.eports } }

/-- Narrow flits enter a bulk flit to a device at beat boundaries: under link version 1.1 (R416), agreed per peer on Ethernet (R419). -/
def Port.preempts (p : Port) (i : Nat) (f : BitVec 16) : Bool :=
  if i < 64 then p.vmaj == 1 && p.vmin == 1 else p.peers.any (fun x => x.1 == f && x.2 == 0x11)

/-- The flit whose next beat a link carries, of the first narrow and the first bulk one that wait (R412, R416): while bulk flits wait,
at most 16 of 64 beats are narrow. -/
def Port.nextBeat (p : Port) (i : Nat) (nar blk : Option Flit) : Option Flit :=
  match nar, blk with
  | none, b => b
  | some n, none => some n
  | some n, some b =>
    if n.left < flitBeats false then some n
    else if b.left < flitBeats true && !p.preempts i b.dst then some b
    else if p.narrow + flitBeats false ≤ 16 then some n else some b

/-- One beat on a link, outward or inward. A flit of an Ableax port has arrived with its last beat; one of an Ethernet port waits for its
acknowledgement (R411, R419). -/
def State.beat (s : State) (i : Nat) (inward : Bool) : State :=
  let fs := s.clu.flits.filter (fun f => f.port == i && f.left != 0 && (f.src == 2000) == inward)
  let blk := fs.find? (·.bulk)
  match (s.pkg.port i).nextBeat i (fs.find? (fun f => !f.bulk)) blk with
  | none => s
  | some f =>
    let last := f.left ≤ 1 && i < 64
    let s1 := s.updAnyPort i (fun p =>
      if blk.isNone || 63 ≤ p.beats then { p with beats := 0, narrow := 0 }
      else { p with beats := p.beats + 1, narrow := if f.bulk then p.narrow else p.narrow + 1 })
    { s1 with clu := { s1.clu with flits := if last then s1.clu.flits.filter (· != f)
                                            else s1.clu.flits.map (fun x => if x = f then { x with left := x.left - 1 } else x) } }

/-- `n` beats on a link each way. -/
def State.beats (s : State) (i : Nat) : Nat → State
  | 0 => s
  | n + 1 => ((s.beat i false).beat i true).beats i n

/-- Bits that a port's link carries in a clk: 400 Gb/s a lane, 800 Gb/s on Ethernet (R411, R419). -/
def Port.rate (p : Port) (i : Nat) : Nat := if i < 64 then 250 * p.lanes.toNat else 500

/-- An Ethernet flit that has been sent may have been acknowledged, those it follows first (R413, R419): when, the network decides. -/
def State.ackNow (s : State) (f : Flit) : Bool :=
  decide (64 ≤ f.port) && f.left == 0 && Config.freeBit s.fresh (100 + f.num)
    && s.clu.flits.all (fun x => !(x.src == f.src && x.dst == f.dst && x.bulk == f.bulk && x.cls == f.cls && decide (x.num < f.num)))

/-- The links carry what a clk lets them. -/
def State.runLinks (s : State) : State :=
  let s1 := ((s.clu.flits.map (·.port)).dedup).foldl (fun s i =>
    let p := s.pkg.port i
    if p.st ≠ 2 then s
    else
      let c := p.credit + p.rate i
      (s.updAnyPort i (fun p => { p with credit := c % 256 })).beats i (c / 256)) s
  { s1 with clu := { s1.clu with flits := s1.clu.flits.filter (fun f => !s1.ackNow f) } }

/-- A port to a device is down: its flits take another port to their device, or go with the last one (R414). -/
def State.reroute (s : State) (i : Nat) (peer : BitVec 16) : State :=
  let way := fun (f : BitVec 16) => (portsTo s.pkg f).head?
  { s with clu := { s.clu with
    flits := s.clu.flits.filterMap (fun f => if f.port ≠ i then some f
      else if f.src = 2000 then none
      else (way f.dst).map (fun j => { f with port := j, left := flitBeats f.bulk, row := 0 }))
    fences := s.clu.fences.filterMap (fun f => if f.2.1 ≠ i then some f else (way peer).map (fun j => (f.1, j, f.2.2))) } }

end Sys2Proof.Machine
end

