-- ==== Sys2Proof/Machine/Home.lean ====
section
/-! DEFINITION. The homes and the L1s: lines, leases, keys, performed writes and the pushes they send, L1 contents, the
store path, release completion, and recipe tiles. -/

namespace Sys2Proof.Machine

/-! ## Lines at the home -/

def State.setLine (s : State) (h : HLine) : State :=
  { s with home := { s.home with lines := putIn (fun x => x.line == h.line) h s.home.lines } }

def State.updLine (s : State) (n : Nat) (f : HLine → HLine) : State := s.setLine (f (s.line n))

/-- Latest expiry granted to any L1 but one (R104, R105). -/
def HLine.foreign (h : HLine) (cl l1 : Nat) : Nat :=
  h.leases.foldl (fun a x => if x.1 = cl ∧ x.2.1 = l1 then a else max a x.2.2) 0

def HLine.latest (h : HLine) : Nat := h.leases.foldl (fun a x => max a x.2.2) 0

/-- Latest expiry granted to one L1. -/
def HLine.own (h : HLine) (cl l1 : Nat) : Nat := h.leases.foldl (fun a x => if x.1 = cl ∧ x.2.1 = l1 then max a x.2.2 else a) 0

/-- Record a lease: of each L1 the latest expiry stays (R104). -/
def HLine.grant (h : HLine) (cl l1 expiry : Nat) : HLine :=
  { h with leases := putIn (fun x => x.1 == cl && x.2.1 == l1) (cl, l1, max (h.own cl l1) expiry) h.leases }

def inLines (key n line : Nat) : Bool := decide (key / 128 ≤ line) && decide (line ≤ (key + (n - 1)) / 128)

/-- Numbers of the writes of the part itself that are no entries of a list: a command of hardware queue `q`, the trap service of a
device. -/
def queueNum (q : Nat) : Nat := 2 ^ 200 + q
def trapNum (dev : Nat) : Nat := 2 ^ 201 + dev

/-- A copy piece, a command's write or a record's write that waited for leases has still to be performed. -/
def State.stillWaits (s : State) (num : Nat) : Bool :=
  s.clu.copies.any (fun o => o.num == num && !o.voided && !o.stopped)
    || s.sched.queues.zipIdx.any (fun q => queueNum q.2 == num && !q.1.running.isEmpty) || s.sched.traps.any (fun r => trapNum r.dev == num)

/-- A write other than `num` waits at the home for the line, and has come there before `at` (R404). -/
def State.aheadAt (s : State) (line num before : Nat) : Bool :=
  s.clu.stores.any (fun e => e.ph == .drained && e.key / 128 == line && e.seq != num && decide (e.born < before))
    || s.home.writes.any (fun h => inLines h.key h.bytes.length line && h.num != num && decide (h.num < before))
    || (s.line line).noted.any (fun x => x.1 != num && decide (x.2 < before) && s.stillWaits x.1)

/-- A write waits at the home for the line (R404). -/
def State.writeWaits (s : State) (line : Nat) : Bool :=
  s.clu.stores.any (fun e => e.ph == .drained && e.key / 128 == line)
    || s.home.writes.any (fun h => inLines h.key h.bytes.length line)
    || (s.line line).noted.any (fun x => s.stillWaits x.1)

/-- An L1 other than this one owns a word of the range (R107). -/
def State.foreignOwner (s : State) (cl l1 key n : Nat) : Bool :=
  s.clu.owned.any (fun o => !(o.1 == cl && o.2.1 == l1) && decide (key / 4 ≤ o.2.2) && decide (o.2.2 ≤ (key + (n - 1)) / 4))

/-- Memory that is not this package's: the host's or another package's. -/
def farKey (k : Nat) : Bool := decide (16 ≤ keySpace k) && decide (keySpace k < 2 ^ 32)

/-- The device of an L1's accesses: its cluster's, or, for what the part itself does, cluster 1000 + device. -/
def devOfCl (p : Package) (cl : Nat) : Nat := if 1000 ≤ cl then cl - 1000 else devOfDie p.mode (cl / 13)

/-- The slice of a device that holds a key's line (R91, R343): a device is the home, for its own L1s, of the lines of other homes. -/
def keySlice (p : Package) (key dev : Nat) : Nat := sliceOf p dev (keyAddr key)

/-- The device whose memory a key is in, when it is the package's; else the device of the access. -/
def homeDev (key dev : Nat) : Nat := if keySpace key < 16 then keySpace key else dev

/-- The key is not in the accessing device's own memory: its line stands in the directory of its home (R405). -/
def foreignKey (key dev : Nat) : Bool := farKey key || (decide (keySpace key < 16) && keySpace key != dev)

/-- A slice serves no data: its array is gated, or its H-die is in reset (R407). -/
def State.deadSlice (s : State) (slice : Nat) : Bool := s.home.gated.contains slice || s.home.hreset.contains (slice / 32)

/-- A slice that an access of a device to a key needs serves no data (R407). -/
def State.gatedKey (s : State) (key dev : Nat) : Bool :=
  decide (keySpace key < 2 ^ 33) && (s.deadSlice (keySlice s.pkg key dev) || s.deadSlice (keySlice s.pkg key (homeDev key dev)))

/-- The home cannot serve the key now: its block is between device and host bias (R409), or its slice is gated. -/
def State.flipping (s : State) (key dev : Nat) : Bool :=
  s.home.flips.any (fun f => decide (keySpace key = f.dev) && decide (keyAddr key / 65536 = f.block)) || s.gatedKey key dev

/-- The block of a key is in host bias (R408). -/
def State.hostBias (s : State) (key : Nat) : Bool := s.home.bias.contains (keySpace key, keyAddr key / 65536)

/-- The line as an access under a key id finds it (R401, R402): the L2 writes a line that it holds under another key id back under
that one, and fetches it again. -/
def State.underKey (s : State) (line : Nat) (kid : BitVec 8) : State :=
  let h := s.line line
  if h.kid = kid ∧ s.otherKey line kid = false ∨ 16 ≤ keySpace (128 * line) then s
  else if s.otherKey line kid then
    (s.poke (128 * line) (s.lineUnder line kid)).setLine { h with kid := kid, wkey := keyOfId s.pkg kid, dirty := false }
  else s.setLine { h with kid := kid, dirty := false }

/-! ## Standpipe pushes (R120-R123) -/

def granBytes (m : Memory) (gran : Nat) : BitVec 128 := BitVec.ofNat 128 (readNat m (16 * gran) 16)

def State.send (s : State) (m : Msg) : State :=
  { s with fresh := s.fresh + 1, home := { s.home with msgs := s.home.msgs ++ [{ m with num := s.fresh }] } }

/-- A push not yet landed that the new one may replace (R123): LATEST, not seq 0, nothing but data behind it. -/
def coalesces (s : State) (h : HomeSub) (m : Msg) : Bool :=
  h.md.toNat / 16 == 0 && m.cell == h.cell && m.slot == h.slot && m.kind == .data && m.sq != 0
    && !(s.home.msgs.any (fun x => x.cell == h.cell && x.slot == h.slot && decide (m.num < x.num)))
    && Config.freeBit s.fresh 11

/-- One counted write of a granule: the count and a push to every open subscriber (R120, R122). -/
def State.countWrite (s : State) (gran : Nat) : State :=
  match s.home.pipes.find? (fun p => p.gran == gran) with
  | none => s
  | some p =>
    let n := p.count + 1
    let s1 := { s with home := { s.home with
      pipes := s.home.pipes.map (fun q => if q.gran = gran then { q with count := n } else q) } }
    (p.subs.filter (fun h => !h.frozen)).foldl (fun s h =>
      let s := { s with home := { s.home with msgs := s.home.msgs.filter (fun m => !coalesces s h m) } }
      s.send ⟨0, h.cell, h.slot, .data, n - h.base, granBytes s.home.mem gran⟩) s1

/-- Count a write of `n` bytes at a key for every granule it touches. -/
def State.countWrites (s : State) (key n : Nat) : State :=
  (List.range ((key + (n - 1)) / 16 - key / 16 + 1)).foldl (fun s i => s.countWrite (key / 16 + i)) s

/-- Lines of tiles that the L2 holds, by their line number (R135). -/
def Tile.lines (t : Tile) : List Nat := t.present.map (fun i => keyRec t.ctx (t.base.toNat + 128 * i) / 128)

/-- An L2 slice holds the line of ordinary memory: as its home's, or for another device (R91). -/
def State.inSlice (s : State) (h : HLine) (slice : Nat) : Bool :=
  let key := 128 * h.line
  decide (keySpace key < 2 ^ 32) && h.present
    && ((decide (keySpace key < 16) && keySlice s.pkg key (keySpace key) == slice) || h.devs.any (fun d => keySlice s.pkg key d == slice))

/-- Device of a context's cells. -/
def State.ctxDev (s : State) (ctx : BitVec 32) : Nat := ((s.ctx? ctx).map (·.dev)).getD 0

/-- Lines of a tile that an L2 slice holds (R135). -/
def State.tileLinesIn (s : State) (t : Tile) (slice : Nat) : List Nat :=
  t.lines.filter (fun l => keySlice s.pkg (128 * l) (s.ctxDev t.ctx) == slice)

/-- The line leaves the L2s: its data is in its backing memory (R92). -/
def HLine.evict (h : HLine) : HLine := { h with present := false, dirty := false, mine := .i, devs := [] }

/-- Dirty data of a line homed elsewhere goes back to its home, on the bulk plane, and the home counts it (R120, R406, R412). -/
def State.giveBack (s : State) (h : HLine) : State :=
  if farKey (128 * h.line) && h.dirty then
    (s.countWrites (128 * h.line) 128).sendTo (1000 + h.devs.headD 0) (128 * h.line) 128 true (.writeBack h.line)
  else s

/-- A message of a slot's cluster to its home goes on the narrow plane where the home is another package's (R132, R412). -/
def State.sendHome (s : State) (c : Cell) (x : Slot) (k : MsgKind) : State :=
  (s.send ⟨0, c.uid, x.slot, k, 0, 0⟩).sendTo c.cl (16 * x.gran) 16 false (.standpipe s.fresh)

/-- The line leaves the L2s, written back if it is dirty (R92). -/
def State.evictLine (s : State) (h : HLine) : State := (s.giveBack h).setLine h.evict

/-- A line that an L2 slice may give up: of ordinary memory, or of an unpinned RESIDENT tile (R92, R139). -/
inductive Spare where
  | line (h : HLine)
  | tile (t : Tile) (i : Nat)
deriving DecidableEq, Repr

/-- The lines that a slice may give up: those on which no write waits, and of other homes' lines those whose leases are over. -/
def State.spares (s : State) (slice : Nat) : List Spare :=
  (s.home.lines.filter (fun h => s.inSlice h slice && !s.writeWaits h.line
      && ((!farKey (128 * h.line) && h.devs.isEmpty) || decide (h.latest ≤ s.tb)))).map .line
    ++ (s.home.tiles.filter (fun t => t.st == .resident && t.pin == 0)).flatMap (fun t =>
      (t.present.filter (fun i => keySlice s.pkg (keyRec t.ctx (t.base.toNat + 128 * i)) (s.ctxDev t.ctx) == slice)).map (.tile t))

/-- A slice of 2 MiB that is full gives up a line, the device's choice, before another enters for a device (R2, R91, R92, R139). -/
def State.roomL2 (s : State) (line dev : Nat) : State :=
  let slice := keySlice s.pkg (128 * line) dev
  let held := s.home.lines.countP (fun h => s.inSlice h slice) + (s.home.tiles.flatMap (fun t => s.tileLinesIn t slice)).length
  if held < Config.sliceLines then s
  else
    let out := s.spares slice
    match out[Config.freeNat s.fresh 33 % max out.length 1]? with
    | some (.line h) => s.evictLine h
    | some (.tile t i) => s.dropTileLine t i
    | none => s

/-- The line enters the L2 of its home, and of the device that accesses it when that is another (R91, R403): k starts at 2. -/
def State.enterL2 (s : State) (line dev : Nat) : State :=
  let key := 128 * line
  let h := s.line line
  let s1 := if h.present then s
    else (s.roomL2 line (homeDev key dev)).updLine line (fun h => { h with present := true, k := 2, waited := false, raised := 0 })
  if !foreignKey key dev || h.devs.contains dev then s1
  else (if farKey key && !h.present then s1 else s1.roomL2 line dev).updLine line (fun h =>
    { h with devs := dev :: h.devs, mine := if farKey key && h.mine == .i then .s else h.mine })

/-- Lines of tiles become present when they are written (R137). -/
def State.markPresent (s : State) (key : Nat) : State :=
  if keySpace key < 2 ^ 32 then s
  else if keySpace key = 2 ^ 33 then s
  else
    let ctx := BitVec.ofNat 32 (keySpace key - 2 ^ 32)
    let va := BitVec.ofNat 64 (keyAddr key)
    match (s.ctx? ctx).bind (·.region? va) with
    | none => s
    | some r =>
      let base := r.tileBase va
      let i := (va.toNat - base.toNat) / 128
      (s.touchTile ctx base).updTile ctx base (fun t => if t.present.contains i then t else { t with present := i :: t.present })

/-- A write performed at its home (R105, R120): the bytes, the line's presence, the standpipe counts. A write to a line homed elsewhere
is in this device's L2, and is counted when its line goes back (R406). -/
def State.perform (s : State) (dev key : Nat) (kid : BitVec 8) (bs : List Byte) : State :=
  let line := key / 128
  let s1 := ((s.underKey line kid).enterL2 line dev).poke key bs
  let s2 := s1.updLine line (fun h => { h with dirty := true, mine := if farKey key then .m else h.mine, devs := h.devs.filter (· == dev) })
  if farKey key then s2 else (s2.markPresent key).countWrites key bs.length

/-! ## L1 (R102-R106) -/

/-- L1 that an access of a unit uses: logical core of the crew, 0 for the spine, by line when fused (R102). -/
def l1Of (p : Package) (c : Cell) (core : Nat) (spine : Bool) (va : W64) : Nat :=
  if c.hdr.fused then (va.toNat >>> 7) % max (numCores p c.cl) 1 else if spine then 0 else core

/-- The L1's line as accesses under a key id see it: under another they hit none of its bytes (R402). -/
def State.l1Line? (s : State) (cl l1 line : Nat) (kid : BitVec 8) : Option L1Line :=
  s.clu.lines.find? (fun x => x.cl == cl && x.l1 == l1 && x.line == line && x.kid == kid)

def L1Line.same (x y : L1Line) : Bool := x.cl == y.cl && x.l1 == y.l1 && x.line == y.line && x.kid == y.kid

def State.setL1 (s : State) (x : L1Line) : State :=
  { s with clu := { s.clu with lines := putIn (L1Line.same x) x s.clu.lines } }

/-- An entry whose bytes stand in an L1's written masks: a plain store of global memory that nothing holds back (R103). -/
def StoreEnt.inL1 (e : StoreEnt) (cl l1 : Nat) (kid : BitVec 8) : Bool :=
  e.kind == .plain && e.ph != .held && e.cl == cl && e.l1 == l1 && e.kid == kid

/-- Keys and bytes of an entry, those that merged into it first. -/
def StoreEnt.pieces (e : StoreEnt) : List (Nat × List Byte) := e.more ++ [(e.key, e.bytes)]

/-- Byte `a` of memory is in the written mask of the L1 (R103). -/
def State.masked (s : State) (cl l1 : Nat) (kid : BitVec 8) (a : Nat) : Bool :=
  s.clu.stores.any (fun e => e.inL1 cl l1 kid && e.pieces.any (fun p => decide (p.1 ≤ a) && decide (a < p.1 + p.2.length)))

/-- `old` with `new` from position `i`. -/
def splice (old : List Byte) (i : Nat) (new : List Byte) : List Byte := old.take i ++ new ++ old.drop (i + new.length)

def L1Line.bytes (x : L1Line) : List Byte := bytesOfNat 128 x.data.toNat

def L1Line.put (x : L1Line) (i : Nat) (bs : List Byte) : L1Line :=
  { x with data := BitVec.ofNat 1024 (natOfBytes (splice x.bytes i bs)) }

/-- A line's bytes with those that stores have written and that are not yet performed on top, in the order of the L1 (R103). -/
def State.overlay (s : State) (cl l1 line : Nat) (kid : BitVec 8) (bs : List Byte) : List Byte :=
  ((s.clu.stores.filter (fun e => e.inL1 cl l1 kid && e.key / 128 == line)).flatMap StoreEnt.pieces).foldl
    (fun b p => splice b (p.1 % 128) p.2) bs

/-- A line of an L1 that holds nothing yet. -/
def L1Line.empty (cl l1 line : Nat) (kid : BitVec 8) : L1Line := ⟨cl, l1, line, 0, 0, 0, kid⟩

/-- An L1 of 256 KiB that is full gives up a line, the device's choice: its dirty words drain (R102, R106). -/
def State.roomL1 (s : State) (cl l1 line : Nat) (kid : BitVec 8) : State :=
  let ls := s.clu.lines.filter (fun x => x.cl == cl && x.l1 == l1)
  if ls.any (fun x => x.line == line && x.kid == kid) ∨ ls.length < Config.l1Lines then s
  else match ls[Config.freeNat s.fresh 32 % max ls.length 1]? with
    | some x => { s with clu := { s.clu with
        lines := s.clu.lines.filter (fun y => !x.same y)
        stores := s.clu.stores.map (fun e => if e.inL1 cl l1 x.kid && e.key / 128 == x.line then { e with urged := true } else e) } }
    | none => s

/-- Write a store's bytes into the L1 (R103); its entry is already among the dirty ones. -/
def State.l1Write (s : State) (cl l1 key : Nat) (kid : BitVec 8) (bs : List Byte) : State :=
  let line := key / 128
  let s := s.roomL1 cl l1 line kid
  let x := ((s.l1Line? cl l1 line kid).getD (L1Line.empty cl l1 line kid)).put (key % 128) bs
  let full := (List.range 32).filter (fun w => (List.range 4).all (fun i => s.masked cl l1 kid (128 * line + 4 * w + i)))
  s.setL1 { x with valid := full.foldl (fun v w => v ||| (1#32 <<< w)) x.valid }

/-- Bytes performed at the home by this L1 stand in its own copy of the line, under what later stores have written (R105, R107). -/
def State.l1Keep (s : State) (cl l1 key : Nat) (kid : BitVec 8) (bs : List Byte) : State :=
  match s.l1Line? cl l1 (key / 128) kid with
  | none => s
  | some x =>
    let new := bs.zipIdx.map (fun b => if s.masked cl l1 kid (key + b.2) then x.bytes.getD (key % 128 + b.2) 0 else b.1)
    s.setL1 (x.put (key % 128) new)

/-- Words that an access of `n` bytes reads. -/
def wordsOf (key n : Nat) : List Nat := (List.range ((key + (n - 1)) / 4 - key / 4 + 1)).map (key / 4 + ·)

/-- The bytes of a hit, or none (R103): under a live lease, or of bytes that stores have written here and that are not yet performed. -/
def State.l1Read (s : State) (cl l1 key n : Nat) (kid : BitVec 8) : Option (List Byte) :=
  let x := (s.l1Line? cl l1 (key / 128) kid).getD (L1Line.empty cl l1 (key / 128) kid)
  let valid := fun w => x.valid.getLsbD (w % 32)
  let dirty := fun w => (List.range 4).any (fun i => s.masked cl l1 kid (4 * w + i))
  let covered := fun w => (List.range n).all (fun i => decide ((key + i) / 4 ≠ w) || s.masked cl l1 kid (key + i))
  let leased := decide (s.tb < x.expiry) && (wordsOf key n).all valid
  let own := (wordsOf key n).all (fun w => dirty w && (valid w || covered w))
  if leased || own then some (((s.overlay cl l1 (key / 128) kid x.bytes).drop (key % 128)).take n) else none

/-- Word `w` of a line is in its 32-byte sector `i`. -/
def inSector (i w : Nat) : Bool := w / 8 == i

/-- A sector of a line returns to an L1: written bytes stay, its words become valid, the lease is installed; words that a lease now
over left behind are valid no longer, nor, of a tile's line, those that this fetch has not brought (`left`: the sectors still to come),
which may be another generation's (R103, R138). -/
def State.l1Fill (s : State) (cl l1 line : Nat) (kid : BitVec 8) (expiry i : Nat) (left : BitVec 4) : State :=
  let s := s.roomL1 cl l1 line kid
  let x := (s.l1Line? cl l1 line kid).getD (L1Line.empty cl l1 line kid)
  let full := fun w => (List.range 4).all (fun b => s.masked cl l1 kid (128 * line + 4 * w + b))
  let live := decide (s.tb < x.expiry)
  let keep := fun w => live && (decide (keySpace (128 * line) < 2 ^ 32) || !left.getLsbD (w / 8))
  let ok := fun w => inSector i w || full w || (keep w && x.valid.getLsbD w)
  let bytes := (List.zip x.bytes (s.lineBytes line)).zipIdx.map (fun b => if inSector i (b.2 / 4) then b.1.2 else b.1.1)
  s.setL1 { x with data := BitVec.ofNat 1024 (natOfBytes (s.overlay cl l1 line kid bytes))
                   valid := (List.range 32).foldl (fun v w => if ok w then v ||| (1#32 <<< w) else v) 0
                   expiry := expiry }

/-- The home grants a lease (R104, R403); `long` is the prefetch of R292. -/
def State.lease (s : State) (cl l1 line : Nat) (long : Bool) : Nat × State :=
  let h := s.line line
  let len := if long && decide (2 ≤ h.k) then 4096 else 64 * 2 ^ h.k
  (s.tb + len, s.setLine (h.grant cl l1 (s.tb + len)))

/-! ## The store path -/

/-- Two accesses of one unit stand in the program order of a common thread: `scal` says of a scalar-pipe access that it stands in
every thread's (R281). -/
def sameThread (tid1 : Nat) (scal1 : Bool) (tid2 : Nat) (scal2 : Bool) : Bool := tid1 == tid2 || scal1 || scal2

/-- The entry is of this thread. -/
def StoreEnt.of (e : StoreEnt) (cell u tid : Nat) : Bool := e.cell == cell && e.unit == u && (e.tid == tid || e.scal)

/-- Two entries are of a common thread. -/
def StoreEnt.kin (e x : StoreEnt) : Bool := e.cell == x.cell && e.unit == x.unit && sameThread e.tid e.scal x.tid x.scal

/-- The load is of this thread. -/
def LoadEnt.of (l : LoadEnt) (cell u tid : Nat) : Bool := l.cell == cell && l.unit == u && (l.tid == tid || l.scal)

def StoreEnt.isMarker (e : StoreEnt) : Bool :=
  match e.kind with
  | .marker .. => true
  | _ => false

def StoreEnt.isAtomic (e : StoreEnt) : Bool :=
  match e.kind with
  | .atomic .. => true
  | _ => false

/-- A key of basin storage. -/
def basinKey (k : Nat) : Bool := keySpace k == 2 ^ 33

/-- The storage scope covers an access at a key (R152): bit 0 the basin, bit 1 global memory. -/
def covers (q : BitVec 2) (key : Nat) : Bool := if basinKey key then q.getLsbD 0 else q.getLsbD 1

/-- A release of the thread that has not completed stands before order number `n` (R153). -/
def State.behindMarker (s : State) (cell u tid n : Nat) : Bool :=
  s.clu.stores.any (fun e => e.isMarker && e.of cell u tid && decide (e.seq < n))

/-- Who releases: the cell, the unit, its core, the thread, the scopes, and the order number of the release. -/
structure Release where
  cell : Cell
  u : Nat
  core : Nat
  tid : Nat
  scope : BitVec 3
  q : BitVec 2
  n : Nat
deriving DecidableEq, Repr

/-- The release completes in the L1: at crew scope, or at cell scope in a fused L1 (R106, R153). -/
def Release.inL1 (r : Release) : Bool :=
  (r.scope == 0 && r.u != 0) || (decide (r.scope.toNat ≤ 1) && r.cell.hdr.fused)

/-- The release waits for an entry of the store path (R106, R153): its thread's own, and past the L1 those of the threads that share
the L1, whose values its thread may have read. -/
def Release.waits (r : Release) (e : StoreEnt) : Bool :=
  let own := e.of r.cell.uid r.u r.tid && decide (e.first < r.n)
  let l1 := if r.u = 0 then 0 else r.core
  !e.isMarker && covers r.q e.key
    && (if r.inL1 then own && (e.ph == .held || e.isAtomic)
        else own || (e.ph != .held && decide (e.first < r.n) && e.cl == r.cell.cl && (r.cell.hdr.fused || e.l1 == l1)))

/-- The release is complete (R106, R153): the covered loads have their values, the covered writes are visible at the scope, and no
plane fence that it sent is on its way (R413). -/
def State.released (s : State) (r : Release) : Bool :=
  !(s.clu.loads.any (fun l => l.of r.cell.uid r.u r.tid && !l.done && decide (l.num < r.n) && covers r.q l.key))
    && !(s.clu.stores.any r.waits)
    && !(decide (3 ≤ r.scope.toNat) && s.clu.fences.any (fun f => f.1 == r.cell.cl && decide (f.2.2 < r.n)))

/-- A release, a fence or an atomic of the thread: no store before it merges into one after it (R150). -/
def State.shutStores (s : State) (cell u tid : Nat) : State :=
  { s with clu := { s.clu with stores := s.clu.stores.map (fun e => if e.of cell u tid then { e with shut := true } else e) } }

/-- The same for several threads. -/
def State.shutFor (s : State) (cell u : Nat) (tids : List Nat) : State := tids.foldl (fun s t => s.shutStores cell u t) s

/-- Two entries touch a common byte. -/
def StoreEnt.meets (e x : StoreEnt) : Bool :=
  decide (e.key < x.key + x.bytes.length) && decide (x.key < e.key + e.bytes.length)

/-- An entry must stay held: behind an earlier load of its thread that has not taken its value, an unfinished release, or a held
entry of its thread on the same storage, and, because a bundle's accesses take effect in ascending tid, behind a held entry of its
own bundle for the same bytes (R150, R153, R281). -/
def State.mustHold (s : State) (e : StoreEnt) : Bool :=
  s.clu.loads.any (fun l => l.cell == e.cell && l.unit == e.unit && sameThread l.tid l.scal e.tid e.scal && !l.done && decide (l.num < e.seq)
      && !(match e.kind with
        | .atomic _ _ _ (some k) => l.num == k
        | _ => false))
    || s.clu.stores.any (fun x => decide (x.seq < e.seq) && ((x.isMarker && x.kin e)
      || (x.ph == .held && !x.isMarker && basinKey x.key == basinKey e.key && (x.kin e || (x.iss == e.iss && x.meets e)))))

/-- Put an entry on the store path: held, or dirty in the L1. -/
def State.enqueue (s : State) (e : StoreEnt) : State :=
  let e := { e with seq := s.fresh }
  let e := { e with ph := if s.mustHold e then .held else e.ph }
  let s1 := { s with fresh := s.fresh + 1, clu := { s.clu with stores := s.clu.stores ++ [e] } }
  if e.kind = .plain ∧ e.ph = .dirty then s1.l1Write e.cl e.l1 e.key e.kid e.bytes else s1

/-- A store may merge into a later one `e` of its thread: dirty, with no release, fence or atomic between them, and all its bytes in
words that `e` writes (R106, R150). -/
def StoreEnt.mayMerge (e x : StoreEnt) : Bool :=
  x.kind == .plain && x.ph == .dirty && !x.shut && x.cell == e.cell && x.unit == e.unit && x.tid == e.tid && x.scal == e.scal && x.kid == e.kid
    && decide (e.key / 4 ≤ x.key / 4) && decide ((x.key + (x.bytes.length - 1)) / 4 ≤ (e.key + (e.bytes.length - 1)) / 4)

/-- The bytes of `x` are all written again by `e`. -/
def StoreEnt.hides (e x : StoreEnt) : Bool :=
  x.more.isEmpty && decide (e.key ≤ x.key) && decide (x.key + x.bytes.length ≤ e.key + e.bytes.length)

/-- The stores `m` may merge into `e` together: where `e` leaves bytes of one standing, no store but of `m` has written on top of
them (R149, R151). -/
def State.mergeOk (s : State) (e : StoreEnt) (m : List StoreEnt) : Bool :=
  m.all (fun x => e.hides x || s.clu.stores.all (fun y => m.contains y
    || !(y.cl == x.cl && y.l1 == x.l1 && !y.isMarker && x.pieces.any (fun p => decide (y.key < p.1 + p.2.length) && decide (p.1 < y.key + y.bytes.length)))))

/-- Earlier dirty stores of the thread merge into a later one, or do not: the device's choice (R106). The word has been dirty since
the first of them, and a release that covers one of them covers the merged store (R153). -/
def State.mergeInto (s : State) (e : StoreEnt) : State × StoreEnt :=
  let m := s.clu.stores.filter e.mayMerge
  if m.isEmpty || !Config.freeBit s.fresh 12 || !s.mergeOk e m then (s, e)
  else ({ s with clu := { s.clu with stores := s.clu.stores.filter (fun x => !m.contains x) } },
    { e with born := m.foldl (fun b x => min b x.born) e.born, first := m.foldl (fun b x => min b x.first) e.first
             more := m.flatMap StoreEnt.pieces })

/-! ## Recipe tiles (R137-R145) -/

/-- What the home of a tile answers to an access. -/
inductive TileAns where
  | ok
  | trap (code : BitVec 8)
  | wait
deriving DecidableEq, Repr

/-- Bytes pinned in a region (R141). -/
def State.pinnedBytes (s : State) (ctx : BitVec 32) (r : Region) : Nat :=
  r.size * (s.home.tiles.filter (fun t => t.ctx == ctx && r.holds t.base && (t.st == .building || t.pin != 0))).length

/-- Tiles that the threads of the recipe cell building a tile wait on (R142); a producer build has no recipe cell. -/
def State.waitsOn (s : State) (c : Context) (base : W64) : List W64 :=
  let t := s.tile c.tag base
  match (if t.launch.isSome then t.owner else none).bind s.cell? with
  | none => []
  | some cell =>
    (cell.units.flatMap (fun u => u.threads.filterMap (fun th =>
      if th.st = .blocked ∧ th.wkind = 8 then (c.region? th.wobj).map (fun r => r.tileBase th.wobj) else none))).dedup

/-- A wait on tile `x` would close a cycle through tile `goal` (R142). -/
def State.closesCycle (s : State) (c : Context) (goal : W64) : Nat → W64 → Bool
  | 0, x => x == goal
  | n + 1, x => x == goal || (s.waitsOn c x).any (fun y => s.closesCycle c goal n y)

/-- A word of a recipe record. -/
def State.recWord (s : State) (c : Context) (r : Region) (base : W64) (off : Nat) : Option W64 :=
  (readVirt s c (r.record base + BitVec.ofNat 64 off) 8).map (fun b => BitVec.ofNat 64 (natOfBytes b))

/-- The kernel fits the recipe reserve (R143). -/
def Header.fitsReserve (h : Header) : Bool :=
  decide (h.ncrew ≤ 8) && decide (h.fast ≤ 64) && h.slow == 0 && decide (h.basin ≤ 64) && decide (h.ncis ≤ 16) && h.gang == 0

/-- The node of a record, when it is usable (R140). -/
def State.recipeNode (s : State) (c : Context) (h : W64) : Option LNode :=
  if h = 0 ∨ h.extractLsb' 16 16 ≠ fabidOf s.pkg c.dev ∨ h.extractLsb' 32 32 ≠ c.tag then none
  else s.sched.nodes.find? (fun n => n.dev == c.dev && n.ctx == c.tag && n.idx == (h.extractLsb' 0 16).toNat
    && n.z == 128 && n.hdr.fitsReserve)

/-- A launch tag of a device (R374). -/
def State.takeTag (s : State) (dev : Nat) : BitVec 16 × State :=
  let t := s.sched.tagCtr.getD dev 0
  (t, { s with sched := { s.sched with tagCtr := modNth (· + 1) dev s.sched.tagCtr } })

/-- An item joins the pending list (R360). -/
def State.addItem (s : State) (dev : Nat) (ctx : BitVec 32) (k : ItemKind) (pri : BitVec 3) (sub : Nat × Nat × Nat) : State :=
  { s with fresh := s.fresh + 1
           sched := { s.sched with items := s.sched.items ++ [⟨s.fresh, dev, ctx, k, pri, s.clk, sub, s.tb, false, [], [], [], []⟩] } }

/-- HANDLER names this node of the context and it is registered (R321, R377). -/
def State.isHandler (s : State) (c : Context) (idx : Nat) : Bool :=
  c.handler ≠ 0 ∧ c.handler.extractLsb' 0 16 = BitVec.ofNat 16 idx
    ∧ c.handler.extractLsb' 16 16 = fabidOf s.pkg c.dev ∧ c.handler.extractLsb' 32 32 = c.tag

/-- A launch made by a node: a fired bin, or the recipe cell of a tile (R192, R194, R140). -/
def State.fireNode (s : State) (n : LNode) (pri : BitVec 3) (recs : List (List Byte)) (tile : Option (W64 × Nat)) : State :=
  let (tag, s1) := s.takeTag n.dev
  let h := match s.ctx? n.ctx with
    | some c => s.isHandler c n.idx
    | none => false
  let res := match s.ctx? n.ctx with
    | some c => c.reserve
    | none => false
  let l : Launch := ⟨s1.fresh, tag, n.ctx, n.kernel, n.param, 1, n.hdr, [], pri, res, 0, 0, none, some n.idx, recs, h, tile⟩
  let s2 := { s1 with sched := { s1.sched with launches := s1.sched.launches ++ [l] } }
  s2.addItem n.dev n.ctx (if tile.isSome then .recipe s1.fresh else .node s1.fresh) pri (0, n.idx, 0)

/-- A read miss starts a siphon build (R140): `d` is the requester's depth, `mine` the tile its cell builds. -/
def State.startBuild (s : State) (c : Context) (r : Region) (base : W64) (d : Nat) (mine : Option W64) : TileAns × State :=
  let w := fun off => (s.recWord c r base off).getD 0
  match s.recipeNode c (w 8) with
  | none => (.trap tRecFailed, s)
  | some node =>
    if w 80 ≠ base then (.trap tRecFailed, s)
    else
      let cyc := match mine with
        | some m => s.closesCycle c m 6 base
        | none => false
      if 6 < d + 1 ∨ cyc = true then (.trap tRecDepth, s)
      else
        let srcs := ([48, 56, 64, 72].map w).filter (fun a => a != 0 && (match c.region? a with
          | some q => q.tileBase a == a
          | none => false))
        let counted := ((base :: srcs).dedup).filter (fun a => (s.tile c.tag a).st != .building && (s.tile c.tag a).pin == 0)
        let overCap := c.regions.any (fun q => q.v && decide (q.cap < s.pinnedBytes c.tag q
          + q.size * (counted.filter (fun a => q.holds a)).length))
        if overCap then (.trap tRecCapacity, s)
        else
          let s1 := s.touchTile c.tag base
          let s2 := s1.dropTile (s1.tile c.tag base)
          let s3 := srcs.foldl (fun s a => s.moveTile c.tag a (fun t => { t with pin := t.pin + 1 })) s2
          let s4 := s3.moveTile c.tag base (fun t =>
            { t with st := .building, depth := BitVec.ofNat 64 (d + 1), owner := none, launch := none, srcs := srcs })
          let s5 := s4.updTile c.tag base (fun t => { t with launch := some s4.fresh })
          let raw := (readVirt s c (r.record base) 128).getD (List.replicate 128 0)
          let t := s5.tile c.tag base
          let bytes := splice (splice raw 0 (bytesOfNat 8 t.word.toNat)) 88 (bytesOfNat 8 t.depth.toNat)
          (.wait, s5.fireNode node c.topPri [bytes] (some (base, d + 1)))

/-- The tile that a recipe cell is building, with its depth (R140): none before its tile is BUILDING and after the seal. -/
def State.building (s : State) (c : Cell) : Option (W64 × Nat) :=
  c.tile.filter (fun x => (s.tile c.ctx x.1).st == .building && (s.tile c.ctx x.1).owner == some c.uid)

/-- A read of a region address by a cell (R137, R139, R140, R146): the tile's home looks whether the L2 has the line, before the L1
serves any byte (R283). `ready`: the stores before it are performed, so that the siphon may read the record (R163). -/
def State.tileRead (s : State) (c : Context) (r : Region) (va : W64) (cell : Cell) (ready : Bool) : TileAns × State :=
  let base := r.tileBase va
  let t := s.tile c.tag base
  let i := (va.toNat - base.toNat) / 128
  let mine := s.building cell
  let build := if ready then s.startBuild c r base ((mine.map (·.2)).getD 0) (mine.map (·.1)) else (.wait, s)
  match t.st with
  | .poisoned => (.trap tRecFailed, s)
  | .retired => (.trap tRecRetired, s)
  | .absent => build
  | .resident => if t.present.contains i then (.ok, s) else build
  | .building =>
    if t.present.contains i then (.ok, s)
    else if mine.any (fun m => s.closesCycle c m.1 6 base) then (.trap tRecDepth, s) else (.wait, s)

/-- A write of a region address by a cell (R137, R139, R141, R146). -/
def State.tileWrite (s : State) (c : Context) (r : Region) (va : W64) (cell : Nat) : TileAns × State :=
  let base := r.tileBase va
  let t := s.tile c.tag base
  match t.st with
  | .poisoned => (.trap tRecFailed, s)
  | .retired => (.trap tRecRetired, s)
  | .resident => (.trap tRecWrite, s)
  | .building => (.ok, s)
  | .absent =>
    if t.pin = 0 ∧ r.cap < s.pinnedBytes c.tag r + r.size then (.trap tRecCapacity, s)
    else (.ok, s.moveTile c.tag base (fun x => { x with st := .building, depth := 0, owner := some cell, launch := none }))

/-- The end of a build by a seal (R138): RESIDENT, GEN + 1, the build's pins go; lines never written read zero; what waited is served. -/
def State.sealTile (s : State) (c : Context) (r : Region) (base : W64) : State :=
  let s1 := (s.unpinSrcs (s.tile c.tag base)).serveWaiters c.tag base
  let new := (List.range (r.size / 128)).filter (fun i => !(s.tile c.tag base).present.contains i)
  let s2 := new.foldl (fun s i => (s.roomL2 (keyRec c.tag (base.toNat + 128 * i) / 128) c.dev).updTile c.tag base
    (fun t => { t with present := t.present ++ [i] })) s1
  s2.moveTile c.tag base (fun t => { t with st := .resident, gen := t.gen + 1, owner := none, launch := none, waiters := [] })

end Sys2Proof.Machine
end

