-- ==== Sys2Proof/Machine/Global.lean ====
section
/-! DEFINITION. Acceptance of an access by a thread (R283), addresses and data registers of memory instructions
(R279-R281), load batches (R109-R112), and faults that the host serves (R381). -/

namespace Sys2Proof.Machine

/-! ## Faults served by the host (R381) -/

/-- Core number of a unit in stall lists: its logical core, 100 for the spine. -/
def coreNo (u : Nat) (us : UnitSt) : Nat := if u = 0 then 100 else us.core

/-- Bytes of the page that a request names: the leaf's, or, where there is no leaf, the smallest page's. DEDUCED (log entry 15). -/
def State.faultSize (s : State) (ctx : BitVec 32) (cl : Nat) (va : W64) : Nat :=
  match s.ctx? ctx with
  | none => pageBytes 0
  | some c => match (findLeaf s c cl va).1 with
    | .leaf l _ => pageBytes l
    | _ => pageBytes 0

/-- The page with so many bytes that holds an address. -/
def pageBase (va : W64) (size : Nat) : W64 := BitVec.ofNat 64 (va.toNat / size * size)

/-- The address lies in the page that the stall waits for. -/
def CoreStall.holds (x : CoreStall) (va : W64) : Bool := pageBase va x.size == x.page

/-- The core stalls and the cluster asks the host once for the page. The thread keeps AUX for a failing answer. -/
def State.hostStall (s : State) (c : Cell) (u : Nat) (us : UnitSt) (tids : List Nat) (va : W64) (aux : Nat) : State :=
  let size := s.faultSize c.ctx c.cl va
  let page := pageBase va size
  let core := coreNo u us
  let asked := s.clu.stalls.any (fun x => x.cl == c.cl && x.ctx == c.ctx && x.page == page && x.answer == 0)
  let s1 := s.updThreads c.uid u tids (fun t => { t with answer := some (BitVec.ofNat 64 aux) })
  { s1 with
    clu := { s1.clu with stalls := ⟨c.cl, core, c.ctx, page, size, 0⟩ ::
      s1.clu.stalls.filter (fun x => !(x.cl == c.cl && x.core == core && x.ctx == c.ctx && x.page == page)) }
    pkg := { s1.pkg with hostReqs := if asked then s1.pkg.hostReqs else (c.ctx, page, c.cl) :: s1.pkg.hostReqs } }

/-! ## Acceptance (R283, R398) -/

/-- Where an accepted global access goes. -/
structure GAddr where
  key : Nat
  kid : BitVec 8
  /-- on a fabric or host address (R110). -/
  far : Bool
  /-- in a recipe region. -/
  reg : Bool
deriving DecidableEq, Repr

inductive Accept where
  | ok (g : GAddr)
  | trap (i : TrapInfo)
  | host
  | wait
deriving DecidableEq, Repr

/-- VA of the line that holds an address, as POISON shows it (R373). -/
def lineVa (va : W64) : W64 := (va >>> 7) <<< 7

/-- No port reaches the home of a key (R414, R418). -/
def unreachable (p : Package) (key : Nat) : Bool :=
  let sp := keySpace key
  if sp = 16 then !hostReachable p
  else if 2 ^ 20 ≤ sp ∧ sp < 2 ^ 32 then !reachable p (BitVec.ofNat 16 (sp - 2 ^ 20))
  else false

/-- The release of a thread's global stores at device scope, as an engine operation that it starts waits for it (R163). -/
def Who.release (w : Who) (tid : Nat) (scope : BitVec 3) (q : BitVec 2) (n : Nat) : Release :=
  ⟨w.cell, w.u, w.unit.core, tid, scope, q, n⟩

/-- The thread's stores so far are performed. -/
def State.storesOver (s : State) (w : Who) (tid : Nat) : Bool :=
  s.released (w.release tid 2 2 s.fresh) && !s.behindMarker w.cell.uid w.u tid s.fresh

/-- Acceptance of a global access of a thread: translation, then the tile's home, then the reach of the home. -/
def State.accept (s : State) (w : Who) (tid : Nat) (va : W64) (acc : Access) : Accept × State :=
  match s.ctx? w.cell.ctx with
  | none => (.trap ⟨tTranslation, va, BitVec.ofNat 64 acc.aux⟩, s)
  | some c =>
    match translate s c w.cell.cl va acc with
    | (.trap code, s1) => (.trap ⟨code, va, BitVec.ofNat 64 acc.aux⟩, s1)
    | (.host, s1) => (.host, s1.hostStall w.cell w.u w.unit [tid] va acc.aux)
    | (.ok key kid _ far, s1) =>
      if unreachable s1.pkg key then (.trap ⟨tPoison, va, w.pc⟩, s1) else (.ok ⟨key, kid, far, false⟩, s1)
    | (.region key, s1) =>
      match c.region? va with
      | none => (.trap ⟨tTranslation, va, BitVec.ofNat 64 acc.aux⟩, s1)
      | some r =>
        let word := (s1.tile c.tag (r.tileBase va)).word
        let ans := if acc = .load then s1.tileRead c r va w.cell (s1.storesOver w tid) else s1.tileWrite c r va w.cell.uid
        match ans with
        | (.ok, s2) => (.ok ⟨key, 0, false, true⟩, s2)
        | (.trap code, s2) => (.trap ⟨code, va, word⟩, s2)
        | (.wait, s2) => (.wait, s2)

/-- What an access that was not accepted comes to: a trap, or a wait of kind 8 or 16 (R383). -/
def Accept.out (a : Accept) (va : W64) : LaneOut :=
  match a with
  | .ok _ => .done
  | .trap i => .trap i
  | .host => .block 16 va
  | .wait => .block 8 va

/-! ## Addresses (R279) -/

/-- A field that may name a base or an address. -/
def Who.baseOk (w : Who) (a : BitVec 7) : Bool :=
  match w.op a with
  | .v _ | .k _ | .x _ => true
  | .zero => w.spine
  | _ => false

/-- A field that may name an offset. -/
def Who.offOk (w : Who) (b : BitVec 7) : Bool :=
  match w.op b with
  | .v _ | .x _ | .zero => true
  | _ => false

/-- Width at which an offset is read: 32 for a v register (sign-extended), else 64. -/
def Who.offWidth (w : Who) (b : BitVec 7) : Nat :=
  match w.op b with
  | .v _ => 32
  | _ => 64

def Who.offset (w : Who) (tid : Nat) (b : BitVec 7) : W64 :=
  match w.op b with
  | .v _ => ((w.src tid b 32).setWidth 32).signExtend 64
  | _ => w.src tid b 64

/-- Effective address of base and register offset. -/
def Who.ea (w : Who) (tid : Nat) (a b : BitVec 7) : W64 := w.src tid a 64 + w.offset tid b

/-- Effective address of base and scaled immediate. -/
def Who.eai (w : Who) (tid : Nat) (a : BitVec 7) (i : BitVec 7) (n : Nat) : W64 :=
  w.src tid a 64 + i.signExtend 64 * BitVec.ofNat 64 n

/-! ## Data registers (R280) -/

/-- A field that may name a data register. -/
def Who.dataOk (w : Who) (d : BitVec 7) : Bool :=
  match w.op d with
  | .v _ | .k _ | .x _ | .zero => true
  | _ => false

/-- D names a k register: the instruction runs on the scalar pipe (R281). -/
def Who.isK (w : Who) (d : BitVec 7) : Bool :=
  match w.op d with
  | .k _ => true
  | _ => false

/-- Register width, in bits, of a data register for `n` bytes. -/
def dataWidth (n : Nat) : Nat := if n ≤ 4 then 32 else 8 * n

/-- Bytes that a load writes to its destination. -/
def Who.dstBytes (w : Who) (d : BitVec 7) (n : Nat) : Nat :=
  match w.op d with
  | .v _ => max 4 n
  | _ => max 8 n

/-- Where a load puts its value; none when it performs no read (R284). -/
def Who.loadDst (w : Who) (d : BitVec 7) (n : Nat) : LoadDst :=
  match w.op d with
  | .v p => .v p
  | .k r => .r r
  | .x r => .r r
  | .zero => if w.spine ∧ n = 16 then .r 0 else .none
  | _ => .none

/-- The `n` low bytes that a store takes from D. -/
def Who.data (w : Who) (tid : Nat) (d : BitVec 7) (n : Nat) : List Byte :=
  if n = 16 then
    match w.op d with
    | .v _ => bytesOfNat 8 (w.src tid d 64).toNat ++ bytesOfNat 8 (w.src tid (d + 2) 64).toNat
    | .k _ | .x _ => bytesOfNat 8 (w.src tid d 64).toNat ++ bytesOfNat 8 (w.src tid (d + 1) 64).toNat
    | _ => List.replicate 16 0
  else bytesOfNat n (w.src tid d (if n = 8 then 64 else 32)).toNat

/-- Loaded bytes extended to the destination (R280). -/
def extendTo (sgn : Bool) (bytes : Nat) (bs : List Byte) : List Byte :=
  let fill : Byte := if sgn && (bs.getLastD 0).getLsbD 7 then 0xFF else 0
  bs ++ List.replicate (bytes - bs.length) fill

/-- Bytes now in a load's destination, lowest register first. -/
def UnitSt.dstBytesNow (u : UnitSt) (dst : LoadDst) (tid size : Nat) : List Byte :=
  match dst with
  | .none => []
  | .v p => (List.range (size / 4)).flatMap (fun i => bytesOfNat 4 (sget u.v (regV (p + i) tid)).toNat)
  | .r n => (List.range (size / 8)).flatMap (fun i => bytesOfNat 8 (sget u.regs (n + i)).toNat)

/-- Write loaded bytes to a destination; x0 discards its part. -/
def UnitSt.putBytes (u : UnitSt) (spine : Bool) (dst : LoadDst) (tid : Nat) (bs : List Byte) : UnitSt :=
  match dst with
  | .none => u
  | .v p =>
    let put := fun st i => sset st (regV (p + i) tid) (BitVec.ofNat 32 (natOfBytes ((bs.drop (4 * i)).take 4)))
    { u with v := (List.range (bs.length / 4)).foldl put u.v }
  | .r n =>
    let put := fun st i => if spine = true ∧ n + i = 0 then st
      else sset st (n + i) (BitVec.ofNat 64 (natOfBytes ((bs.drop (8 * i)).take 8)))
    { u with regs := (List.range (bs.length / 8)).foldl put u.regs }

/-- Registers of a load's destination, as pending numbers. -/
def LoadEnt.regs (l : LoadEnt) : List Nat :=
  match l.dst with
  | .none => []
  | .v p => (List.range ((l.size + 3) / 4)).map (fun i => regV (p + i) l.tid)
  | .r n => (List.range ((l.size + 7) / 8)).map (fun i => regK (n + i))

/-- Bytes of one register. -/
def LoadEnt.unitBytes (l : LoadEnt) : Nat :=
  match l.dst with
  | .v _ => 4
  | _ => 8

/-- Byte `o` of register `r` as the load returned it, when it has. -/
def LoadEnt.byteAt (l : LoadEnt) (r o : Nat) : Option Byte :=
  if l.done && l.regs.contains r then l.val[l.unitBytes * l.regs.findIdx (· == r) + o]? else none

/-- A load's bytes arrive (R111): each byte is its own, or, of those that may arrive later, the one of another load outstanding on the
register, or of a later instruction's result in flight. -/
def UnitSt.arrive (u : UnitSt) (spine : Bool) (l : LoadEnt) (ls : List LoadEnt) (clk fresh : Nat) (bs : List Byte) : UnitSt :=
  let cur := u.dstBytesNow l.dst l.tid l.size
  let flies := fun (r : Nat) => l.written.contains r && u.pend.any (fun q => q.reg == r && q.flies clk)
  let others := if spine then [] else ls.filter (fun x => x.num != l.num)
  u.putBytes spine l.dst l.tid (bs.zipIdx.map (fun b =>
    let r := l.regs.getD (b.2 / l.unitBytes) 0
    let b1 := others.zipIdx.foldl (fun v x => match x.1.byteAt r (b.2 % l.unitBytes) with
      | some y => if pick fresh (200 + x.2) r (b.2 % l.unitBytes) then y else v
      | none => v) b.1
    if flies r && pick fresh 14 r (b.2 % l.unitBytes) then cur.getD b.2 b1 else b1))

/-- A load `x` outstanding on common registers has completed: what a read may see from before this one is that load's byte, or that of
an instruction that wrote there after it (R111). -/
def LoadEnt.after (l x : LoadEnt) (fresh : Nat) : LoadEnt :=
  { l with old := l.old.zipIdx.map (fun b =>
      let r := l.regs.getD (b.2 / l.unitBytes) 0
      match x.byteAt r (b.2 % l.unitBytes) with
      | some y => if x.written.contains r && pick fresh 15 r (b.2 % l.unitBytes) then b.1 else y
      | none => b.1) }

/-! ## Load batches (R109-R112) -/

/-- Loads of a unit. -/
def LoadEnt.on (l : LoadEnt) (cell u : Nat) : Bool := l.cell == cell && l.unit == u

/-- Batches of a unit. -/
def State.batches (s : State) (cell u : Nat) : List Batch :=
  match s.cell? cell with
  | some c => (c.unit u).batches
  | none => []

/-- A value-returning memory instruction could not be accepted: 8 batches are outstanding and none is open (R25, R109). -/
def State.batchesFull (s : State) (w : Who) : Bool :=
  let bs := s.batches w.cell.uid w.u
  decide (Config.maxBatches ≤ bs.length) && bs.all (·.closed)

/-- The batch that this instruction's loads enter (R109): all its threads and passes use one place. -/
def State.joinBatch (s : State) (w : Who) : Nat × State :=
  match s.clu.loads.find? (fun l => l.on w.cell.uid w.u && l.iss == w.iss) with
  | some l => (l.batch, s)
  | none =>
    match (s.batches w.cell.uid w.u).find? (fun b => !b.closed) with
    | some b => (b.num, s.updUnit w.cell.uid w.u (fun u => { u with batches := u.batches.map (fun x =>
        if x.num = b.num then { x with count := x.count + 1, closed := decide (8 ≤ x.count + 1) } else x) }))
    | none =>
      let s1 := s.updUnit w.cell.uid w.u (fun u => { u with batches := u.batches ++ [⟨s.fresh, 1, false⟩] })
      (s.fresh, s1.tick1)

/-- The unit's load instruction has passes to come, which may still add to its batch (R24, R109). -/
def State.passing (s : State) (cell u b : Nat) : Bool :=
  s.clu.ports.any (fun p => p.cell == cell && p.unit == u && s.clu.loads.any (fun l => l.on cell u && l.iss == p.iss && l.batch == b))

/-- Closed batches whose loads have all written complete (R109). -/
def State.settleBatches (s : State) (cell u : Nat) : State :=
  let fin := ((s.batches cell u).filter (fun b => b.closed && !s.passing cell u b.num
    && s.clu.loads.all (fun l => !(l.on cell u && l.batch == b.num) || l.done))).map (·.num)
  if fin.isEmpty then s
  else
    let s1 := s.updUnit cell u (fun x => { x with batches := x.batches.filter (fun b => !fin.contains b.num) })
    let ended := fun (l : LoadEnt) => l.on cell u && fin.contains l.batch
    let gone := s1.clu.loads.filter ended
    { s1 with clu := { s1.clu with loads := (s1.clu.loads.filter (fun l => !ended l)).map (fun l =>
      if l.on cell u then gone.foldl (fun l x => l.after x s.fresh) l else l) } }

/-- Close the open batch. -/
def State.closeBatch (s : State) (cell u : Nat) : State :=
  (s.updUnit cell u (fun x => { x with batches := x.batches.map (fun b => { b with closed := true }) })).settleBatches cell u

/-- After an instruction's threads have run, batches that became complete complete. -/
def settling (s : State) (o : Host.Outcome State Fault Refusal) : Host.Outcome State Fault Refusal :=
  match o with
  | .next t => .next (t.settleBatches s.issue.cell s.issue.unit)
  | x => x

/-- Loads of the thread on a storage scope that have not taken their values. -/
def State.loadsOpen (s : State) (w : Who) (tid : Nat) (q : BitVec 2) : Bool :=
  s.clu.loads.any (fun l => l.of w.cell.uid w.u tid && !l.done && covers q l.key)

/-- Two accesses touch a common 4-byte word. -/
def sameWord (k1 n1 k2 n2 : Nat) : Bool := decide (k1 / 4 ≤ (k2 + (n2 - 1)) / 4) && decide (k2 / 4 ≤ (k1 + (n1 - 1)) / 4)

/-- A load may not take its value yet: an earlier acquire of its thread has not (R154), nor an earlier load of the same word; its
thread's own store to the word is held back, or its own atomic on it is not performed (R149). -/
def State.mustWait (s : State) (l : LoadEnt) : Bool :=
  s.clu.loads.any (fun x => x.cell == l.cell && x.unit == l.unit && sameThread x.tid x.scal l.tid l.scal && !x.done && decide (x.num < l.num)
      && ((x.acq && !basinKey l.key) || sameWord x.key x.n l.key l.n))
    || s.clu.stores.any (fun e => e.cell == l.cell && e.unit == l.unit && sameThread e.tid e.scal l.tid l.scal && decide (e.seq < l.num)
      && !e.isMarker && (e.ph == .held || e.isAtomic) && sameWord e.key e.bytes.length l.key l.n)

/-- Enter a load in a batch; `val` reads its value when it is at hand. -/
def State.enterLoad (s : State) (w : Who) (d : Desc) (tid : Nat) (f : BitVec 7) (n : Nat) (sgn : Bool) (va : W64) (g : GAddr) (l1 : Nat)
    (isAtom acq : Bool) (val : State → Option (List Byte)) : State :=
  let (b, s1) := s.joinBatch w
  let dst := w.loadDst f n
  let size := w.dstBytes f n
  let old := match s1.cell? w.cell.uid with
    | some c => (c.unit w.u).dstBytesNow dst tid size
    | none => []
  let l : LoadEnt := ⟨s1.fresh, w.cell.uid, w.u, tid, b, dst, size, sgn, n, va, g.key, g.kid, w.cell.cl, l1, isAtom, acq,
    g.far, false, old, [], [], w.pc, w.iss, w.u != 0 && w.kDst d, none⟩
  let now := if s1.mustWait l then none else val s1
  let ls := s1.loadsOf w.cell.uid w.u
  let bs := extendTo sgn size (now.getD [])
  let ent := if now.isSome then { l with done := true, val := bs } else l
  let s3 := { s1 with fresh := s1.fresh + 1, clu := { s1.clu with loads := s1.clu.loads ++ [ent] } }
  if now.isSome then s3.updUnit w.cell.uid w.u (fun u => u.arrive w.spine l ls w.clk w.fresh bs) else s3

/-- A load's key and L1 for a basin access. -/
def basinAddr (c : Cell) (a : Nat) : GAddr := ⟨keyBasin c.cl (c.basinOff + a), 0, false, false⟩

/-- A basin read of the thread must wait: its own store to the word, or an earlier load of it, stands before it (R149). -/
def State.basinBehind (s : State) (w : Who) (tid : Nat) (ea : W64) (n : Nat) : Bool :=
  let k := (basinAddr w.cell ea.toNat).key
  s.clu.stores.any (fun e => e.of w.cell.uid w.u tid && e.ph == .held && !e.isMarker && sameWord e.key e.bytes.length k n)
    || s.clu.loads.any (fun l => l.of w.cell.uid w.u tid && !l.done && sameWord l.key l.n k n)

/-- A thread's pending POISON begins: the trap service builds the record and holds it (R283). -/
def State.notePoison (s : State) (uid u tid : Nat) (va pc : W64) : State :=
  match s.cell? uid with
  | none => s
  | some c => s.updThread uid u tid (fun t =>
      if t.st = .exited ∨ t.ppois.isSome = true then t
      else { t with ppois := some ⟨va, pc, trapWords s c u [tid] ⟨tPoison, va, pc⟩ 0⟩ })

/-- A thread's pending RECIPE_WRITE begins, with the tile's record word as the refusal found it (R138, R373). -/
def State.noteRecWrite (s : State) (uid u tid : Nat) (va pc word : W64) : State :=
  match s.cell? uid with
  | none => s
  | some c => s.updThread uid u tid (fun t =>
      if t.st = .exited ∨ t.prw.isSome = true then t
      else { t with prw := some ⟨va, pc, trapWords s c u [tid] ⟨tRecWrite, va, word⟩ 0⟩ })

/-- MISALIGNED and BASIN_RANGE of a thread access (R89, R95). -/
def addrTrap (c : Cell) (bsn : Bool) (ea : W64) (n : Nat) : Option TrapInfo :=
  if ea.toNat % n ≠ 0 then some ⟨tMisaligned, ea, BitVec.ofNat 64 n⟩
  else if bsn = true ∧ (ea.msb = true ∨ outOfBasin c ea.toNat n = true) then some ⟨tBasin, ea, BitVec.ofNat 64 n⟩
  else none

/-- The address lies in a tile that is BUILDING (R137). -/
def State.buildingAt (s : State) (ctx : BitVec 32) (va : W64) : Bool :=
  match (s.ctx? ctx).bind (·.region? va) with
  | none => false
  | some r => (s.tile ctx (r.tileBase va)).st == .building

/-- Put a thread's store, atomic or release on the store path; `bsn`: it waits for its turn at the basin. -/
def State.putStore (s : State) (w : Who) (tid : Nat) (scal : Bool) (k : StoreKind) (ea : W64) (g : GAddr) (bs : List Byte) : State :=
  let l1 := l1Of s.pkg w.cell w.unit.core w.spine ea
  let ph : StorePhase := match k with
    | .marker .. => .held
    | _ => if basinKey g.key then .held else .dirty
  let e : StoreEnt := ⟨s.fresh, k, ph, w.cell.cl, l1, w.cell.uid, w.u, tid, w.cell.ctx, ea, g.key, g.kid, bs, s.tb, w.pc, w.iss,
    scal, false, false, [], s.fresh⟩
  let (s1, e1) := if k = .plain ∧ ph = .dirty ∧ s.mustHold e = false then s.mergeInto e else (s, e)
  s1.enqueue e1

/-- A release of a thread begins: nothing when it is complete already, else a marker that holds back what the thread does after it
(R153), and plane fences for fabric scope (R413). -/
def State.beginRelease (s : State) (w : Who) (tid : Nat) (scope : BitVec 3) (q : BitVec 2) : State :=
  let s1 := (s.shutStores w.cell.uid w.u tid).sendFences w.cell.cl scope
  if s1.released (w.release tid scope q s1.fresh) && !s1.behindMarker w.cell.uid w.u tid s1.fresh then s1
  else s1.putStore w tid false (.marker scope q) 0 ⟨0, 0, false, false⟩ []

/-- An access that waits for a tile. When it is the thread's own stores that a build waits for, they drain (R163). -/
def State.awaitTile (s : State) (w : Who) (tid : Nat) (ea : W64) : LaneOut × State :=
  if s.buildingAt w.cell.ctx ea || s.behindMarker w.cell.uid w.u tid s.fresh then (.block 8 ea, s)
  else (.block 8 ea, s.beginRelease w tid 2 2)

/-- The load performs no read (R284), but finds a poisoned line as one that does (R283). -/
def State.findPoison (s : State) (w : Who) (tid : Nat) (ea : W64) (g : GAddr) : State :=
  if (s.line (g.key / 128)).poison then s.notePoison w.cell.uid w.u tid (lineVa ea) w.pc else s

/-- One thread's load (R284, R286). DESIGN CHOICE (log entry 44): R93 does not say what a hit in a leased L1 line gives once the line at
the home has been poisoned; here it gives the L1's bytes, without POISON. DESIGN CHOICE (log entry 109): a line of a tile that an L1
took under a lease before the tile's lines were dropped serves hits there until the lease ends (R103, R105), also when the new build
never writes it and R137 makes it read as zero. -/
def loadLane (w : Who) (d : Desc) (bsn acq : Bool) (n : Nat) (sgn : Bool) (f : BitVec 7) (ea : W64) (tid : Nat) (s : State) : LaneOut × State :=
  match addrTrap w.cell bsn ea n with
  | some i => (.trap i, s)
  | none =>
    let dst := w.loadDst f n
    if bsn then
      if dst = .none then (.done, s)
      else (.done, s.enterLoad w d tid f n sgn ea (basinAddr w.cell ea.toNat) 0 false false (fun s => some (s.readBasin w.cell ea.toNat n)))
    else
      let l1 := l1Of s.pkg w.cell w.unit.core w.spine ea
      let key := keyRec w.cell.ctx ea.toNat
      match s.accept w tid ea .load with
      | (.ok g, s1) =>
        if dst = .none then (.done, s1.findPoison w tid ea g)
        else (.done, s1.enterLoad w d tid f n sgn ea g l1 false acq (fun s => s.l1Read w.cell.cl l1 g.key n g.kid))
      | (.wait, s1) =>
        -- bytes of a BUILDING tile that the L1 still holds dirty hit there (R103)
        match (if s.buildingAt w.cell.ctx ea && (List.range n).all (fun i => s.masked w.cell.cl l1 0 (key + i))
          then s1.l1Read w.cell.cl l1 key n 0 else none) with
        | some bs => (.done, if dst = .none then s1 else s1.enterLoad w d tid f n sgn ea ⟨key, 0, false, true⟩ l1 false acq (fun _ => some bs))
        | none => s1.awaitTile w tid ea
      | (a, s1) => (a.out ea, s1)

/-- A basin access of the thread must wait for its turn (R150, R153). -/
def State.basinWaits (s : State) (w : Who) (tid : Nat) (scal : Bool) (k : StoreKind) (ea : W64) (bs : List Byte) : Bool :=
  s.mustHold ⟨s.fresh, k, .held, w.cell.cl, 0, w.cell.uid, w.u, tid, w.cell.ctx, ea, (basinAddr w.cell ea.toNat).key, 0, bs, s.tb, w.pc,
    w.iss, scal, false, false, [], s.fresh⟩

/-- A basin store of a thread: performed at once, or when its turn comes (R97, R150, R285, R294). -/
def State.basinStore (s : State) (w : Who) (tid : Nat) (scal : Bool) (k : StoreKind) (ea : W64) (bs : List Byte) : State :=
  if s.basinWaits w tid scal k ea bs then s.putStore w tid scal k ea (basinAddr w.cell ea.toNat) bs
  else
    let s1 := s.writeBasin w.cell ea.toNat bs
    if k = .full then s1.setFe w.cell ea.toNat true else s1

/-- One thread's store (R285). -/
def storeLane (w : Who) (d : Desc) (bsn : Bool) (n : Nat) (f : BitVec 7) (ea : W64) (tid : Nat) (s : State) : LaneOut × State :=
  match addrTrap w.cell bsn ea n with
  | some i => (.trap i, s)
  | none =>
    let scal := d.scalar && !w.spine
    if bsn then (.done, s.basinStore w tid scal .plain ea (w.data tid f n))
    else
      match s.accept w tid ea .store with
      | (.ok g, s1) => (.done, s1.putStore w tid scal .plain ea g (w.data tid f n))
      | (a, s1) => (a.out ea, s1)

end Sys2Proof.Machine
end

