-- ==== Sys2Proof/Machine/Memory.lean ====
section
/-! DEFINITION. Loads, stores, atomics, batches, fences, prefetch and full/empty instructions (R157-R159, R279-R295). -/

namespace Sys2Proof.Machine

/-! ## Loads and stores -/

/-- Bytes of a load's size code (R284). -/
def loadSize (f : BitVec 3) : Nat :=
  match f.toNat with
  | 0 | 1 => 1
  | 2 | 3 => 2
  | 4 => 4
  | 5 => 8
  | _ => 16

/-- Sign-extending size codes. -/
def loadSigned (f : BitVec 3) : Bool := f == 1 || f == 3

/-- Bytes of a store's size code (R285). -/
def storeBytes (f : BitVec 3) : Nat :=
  match f.toNat with
  | 0 => 1
  | 2 => 2
  | 4 => 4
  | 5 => 8
  | _ => 16

/-- Basin words that the threads of an issue touch, each at its address (R98): one access on the scalar pipe. -/
def Who.touches (w : Who) (one : Bool) (n : Nat) (ea : Nat → W64) : List (Nat × List Nat) :=
  (if one then [w.lead] else w.tids).map (fun t => (t, if addrTrap w.cell true (ea t) n = none then wordsOf (ea t).toNat n else []))

/-- What comes before a load's own checks. A value-returning one waits for a batch (R109). -/
def loadDesc (s : State) (w : Who) (n : Nat) (a : BitVec 7) (b : Option (BitVec 7)) (d : BitVec 7) (bsn acq : Bool) (ea : Nat → W64) : Desc where
  rds := (a, 64) :: b.toList.map (fun b => (b, w.offWidth b))
  wr := some (d, dataWidth n)
  bad := !w.baseOk a || b.any (fun b => !w.offOk b) || !w.dataOk d
  settles := acq
  basin := bsn
  touch := if bsn then w.touches (w.isK d) n ea else []
  hold := decide (w.loadDst d n ≠ .none) && s.batchesFull w

/-- What comes before a store's own checks; D is its data. -/
def storeDesc (w : Who) (n : Nat) (a : BitVec 7) (b : Option (BitVec 7)) (d : BitVec 7) (bsn rel : Bool) (ea : Nat → W64) : Desc where
  rds := (a, 64) :: b.toList.map (fun b => (b, w.offWidth b)) ++ [(d, dataWidth n)]
  bad := !w.baseOk a || b.any (fun b => !w.offOk b) || !w.dataOk d
  scalar := w.isK d
  settles := rel
  basin := bsn
  touch := if bsn then w.touches (w.isK d) n ea else []

/-- R284. -/
def execLd (p : BitVec 1) (f : BitVec 3) (b a d : BitVec 7) (s : State) : Host.Outcome State Fault Refusal :=
  let ds := fun (w : Who) => loadDesc s w (loadSize f) a (some b) d (p == 1) false (fun t => w.ea t a b)
  settling s (drive s ds (fun w tid s => loadLane w (ds w) (p == 1) false (loadSize f) (loadSigned f) d (w.ea tid a b) tid s))

/-- R284. -/
def execLdi (p : BitVec 1) (f : BitVec 3) (i a d : BitVec 7) (s : State) : Host.Outcome State Fault Refusal :=
  let n := loadSize f
  let ds := fun (w : Who) => loadDesc s w n a none d (p == 1) false (fun t => w.eai t a i n)
  settling s (drive s ds (fun w tid s => loadLane w (ds w) (p == 1) false n (loadSigned f) d (w.eai tid a i n) tid s))

/-- R285. -/
def execSt (p : BitVec 1) (f : BitVec 3) (b a d : BitVec 7) (s : State) : Host.Outcome State Fault Refusal :=
  let ds := fun (w : Who) => storeDesc w (storeBytes f) a (some b) d (p == 1) false (fun t => w.ea t a b)
  drive s ds (fun w tid s => storeLane w (ds w) (p == 1) (storeBytes f) d (w.ea tid a b) tid s)

/-- R285. -/
def execSti (p : BitVec 1) (f : BitVec 3) (i a d : BitVec 7) (s : State) : Host.Outcome State Fault Refusal :=
  let n := storeBytes f
  let ds := fun (w : Who) => storeDesc w n a none d (p == 1) false (fun t => w.eai t a i n)
  drive s ds (fun w tid s => storeLane w (ds w) (p == 1) n d (w.eai tid a i n) tid s)

/-- R158, R286: an acquire load. -/
def execLda (z : BitVec 1) (_c : BitVec 3) (b a d : BitVec 7) (s : State) : Host.Outcome State Fault Refusal :=
  let n := if z = 1 then 8 else 4
  let ds := fun (w : Who) => loadDesc s w n a (some b) d false true (fun t => w.ea t a b)
  settling s (drive s ds (fun w tid s => loadLane w (ds w) false true n false d (w.ea tid a b) tid s))

/-- R158, R286: a release store; its bytes are held until the release completes. -/
def execStl (z : BitVec 1) (c : BitVec 3) (b a d : BitVec 7) (s : State) : Host.Outcome State Fault Refusal :=
  let n := if z = 1 then 8 else 4
  let ds := fun (w : Who) => storeDesc w n a (some b) d false true (fun t => w.ea t a b)
  drive s ds (fun w tid s =>
    let ea := w.ea tid a b
    match addrTrap w.cell false ea n with
    | some i => (.trap i, s)
    | none =>
      match s.accept w tid ea .store with
      | (.ok g, s1) =>
        -- a scalar-pipe store is one access of every thread of the bundle, and a release of each (R281)
        let scal := (ds w).scalar && !w.spine
        let s2 := (if scal then w.tids else [tid]).foldl (fun s t => s.beginRelease w t c 2) s1
        (.done, s2.putStore w tid scal .plain ea g (w.data tid d n))
      | (x, s1) => (x.out ea, s1))

/-! ## Atomics (R287-R289) -/

/-- 64-bit forms. -/
def atomWide (f : BitVec 4) : Bool := f == 1 || f == 10 || f == 12
def atomBytes (f : BitVec 4) : Nat := if atomWide f then 8 else 4
/-- Forms whose return is sign-extended (R288). -/
def atomSigned (f : BitVec 4) : Bool := f == 2 || f == 3

/-- The word an atomic leaves (R288); none when it writes nothing. -/
def atomNew (f : BitVec 4) (old b d : W64) : Option W64 :=
  let o32 : W32 := old.setWidth 32
  let b32 : W32 := b.setWidth 32
  let r32 := fun (x : W32) => some (x.setWidth 64 : W64)
  let half := fun (x y : Nat) => (fAdd bf16 .rne (unpack bf16 x) (unpack bf16 y)).1
  match f.toNat with
  | 0 => r32 (o32 + b32)
  | 1 => some (old + b)
  | 2 => r32 (if b32.toInt < o32.toInt then b32 else o32)
  | 3 => r32 (if o32.toInt < b32.toInt then b32 else o32)
  | 4 => r32 (if b32.toNat < o32.toNat then b32 else o32)
  | 5 => r32 (if o32.toNat < b32.toNat then b32 else o32)
  | 6 => r32 (o32 &&& b32)
  | 7 => r32 (o32 ||| b32)
  | 8 => r32 (o32 ^^^ b32)
  | 9 => r32 b32
  | 10 => some b
  | 11 => if o32 = d.setWidth 32 then r32 b32 else none
  | 12 => if old = d then some b else none
  | 13 => r32 (BitVec.ofNat 32 (fAdd f32 .rne (unpack f32 o32.toNat) (unpack f32 b32.toNat)).1)
  | 14 => r32 (BitVec.ofNat 32 (half (o32.toNat % 65536) (b32.toNat % 65536) + 65536 * half (o32.toNat / 65536) (b32.toNat / 65536)))
  | _ => r32 (if b32.toNat ≤ o32.toNat then 0 else o32 + 1)

/-- What comes before an atomic's own checks. -/
def atomDesc (s : State) (w : Who) (f : BitVec 4) (a b d : BitVec 7) (bsn : Bool) : Desc :=
  let width := 8 * atomBytes f
  let cas := f == 11 || f == 12
  { rds := (a, 64) :: (b, width) :: (if cas then [(d, width)] else [])
    wr := some (d, width)
    bad := !w.baseOk a || !w.dataOk d
    basin := bsn
    touch := if bsn then w.touches (w.isK d) (atomBytes f) (fun t => w.src t a 64) else []
    hold := decide (w.loadDst d (atomBytes f) ≠ .none) && s.batchesFull w }

/-- Put an atomic on the store path; the old value enters the batch unless D discards it. -/
def State.putAtomic (s : State) (w : Who) (ds : Desc) (tid : Nat) (f : BitVec 4) (b d : BitVec 7) (ea : W64) (g : GAddr) (l1 : Nat) : State :=
  let n := atomBytes f
  let s1 := s.shutFor w.cell.uid w.u (if w.u != 0 && w.kDst ds then w.tids else [tid])
  let s2 := if w.loadDst d n = .none then s1 else s1.enterLoad w ds tid d n (atomSigned f) ea g l1 true false (fun _ => none)
  let ld := if w.loadDst d n = .none then none else s2.clu.loads.getLast?.map (·.num)
  s2.putStore w tid (w.u != 0 && w.kDst ds) (.atomic f (w.src tid b (8 * n)) (w.src tid d (8 * n)) ld) ea g (List.replicate n 0)

/-- R287-R289: performed in the word's order at the home; the old value enters the batch. -/
def execAtom (f : BitVec 4) (b a d : BitVec 7) (s : State) : Host.Outcome State Fault Refusal :=
  let ds := fun (w : Who) => atomDesc s w f a b d false
  settling s (drive s ds (fun w tid s =>
    let ea := w.src tid a 64
    match addrTrap w.cell false ea (atomBytes f) with
    | some i => (.trap i, s)
    | none =>
      match s.accept w tid ea .atomic with
      | (.ok g, s1) => (.done, s1.putAtomic w (ds w) tid f b d ea g (l1Of s1.pkg w.cell w.unit.core w.spine ea))
      | (x, s1) => (x.out ea, s1)))

/-- R108, R287: performed at the basin at once, or when its turn comes (R150, R153). -/
def execAtomb (f : BitVec 4) (b a d : BitVec 7) (s : State) : Host.Outcome State Fault Refusal :=
  let n := atomBytes f
  let ds := fun (w : Who) => atomDesc s w f a b d true
  settling s (drive s ds (fun w tid s =>
    let ea := w.src tid a 64
    let scal := w.u != 0 && w.kDst (ds w)
    match addrTrap w.cell true ea n with
    | some i => (.trap i, s)
    | none =>
      let vb := w.src tid b (8 * n)
      let vd := w.src tid d (8 * n)
      let g := basinAddr w.cell ea.toNat
      if s.basinWaits w tid scal (.atomic f vb vd none) ea (List.replicate n 0) then (.done, s.putAtomic w (ds w) tid f b d ea g 0)
      else
        let old := s.readBasin w.cell ea.toNat n
        let s1 := (match atomNew f (BitVec.ofNat 64 (natOfBytes old)) vb vd with
          | some x => s.writeBasin w.cell ea.toNat (bytesOfNat n x.toNat)
          | none => s).shutFor w.cell.uid w.u (if scal then w.tids else [tid])
        (.done, if w.loadDst d n = .none then s1
          else s1.enterLoad w (ds w) tid d n (atomSigned f) ea g 0 true false (fun _ => some old))))

/-! ## Batches, fences, prefetch -/

/-- Batches of a unit that are outstanding: closed, and not complete (R109). -/
def State.outstanding (s : State) (cell u : Nat) : Nat := (s.batches cell u).countP (·.closed)

/-- An outstanding batch contains an access to a fabric or host address (R110). -/
def State.farBatch (s : State) (cell u : Nat) : Bool :=
  s.clu.loads.any (fun l => l.on cell u && l.far && (s.batches cell u).any (fun b => b.num == l.batch && b.closed))

/-- `lwait` closes the open batch, once: its threads keep that they have done so (R110). -/
def State.lwaitStart (s : State) (w : Who) : State :=
  if (w.unit.thread w.lead).answer.isSome then s
  else (s.closeBatch w.cell.uid w.u).updThreads w.cell.uid w.u w.tids (fun t => { t with answer := some 0 })

/-- R110, R290: closes the open batch, then waits until at most `n` are outstanding: at a blocking point while one of them contains
an access to a fabric or host address, else as an interlock. -/
def execLwait (n : BitVec 3) (s : State) : Host.Outcome State Fault Refusal :=
  drive s (fun w => { once := true, settles := true
                      wait := decide (n.toNat < (s.lwaitStart w).outstanding w.cell.uid w.u) && !(s.lwaitStart w).farBatch w.cell.uid w.u })
    (fun w _ s =>
      let s1 := s.lwaitStart w
      if s1.outstanding w.cell.uid w.u ≤ n.toNat then (.done, s1) else (.block 9 (n.setWidth 64), s1))
    (fun w s => s.lwaitStart w)

/-- R291. -/
def execLclose (s : State) : Host.Outcome State Fault Refusal :=
  drive s (fun _ => { once := true }) (fun w _ s => (.done, s.closeBatch w.cell.uid w.u))

/-- What a thread keeps of the release that its instruction waits for: order number, agent scope, storage scope. -/
def stageOf (n : Nat) (scope : BitVec 3) (q : BitVec 2) : Nat := 64 * n + 8 * scope.toNat + q.toNat

/-- The release that an instruction itself waits for is complete for a thread (R153): the one that its first issue began, or one that
finds nothing to wait for. -/
def State.relDone (s : State) (w : Who) (scope : BitVec 3) (q : BitVec 2) (tid : Nat) : Bool :=
  let n := (w.unit.thread tid).stage / 64
  if n ≠ 0 then s.released (w.release tid scope q n) && !s.behindMarker w.cell.uid w.u tid n
  else s.released (w.release tid scope q s.fresh) && !s.behindMarker w.cell.uid w.u tid s.fresh
    && (decide (scope.toNat < 3) || s.clu.bulk.all (fun b => b.1 != w.cell.cl))

/-- The release of every thread of the bundle is complete. -/
def State.relsDone (s : State) (w : Who) (scope : BitVec 3) (q : BitVec 2) : Bool := w.tids.all (s.relDone w scope q)

/-- The first issue of an instruction that waits for its own release begins it (R153). -/
def State.relStart (s : State) (scope : BitVec 3) (q : BitVec 2) (w : Who) : State :=
  w.tids.foldl (fun s t =>
    if (w.unit.thread t).stage ≠ 0 then s
    else
      let s1 := (s.shutStores w.cell.uid w.u t).sendFences w.cell.cl scope
      (s1.updThread w.cell.uid w.u t (fun x => { x with stage := stageOf s1.fresh scope q })).tick1) s

/-- R157: acquire forms wait for the thread's loads; release forms hold back what follows; `sc` also waits for the release. -/
def execFence (g : BitVec 3) (o q : BitVec 2) (s : State) : Host.Outcome State Fault Refusal :=
  drive s
    (fun w => { settles := true
                wait := (decide (o ≠ 2) && w.tids.any (fun t => s.loadsOpen w t q)) || (decide (o = 3) && !s.relsDone w g q) })
    (fun w tid s => (.done, if o = 1 ∨ o = 3 then s.shutStores w.cell.uid w.u tid else s.beginRelease w tid g q))
    (fun w s => if o = 3 then s.relStart g q w else s)

/-- A fetch of a line into an L1 begins (R103); one under way goes on. -/
def State.startFetch (s : State) (cl l1 line : Nat) (kid : BitVec 8) (long : Bool) : State :=
  if s.clu.fetches.any (fun f => f.cl == cl && f.l1 == l1 && f.line == line && f.kid == kid) then s
  else ({ s with fresh := s.fresh + 1, clu := { s.clu with fetches := s.clu.fetches ++ [⟨s.fresh, cl, l1, line, kid, long, 0xF⟩] } } : State).sendTo
    cl (128 * line) 16 false (.request s.fresh)

/-- R292: a hint that never traps; the fill is a memory event. -/
def execPf (l : BitVec 1) (b a : BitVec 7) (s : State) : Host.Outcome State Fault Refusal :=
  drive s (fun w => { rds := [(a, 64), (b, w.offWidth b)], bad := !w.baseOk a || !w.offOk b }) (fun w tid s =>
    let ea := w.ea tid a b
    match s.ctx? w.cell.ctx with
    | none => (.done, s)
    | some c =>
      let go := fun (s : State) (key : Nat) (kid : BitVec 8) =>
        let line := key / 128
        if (s.line line).poison || !(s.clu.owned.all (fun o => o.2.2 / 32 != line)) || unreachable s.pkg key then s
        else s.startFetch w.cell.cl (l1Of s.pkg w.cell w.unit.core w.spine ea) line kid (l == 1)
      match translate s c w.cell.cl ea .load with
      | (.ok key kid _ _, s1) => (.done, go s1 key kid)
      | (.region key, s1) =>
        let t := s1.tile c.tag (((c.region? ea).map (fun r => r.tileBase ea)).getD 0)
        (.done, if t.present.contains ((ea.toNat - t.base.toNat) / 128) then go s1 key 0 else s1)
      | (_, s1) => (.done, s1))

/-! ## Full/empty granules (R99-R101, R293-R295) -/

/-- Bytes of `ldf` and `stf`. -/
def feSize (z : BitVec 2) : Nat :=
  match z.toNat with
  | 0 => 4
  | 1 => 8
  | _ => 16

/-- Data granules of a slot's mode/depth byte (R115). -/
def slotDepth (md : BitVec 8) : Nat := 2 ^ (md.toNat % 16)

/-- The failed slot of the cell that holds a basin byte in a data granule (R129). -/
def Cell.failedSlot (c : Cell) (a : Nat) : Option Slot :=
  c.subs.find? (fun x => x.st == .failed && decide (x.slot.toNat + 16 ≤ a) && decide (a < x.slot.toNat + 16 + 16 * slotDepth x.md))

/-- Write an interlocked result to a data register: it is in place before the next instruction (R201). -/
def Who.putData (w : Who) (tid : Nat) (d : BitVec 7) (n : Nat) (bs : List Byte) (s : State) : State :=
  let size := w.dstBytes d n
  let ext := extendTo false size bs
  let t : When := ⟨0, 0⟩
  let put := fun (u : UnitSt) => match w.loadDst d n with
    | .none => u
    | .v p => (List.range (size / 4)).foldl (fun u i => w.putV t tid (p + i) (BitVec.ofNat 32 (natOfBytes ((ext.drop (4 * i)).take 4))) u) u
    | .r r => (List.range (size / 8)).foldl (fun u i =>
        if w.spine = true ∧ r + i = 0 then u else w.putR t (r + i) (BitVec.ofNat 64 (natOfBytes ((ext.drop (8 * i)).take 8))) u) u
  (s.markOver w tid (w.op d) ext).updUnit w.cell.uid w.u put

/-- R293. -/
def execLdf (z : BitVec 2) (c : BitVec 1) (b a d : BitVec 7) (s : State) : Host.Outcome State Fault Refusal :=
  let n := feSize z
  drive s (fun w =>
    { loadDesc s w n a (some b) d true true (fun t => w.ea t a b) with wait := w.tids.any (fun t => s.basinBehind w t (w.ea t a b) n) })
    (fun w tid s =>
    let ea := w.ea tid a b
    match addrTrap w.cell true ea n with
    | some i => (.trap i, s)
    | none =>
      if s.fe w.cell ea.toNat then
        let s1 := if w.loadDst d n = .none then s else w.putData tid d n (s.readBasin w.cell ea.toNat n) s
        (.done, if c = 1 then s1.setFe w.cell ea.toNat false else s1)
      else match w.cell.failedSlot ea.toNat with
        | some x => (.trap (if x.poison then ⟨tPoison, lineVa x.va, w.pc⟩ else ⟨tStand, x.slot.setWidth 64, 0⟩), s)
        | none => (.block 5 ea, s))

/-- R162, R294: a release at cell scope on basin storage: the data and the bit land together once the thread's accesses before it
are performed and its loads have their values. -/
def execStf (z : BitVec 2) (b a d : BitVec 7) (s : State) : Host.Outcome State Fault Refusal :=
  let n := feSize z
  let ds := fun (w : Who) => storeDesc w n a (some b) d true true (fun t => w.ea t a b)
  drive s ds (fun w tid s =>
    let ea := w.ea tid a b
    match addrTrap w.cell true ea n with
    | some i => (.trap i, s)
    | none =>
      let scal := (ds w).scalar && !w.spine
      (.done, (s.shutFor w.cell.uid w.u (if scal then w.tids else [tid])).basinStore w tid scal .full ea (w.data tid d n)))

/-- MISALIGNED and BASIN_RANGE of `fe` (R295): `m` granules examined or changed, `c` named. -/
def feTrap (cell : Cell) (a : W64) (m c : Nat) : Option TrapInfo :=
  if a.toNat % 16 ≠ 0 then some ⟨tMisaligned, a, 16⟩
  else if m ≠ 0 ∧ (a.msb = true ∨ outOfBasin cell a.toNat (16 * m) = true) then some ⟨tBasin, a, BitVec.ofNat 64 (16 * c)⟩
  else none

/-- R295. -/
def execFeQuery (b a d : BitVec 7) (s : State) : Host.Outcome State Fault Refusal :=
  drive s (fun w => { rds := [(a, 64), (b, 32)], wr := some (d, w.dstWidth d), bad := !w.baseOk a || !w.dataOk d, basin := true })
    (fun w tid s =>
      let ea := w.src tid a 64
      let c := (w.src tid b 32).toNat
      let m := min c (w.dstWidth d)
      match feTrap w.cell ea m c with
      | some i => (.trap i, s)
      | none =>
        let r := (List.range m).foldl (fun x i => if s.fe w.cell (ea.toNat + 16 * i) then x + 2 ^ i else x) 0
        (.done, w.putData tid d 4 (bytesOfNat (w.dstBytes d 4) r) s))

/-- The next 16 granules of a change of full/empty bits (R295). -/
def State.feStep (s : State) (o : FeOp) : State :=
  let m := min 16 o.left
  let s1 := match s.cell? o.cell with
    | some c => s.setFes c o.addr o.v m
    | none => s
  let rest := if o.left ≤ 16 then [] else [{ o with addr := o.addr + 16 * m, left := o.left - m }]
  { s1 with clu := { s1.clu with feOps := s1.clu.feOps.flatMap (fun x => if x.num = o.num then rest else [x]) } }

/-- The core whose basin port a change of full/empty bits uses. -/
def State.feCore (s : State) (o : FeOp) : Option (Nat × Nat) := (s.cell? o.cell).map (fun c => (c.cl, coreNo o.unit (c.unit o.unit)))

/-- `fe.set` and `fe.clr` (R295): 16 granules in the clk of the issue, and 16 in each one after it; the thread's next instruction finds
the whole range changed (R201). -/
def feChange (v : Bool) (b a : BitVec 7) (s : State) : Host.Outcome State Fault Refusal :=
  drive s (fun w => { rds := [(a, 64), (b, 32)], bad := !w.baseOk a, basin := true }) (fun w tid s =>
    let ea := w.src tid a 64
    let c := (w.src tid b 32).toNat
    match feTrap w.cell ea c c with
    | some i => (.trap i, s)
    | none =>
      if c = 0 then (.done, s)
      else
        let o : FeOp := ⟨s.fresh, w.cell.uid, w.u, tid, ea.toNat, c, v⟩
        let first := s.clu.feOps.all (fun x => s.feCore x != some (w.cell.cl, coreNo w.u w.unit))
        let s1 := { s with fresh := s.fresh + 1, clu := { s.clu with feOps := s.clu.feOps ++ [o] } }
        (.done, if first then s1.feStep o else s1))

/-- R295. -/
def execFeSet (b a : BitVec 7) (s : State) : Host.Outcome State Fault Refusal := feChange true b a s
/-- R295. -/
def execFeClr (b a : BitVec 7) (s : State) : Host.Outcome State Fault Refusal := feChange false b a s

end Sys2Proof.Machine
end

