-- ==== Sys2Proof/Machine/Standpipe.lean ====
section
/-! DEFINITION. Standpipe slots and the homes' tables (R115-R133): stand, unstand, and the messages between a home and a
subscriber's cluster. -/

namespace Sys2Proof.Machine

/-! ## Slots -/

/-- Bytes of a slot (R115). -/
def slotBytes (md : BitVec 8) : Nat := 16 + 16 * slotDepth md

/-- Legal mode/depth bytes (R115). -/
def mdOk (md : BitVec 8) : Bool :=
  let m := md.toNat / 16
  let l := md.toNat % 16
  (m == 0 && l == 0) || (m == 1 && decide (1 ≤ l) && decide (l ≤ 4))

/-- STATE codes of the header (R116). -/
def SubSt.code : SubSt → Nat
  | .open => 1
  | .frozen => 2
  | .closing => 3
  | .closed => 4
  | .failed => 5

def SubSt.live : SubSt → Bool
  | .open | .frozen | .closing => true
  | .closed | .failed => false

/-- The header's low 96 bits as the cluster holds them (R116). -/
def Slot.header (x : Slot) : BitVec 96 := x.widx ++ x.md ++ (BitVec.ofNat 8 x.st.code) ++ x.ovr ++ x.sq

def Cell.slot? (c : Cell) (a : BitVec 32) : Option Slot := c.subs.find? (fun x => x.slot == a)

def State.updSlot (s : State) (cell : Nat) (a : BitVec 32) (f : Slot → Slot) : State :=
  s.updCell cell (fun c => { c with subs := c.subs.map (fun x => if x.slot = a then f x else x) })

/-- Write a slot's header into the basin; RIDX is carried unchanged, or 0 at `stand` (R116). -/
def State.putHeader (s : State) (c : Cell) (x : Slot) (bit reset : Bool) : State :=
  let ridx := if reset then List.replicate 4 0 else s.readBasin c (x.slot.toNat + 12) 4
  let s1 := s.writeBasin c x.slot.toNat (bytesOfNat 12 x.header.toNat ++ ridx)
  if bit then s1.setFe c x.slot.toNat true else s1

/-- Change the cluster's copy and write the header of a placed cell. -/
def State.moveSlot (s : State) (cell : Nat) (a : BitVec 32) (bit : Bool) (f : Slot → Slot) : State :=
  match s.cell? cell with
  | none => s
  | some c =>
    match c.slot? a with
    | none => s
    | some x => (s.updSlot cell a f).putHeader c (f x) bit false

/-- Subscription records in use on a cluster (R117). -/
def State.recordsUsed (s : State) (cl : Nat) : Nat :=
  (s.cells.filter (fun c => c.cl == cl && !c.evicted)).foldl (fun a c => a + (c.subs.filter (fun x => x.st.live)).length) 0

/-! ## The home's table -/

/-- Home slice of a granule. DESIGN CHOICE (log entry 36): another package's device, and the host, has the 128 tables of a whole
package, by the address as R343 spreads it. -/
def pipeSlice (p : Package) (gran : Nat) : Nat :=
  let k := 16 * gran
  if keySpace k < 16 then sliceOf p (keySpace k) (keyAddr k) else 128 * keySpace k + keyAddr k / 4096 % 128

/-- Subscribers of a granule, those on their way included. -/
def State.subsOf (s : State) (gran : Nat) : Nat :=
  ((s.home.pipes.find? (fun p => p.gran == gran)).map (fun p => p.subs.length)).getD 0
    + (s.home.msgs.filter (fun m => m.kind == .register && (match s.cell? m.cell with
        | some c => ((c.slot? m.slot).map (fun x => x.gran)) == some gran
        | none => false))).length

/-- Granules that have entries or will have them. -/
def State.watched (s : State) : List Nat :=
  (s.home.pipes.map (fun p => p.gran) ++ s.cells.flatMap (fun c => (c.subs.filter (fun x => x.st.live)).map (fun x => x.gran))).dedup

/-- Entries of a slice's table in use (R119). -/
def State.entriesUsed (s : State) (slice : Nat) : Nat :=
  (s.watched.filter (fun g => pipeSlice s.pkg g == slice)).foldl (fun a g => a + (s.subsOf g + 3) / 4) 0

/-- The home has the entry that one more subscriber of the granule needs (R118 status 1, R119). -/
def State.hasEntry (s : State) (gran : Nat) : Bool :=
  s.subsOf gran % 4 != 0 || decide (s.entriesUsed (pipeSlice s.pkg gran) < Config.pipeEntries)

/-- The home's record of a subscriber. -/
def State.homeSub? (s : State) (cell : Nat) (a : BitVec 32) : Option (Pipe × HomeSub) :=
  s.home.pipes.findSome? (fun p => (p.subs.find? (fun h => h.cell == cell && h.slot == a)).map (fun h => (p, h)))

def State.updPipe (s : State) (gran : Nat) (f : Pipe → Pipe) : State :=
  { s with home := { s.home with
    pipes := (s.home.pipes.map (fun p => if p.gran = gran then f p else p)).filter (fun p => !p.subs.isEmpty) } }

/-- Remove a subscriber at its home. -/
def State.unsubscribe (s : State) (cell : Nat) (a : BitVec 32) : State :=
  { s with home := { s.home with
    pipes := (s.home.pipes.map (fun p => { p with subs := p.subs.filter (fun h => !(h.cell == cell && h.slot == a)) })).filter
      (fun p => !p.subs.isEmpty) } }

def State.dropMsg (s : State) (num : Nat) : State :=
  { s with home := { s.home with msgs := s.home.msgs.filter (fun m => m.num != num) } }

/-- Messages that go to a home. -/
def MsgKind.toHome : MsgKind → Bool
  | .register | .closeReq | .freezeReq | .relocate => true
  | .data | .closePush | .freezePush | .catchUp _ | .fail _ => false

/-- A message that no earlier one of its subscription and direction precedes (R122), of a kind. -/
def State.takeMsg (s : State) (num : Nat) (ok : MsgKind → Bool) : Option Msg :=
  match s.home.msgs.find? (fun m => m.num == num) with
  | none => none
  | some m =>
    if ok m.kind && s.home.msgs.all (fun x => !(x.cell == m.cell && x.slot == m.slot && x.kind.toHome == m.kind.toHome
        && decide (x.num < m.num))) then some m else none

/-! ## stand and unstand (R118, R126, R301, R302) -/

/-- Status of a subscription (R118), with the granule's memory key when it is 0. -/
def standStatus (s : State) (w : Who) (c : Cell) (slot : Nat) (va : W64) (md : BitVec 8) : Nat × Nat × State :=
  if c.subs.any (fun x => x.st.live && decide (slot < x.slot.toNat + slotBytes x.md) && decide (x.slot.toNat < slot + slotBytes md)) then
    (3, 0, s)
  else match s.ctx? c.ctx with
    | none => (4, 0, s)
    | some cx =>
      match translate s cx c.cl va .load with
      | (.region _, s1) => (2, 0, s1)
      | (.ok key _ _ _, s1) =>
        let gran := key / 16
        if !s1.hasEntry gran || decide (Config.maxSubs ≤ s1.recordsUsed w.cell.cl) then (1, 0, s1) else (0, gran, s1)
      | (_, s1) => (4, 0, s1)

/-- The slot word of `stand`: basin address and mode/depth byte (R301). -/
def standSlot (word : W64) : BitVec 32 × BitVec 8 := (word.setWidth 32, word.extractLsb' 32 8)

/-- Traps of `stand` by a thread, in their order (R301). -/
def standTrap (w : Who) (b a : BitVec 7) (tid : Nat) : Option TrapInfo :=
  let va := w.src tid a 64
  let word := w.src tid b 64
  let (slot, md) := standSlot word
  if word.extractLsb' 40 24 ≠ 0 ∨ mdOk md = false then some ⟨tStand, slot.setWidth 64, 0⟩
  else if slot.toNat % 16 ≠ 0 then some ⟨tMisaligned, slot.setWidth 64, 16⟩
  else if va.toNat % 16 ≠ 0 then some ⟨tMisaligned, va, 16⟩
  else if outOfBasin w.cell slot.toNat (slotBytes md) then some ⟨tBasin, slot.setWidth 64, BitVec.ofNat 64 (slotBytes md)⟩
  else none

/-- A thread's subscription goes out (R118): the status, and with status 0 the header, the cleared bits and the request to the home.
The thread keeps the slot and the status until the home has registered it. -/
def standOpen (w : Who) (b a : BitVec 7) (s : State) (tid : Nat) : State :=
  match s.cell? w.cell.uid with
  | none => s
  | some c =>
      let va := w.src tid a 64
      let (slot, md) := standSlot (w.src tid b 64)
      let (st, gran, s1) := standStatus s w c slot.toNat va md
      let s2 := s1.updThread c.uid w.u tid (fun t => { t with answer := some (BitVec.ofNat 64 (slot.toNat * 256 + st)) })
      if st ≠ 0 then s2
      else
        let x : Slot := ⟨slot, md, .open, 0, 0, 0, va, gran, false, false⟩
        let keep := fun (y : Slot) => decide (slot.toNat + slotBytes md ≤ y.slot.toNat) || decide (y.slot.toNat + slotBytes y.md ≤ slot.toNat)
        let s3 := s2.updCell c.uid (fun c => { c with subs := c.subs.filter keep ++ [x] })
        ((s3.putHeader c x false true).setFes c slot.toNat false (slotBytes md / 16)).sendHome c x .register

/-- A thread that has subscribed waits for its status: the home is still to register it (R118, R121). -/
def State.standAwaits (s : State) (w : Who) (tid : Nat) : Bool :=
  match (w.unit.thread tid).answer with
  | none => false
  | some x => s.home.msgs.any (fun m => m.kind == .register && m.cell == w.cell.uid && m.slot.toNat == x.toNat / 256)

/-- Threads that subscribe for themselves: one for the crew when D is a k register (R281). -/
def Who.standers (w : Who) (d : BitVec 7) : List Nat := if w.isK d then [w.lead] else w.tids

/-- R118, R301: the thread's accesses before it are performed, it subscribes, the home registers the slot, and then the thread has its
status (R163).
A page whose fault the host serves counts as unmapped: `stand` asks nothing of the host. -/
def execStand (b a d : BitVec 7) (s : State) : Host.Outcome State Fault Refusal :=
  drive s (fun w => { rds := [(a, 64), (b, 64)], wr := some (d, w.dstWidth d), bad := !w.baseOk a || !w.dataOk d
                      wait := !s.relsDone w 2 3 || (w.standers d).any (s.standAwaits w) })
    (fun w tid s =>
      match (w.unit.thread tid).answer, standTrap w b a tid with
      | some x, _ => (.done, w.putData tid d 4 (bytesOfNat (w.dstBytes d 4) (x.toNat % 256)) s)
      | none, some i => (.trap i, s)
      | none, none => (.stall, standOpen w b a s tid))
    (fun w s => s.relStart 2 3 w)

/-- One thread's `unstand` (R126, R302). -/
def unstandLane (wait : Bool) (a : BitVec 7) (w : Who) (tid : Nat) (s : State) : LaneOut × State :=
  let ea := w.src tid a 64
  if ea.toNat % 16 ≠ 0 then (.trap ⟨tMisaligned, ea, 16⟩, s)
  else if outOfBasin w.cell ea.toNat 16 then (.trap ⟨tBasin, ea, 16⟩, s)
  else
    match (s.cell? w.cell.uid).bind (fun c => c.slot? (ea.setWidth 32)) with
    | none => (.trap ⟨tStand, ea, 0⟩, s)
    | some x =>
      let out := if wait then LaneOut.block 10 ea else .done
      match x.st with
      | .open | .frozen =>
        (out, (s.moveSlot w.cell.uid x.slot false (fun y => { y with st := .closing })).sendHome w.cell x .closeReq)
      | .closing => (out, s)
      | .closed => (.done, s)
      | .failed => (.done, s.updCell w.cell.uid (fun c => { c with subs := c.subs.filter (fun y => y.slot != x.slot) }))

def unstandDesc (w : Who) (a : BitVec 7) : Desc where
  rds := [(a, 64)]
  bad := !w.baseOk a

/-- R126, R302. -/
def execUnstand (a : BitVec 7) (s : State) : Host.Outcome State Fault Refusal :=
  drive s (fun w => unstandDesc w a) (unstandLane false a)

/-- R126, R302. -/
def execUnstandWait (a : BitVec 7) (s : State) : Host.Outcome State Fault Refusal :=
  drive s (fun w => unstandDesc w a) (unstandLane true a)

/-- When the spine thread and every crew thread have exited or were killed, closes are sent for open and frozen subscriptions (R128). -/
def State.closeAtExit (s : State) (cell : Nat) : State :=
  match s.cell? cell with
  | none => s
  | some c =>
    if c.units.all (fun u => u.threads.all (fun t => t.st == .exited)) then
      (c.subs.filter (fun x => x.st == .open || x.st == .frozen)).foldl (fun s x =>
        (s.updSlot cell x.slot (fun y => { y with st := .closing })).sendHome c x .closeReq) s
    else s

/-- Closes of the placed cells whose threads are all gone, killed ones among them (R128, R144). -/
def State.closeEnded (s : State) : State :=
  (s.running.filter (fun c => c.subs.any (fun x => x.st == .open || x.st == .frozen))).foldl (fun s c => s.closeAtExit c.uid) s

/-! ## At the home -/

/-- R121: the home registers the subscriber and sends seq 0; ownership of its words is recalled (R120). -/
def execStandpipeRegister (num : Nat) (s : State) : Host.Outcome State Fault Refusal :=
  match s.takeMsg num (· == .register) with
  | none => .next s
  | some m =>
    match (s.cell? m.cell).bind (fun c => (c.slot? m.slot).map (fun x => (c, x))) with
    | none => .next (s.dropMsg num)
    | some (c, x) =>
      let line := x.gran / 8
      let mine := s.clu.owned.filter (fun o => o.2.2 / 4 == x.gran)
      let s1 := { s with clu := { s.clu with owned := s.clu.owned.filter (fun o => o.2.2 / 4 != x.gran) } }
      let s2 := if mine.isEmpty then s1 else s1.updLine line (fun h => { h with k := 0 })
      let n := ((s2.home.pipes.find? (fun p => p.gran == x.gran)).map (fun p => p.count)).getD 0
      let h : HomeSub := ⟨m.cell, m.slot, c.ctx, x.va, x.md, n, false, 0⟩
      let pipes := if s2.home.pipes.any (fun p => p.gran == x.gran) then
          s2.home.pipes.map (fun p => if p.gran = x.gran then { p with subs := p.subs ++ [h] } else p)
        else s2.home.pipes ++ [⟨x.gran, 0, [h]⟩]
      let s3 := { s2 with home := { s2.home with pipes := pipes } }
      .next ((s3.dropMsg num).send ⟨0, m.cell, m.slot, .data, 0, granBytes s.home.mem x.gran⟩)

/-- R127: the home takes a close and sends the close push with the final seq. -/
def execStandpipeCloseAtHome (num : Nat) (s : State) : Host.Outcome State Fault Refusal :=
  match s.takeMsg num (· == .closeReq) with
  | none => .next s
  | some m =>
    match s.homeSub? m.cell m.slot with
    | none => .next (s.dropMsg num)
    | some (p, h) =>
      .next (((s.unsubscribe m.cell m.slot).dropMsg num).send ⟨0, m.cell, m.slot, .closePush, p.count - h.base, 0⟩)

/-- R130: the home takes a freeze, stops pushing and sends a freeze push. -/
def execStandpipeFreezeAtHome (num : Nat) (s : State) : Host.Outcome State Fault Refusal :=
  match s.takeMsg num (· == .freezeReq) with
  | none => .next s
  | some m =>
    match s.homeSub? m.cell m.slot with
    | none => .next (s.dropMsg num)
    | some (p, h) =>
      let s1 := s.updPipe p.gran (fun q => { q with subs := q.subs.map (fun x =>
        if x.cell = m.cell ∧ x.slot = m.slot then { x with frozen := true, atFreeze := q.count } else x) })
      .next ((s1.dropMsg num).send ⟨0, m.cell, m.slot, .freezePush, p.count - h.base, 0⟩)

/-- R131: the home learns the new location, and sends the catch-up push or, to a RING with no write while frozen, none. The cluster
has opened the slot at the restore (log entry 37). -/
def execStandpipeRelocate (num : Nat) (s : State) : Host.Outcome State Fault Refusal :=
  match s.takeMsg num (· == .relocate) with
  | none => .next s
  | some m =>
    match s.homeSub? m.cell m.slot with
    | none => .next (s.dropMsg num)
    | some (p, h) =>
      let s1 := (s.updPipe p.gran (fun q => { q with subs := q.subs.map (fun x =>
        if x.cell = m.cell ∧ x.slot = m.slot then { x with frozen := false } else x) })).dropMsg num
      let k := (p.count - h.atFreeze).toNat
      if h.md.toNat / 16 ≠ 0 ∧ k = 0 then .next s1
      else .next (s1.send ⟨0, m.cell, m.slot, .catchUp (k - 1), p.count - h.base, granBytes s.home.mem p.gran⟩)

/-! ## At the cluster -/

/-- A count that saturates at 65,535 (R116). -/
def satAdd16 (a : BitVec 16) (n : Nat) : BitVec 16 := BitVec.ofNat 16 (min 65535 (a.toNat + n))

/-- A push lands in a LATEST slot (R123). -/
def State.landLatest (s : State) (c : Cell) (x : Slot) (m : Msg) : State :=
  let a := x.slot.toNat + 16
  let full := s.fe c a
  let s1 := s.engineWrite c a (bytesOfNat 16 m.data.toNat)
  s1.moveSlot c.uid x.slot true (fun y => { y with sq := m.sq, ovr := if full then satAdd16 y.ovr 1 else y.ovr })

/-- A push lands in a RING slot, or is dropped when its target is full (R124). -/
def State.landRing (s : State) (c : Cell) (x : Slot) (m : Msg) : State :=
  let a := x.slot.toNat + 16 + 16 * (x.widx.toNat % slotDepth x.md)
  if s.fe c a then s.moveSlot c.uid x.slot true (fun y => { y with ovr := satAdd16 y.ovr 1 })
  else (s.engineWrite c a (bytesOfNat 16 m.data.toNat)).moveSlot c.uid x.slot true
    (fun y => { y with sq := m.sq, widx := y.widx + 1 })

/-- The subscription of a message, when its cell is placed. -/
def State.slotOf (s : State) (m : Msg) : Option (Cell × Slot) :=
  (s.cell? m.cell).bind (fun c => if c.evicted then none else (c.slot? m.slot).map (fun x => (c, x)))

/-- R123. -/
def execLatestPushLand (num : Nat) (s : State) : Host.Outcome State Fault Refusal :=
  match s.takeMsg num (· == .data) with
  | none => .next s
  | some m =>
    match s.slotOf m with
    | some (c, x) => if x.md.toNat / 16 = 0 ∧ x.st.live = true then .next ((s.dropMsg num).landLatest c x m) else .next s
    | none => .next s

/-- R124. -/
def execRingPushLand (num : Nat) (s : State) : Host.Outcome State Fault Refusal :=
  match s.takeMsg num (· == .data) with
  | none => .next s
  | some m =>
    match s.slotOf m with
    | some (c, x) => if x.md.toNat / 16 ≠ 0 ∧ x.st.live = true then .next ((s.dropMsg num).landRing c x m) else .next s
    | none => .next s

/-- R127: the close push writes the final header and frees the record. -/
def execClosePushLand (num : Nat) (s : State) : Host.Outcome State Fault Refusal :=
  match s.takeMsg num (· == .closePush) with
  | none => .next s
  | some m =>
    match s.slotOf m with
    | some (c, x) => .next ((s.dropMsg num).moveSlot c.uid x.slot true (fun y => { y with st := .closed, sq := m.sq }))
    | none => .next s

/-- R130: the freeze push writes STATE 2. DESIGN CHOICE (log entry 35): this header write leaves the header granule's bit, of which
R130 says nothing. -/
def execFreezePushLand (num : Nat) (s : State) : Host.Outcome State Fault Refusal :=
  match s.takeMsg num (· == .freezePush) with
  | none => .next s
  | some m =>
    match s.slotOf m with
    | some (c, x) => .next ((s.dropMsg num).moveSlot c.uid x.slot false (fun y => { y with st := .frozen }))
    | none => .next s

/-- R131: the catch-up push lands. -/
def execCatchUpPushLand (num : Nat) (s : State) : Host.Outcome State Fault Refusal :=
  match s.takeMsg num (fun k => match k with | .catchUp _ => true | _ => false) with
  | none => .next s
  | some m =>
    match s.slotOf m with
    | some (c, x) =>
      if x.md.toNat / 16 = 0 then .next ((s.dropMsg num).landLatest c x m)
      else
        let extra := match m.kind with
          | .catchUp k => k
          | _ => 0
        .next (((s.dropMsg num).updSlot c.uid x.slot (fun y => { y with ovr := satAdd16 y.ovr extra })).landRing c x m)
    | none => .next s

/-- Threads of a cell blocked in `ldf` on a data granule of a slot. -/
def ldfWaiters (c : Cell) (x : Slot) : List (Nat × Nat × W64) :=
  c.units.zipIdx.flatMap (fun u => u.1.threads.zipIdx.filterMap (fun t =>
    let a := t.1.wobj.toNat
    if t.1.st = .blocked ∧ t.1.wkind = 5 ∧ x.slot.toNat + 16 ≤ a ∧ a < x.slot.toNat + slotBytes x.md then
      some (u.2, t.2, t.1.pc) else none))

/-- A subscription fails (R129): the home forgets it, the header shows STATE 5 when the cell is placed, and threads blocked
on its data granules trap, one record for each bundle and instruction. -/
def State.failSub (s : State) (cell : Nat) (slot : BitVec 32) (poison : Bool) : State :=
  match (s.cell? cell).bind (fun c => (c.slot? slot).map (fun x => (c, x))) with
  | none => s
  | some (c, x) =>
    if x.st.live = false then s
    else
      let s1 := s.unsubscribe cell slot
      let s2 := { s1 with home := { s1.home with msgs := s1.home.msgs.filter (fun m => !(m.cell == cell && m.slot == slot)) } }
      let f := fun (y : Slot) => { y with st := SubSt.failed, poison := poison, late := c.evicted }
      let s3 := s2.updSlot cell slot f
      if c.evicted then s3
      else
        let s4 := s3.putHeader c (f x) true false
        let ws := if c.evicting then [] else ldfWaiters c x
        let i := fun (pc : W64) => if poison then TrapInfo.mk tPoison (lineVa x.va) pc else TrapInfo.mk tStand (slot.setWidth 64) 0
        (ws.map (fun w => (w.1, w.2.2))).dedup.foldl (fun s g =>
          s.park cell g.1 ((ws.filter (fun w => w.1 == g.1 && w.2.2 == g.2)).map (fun w => w.2.1)) (i g.2) g.2) s4

/-- A cause of failure holds for a subscription (R129): its line is poisoned, or no port reaches its home. The third cause, an
unmapped page, is found by the translation invalidate itself. -/
def State.subFails (s : State) (cell : Nat) (slot : BitVec 32) (poison : Bool) : Bool :=
  match (s.cell? cell).bind (fun c => c.slot? slot) with
  | none => false
  | some x => x.st.live && (if poison then (s.line (x.gran / 8)).poison else unreachable s.pkg (16 * x.gran))

/-- Subscriptions of a context on unmapped or unreadable pages of spans of VAs fail at a translation invalidate (R129). -/
def State.failUnmapped (s : State) (cx : Context) (spans : List (Nat × Nat)) : State :=
  (s.cells.filter (fun c => c.ctx == cx.tag)).foldl (fun s c =>
    (c.subs.filter (fun x => x.st.live && spans.any (fun p => decide (p.1 ≤ x.va.toNat) && decide (x.va.toNat < p.2))
      && (match translateF s cx x.va .load with
        | .ok .. => false
        | _ => true))).foldl (fun s x => s.failSub c.uid x.slot false) s) s

/-- R129. -/
def execSubscriptionFail (cell : Nat) (slot : BitVec 32) (poison : Bool) (s : State) : Host.Outcome State Fault Refusal :=
  if s.subFails cell slot poison then .next (s.failSub cell slot poison) else .next s

end Sys2Proof.Machine
end

