-- ==== Sys2Proof/Machine/Control.lean ====
section
/-! DEFINITION. Branches, meeting registers, barriers, windows, thread control and special values (R198, R240-R243,
R249-R257), with the releases of held and arrived threads and the regrouping of bundles (R21, R23, R251). -/

namespace Sys2Proof.Machine

/-! ## Branches (R240, R241) -/

/-- A target must be a word other than word 0 of a block (R198). -/
def targetOk (t : W64) : Bool := t.extractLsb' 0 2 == 0 && t.extractLsb' 2 3 != 0

/-- A relative target (R206). -/
def relTarget {n : Nat} (pc : W64) (o : BitVec n) : W64 := pc + 4 * o.signExtend 64

/-- Go to a target, or trap (R198). -/
def goTo (t : W64) : LaneOut := if targetOk t then .jump t else .trap ⟨tTarget, t, 0⟩

/-- Width at which a branch reads C (R240). -/
def Who.condWidth (w : Who) (c : BitVec 7) : Nat :=
  match w.op c with
  | .v _ | .spec _ | .tid | .ones => 32
  | _ => 64

def branch (onZero : Bool) (o : BitVec 18) (c : BitVec 7) (s : State) : Host.Outcome State Fault Refusal :=
  drive s (fun w => { rds := [(c, w.condWidth c)] }) (fun w tid s =>
    let z := decide (w.src tid c (w.condWidth c) = 0)
    (if z == onZero then goTo (relTarget w.pc o) else .done, s))

/-- R240. -/
def execBr (o : BitVec 18) (c : BitVec 7) (s : State) : Host.Outcome State Fault Refusal := branch false o c s
/-- R240. -/
def execBrz (o : BitVec 18) (c : BitVec 7) (s : State) : Host.Outcome State Fault Refusal := branch true o c s
/-- R240. -/
def execJmp (o : BitVec 25) (s : State) : Host.Outcome State Fault Refusal :=
  drive s (fun _ => {}) (fun w _ s => (goTo (relTarget w.pc o), s))

/-- R241: the link is the address of the next instruction in execution order. -/
def execCall (o : BitVec 18) (c : BitVec 7) (s : State) : Host.Outcome State Fault Refusal :=
  let d := fun (_ : Who) => ({ wr := some (c, 64), lat := 4 } : Desc)
  drive s d (fun w tid s =>
    let t := relTarget w.pc o
    if targetOk t then (.jump t, w.write (w.when (d w)) tid c 64 (nextPc w.pc) s) else (goTo t, s))

def jumpReg (a : BitVec 7) (s : State) : Host.Outcome State Fault Refusal :=
  drive s (fun _ => { rds := [(a, 64)] }) (fun w tid s => (goTo (w.src tid a 64), s))

/-- R241. -/
def execJr (a : BitVec 7) (s : State) : Host.Outcome State Fault Refusal := jumpReg a s
/-- R241. -/
def execRet (a : BitVec 7) (s : State) : Host.Outcome State Fault Refusal := jumpReg a s

/-! ## Meeting registers (R21, R242, R243) -/

def State.setMr (s : State) (w : Who) (tid : Nat) (m : Option W64) : State :=
  s.updThread w.cell.uid w.u tid (fun t => { t with mr := m })

/-- R242. -/
def execMeet (o : BitVec 18) (s : State) : Host.Outcome State Fault Refusal :=
  drive s (fun _ => { side := .crew }) (fun w tid s =>
    let t := relTarget w.pc o
    if targetOk t then (.done, s.setMr w tid (some t)) else (goTo t, s))

/-- R243. -/
def execMeetrSet (a : BitVec 7) (s : State) : Host.Outcome State Fault Refusal :=
  drive s (fun _ => { side := .crew, rds := [(a, 64)] }) (fun w tid s =>
    let t := w.src tid a 64
    if t = BitVec.allOnes 64 then (.done, s.setMr w tid none)
    else if targetOk t then (.done, s.setMr w tid (some t)) else (goTo t, s))

/-- R243. -/
def execMeetrClr (s : State) : Host.Outcome State Fault Refusal :=
  drive s (fun _ => { side := .crew }) (fun w tid s => (.done, s.setMr w tid none))

/-- R243. -/
def execMeetrRd (d : BitVec 7) (s : State) : Host.Outcome State Fault Refusal :=
  alu s (fun _ => { side := .crew, wr := some (d, 64), lat := 4 })
    (fun w tid => (((w.unit.thread tid).mr).getD (BitVec.allOnes 64), 0))

/-- Every live thread of a unit whose MR is `m` is held at `m`, and there is one (R21). -/
def UnitSt.meets (u : UnitSt) (m : W64) : Bool :=
  u.threads.any (fun t => t.st == .held && t.mr == some m)
    && u.threads.all (fun t => t.st == .exited || t.mr != some m || (t.st == .held && t.pc == m))

/-- R21: the threads held at `m` are released together; MR becomes none. -/
def execMeetRelease (cell unit : Nat) (m : BitVec 64) (s : State) : Host.Outcome State Fault Refusal :=
  match s.cell? cell with
  | none => .next s
  | some c =>
    if (c.unit unit).meets m = true ∧ unit ≠ 0 ∧ c.evicted = false ∧ c.evicting = false then
      .next (s.updUnit cell unit (fun u => { u with threads := u.threads.map (fun t =>
        if t.st = .held ∧ t.mr = some m then { t with st := .eligible, mr := none, bun := 0, ready := max (s.clk + 1) t.ready } else t) }))
    else .next s

/-! ## Bundles (R23) -/

/-- The thread's bundle is in its passes on an issue port (R24). -/
def State.inPass (s : State) (cell u tid : Nat) : Bool :=
  s.clu.ports.any (fun p => p.cell == cell && p.unit == u && p.tids.contains tid)

/-- Eligible threads with equal PC share a bundle; a bundle that changes takes its age afresh (R23, R26). Threads `busy` in their
passes stay as they are. -/
def UnitSt.regroup (u : UnitSt) (clk fresh : Nat) (busy : Nat → Bool) : UnitSt :=
  let el := (u.threads.zipIdx.filter (fun t => t.1.st == .eligible && !busy t.2)).map (·.1)
  let pcs := (el.map (fun t => t.pc)).dedup
  { u with threads := u.threads.zipIdx.map (fun (t, i) =>
      if t.st ≠ .eligible ∨ busy i = true then t
      else
        let mates := el.filter (fun x => x.pc == t.pc)
        if t.bun ≠ 0 ∧ mates.all (fun x => x.bun == t.bun) = true then t
        else { t with bun := 256 * fresh + 1 + pcs.findIdx (· == t.pc)
                      age := mates.foldl (fun a x => max a x.ready) clk }) }

/-- R23: every 4 clk, on one SIMT core. -/
def execBundleRegroup (cl core : Nat) (s : State) : Host.Outcome State Fault Refusal :=
  if s.clk % 4 ≠ 0 then .next s
  else .next { s with cells := s.cells.map (fun c =>
    if c.cl = cl ∧ c.evicted = false then
      { c with units := c.units.zipIdx.map (fun u =>
          if u.2 ≠ 0 ∧ u.1.core = core then u.1.regroup s.clk s.fresh (s.inPass c.uid u.2) else u.1) }
    else c) }

/-! ## Barriers (R250, R251) -/

def State.updBar (s : State) (cell id : Nat) (f : Barrier → Barrier) : State :=
  s.updCell cell (fun c => { c with bars := modNth f id c.bars })

def Cell.bar (c : Cell) (id : Nat) : Barrier := c.bars.getD id ⟨0, []⟩

/-- R160, R250: a release at cell scope, the arrival, and the wait. -/
def execBar (i : BitVec 4) (s : State) : Host.Outcome State Fault Refusal :=
  drive s (fun w => { bad := w.spine && decide (i.toNat < 8), settles := true, wait := !s.relsDone w 1 3 })
    (fun w tid s => (.block 1 (i.setWidth 64), s.updBar w.cell.uid i.toNat (fun b => { b with arrived := b.arrived ++ [(w.u, tid)] })))
    (fun w s => s.relStart 1 3 w)

/-- A thread that has arrived and still waits. -/
def Cell.arrivedAt (c : Cell) (id u tid : Nat) : Bool :=
  let t := (c.unit u).thread tid
  (c.bar id).arrived.contains (u, tid) && t.st == .blocked && t.wkind == 1 && t.wobj == BitVec.ofNat 64 id

/-- Every live participant has arrived, and one has (R251). -/
def Cell.barDone (c : Cell) (id : Nat) : Bool :=
  let parts := c.units.zipIdx.filter (fun u => u.2 != 0 || decide (8 ≤ id))
  parts.any (fun u => u.1.threads.zipIdx.any (fun t => c.arrivedAt id u.2 t.2))
    && parts.all (fun u => u.1.threads.zipIdx.all (fun t => t.1.st == .exited || c.arrivedAt id u.2 t.2))

/-- R251: the arrived threads become eligible together; the instance is over. -/
def execBarrierRelease (cell id : Nat) (s : State) : Host.Outcome State Fault Refusal :=
  match s.cell? cell with
  | none => .next s
  | some c =>
    if c.barDone id = true ∧ c.evicted = false ∧ c.evicting = false then
      .next (((c.bar id).arrived.foldl (fun s a => s.updThread cell a.1 a.2 (fun t =>
          if t.st = .blocked then t.goOn (nextPc t.pc) s.clk (max (s.clk + 1) t.ready) 0 else t)) s).updBar cell id
        (fun b => ⟨b.instances + 1, []⟩))
    else .next s

/-! ## Windows (R41, R249) -/

/-- `wbase` and `cview`: the new base governs 2 clk after the last pass. -/
def windowOp (isWb : Bool) (i : BitVec 11) (a : BitVec 7) (s : State) : Host.Outcome State Fault Refusal :=
  let desc : Desc := { side := .crew, rds := [(a, 64)], scalar := true, lat := 2 }
  drive s (fun _ => desc) (fun w tid s =>
    let v := w.src tid a 64 + i.signExtend 64
    if v.toNat % 8 ≠ 0 ∨ (if isWb then 168 else 56) < v.toNat then (.trap ⟨tWindow, 0, v⟩, s)
    else
      let t := w.when desc
      let r := if isWb then regWb else regCvb
      let old := BitVec.ofNat 64 (if isWb then w.unit.wb else w.unit.cvb)
      (.done, s.updUnit w.cell.uid w.u (fun u =>
        let u1 := { u with pend := w.pendWith t ⟨w.iss, r, t.lat + 4 * t.slow, 0, old, v⟩ u.pend }
        if isWb then { u1 with wb := v.toNat } else { u1 with cvb := v.toNat })))

/-- R249. -/
def execWbase (i : BitVec 11) (a : BitVec 7) (s : State) : Host.Outcome State Fault Refusal := windowOp true i a s
/-- R249. -/
def execCview (i : BitVec 11) (a : BitVec 7) (s : State) : Host.Outcome State Fault Refusal := windowOp false i a s

/-! ## Thread control (R252-R254) -/

/-- R252. -/
def execNop (s : State) : Host.Outcome State Fault Refusal := drive s (fun _ => {}) (fun _ _ s => (.done, s))

/-- A load still outstanding for a thread that has exited writes no register (R252); one of the scalar pipe, when every thread has. -/
def State.dropExited (s : State) (cell : Nat) : State :=
  match s.cell? cell with
  | none => s
  | some c =>
    let gone := fun (l : LoadEnt) => l.cell == cell && (if l.scal then (c.unit l.unit).threads.all (fun t => t.st == .exited)
      else ((c.unit l.unit).thread l.tid).st == .exited)
    { s with clu := { s.clu with loads := s.clu.loads.map (fun l => if gone l then { l with dst := .none } else l) } }

/-- R128, R252. -/
def execExit (s : State) : Host.Outcome State Fault Refusal :=
  match drive s (fun _ => { settles := true }) (fun _ _ s => (.exit, s)) with
  | .next t => .next ((t.dropExited s.issue.cell).closeAtExit s.issue.cell)
  | x => x

/-- A pre-emption request is pending for a cluster (R253, R366). -/
def State.requested (s : State) (cl : Nat) : Bool := s.sched.items.any (fun i => i.reqs.any (fun r => r.1 == cl))

/-- A request acts on a cell: on its cluster, or on a cluster that holds a cell of its gang (R367). -/
def State.cellRequested (s : State) (c : Cell) : Bool :=
  s.requested c.cl || s.cells.any (fun x => c.peers.contains x.uid && !x.evicted && s.requested x.cl)

/-- R253. -/
def execYield (s : State) : Host.Outcome State Fault Refusal :=
  drive s (fun _ => {}) (fun w _ s => (if s.cellRequested w.cell then .block 11 0 else .done, s))

/-- R254. -/
def execBrk (s : State) : Host.Outcome State Fault Refusal :=
  drive s (fun _ => {}) (fun _ _ s => (.trap (.simple tBreak), s))

/-- R254. -/
def execTrap (a : BitVec 7) (s : State) : Host.Outcome State Fault Refusal :=
  drive s (fun _ => { rds := [(a, 64)] }) (fun w tid s => (.trap ⟨tUser, 0, w.src tid a 64⟩, s))

/-! ## Special values (R255-R257) -/

/-- Cells of a launch that have been placed and have not ended; an evicted cell counts (R256). -/
def State.residents (s : State) (launch : Nat) : List Cell := s.cells.filter (fun c => c.launch == launch)

/-- PMODE's mode code (R256, R346). -/
def Mode.code : Mode → Nat
  | .one => 0
  | .two => 1
  | .eight => 2

/-- Value of a selector (R256) for a thread. -/
def special (s : State) (w : Who) (tid : Nat) (sel : BitVec 6) (a : BitVec 7) : W64 :=
  let c := w.cell
  let n := fun (k : Nat) => BitVec.ofNat 64 k
  let crewOnly := fun (k : Nat) => if w.spine then BitVec.allOnes 64 else n k
  match sel.toNat with
  | 0 => n s.tb
  | 1 => w.unit.timer
  | 2 => ((s.ctx? c.ctx).map (fun x => x.cycles)).getD 0
  | 3 => n c.hdr.width
  | 4 => n c.hdr.ncrew
  | 5 => c.index.setWidth 64
  | 6 => c.count.setWidth 64
  | 7 => crewOnly (w.u - 1)
  | 8 => if w.spine then 4 else n w.unit.role
  | 9 => (w.unit.landed w.clk).setWidth 64
  | 10 => (w.unit.landed w.clk).setWidth 64
  | 11 => (fabidOf s.pkg c.dev).setWidth 64
  | 12 => n s.pkg.mode.code
  | 13 => n (logicalCl s.pkg c.dev c.cl)
  | 14 => crewOnly w.unit.core
  | 15 => n w.unit.slot
  | 16 => c.nrec.setWidth 64
  | 17 => n c.rank
  | 18 => n (max c.hdr.gang 1)
  | 19 =>
    let width := match w.op a with
      | .v _ => 32
      | _ => 64
    let k := w.src tid a width
    if k.toNat < c.count.toNat ∧ (s.residents c.launch).any (fun x => x.index.setWidth 64 == k) then 1 else 0
  | 20 => n (s.residents c.launch).length
  | _ => n c.basinSize

/-- Flags that landed before a clk are cleared (R257). -/
def UnitSt.clearFlags (u : UnitSt) (clk : Nat) : UnitSt :=
  { u with flags := 0, flagPend := u.flagPend.filter (fun p => p.1 != 0 || decide (clk ≤ p.2.1)) }

/-- R255-R257. -/
def execRdsp (p : BitVec 1) (sel : BitVec 6) (a d : BitVec 7) (s : State) : Host.Outcome State Fault Refusal :=
  let width := fun (w : Who) => if p = 1 then 64 else w.dstWidth d
  let desc := fun (w : Who) => ({ rds := if sel = 19 then [(a, match w.op a with | .v _ => 32 | _ => 64)] else []
                                  wr := some (d, width w), lat := 4, whole := sel == 1 || sel == 10 } : Desc)
  drive s desc (fun w tid s =>
    let s1 := w.write (w.when (desc w)) tid d (width w) (special s w tid sel a) s
    (.done, if sel = 10 then s1.updUnit w.cell.uid w.u (fun u => u.clearFlags w.clk) else s1))

end Sys2Proof.Machine
end

