-- ==== Sys2Proof/Machine/Integer.lean ====
section
/-! DEFINITION. Integer, logic, shift, bit, compare, move and immediate instructions, random numbers and byte dot products
(R225-R239). Results are 64-bit values as a 64-bit destination receives them; a single v register takes the low half. -/

namespace Sys2Proof.Machine

/-! ## Results -/

def zx32 (x : W64) : W64 := (x.setWidth 32).setWidth 64
def sx32 (x : W64) : W64 := (x.setWidth 32).signExtend 64
/-- A number as a result, sign- or zero-extended from 32 bits. -/
def sat32 (signed : Bool) (i : Int) : W64 :=
  if signed then sx32 (BitVec.ofInt 64 (max (-2147483648) (min 2147483647 i)))
  else zx32 (BitVec.ofInt 64 (max 0 (min 4294967295 i)))
def sInt32 (x : W64) : Int := (x.setWidth 32).toInt
def uInt32 (x : W64) : Int := ((x.setWidth 32).toNat : Int)

/-- R225. -/
def addResult (sub : Bool) (f : BitVec 2) (a b : W64) : W64 :=
  let sgn : Int := if sub then -1 else 1
  match f.toNat with
  | 0 => zx32 (if sub then a - b else a + b)
  | 1 => if sub then a - b else a + b
  | 2 => sat32 true (sInt32 a + sgn * sInt32 b)
  | _ => sat32 false (uInt32 a + sgn * uInt32 b)

/-- R226, mul. -/
def mulResult (f : BitVec 4) (a b : W64) : W64 :=
  match f.toNat with
  | 0 => zx32 (a * b)
  | 1 => BitVec.ofInt 64 (sInt32 a * sInt32 b / 2 ^ 32)
  | 2 => zx32 (BitVec.ofInt 64 (uInt32 a * uInt32 b / 2 ^ 32))
  | 3 => a * b
  | 4 => sx32 a * sx32 b
  | _ => zx32 a * zx32 b

/-- R226, mad. -/
def madResult (f : BitVec 2) (a b d : W64) : W64 :=
  match f.toNat with
  | 0 => zx32 (d + a * b)
  | 1 => d + sx32 a * sx32 b
  | 2 => d + zx32 a * zx32 b
  | _ => d + a * b

/-- Truncating quotient (R65) of numbers at a width; a divisor of 0 gives all ones. -/
def quot (w : Nat) (a b : Int) : Int := if b = 0 then 2 ^ w - 1 else Int.tdiv a b
/-- Remainder with the sign of the dividend (R65). -/
def remn (a b : Int) : Int := if b = 0 then a else Int.tmod a b

/-- R227: f 0 s32, 1 n32, 2 s64, 3 n64. -/
def divResult (rem : Bool) (f : BitVec 2) (a b : W64) : W64 :=
  match f.toNat with
  | 0 => sx32 (BitVec.ofInt 64 (if rem then remn (sInt32 a) (sInt32 b) else quot 32 (sInt32 a) (sInt32 b)))
  | 1 => zx32 (BitVec.ofInt 64 (if rem then remn (uInt32 a) (uInt32 b) else quot 32 (uInt32 a) (uInt32 b)))
  | 2 => BitVec.ofInt 64 (if rem then remn a.toInt b.toInt else quot 64 a.toInt b.toInt)
  | _ => BitVec.ofInt 64 (if rem then remn a.toNat b.toNat else quot 64 a.toNat b.toNat)

/-- R228: `u` unsigned. -/
def minMaxResult (isMax wide u : Bool) (a b : W64) : W64 :=
  let lt := if wide then (if u then decide (a.toNat < b.toNat) else decide (a.toInt < b.toInt))
    else (if u then decide (uInt32 a < uInt32 b) else decide (sInt32 a < sInt32 b))
  let r := if lt != isMax then a else b
  if wide then r else if u then zx32 r else sx32 r

/-- R230: 0 shl, 1 shr, 2 sar, 3 rol at width `w`, zero-extended. -/
def shiftResult (k : Nat) (w : Nat) (a : W64) (c : Nat) : W64 :=
  if w = 32 then
    let x : W32 := a.setWidth 32
    let r : W32 := match k with
      | 0 => if 32 ≤ c then 0 else x <<< c
      | 1 => if 32 ≤ c then 0 else x >>> c
      | 2 => if 32 ≤ c then (if x.msb then BitVec.allOnes 32 else 0) else x.sshiftRight c
      | _ => x.rotateLeft (c % 32)
    r.setWidth 64
  else
    match k with
    | 0 => if 64 ≤ c then 0 else a <<< c
    | 1 => if 64 ≤ c then 0 else a >>> c
    | 2 => if 64 ≤ c then (if a.msb then BitVec.allOnes 64 else 0) else a.sshiftRight c
    | _ => a.rotateLeft (c % 64)

/-- Number of 1 bits among the low `n`. -/
def popCount (x : W64) (n : Nat) : Nat := ((List.range n).filter x.getLsbD).length
/-- Leading and trailing zeros at width `n`. -/
def leadZeros (x : W64) (n : Nat) : Nat := ((List.range n).map (fun i => x.getLsbD (n - 1 - i))).findIdx id
def trailZeros (x : W64) (n : Nat) : Nat := ((List.range n).map x.getLsbD).findIdx id
def revBits (x : W64) (n : Nat) : W64 :=
  BitVec.ofNat 64 ((List.range n).foldl (fun a i => if x.getLsbD i then a + 2 ^ (n - 1 - i) else a) 0)

/-- R231: 0 popc, 1 clz, 2 ctz, 3 brev at width `n`. -/
def bitResult (k n : Nat) (a : W64) : W64 :=
  match k with
  | 0 => BitVec.ofNat 64 (popCount a n)
  | 1 => BitVec.ofNat 64 (leadZeros a n)
  | 2 => BitVec.ofNat 64 (trailZeros a n)
  | _ => revBits a n

/-- Field position and end of bfx and bfi (R231). -/
def fieldPos (b : W64) : Nat := b.toNat % 256
def fieldEnd (b : W64) : Nat := min (b.toNat % 256 + b.toNat / 256 % 256) 32
def fieldEmpty (b : W64) : Bool := b.toNat / 256 % 256 == 0 || decide (32 ≤ fieldPos b)

def bfxResult (signed : Bool) (a b : W64) : W64 :=
  if fieldEmpty b then 0
  else
    let p := fieldPos b
    let n := fieldEnd b - p
    let x : Nat := a.toNat % 2 ^ 32 / 2 ^ p % 2 ^ n
    if signed && decide (2 ^ (n - 1) ≤ x) then BitVec.ofInt 64 (Int.ofNat x - 2 ^ n) else BitVec.ofNat 64 x

def bfiResult (a b d : W64) : W64 :=
  let p := fieldPos b
  let n := fieldEnd b - p
  let m := (2 ^ n - 1) * 2 ^ p
  let dn := d.toNat % 2 ^ 32
  BitVec.ofNat 64 (dn - (dn &&& m) + a.toNat % 2 ^ n * 2 ^ p)

/-- Byte select (R231). -/
def bselResult (a b : W64) : W64 :=
  let byte := fun i =>
    let s := (b.toNat / 256 ^ i) % 256
    let src := (a.toNat / 256 ^ (s % 8)) % 256
    let v := if s / 64 % 2 = 1 then 0 else src
    if s / 128 = 1 then 255 - v else v
  BitVec.ofNat 64 (byte 0 + byte 1 * 256 + byte 2 * 65536 + byte 3 * 16777216)

/-- R232: conditions 0-9 at width `w`. -/
def cmpHolds (c : BitVec 4) (w : Nat) (a b : W64) : Bool :=
  let ua := if w = 32 then a.toNat % 2 ^ 32 else a.toNat
  let ub := if w = 32 then b.toNat % 2 ^ 32 else b.toNat
  let sa : Int := if w = 32 then sInt32 a else a.toInt
  let sb : Int := if w = 32 then sInt32 b else b.toInt
  match c.toNat with
  | 0 => ua == ub
  | 1 => ua != ub
  | 2 => decide (sa < sb)
  | 3 => decide (sa ≤ sb)
  | 4 => decide (sb < sa)
  | 5 => decide (sb ≤ sa)
  | 6 => decide (ua < ub)
  | 7 => decide (ua ≤ ub)
  | 8 => decide (ub < ua)
  | _ => decide (ub ≤ ua)

def truth (p : Bool) : W64 := if p then BitVec.allOnes 64 else 0

/-- R238: f 0 s8s8, 1 n8n8, 2 s8n8, 3 n8s8. -/
def dot4Result (f : BitVec 2) (a b d : W64) : W64 :=
  let byte := fun (signed : Bool) (x : W64) (j : Nat) =>
    let v : BitVec 8 := x.extractLsb' (8 * j) 8
    if signed then v.toInt else (v.toNat : Int)
  let sa := f.toNat = 0 ∨ f.toNat = 2
  let sb := f.toNat = 0 ∨ f.toNat = 3
  let s := (List.range 4).foldl (fun acc j => acc + byte sa a j * byte sb b j) (uInt32 d)
  if f.toNat = 1 then zx32 (BitVec.ofInt 64 s) else sx32 (BitVec.ofInt 64 s)

/-- One Philox round (R87). -/
def philoxRound (k0 k1 : Nat) (x : List Nat) : List Nat :=
  let p := 0xD2511F53 * x.getD 0 0
  let q := 0xCD9E8D57 * x.getD 2 0
  [(q / 2 ^ 32) ^^^ x.getD 1 0 ^^^ k0, q % 2 ^ 32, (p / 2 ^ 32) ^^^ x.getD 3 0 ^^^ k1, p % 2 ^ 32]

def philox : Nat → Nat → Nat → List Nat → List Nat
  | 0, _, _, x => x
  | n + 1, k0, k1, x => philox n ((k0 + 0x9E3779B9) % 2 ^ 32) ((k1 + 0xBB67AE85) % 2 ^ 32) (philoxRound k0 k1 x)

/-- Output word of Philox4x32-10 (R87). -/
def rngResult (word : Nat) (key pos stream : W64) : W64 :=
  let x := philox 10 (key.toNat % 2 ^ 32) (key.toNat / 2 ^ 32)
    [pos.toNat % 2 ^ 32, pos.toNat / 2 ^ 32, stream.toNat % 2 ^ 32, stream.toNat / 2 ^ 32]
  BitVec.ofNat 64 (x.getD word 0)

/-! ## Descriptor shapes -/

/-- D := f(A, B) at one width, class I4. -/
def descAB (w : Nat) (d a b : BitVec 7) (lat : Nat := 4) : Desc := { rds := [(a, w), (b, w)], wr := some (d, w), lat := lat }
def descA (w : Nat) (d a : BitVec 7) (lat : Nat := 4) : Desc := { rds := [(a, w)], wr := some (d, w), lat := lat }

/-- D := g(a, b) with a and b at width `w`. -/
def alu2 (w : Nat) (d a b : BitVec 7) (lat : Nat) (g : W64 → W64 → W64) (s : State) : Host.Outcome State Fault Refusal :=
  alu s (fun _ => descAB w d a b lat) (fun x t => (g (x.src t a w) (x.src t b w), 0))

/-- D := g(a) with a at width `w`. -/
def alu1 (w : Nat) (d a : BitVec 7) (lat : Nat) (g : W64 → W64) (s : State) : Host.Outcome State Fault Refusal :=
  alu s (fun _ => descA w d a lat) (fun x t => (g (x.src t a w), 0))

/-- The same with the width taken from D (R44). -/
def alu2D (d a b : BitVec 7) (g : Nat → W64 → W64 → W64) (s : State) : Host.Outcome State Fault Refusal :=
  alu s (fun x => descAB (x.dstWidth d) d a b) (fun x t =>
    let w := x.dstWidth d
    (g w (x.src t a w) (x.src t b w), 0))
def alu1D (d a : BitVec 7) (g : Nat → W64 → W64) (s : State) : Host.Outcome State Fault Refusal :=
  alu s (fun x => descA (x.dstWidth d) d a) (fun x t =>
    let w := x.dstWidth d
    (g w (x.src t a w), 0))

/-! ## Meanings -/

/-- R225. -/
def execAdd (f : BitVec 2) (b a d : BitVec 7) (s : State) := alu2 (if f = 1 then 64 else 32) d a b 4 (addResult false f) s
/-- R225. -/
def execSub (f : BitVec 2) (b a d : BitVec 7) (s : State) := alu2 (if f = 1 then 64 else 32) d a b 4 (addResult true f) s

/-- R226: sources at 32 bits except .b64; .b64 and .wide write 64 bits. -/
def execMul (f : BitVec 4) (b a d : BitVec 7) (s : State) : Host.Outcome State Fault Refusal :=
  let sw := if f = 3 then 64 else 32
  alu s (fun _ => { rds := [(a, sw), (b, sw)], wr := some (d, if 3 ≤ f.toNat then 64 else 32), lat := 4 })
    (fun x t => (mulResult f (x.src t a sw) (x.src t b sw), 0))

/-- R226: D is read at the width of the result. -/
def execMad (f : BitVec 2) (b a d : BitVec 7) (s : State) : Host.Outcome State Fault Refusal :=
  let sw := if f = 3 then 64 else 32
  let dw := if f = 0 then 32 else 64
  alu s (fun _ => { rds := [(a, sw), (b, sw), (d, dw)], wr := some (d, dw), lat := 4 })
    (fun x t => (madResult f (x.src t a sw) (x.src t b sw) (x.src t d dw), 0))

/-- R227. -/
def execDiv (f : BitVec 2) (b a d : BitVec 7) (s : State) :=
  alu2 (if 2 ≤ f.toNat then 64 else 32) d a b (if 2 ≤ f.toNat then 16 else 12) (divResult false f) s
/-- R227. -/
def execRem (f : BitVec 2) (b a d : BitVec 7) (s : State) :=
  alu2 (if 2 ≤ f.toNat then 64 else 32) d a b (if 2 ≤ f.toNat then 16 else 12) (divResult true f) s
/-- R228: `w` 64 bits, `u` unsigned. -/
def execMin (w u : BitVec 1) (b a d : BitVec 7) (s : State) :=
  alu2 (if w = 1 then 64 else 32) d a b 4 (minMaxResult false (w == 1) (u == 1)) s
/-- R228. -/
def execMax (w u : BitVec 1) (b a d : BitVec 7) (s : State) :=
  alu2 (if w = 1 then 64 else 32) d a b 4 (minMaxResult true (w == 1) (u == 1)) s

/-- R229. -/
def execAnd (b a d : BitVec 7) (s : State) := alu2D d a b (fun _ x y => x &&& y) s
/-- R229. -/
def execOr (b a d : BitVec 7) (s : State) := alu2D d a b (fun _ x y => x ||| y) s
/-- R229. -/
def execXor (b a d : BitVec 7) (s : State) := alu2D d a b (fun _ x y => x ^^^ y) s
/-- R229. -/
def execAndn (b a d : BitVec 7) (s : State) := alu2D d a b (fun _ x y => x &&& ~~~y) s
/-- R229. -/
def execOrn (b a d : BitVec 7) (s : State) := alu2D d a b (fun _ x y => x ||| ~~~y) s
/-- R229. -/
def execXnor (b a d : BitVec 7) (s : State) := alu2D d a b (fun _ x y => ~~~(x ^^^ y)) s
/-- R229. -/
def execNot (a d : BitVec 7) (s : State) := alu1D d a (fun _ x => ~~~x) s

/-- R230. -/
def execShl (w : BitVec 1) (b a d : BitVec 7) (s : State) :=
  let n := if w = 1 then 64 else 32
  alu2 n d a b 4 (fun x c => shiftResult 0 n x c.toNat) s
/-- R230. -/
def execShr (w : BitVec 1) (b a d : BitVec 7) (s : State) :=
  let n := if w = 1 then 64 else 32
  alu2 n d a b 4 (fun x c => shiftResult 1 n x c.toNat) s
/-- R230. -/
def execSar (w : BitVec 1) (b a d : BitVec 7) (s : State) :=
  let n := if w = 1 then 64 else 32
  alu2 n d a b 4 (fun x c => shiftResult 2 n x c.toNat) s
/-- R230. -/
def execRol (w : BitVec 1) (b a d : BitVec 7) (s : State) :=
  let n := if w = 1 then 64 else 32
  alu2 n d a b 4 (fun x c => shiftResult 3 n x c.toNat) s

/-- R231. -/
def execPopc (w : BitVec 1) (a d : BitVec 7) (s : State) :=
  let n := if w = 1 then 64 else 32
  alu1 n d a 4 (bitResult 0 n) s
/-- R231. -/
def execClz (w : BitVec 1) (a d : BitVec 7) (s : State) :=
  let n := if w = 1 then 64 else 32
  alu1 n d a 4 (bitResult 1 n) s
/-- R231. -/
def execCtz (w : BitVec 1) (a d : BitVec 7) (s : State) :=
  let n := if w = 1 then 64 else 32
  alu1 n d a 4 (bitResult 2 n) s
/-- R231. -/
def execBrev (w : BitVec 1) (a d : BitVec 7) (s : State) :=
  let n := if w = 1 then 64 else 32
  alu1 n d a 4 (bitResult 3 n) s
/-- R231. -/
def execBfxS (b a d : BitVec 7) (s : State) := alu2 32 d a b 4 (bfxResult true) s
/-- R231. -/
def execBfxN (b a d : BitVec 7) (s : State) := alu2 32 d a b 4 (bfxResult false) s
/-- R231: D is read at 32 bits; with an empty field D keeps its whole value (log entry 13). -/
def execBfi (b a d : BitVec 7) (s : State) : Host.Outcome State Fault Refusal :=
  alu s (fun _ => { rds := [(a, 32), (b, 32), (d, 32)], wr := some (d, 32), lat := 4 })
    (fun x t =>
      if fieldEmpty (x.src t b 32) then (x.src t d (x.dstWidth d), 0)
      else (bfiResult (x.src t a 32) (x.src t b 32) (x.src t d 32), 0))
/-- R231: a at 64 bits, b at 32. -/
def execBsel (b a d : BitVec 7) (s : State) : Host.Outcome State Fault Refusal :=
  alu s (fun _ => { rds := [(a, 64), (b, 32)], wr := some (d, 32), lat := 4 })
    (fun x t => (bselResult (x.src t a 64) (x.src t b 32), 0))

/-- R232. -/
def execCmp (c : BitVec 4) (b a d : BitVec 7) (s : State) := alu2D d a b (fun w x y => truth (cmpHolds c w x y)) s
/-- R232: b is Sext(IMM7). -/
def execCmpi (c : BitVec 4) (i : BitVec 7) (a d : BitVec 7) (s : State) :=
  alu1D d a (fun w x => truth (cmpHolds c w x (i.signExtend 64))) s
/-- R233. -/
def execSel (b a d : BitVec 7) (s : State) : Host.Outcome State Fault Refusal :=
  alu s (fun x => let w := x.dstWidth d; { rds := [(a, w), (b, w), (d, w)], wr := some (d, w), lat := 4 })
    (fun x t =>
      let w := x.dstWidth d
      (if x.src t d w ≠ 0 then x.src t a w else x.src t b w, 0))
/-- R234. -/
def execMov (a d : BitVec 7) (s : State) := alu1D d a (fun _ x => x) s
/-- R234. -/
def execMovPair (a d : BitVec 7) (s : State) := alu1 64 d a 4 (fun x => x) s
/-- R234. -/
def execSxb (a d : BitVec 7) (s : State) := alu1D d a (fun _ x => (x.setWidth 8).signExtend 64) s
/-- R234. -/
def execSxh (a d : BitVec 7) (s : State) := alu1D d a (fun _ x => (x.setWidth 16).signExtend 64) s
/-- R234. -/
def execZxb (a d : BitVec 7) (s : State) := alu1D d a (fun _ x => (x.setWidth 8).setWidth 64) s
/-- R234. -/
def execZxh (a d : BitVec 7) (s : State) := alu1D d a (fun _ x => (x.setWidth 16).setWidth 64) s
/-- R234: the result is 64 bits. DESIGN CHOICE (log entry 131): a v source is one register, read at 32 bits, and no pair, since only its bits
[31:0] are named; R44 has the v sources of a named width 64 as pairs. -/
def execSxw (a d : BitVec 7) (s : State) : Host.Outcome State Fault Refusal :=
  alu s (fun _ => { rds := [(a, 32)], wr := some (d, 64), lat := 4 }) (fun x t => (sx32 (x.src t a 32), 0))
/-- R234, as `sxw` (log entry 131). -/
def execZxw (a d : BitVec 7) (s : State) : Host.Outcome State Fault Refusal :=
  alu s (fun _ => { rds := [(a, 32)], wr := some (d, 64), lat := 4 }) (fun x t => (zx32 (x.src t a 32), 0))
/-- R235: at width 64 a v register B is sign-extended from 32 bits. -/
def execLea (k : BitVec 3) (b a d : BitVec 7) (s : State) : Host.Outcome State Fault Refusal :=
  let isV := fun (x : Who) => (match x.op b with | .v _ => true | _ => false)
  alu s (fun x =>
      let w := x.dstWidth d
      { rds := [(a, w), (b, if isV x then 32 else w)], wr := some (d, w), lat := 4 })
    (fun x t =>
      let w := x.dstWidth d
      let y : W64 := if isV x then sx32 (x.src t b 32) else x.src t b w
      (x.src t a w + (y <<< k.toNat), 0))

/-- R236. -/
def execAddi (i : BitVec 11) (a d : BitVec 7) (s : State) := alu1D d a (fun _ x => x + i.signExtend 64) s
/-- R236. -/
def execAndi (i : BitVec 11) (a d : BitVec 7) (s : State) := alu1D d a (fun _ x => x &&& i.signExtend 64) s
/-- R236. -/
def execOri (i : BitVec 11) (a d : BitVec 7) (s : State) := alu1D d a (fun _ x => x ||| i.signExtend 64) s
/-- R236. -/
def execXori (i : BitVec 11) (a d : BitVec 7) (s : State) := alu1D d a (fun _ x => x ^^^ i.signExtend 64) s
/-- R236. -/
def execShli (i : BitVec 6) (a d : BitVec 7) (s : State) := alu1D d a (fun w x => shiftResult 0 w x i.toNat) s
/-- R236. -/
def execShri (i : BitVec 6) (a d : BitVec 7) (s : State) := alu1D d a (fun w x => shiftResult 1 w x i.toNat) s
/-- R236. -/
def execSari (i : BitVec 6) (a d : BitVec 7) (s : State) := alu1D d a (fun w x => shiftResult 2 w x i.toNat) s
/-- R236. -/
def execMuli (i : BitVec 11) (a d : BitVec 7) (s : State) := alu1D d a (fun _ x => x * i.signExtend 64) s
/-- R237. -/
def execMvl (i : BitVec 18) (d : BitVec 7) (s : State) : Host.Outcome State Fault Refusal :=
  alu s (fun x => { wr := some (d, x.dstWidth d), lat := 4 }) (fun _ _ => (i.signExtend 64, 0))
/-- R237: bits [13:0] stay; bits [63:32] of a 64-bit destination become copies of IMM18[17]. -/
def execMvh (i : BitVec 18) (d : BitVec 7) (s : State) : Host.Outcome State Fault Refusal :=
  alu s (fun x => { rds := [(d, x.dstWidth d)], wr := some (d, x.dstWidth d), lat := 4 })
    (fun x t => ((i ++ (x.src t d (x.dstWidth d)).setWidth 14 : BitVec 32).signExtend 64, 0))
/-- R238. -/
def execDot4 (f : BitVec 2) (b a d : BitVec 7) (s : State) : Host.Outcome State Fault Refusal :=
  alu s (fun _ => { rds := [(a, 32), (b, 32), (d, 32)], wr := some (d, 32), lat := 4 })
    (fun x t => (dot4Result f (x.src t a 32) (x.src t b 32) (x.src t d 32), 0))

/-- Fields of the counter of `rng` (R239): position and stream; none for any other B. -/
def rngCounter (x : Who) (b : BitVec 7) : Option (BitVec 7 × BitVec 7) :=
  let n := b.toNat
  if x.spine then (if n < 64 ∧ n % 2 = 0 then some (b, b + 1) else none)
  else if n < 88 then (if n % 4 = 0 then some (b, b + 2) else none)
  else if n < 112 then (if n % 2 = 0 then some (b, b + 1) else none)
  else none

/-- R239. -/
def execRng (w : BitVec 2) (b a d : BitVec 7) (s : State) : Host.Outcome State Fault Refusal :=
  alu s (fun x => match rngCounter x b with
      | some _ => { rds := [(a, 64), (b, 128)], wr := some (d, 32), lat := 12 }
      | none => { bad := true })
    (fun x t => match rngCounter x b with
      | some (p, q) => (rngResult w.toNat (x.src t a 64) (x.src t p 64) (x.src t q 64), 0)
      | none => (0, 0))

end Sys2Proof.Machine
end

