-- ==== Sys2Proof/Machine/Special.lean ====
section
/-! DEFINITION. The special functions (R74, R266): the results of the table at special operands, and at finite operands
a free value inside the bound of R74 (log entry 6). The bound is measured against a fixed-point reference of 200 bits. -/

namespace Sys2Proof.Machine

/-- Bits of the fixed-point references. -/
def fxBits : Nat := 200
def fxOne : Int := 2 ^ fxBits
def fxMul (a b : Int) : Int := a * b / fxOne

/-- m * 2^e as a fixed-point number, cut off. -/
def fxOf (m : Int) (e : Int) : Int :=
  let k := e + fxBits
  if 0 ≤ k then m * 2 ^ k.toNat else m / 2 ^ (-k).toNat

/-- pi, ln 2, and 1 / ln 2 in fixed point. -/
def fxPi : Int := 5048344754617993871973410141242436836214643421488662971535368
def fxLn2 : Int := 1113844574712631719546256151097547306333272293549090750737802
def fxLog2e : Int := 2318321547468254865173387471183990171487108758923299108729110

/-- exp(x) for a small fixed-point x, by its series: `n` terms from term index `i`. -/
def fxExp (x : Int) : Nat → Nat → Int → Int
  | 0, _, _ => 0
  | n + 1, i, t => t + fxExp x n (i + 1) (fxMul t x / (i + 1))

/-- 2^f for a fixed-point f in [0, 1). -/
def fxExp2 (f : Int) : Int := fxExp (fxMul f fxLn2) 60 0 fxOne

/-- sum of z^(2i+1)/(2i+1). -/
def fxAtanh (z2 : Int) : Nat → Nat → Int → Int
  | 0, _, _ => 0
  | n + 1, i, t => t / (2 * i + 1) + fxAtanh z2 n (i + 1) (fxMul t z2)

/-- log2 of m * 2^e with m ≠ 0. -/
def fxLog2 (m : Nat) (e : Int) : Int :=
  let top := topExp m e
  let y := fxOf m (e - top)
  let z := (y - fxOne) * fxOne / (y + fxOne)
  top * fxOne + fxMul (2 * fxAtanh (fxMul z z) 70 0 z) fxLog2e

/-- Alternating series of sine (t = x) and cosine (t = 1). -/
def fxSin (x2 : Int) : Nat → Nat → Int → Int
  | 0, _, _ => 0
  | n + 1, i, t => t + fxSin x2 n (i + 2) (-(fxMul t x2 / ((i + 1) * (i + 2))))

/-- Reduce to (-pi, pi]. -/
def fxReduce (x : Int) : Int :=
  let r := x % (2 * fxPi)
  if fxPi < r then r - 2 * fxPi else r

/-- A reference: sign and magnitude m * 2^e. -/
structure Ref where
  v : Int
  e : Int
deriving DecidableEq, Repr

/-- |c - r| ≤ b * 2^be for a finite candidate. -/
def nearRef (r : Ref) (neg : Bool) (m : Nat) (e : Int) (b : Nat) (be : Int) : Bool :=
  let lo := min (min r.e e) be
  decide ((r.v * 2 ^ (r.e - lo).toNat - smant neg m * 2 ^ (e - lo).toNat).natAbs ≤ b * 2 ^ (be - lo).toNat)

/-- Exponent of the ulp of binary32 at a reference (R74). -/
def ulpExp (r : Ref) : Int := if r.v = 0 then f32.qmin else max (topExp r.v.natAbs r.e - 23) f32.qmin

/-- The free value: the candidate when it lies in the bound, else the rounded reference. -/
def boundedResult (op : Nat) (a : BitVec 32) (r : Ref) (b : Nat) (be : Int) (inUnit : Bool) : Nat :=
  let c := (Config.special op a % 2 ^ 32).toNat
  let ref := (roundTo f32 .rne (decide (r.v < 0)) r.v.natAbs r.e).1
  match unpack f32 c with
  | .fin neg m e => if nearRef r neg m e b be && (!inUnit || nearRef ⟨0, 0⟩ neg m e 1 0) then c else ref
  | _ => ref

def boundedUlp (op : Nat) (a : BitVec 32) (r : Ref) (ulps : Nat) : Nat := boundedResult op a r ulps (ulpExp r) false

/-- Reciprocal reference of m * 2^e. -/
def refRcp (neg : Bool) (m : Nat) (e : Int) : Ref := ⟨smant neg (2 ^ fxBits / m), -e - fxBits⟩

/-- Reciprocal square root reference. -/
def refRsqrt (m : Nat) (e : Int) : Ref :=
  let odd := e % 2 != 0
  let m0 := if odd then 2 * m else m
  let e0 := if odd then e - 1 else e
  let v := 2 ^ 250 / m0
  ⟨isqrt v 126 0, -125 - e0 / 2⟩

def refExp2 (neg : Bool) (m : Nat) (e : Int) : Ref :=
  let x := fxOf (smant neg m) e
  let n := x / fxOne
  ⟨fxExp2 (x - n * fxOne), n - fxBits⟩

/-- A number so small that only the sign of its difference from 0 counts: 2^x for x ≤ -200. -/
def refTiny : Ref := ⟨1, -2 * fxBits⟩

/-- tanh, which is smaller in magnitude than its operand by less than a candidate can show where |x| < 2^-40. -/
def refTanh (neg : Bool) (m : Nat) (e : Int) : Ref :=
  if topExp m e < -40 then ⟨smant neg (m * 2 ^ 100 - 1), e - 100⟩
  else
    let y := fxOf m e
    let t := if 32 * fxOne ≤ y then fxOne - 1
      else
        let z := fxMul (2 * y) fxLog2e
        let n := z / fxOne
        let ex := fxExp2 (z - n * fxOne) * 2 ^ n.toNat
        (ex - fxOne) * fxOne / (ex + fxOne)
    ⟨if neg then -t else t, -fxBits⟩

/-- cos of a reduced operand, which is no multiple of 2 pi and so below 1. -/
def refCos (x : Int) : Ref := ⟨min (fxSin (fxMul x x) 40 0 fxOne) (fxOne - 1), -fxBits⟩

/-- |x| ≤ 100 pi (R74). -/
def withinTrig (m : Nat) (e : Int) : Bool := decide (fxOf m e ≤ 100 * fxPi) && decide (topExp m e < 20)

/-- A special function of the bits of its operand (R74, R266): 0 rcp, 1 rsqrt, 2 exp2, 3 log2, 4 sin, 5 cos, 6 tanh. DESIGN CHOICE
(log entry 43): the reciprocal of a subnormal operand whose exact value exceeds the largest finite number is the infinity of its sign;
the table of R74 gives an overflow result for exp2 only. -/
def specialFn (op : Nat) (a : BitVec 32) : Nat × Flg :=
  match unpack f32 a.toNat with
  | .nan s => nanOf f32 [.nan s]
  | .inf n =>
    match op with
    | 0 => (f32.signBit n, 0)
    | 1 => if n then invalid f32 else (0, 0)
    | 2 => (if n then 0 else f32.infBits, 0)
    | 3 => if n then invalid f32 else (f32.infBits, 0)
    | 4 => invalid f32
    | 5 => invalid f32
    | _ => (f32.signBit n + 0x3F800000, 0)
  | .fin n m e =>
    if m = 0 then
      match op with
      | 0 => (f32.signBit n + f32.infBits, flDZ)
      | 1 => (f32.signBit n + f32.infBits, flDZ)
      | 2 => (boundedUlp 2 a ⟨1, 0⟩ 2, 0)
      | 3 => (f32.signBit true + f32.infBits, flDZ)
      | 5 => (0x3F800000, 0)
      | _ => (f32.signBit n, 0)
    else
      match op with
      | 0 => let r := refRcp n m e
             if 128 ≤ topExp r.v.natAbs r.e then (roundTo f32 .rne n r.v.natAbs r.e |>.1, 0) else (boundedUlp 0 a r 1, 0)
      | 1 => if n then invalid f32 else (boundedUlp 1 a (refRsqrt m e) 2, 0)
      | 2 => if !n && decide (128 * fxOne ≤ fxOf m e) then (f32.infBits, 0)
             else if n && decide (200 * fxOne ≤ fxOf m e) then (boundedUlp 2 a refTiny 2, 0)
             else (boundedUlp 2 a (refExp2 n m e) 2, 0)
      | 3 => if n then invalid f32
             else if a = 0x3F800000 then (0, 0)
             else
               let r : Ref := ⟨fxLog2 m e, -fxBits⟩
               let t := topExp m e
               if t = 0 ∨ t = -1 then (boundedResult 3 a r 1 (-22) false, 0) else (boundedUlp 3 a r 2, 0)
      | 4 => if withinTrig m e then
               let x := fxReduce (fxOf (smant n m) e)
               (boundedResult 4 a ⟨fxSin (fxMul x x) 40 1 x, -fxBits⟩ 1 (-21) false, 0)
             else (boundedResult 4 a ⟨0, 0⟩ 1 0 true, 0)
      | 5 => if withinTrig m e then
               let x := fxReduce (fxOf (smant n m) e)
               (boundedResult 5 a (refCos x) 1 (-21) false, 0)
             else (boundedResult 5 a ⟨0, 0⟩ 1 0 true, 0)
      | _ => (boundedUlp 6 a (refTanh n m e) 2, 0)

end Sys2Proof.Machine
end

