-- ==== Sys2Proof/Machine/Float.lean ====
section
/-! DEFINITION. Floating point, conversion and quantisation instructions (R258-R278). -/

namespace Sys2Proof.Machine

/-! ## Elements of an operand -/

/-- Format of a type code: 0 f32, 1 f64, 2 f16x2, 3 bf16x2 (R210). -/
def typeFmt (t : BitVec 2) : Fmt :=
  match t.toNat with
  | 0 => f32
  | 1 => f64
  | 2 => f16
  | _ => bf16

/-- Operand width of a type. -/
def typeWidth (t : BitVec 2) : Nat := if t = 1 then 64 else 32

/-- Class latency of a type: F6, or D16 for f64 (R200). -/
def typeLat (t : BitVec 2) : Nat := if t = 1 then 16 else 6

/-- Apply an operation to the elements of up to three operands: once, or to both halves of packed pairs (R67). -/
def perElem (t : BitVec 2) (g : Fmt → Nat → Nat → Nat → Nat × Flg) (a b d : W64) : W64 × Flg :=
  let f := typeFmt t
  if t.toNat < 2 then
    let n := 2 ^ typeWidth t
    let (r, fl) := g f (a.toNat % n) (b.toNat % n) (d.toNat % n)
    (BitVec.ofNat 64 r, fl)
  else
    let lo := fun (x : W64) => x.toNat % 65536
    let hi := fun (x : W64) => x.toNat / 65536 % 65536
    let (r0, f0) := g f (lo a) (lo b) (lo d)
    let (r1, f1) := g f (hi a) (hi b) (hi d)
    (BitVec.ofNat 64 (r0 + 65536 * r1), f0 ||| f1)

/-- D := g(A, B) at a type. -/
def fp2 (t : BitVec 2) (d a b : BitVec 7) (lat : Nat) (g : Fmt → Nat → Nat → Nat × Flg) (s : State) :
    Host.Outcome State Fault Refusal :=
  let w := typeWidth t
  alu s (fun _ => descAB w d a b lat) (fun x i => perElem t (fun f p q _ => g f p q) (x.src i a w) (x.src i b w) 0)

/-- D := g(A) at a type. -/
def fp1 (t : BitVec 2) (d a : BitVec 7) (lat : Nat) (g : Fmt → Nat → Nat × Flg) (s : State) :
    Host.Outcome State Fault Refusal :=
  let w := typeWidth t
  alu s (fun _ => descA w d a lat) (fun x i => perElem t (fun f p _ _ => g f p) (x.src i a w) 0 0)

/-- R260. -/
def execFadd (m t : BitVec 2) (b a d : BitVec 7) (s : State) :=
  fp2 t d a b (typeLat t) (fun f p q => fAdd f (rmOf m) (unpack f p) (unpack f q)) s
/-- R260: a NaN stays a NaN when its sign is inverted. -/
def execFsub (m t : BitVec 2) (b a d : BitVec 7) (s : State) :=
  fp2 t d a b (typeLat t) (fun f p q => fAdd f (rmOf m) (unpack f p) (unpack f q).neg) s
/-- R260. -/
def execFmul (m t : BitVec 2) (b a d : BitVec 7) (s : State) :=
  fp2 t d a b (typeLat t) (fun f p q => fMul f (rmOf m) (unpack f p) (unpack f q)) s
/-- R260: d is D before the write; one rounding. -/
def execFfma (m t : BitVec 2) (b a d : BitVec 7) (s : State) : Host.Outcome State Fault Refusal :=
  let w := typeWidth t
  alu s (fun _ => { rds := [(a, w), (b, w), (d, w)], wr := some (d, w), lat := typeLat t })
    (fun x i => perElem t (fun f p q r => fFma f (rmOf m) (unpack f p) (unpack f q) (unpack f r))
      (x.src i a w) (x.src i b w) (x.src i d w))
/-- R262. -/
def execFmin (n : BitVec 1) (t : BitVec 2) (b a d : BitVec 7) (s : State) :=
  fp2 t d a b (typeLat t) (fun f p q => fMin f (n == 1) false p q) s
/-- R262. -/
def execFmax (n : BitVec 1) (t : BitVec 2) (b a d : BitVec 7) (s : State) :=
  fp2 t d a b (typeLat t) (fun f p q => fMin f (n == 1) true p q) s

/-- R263: whether the condition holds and the flag it raises. -/
def fcmpResult (c : BitVec 3) (f : Fmt) (p q : Nat) : Bool × Flg :=
  let a := unpack f p
  let b := unpack f q
  let un := isNan a || isNan b
  let fl := if isSnan a || isSnan b then flNV else 0
  let flAny := if un then flNV else 0
  match c.toNat with
  | 0 => (fvEq a b, fl)
  | 1 => (!fvEq a b, fl)
  | 2 => (!un && fvLt a b, flAny)
  | 3 => (!un && !fvLt b a, flAny)
  | 4 => (!un && fvLt b a, flAny)
  | 5 => (!un && !fvLt a b, flAny)
  | 6 => (un, fl)
  | _ => (!un, fl)

/-- R263: `w` selects f64; the result is written at D's width. -/
def execFcmp (w : BitVec 1) (c : BitVec 3) (b a d : BitVec 7) (s : State) : Host.Outcome State Fault Refusal :=
  let n := if w = 1 then 64 else 32
  let f := if w = 1 then f64 else f32
  alu s (fun x => { rds := [(a, n), (b, n)], wr := some (d, x.dstWidth d), lat := if w = 1 then 16 else 6 })
    (fun x i =>
      let (h, fl) := fcmpResult c f (x.src i a n).toNat (x.src i b n).toNat
      (truth h, fl))

/-- Sign bits of a type (R264). -/
def signBits (t : BitVec 2) : W64 :=
  match t.toNat with
  | 0 => 0x80000000
  | 1 => 0x8000000000000000
  | _ => 0x80008000

/-- R264. -/
def execFabs (t : BitVec 2) (a d : BitVec 7) (s : State) :=
  alu1 (typeWidth t) d a 4 (fun x => x &&& ~~~(signBits t)) s
/-- R264. -/
def execFneg (t : BitVec 2) (a d : BitVec 7) (s : State) := alu1 (typeWidth t) d a 4 (fun x => x ^^^ signBits t) s
/-- R264. -/
def execFcpys (t : BitVec 2) (b a d : BitVec 7) (s : State) :=
  alu2 (typeWidth t) d a b 4 (fun x y => (x &&& ~~~(signBits t)) ||| (y &&& signBits t)) s

/-- Type code of the one-bit f32 / f64 selector. -/
def type1 (t : BitVec 1) : BitVec 2 := if t = 1 then 1 else 0

/-- R265. -/
def execFdiv (m : BitVec 2) (t : BitVec 1) (b a d : BitVec 7) (s : State) :=
  fp2 (type1 t) d a b (if t = 1 then 16 else 12) (fun f p q => fDiv f (rmOf m) (unpack f p) (unpack f q)) s
/-- R265. -/
def execFsqrt (m : BitVec 2) (t : BitVec 1) (a d : BitVec 7) (s : State) :=
  fp1 (type1 t) d a (if t = 1 then 16 else 12) (fun f p => fSqrt f (rmOf m) (unpack f p)) s

/-- A special function of A (R266). -/
def specialOp (op : Nat) (a d : BitVec 7) (s : State) : Host.Outcome State Fault Refusal :=
  alu s (fun _ => { rds := [(a, 32)], wr := some (d, 32), lat := 12, special := true })
    (fun x i =>
      let (r, fl) := specialFn op ((x.src i a 32).setWidth 32)
      (BitVec.ofNat 64 r, fl))

/-- R266. -/
def execRcp (a d : BitVec 7) (s : State) := specialOp 0 a d s
/-- R266. -/
def execRsqrt (a d : BitVec 7) (s : State) := specialOp 1 a d s
/-- R266. -/
def execExp2 (a d : BitVec 7) (s : State) := specialOp 2 a d s
/-- R266. -/
def execLog2 (a d : BitVec 7) (s : State) := specialOp 3 a d s
/-- R266. -/
def execSin (a d : BitVec 7) (s : State) := specialOp 4 a d s
/-- R266. -/
def execCos (a d : BitVec 7) (s : State) := specialOp 5 a d s
/-- R266. -/
def execTanh (a d : BitVec 7) (s : State) := specialOp 6 a d s

/-- Exact value of a sum of values: NaN, an infinity, or a finite sum. Opposite infinities give none. -/
def sumExact : List Fv → Option Fv
  | [] => some (.fin true 0 0)
  | x :: r =>
    match x, sumExact r with
    | _, none => none
    | .nan s, some (.nan t) => some (.nan (s || t))
    | .nan s, some _ => some (.nan s)
    | _, some (.nan t) => some (.nan t)
    | .inf a, some (.inf b) => if a = b then some (.inf a) else none
    | .inf a, some _ => some (.inf a)
    | _, some (.inf b) => some (.inf b)
    | .fin n1 m1 e1, some (.fin n2 m2 e2) =>
      let (v, e) := addFin n1 m1 e1 n2 m2 e2
      some (.fin (if v = 0 then n1 && n2 else decide (v < 0)) v.natAbs e)

/-- R267. 0 times infinity, and a sum of opposite infinities, raise NV even beside a quiet NaN (log entry 14). -/
def fdot2Result (f : Fmt) (rm : Rm) (a b d : Nat) : Nat × Flg :=
  let p := [unpack f (a % 65536), unpack f (b % 65536), unpack f (a / 65536), unpack f (b / 65536)]
  let dv := unpack f32 d
  let snan := p.any isSnan || isSnan dv
  let m0 := mulExact (p.getD 0 (.nan false)) (p.getD 1 (.nan false))
  let m1 := mulExact (p.getD 2 (.nan false)) (p.getD 3 (.nan false))
  match m0, m1 with
  | some x, some y =>
    let ts := [x, y, dv]
    if p.any isNan || isNan dv then (f32.nan, if snan || (ts.contains (.inf false) && ts.contains (.inf true)) then flNV else 0)
    else match sumExact ts with
      | none => invalid f32
      | some (.fin n m e) => roundTo f32 rm (if m = 0 ∧ !(fvNeg x && fvNeg y && fvNeg dv) then
          (rm == .rdn && (fvNeg x || fvNeg y || fvNeg dv)) else n) m e
      | some v => packRound f32 rm v
  | _, _ => invalid f32

/-- R267. -/
def execFdot2 (m : BitVec 2) (f : BitVec 1) (b a d : BitVec 7) (s : State) : Host.Outcome State Fault Refusal :=
  alu s (fun _ => { side := .crew, rds := [(a, 32), (b, 32), (d, 32)], wr := some (d, 32), lat := 6 })
    (fun x i =>
      let (r, fl) := fdot2Result (if f = 1 then bf16 else f16) (rmOf m)
        (x.src i a 32).toNat (x.src i b 32).toNat (x.src i d 32).toNat
      (BitVec.ofNat 64 r, fl))

/-- R268: n is b at 32 bits, signed. -/
def execFscale (m t : BitVec 2) (b a d : BitVec 7) (s : State) : Host.Outcome State Fault Refusal :=
  let w := typeWidth t
  alu s (fun _ => { rds := [(a, w), (b, 32)], wr := some (d, w), lat := typeLat t })
    (fun x i =>
      let n := sInt32 (x.src i b 32)
      perElem t (fun f p _ _ => fScale f (rmOf m) n (unpack f p)) (x.src i a w) 0 0)

/-- R269: the mask of the packed types has element 1's class in bits [25:16]. -/
def execFclass (t : BitVec 2) (a d : BitVec 7) (s : State) : Host.Outcome State Fault Refusal :=
  let w := typeWidth t
  alu s (fun _ => { rds := [(a, w)], wr := some (d, 32), lat := 4 })
    (fun x i => perElem t (fun f p _ _ => (fClass f p, 0)) (x.src i a w) 0 0)

/-- Round an f32 pair into a packed format (R270). -/
def packPair (f : Fmt) (rm : Rm) (a b : W64) : W64 × Flg :=
  let (r0, f0) := packRound f rm (unpack f32 (a.toNat % 2 ^ 32))
  let (r1, f1) := packRound f rm (unpack f32 (b.toNat % 2 ^ 32))
  (BitVec.ofNat 64 (r0 + 65536 * r1), f0 ||| f1)

/-- R270. -/
def execCvtF16 (m : BitVec 2) (b a d : BitVec 7) (s : State) : Host.Outcome State Fault Refusal :=
  alu s (fun _ => descAB 32 d a b 6) (fun x i => packPair f16 (rmOf m) (x.src i a 32) (x.src i b 32))
/-- R270. -/
def execCvtBf16 (m : BitVec 2) (b a d : BitVec 7) (s : State) : Host.Outcome State Fault Refusal :=
  alu s (fun _ => descAB 32 d a b 6) (fun x i => packPair bf16 (rmOf m) (x.src i a 32) (x.src i b 32))
/-- R270. -/
def execCvtF32 (m : BitVec 2) (a d : BitVec 7) (s : State) : Host.Outcome State Fault Refusal :=
  alu s (fun _ => { rds := [(a, 64)], wr := some (d, 32), lat := 16 })
    (fun x i =>
      let (r, fl) := packRound f32 (rmOf m) (unpack f64 (x.src i a 64).toNat)
      (BitVec.ofNat 64 r, fl))

/-- R271: element `e` of a packed pair, widened exactly. -/
def widenElem (f : Fmt) (e : BitVec 1) (a : W64) : W64 × Flg :=
  let (r, fl) := packRound f32 .rne (unpack f (if e = 1 then a.toNat / 65536 % 65536 else a.toNat % 65536))
  (BitVec.ofNat 64 r, fl)
/-- R271. -/
def execCvtwF16 (e : BitVec 1) (a d : BitVec 7) (s : State) : Host.Outcome State Fault Refusal :=
  alu s (fun _ => descA 32 d a 6) (fun x i => widenElem f16 e (x.src i a 32))
/-- R271. -/
def execCvtwBf16 (e : BitVec 1) (a d : BitVec 7) (s : State) : Host.Outcome State Fault Refusal :=
  alu s (fun _ => descA 32 d a 6) (fun x i => widenElem bf16 e (x.src i a 32))
/-- R271. -/
def execCvtwF64 (a d : BitVec 7) (s : State) : Host.Outcome State Fault Refusal :=
  alu s (fun _ => { rds := [(a, 32)], wr := some (d, 64), lat := 16 })
    (fun x i =>
      let (r, fl) := packRound f64 .rne (unpack f32 (x.src i a 32).toNat)
      (BitVec.ofNat 64 r, fl))

/-- Range of an integer type: 0 s32, 1 n32, 2 s64, 3 n64. -/
def intRange (t : BitVec 2) : Int × Int :=
  match t.toNat with
  | 0 => (-2 ^ 31, 2 ^ 31 - 1)
  | 1 => (0, 2 ^ 32 - 1)
  | 2 => (-2 ^ 63, 2 ^ 63 - 1)
  | _ => (0, 2 ^ 64 - 1)

/-- Float to integer (R272). -/
def cvtToInt (src : Fmt) (lat : Nat) (m t : BitVec 2) (a d : BitVec 7) (s : State) : Host.Outcome State Fault Refusal :=
  let w := if src.eb = 11 then 64 else 32
  alu s (fun _ => { rds := [(a, w)], wr := some (d, if 2 ≤ t.toNat then 64 else 32), lat := lat })
    (fun x i =>
      let (lo, hi) := intRange t
      let (r, fl) := toInt (rmOf m) lo hi (unpack src (x.src i a w).toNat)
      (BitVec.ofInt 64 r, fl))
/-- R272. -/
def execCvti (m t : BitVec 2) (a d : BitVec 7) (s : State) := cvtToInt f32 6 m t a d s
/-- R272. -/
def execCvtid (m t : BitVec 2) (a d : BitVec 7) (s : State) := cvtToInt f64 16 m t a d s

/-- Integer source value (R273). -/
def intValue (t : BitVec 2) (x : W64) : Int :=
  match t.toNat with
  | 0 => sInt32 x
  | 1 => uInt32 x
  | 2 => x.toInt
  | _ => (x.toNat : Int)

/-- Integer to float (R273). -/
def cvtFromInt (dst : Fmt) (lat : Nat) (m t : BitVec 2) (a d : BitVec 7) (s : State) : Host.Outcome State Fault Refusal :=
  let w := if 2 ≤ t.toNat then 64 else 32
  alu s (fun _ => { rds := [(a, w)], wr := some (d, if dst.eb = 11 then 64 else 32), lat := lat })
    (fun x i =>
      let (r, fl) := ofInt dst (rmOf m) (intValue t (x.src i a w))
      (BitVec.ofNat 64 r, fl))
/-- R273. -/
def execCvtf (m t : BitVec 2) (a d : BitVec 7) (s : State) := cvtFromInt f32 6 m t a d s
/-- R273. -/
def execCvtfd (m t : BitVec 2) (a d : BitVec 7) (s : State) := cvtFromInt f64 16 m t a d s

/-! ## Code books and quantisation (R76-R79, R84-R86) -/

/-- LIN8: entry i is i - 128 (R77). -/
def lin8 : List (BitVec 16) := (List.range 256).map (fun (i : Nat) => BitVec.ofNat 16 (ofInt bf16 .rne ((i : Int) - 128)).1)

/-- Bits of a code of a book: 0 LIN8, 1 C4, 2 C6, 3 C8 (R278). -/
def codeBits (book : BitVec 2) : Nat :=
  match book.toNat with
  | 1 => 4
  | 2 => 6
  | _ => 8

/-- Entries of a crew's active book (R274). -/
def UnitSt.entries (u : UnitSt) : List (BitVec 16) := if u.book = 0 then lin8 else u.bookData

/-- Magnitude of a finite value, none for NaN and infinity. -/
def magOf : Fv → Option (Nat × Int)
  | .fin _ m e => some (m, e)
  | _ => none

/-- m1 * 2^e1 ≤ m2 * 2^e2. -/
def magLe (a b : Nat × Int) : Bool :=
  let e := min a.2 b.2
  decide (a.1 * 2 ^ (a.2 - e).toNat ≤ b.1 * 2 ^ (b.2 - e).toNat)

/-- Scale byte of a group from its operands (R84), and whether OF is raised. -/
def scaleByte (book : List (BitVec 16)) (xs : List Nat) : Nat × Bool :=
  let vs := xs.map (unpack f32)
  if vs.any isNan then (0xFF, false)
  else
    let l := (book.filterMap (fun b => magOf (unpack bf16 b.toNat))).foldl (fun a m => if magLe a m then m else a) (0, 0)
    if vs.any (fun v => match v with | .inf _ => true | _ => false) then (0xFE, true)
    else
      let x := (vs.filterMap magOf).foldl (fun a m => if magLe a m then m else a) (0, 0)
      if x.1 = 0 then (0x00, false)
      else
        let fits := fun (s : Nat) => match scaleOf (BitVec.ofNat 8 s) with
          | some (m, e) => magLe x (l.1 * m, l.2 + e)
          | none => false
        match ((List.range 254).map (· + 1)).find? fits with
        | some s => (s, false)
        | none => (0xFE, true)

/-- D is a v register, or ILLEGAL_INSTRUCTION (R276-R278). -/
def Who.notV (x : Who) (d : BitVec 7) : Bool := match x.op d with | .v _ => false | _ => true

/-- R276: the byte of the thread's 32-lane group; OF is raised once for the crew by each group that needs it. -/
def execQscl (a d : BitVec 7) (s : State) : Host.Outcome State Fault Refusal :=
  alu s (fun x => { side := .crew, rds := [(a, 32)], wr := some (d, 32), lat := 12, bad := x.notV d, whole := true })
    (fun x i =>
      let lanes := x.tids.filter (fun t => t / 32 == i / 32)
      let (r, o) := scaleByte x.unit.entries (lanes.map (fun t => (x.src t a 32).toNat))
      (BitVec.ofNat 64 r, if o then flOF else 0))

/-- Distance of an entry from a quotient a / scale, as a comparable pair: |entry * scale - a| (R85); none for a NaN entry
and for an infinite entry or operand. -/
def codeDist (a : Fv) (sc : Nat × Int) (entry : Fv) : Option (Nat × Int) :=
  match a, entry with
  | .fin n m e, .fin n2 m2 e2 =>
    let (v, x) := addFin n2 (m2 * sc.1) (e2 + sc.2) (!n) m e
    some (v.natAbs, x)
  | _, _ => none

/-- Index of the first best candidate under a strict order. -/
def bestIdx {α : Type} (better : α → α → Bool) : List (Nat × α) → Option (Nat × α)
  | [] => none
  | x :: r =>
    match bestIdx better r with
    | none => some x
    | some y => if better y.2 x.2 then some y else some x

/-- Code of a value under a scale byte (R85, R277). -/
def encCode (book : List (BitVec 16)) (a : Nat) (sb : BitVec 8) : Nat :=
  let av := unpack f32 a
  if isNan av ∨ sb = 0xFF then 0
  else
    let es := (book.zipIdx.map (fun p => (p.2, unpack bf16 p.1.toNat))).filter (fun p => !isNan p.2)
    let pick := fun (v : Fv) (sc : Nat × Int) =>
      let fin := es.filterMap (fun p => (codeDist v sc p.2).map (fun x => (p.1, x)))
      match bestIdx (fun y x => magLe y x && !magLe x y) fin with
      | some (i, _) => i
      | none => (es.head?.map (·.1)).getD 0
    if sb = 0 then pick (.fin false 0 0) (1, 0)
    else match av with
      | .inf n => ((bestIdx (fun y x => if n then fvLt y x else fvLt x y) es).map (·.1)).getD 0
      | v => pick v ((scaleOf sb).getD (1, 0))

/-- The crew with the code book of its issue, which holds for all its passes (R275). -/
def Who.booked (w : Who) : UnitSt :=
  match w.run with
  | some r => { w.unit with book := r.book, bookData := r.bookData }
  | none => w.unit

/-- R277: the scale byte is D[7:0]. -/
def execQenc (a d : BitVec 7) (s : State) : Host.Outcome State Fault Refusal :=
  alu s (fun x => { side := .crew, rds := [(a, 32), (d, 32)], wr := some (d, 32), lat := 6, bad := x.notV d })
    (fun x i => (BitVec.ofNat 64 (encCode x.booked.entries (x.src i a 32).toNat ((x.src i d 32).setWidth 8)), 0))

/-- Decoded value of a code (R86, R278). -/
def decCode (entry : Nat) (sb : BitVec 8) : Nat × Flg :=
  if sb = 0 then (0, 0)
  else match scaleOf sb with
    | none => (f32.nan, 0)
    | some (m, e) =>
      match unpack bf16 entry with
      | .nan _ => (f32.nan, 0)
      | .inf n => (f32.signBit n + f32.infBits, 0)
      | .fin n m2 e2 => roundTo f32 .rne n (m2 * m) (e2 + e)

/-- R278. -/
def execQdec (b a d : BitVec 7) (s : State) : Host.Outcome State Fault Refusal :=
  alu s (fun x => { side := .crew, rds := [(a, 32), (b, 32)], wr := some (d, 32), lat := 6, bad := x.notV d })
    (fun x i =>
      let code := (x.src i a 32).toNat % 2 ^ codeBits x.booked.book
      let (r, fl) := decCode ((x.booked.entries.getD code 0).toNat) ((x.src i b 32).setWidth 8)
      (BitVec.ofNat 64 r, fl))

/-- R275: LIN8 becomes the active book. -/
def execQcbLin8 (s : State) : Host.Outcome State Fault Refusal :=
  drive s (fun _ => { side := .crew, once := true })
    (fun x _ s => (.done, s.updUnit x.cell.uid x.u (fun u => { u with book := 0, bookData := [] })))

/-- R275: the book's entries are read from the basin at issue, after the earlier basin accesses of the bundle's threads. -/
def execQcb (f : BitVec 2) (a : BitVec 7) (s : State) : Host.Outcome State Fault Refusal :=
  let n := 2 * 2 ^ codeBits f
  drive s (fun x => { side := .crew, rds := [(a, 32)], once := true, basin := true
                      wait := x.tids.any (fun t => s.basinBehind x t (x.src x.lead a 32) n) })
    (fun x t s =>
      let ea := (x.src t a 32).toNat
      if ea % 16 ≠ 0 then (.trap ⟨tMisaligned, BitVec.ofNat 64 ea, 16⟩, s)
      else if outOfBasin x.cell ea n then (.trap ⟨tBasin, BitVec.ofNat 64 ea, BitVec.ofNat 64 n⟩, s)
      else
        let es := (List.range (2 ^ codeBits f)).map (fun i => BitVec.ofNat 16 (natOfBytes (s.readBasin x.cell (ea + 2 * i) 2)))
        (.done, s.updUnit x.cell.uid x.u (fun u => { u with book := f, bookData := es })))

end Sys2Proof.Machine
end

