-- ==== Sys2Proof/Machine/Crew.lean ====
section
/-! DEFINITION. Operations over the threads of a bundle (R82, R83, R244-R248) and the reductions of `cgath` (R54). -/

namespace Sys2Proof.Machine

/-! ## Reductions (R54, R82) -/

/-- Operations whose lane operand is 64 bits wide (R54). -/
def gatherWide (op : Nat) : Bool := op == 2 || op == 4

/-- Identity of an operation, in result form (R54). -/
def gatherId (op : Nat) : W64 :=
  match op with
  | 3 => 0x80000000
  | 4 => 0x8000000000000000
  | 5 => 0x7FFFFFFF
  | 6 => 0xFFFFFFFF80000000
  | 7 => 0xFFFFFFFF
  | 9 => 0x7F800000
  | 10 => 0xFF800000
  | 11 => 0xFFFFFFFF
  | _ => 0

/-- A lane operand in result form (R54). -/
def gatherArg (op : Nat) (a : W64) : W64 :=
  match op with
  | 0 | 5 | 6 => (a.setWidth 32).signExtend 64
  | 2 | 4 => a
  | _ => (a.setWidth 32).setWidth 64

/-- Combine two values in result form; the lower lane is on the left (R54, R82). -/
def combine (op : Nat) (a b : W64) : W64 × Flg :=
  let low := fun (r : Nat × Flg) => ((BitVec.ofNat 64 r.1 : W64), r.2)
  match op with
  | 0 | 1 | 2 => (a + b, 0)
  | 3 => low (fAdd f32 .rne (unpack f32 a.toNat) (unpack f32 b.toNat))
  | 4 => low (fAdd f64 .rne (unpack f64 a.toNat) (unpack f64 b.toNat))
  | 5 => (if b.toInt < a.toInt then b else a, 0)
  | 6 => (if a.toInt < b.toInt then b else a, 0)
  | 7 => (if b.toNat < a.toNat then b else a, 0)
  | 8 => (if a.toNat < b.toNat then b else a, 0)
  | 9 => low (fMin f32 false false a.toNat b.toNat)
  | 10 => low (fMin f32 false true a.toNat b.toNat)
  | 11 => (a &&& b, 0)
  | 12 => (a ||| b, 0)
  | _ => (a ^^^ b, 0)

/-- One level of the tree. -/
def treeLevel (op : Nat) : List W64 → List W64 × Flg
  | a :: b :: r =>
    let (x, f) := combine op a b
    let (xs, g) := treeLevel op r
    (x :: xs, f ||| g)
  | l => (l, 0)

/-- The fixed pairwise tree over 128 leaves (R82). -/
def tree (op : Nat) : Nat → List W64 → W64 × Flg
  | 0, l => (l.headD 0, 0)
  | n + 1, l =>
    let (l1, f) := treeLevel op l
    let (r, g) := tree op n l1
    (r, f ||| g)

/-- The tree over the threads of the bundle that a test admits; other lanes contribute the identity. -/
def Who.reduce (w : Who) (op : Nat) (a : BitVec 7) (ok : Nat → Bool) : W64 × Flg :=
  tree op 7 ((List.range 128).map (fun i =>
    if w.tids.contains i && ok i then gatherArg op (w.src i a (if gatherWide op then 64 else 32)) else gatherId op))

/-- R246. -/
def execCrdu (f : BitVec 4) (a d : BitVec 7) (s : State) : Host.Outcome State Fault Refusal :=
  let wide := gatherWide f.toNat
  alu s (fun w => { side := .crew, rds := [(a, if wide then 64 else 32)]
                    wr := some (d, if wide then 64 else w.dstWidth d), lat := 12, whole := true })
    (fun w _ => w.reduce f.toNat a (fun _ => true))

/-- The R54 operation of a scan's selector (R247). -/
def scanOp (f : BitVec 3) : Nat :=
  match f.toNat with
  | 0 => 0
  | n + 1 => n + 2

/-- R83, R247. -/
def execScan (e : BitVec 1) (f : BitVec 3) (a d : BitVec 7) (s : State) : Host.Outcome State Fault Refusal :=
  let op := scanOp f
  let wide := gatherWide op
  alu s (fun w => { side := .crew, rds := [(a, if wide then 64 else 32)]
                    wr := some (d, if wide then 64 else w.dstWidth d), bad := w.isK d, lat := 12, whole := true })
    (fun w tid => w.reduce op a (fun i => if e = 1 then decide (i < tid) else decide (i ≤ tid)))

/-! ## Votes, exchange, broadcast -/

/-- Width at which a predicate reads A (R244). -/
def Who.predWidth (w : Who) (a : BitVec 7) : Nat :=
  match w.op a with
  | .v _ | .spec _ | .tid | .ones => 32
  | _ => 64

/-- R244: the value of every form but `.mask`. -/
def pollValue (w : Who) (f : BitVec 3) (a : BitVec 7) : W64 :=
  let val := fun t => w.src t a (w.predWidth a)
  let hits := w.tids.filter (fun t => val t != 0)
  let flag := fun (b : Bool) => if b then BitVec.allOnes 64 else (0 : W64)
  match f.toNat with
  | 0 => flag (!hits.isEmpty)
  | 1 => flag (hits.length == w.tids.length)
  | 3 => BitVec.ofNat 64 hits.length
  | 4 => flag (w.tids.all (fun t => (val t).setWidth 32 == (val w.lead).setWidth 32))
  | _ => match hits with
    | t :: _ => BitVec.ofNat 64 t
    | [] => BitVec.allOnes 64

/-- R244. -/
def execPoll (f : BitVec 3) (a d : BitVec 7) (s : State) : Host.Outcome State Fault Refusal :=
  if f = 2 then
    let desc := fun (w : Who) => ({ side := .crew, rds := [(a, w.predWidth a)], wr := some (d, 128), bad := !w.isK d, lat := 6 } : Desc)
    drive s desc (fun w _ s =>
      let t := w.when (desc w)
      let m := tidMask (w.tids.filter (fun t => w.src t a (w.predWidth a) != 0))
      (.done, w.write t w.lead (d + 1) 64 (BitVec.ofNat 64 (m / 2 ^ 64)) (w.write t w.lead d 64 (BitVec.ofNat 64 m) s)))
  else
    alu s (fun w => { side := .crew, rds := [(a, w.predWidth a)], wr := some (d, w.dstWidth d), lat := 6, whole := true })
      (fun w _ => (pollValue w f a, 0))

/-- Source lane of an exchange (R245). -/
def lanexSrc (seg : Nat) (p : BitVec 2) (tid b : Nat) : Nat :=
  let base := tid - tid % seg
  let r := tid % seg
  match p.toNat with
  | 0 => base + b % seg
  | 1 => base + (r + b) % seg
  | 2 => base + (seg - 1 - r)
  | _ => base + Nat.xor r (b % seg)

/-- R245. -/
def execLanex (sg p : BitVec 2) (b a d : BitVec 7) (s : State) : Host.Outcome State Fault Refusal :=
  alu s (fun w => { side := .crew, rds := if p = 2 then [(a, 32)] else [(a, 32), (b, 32)]
                    wr := some (d, w.dstWidth d), lat := 6, whole := true })
    (fun w tid =>
      let src := lanexSrc (16 * 2 ^ sg.toNat) p tid (w.src tid b 32).toNat
      (if w.tids.contains src then w.src src a 32 else 0, 0))

/-- R248. -/
def execRfirst (a d : BitVec 7) (s : State) : Host.Outcome State Fault Refusal :=
  alu s (fun w => { rds := [(a, w.dstWidth d)], wr := some (d, w.dstWidth d), lat := 6, whole := true })
    (fun w _ => (w.src w.lead a (w.dstWidth d), 0))

/-- R248. -/
def execRdlane (b a d : BitVec 7) (s : State) : Host.Outcome State Fault Refusal :=
  alu s (fun w => { rds := [(a, w.dstWidth d), (b, w.dstWidth d)], wr := some (d, w.dstWidth d), lat := 6, whole := true })
    (fun w tid =>
      let n := (w.src w.lead b (w.dstWidth d)).toNat
      (if w.spine then w.src tid a (w.dstWidth d) else if w.tids.contains n then w.src n a (w.dstWidth d) else 0, 0))

end Sys2Proof.Machine
end

