-- ==== Sys2Proof/Machine/Cisterns.lean ====
section
/-! DEFINITION. Cistern instructions and their events (R46-R62, R161, R296-R300). -/

namespace Sys2Proof.Machine

/-- The issuer is of the producer class (R50). -/
def inClass (spine : Bool) (cls : BitVec 2) : Bool := cls = 0 ∨ (cls = 1 ∧ spine = true) ∨ (cls = 2 ∧ spine = false)

/-- Cistern number that a field names. -/
def Who.cisNo (w : Who) (f : BitVec 7) : Nat :=
  match w.op f with
  | .cis n => n
  | _ => 0

def cisBad (n : Nat) : TrapInfo := ⟨tCistern, 0, BitVec.ofNat 64 n⟩

/-- A cistern of a cell by number. -/
def Cell.cis! (c : Cell) (n : Nat) : Cistern :=
  c.cis.getD n ⟨0, false, .free, 0, 0, false, 0, 0, 0, 0, [], none⟩

/-- Value whose every bit is 1 for success, or 0 (R296). -/
def statusBits (b : Bool) : W64 := if b then BitVec.allOnes 64 else 0

/-- A register that may receive a status or flag (R296). -/
def Who.statusOk (w : Who) (b : BitVec 7) : Bool :=
  match w.op b with
  | .v _ | .x _ | .zero => true
  | _ => false

/-- Write a status to every thread of the issue. -/
def Who.putStatus (w : Who) (b : BitVec 7) (v : W64) (s : State) : State :=
  w.tids.foldl (fun s t => w.write ⟨0, 0⟩ t b (w.dstWidth b) v s) s

/-- Reserve an empty cistern for a write; its release begins (R51, R60). -/
def State.reserveCis (s : State) (w : Who) (n : Nat) (ovr : BitVec 4) (v : W64) : State :=
  let s1 := w.tids.foldl (fun s t => s.beginRelease w t 1 3) s
  (s1.updCis w.cell.uid n (fun c => { c with pending := some ⟨s1.fresh, w.u, w.tids, v, ovr⟩ })).tick1

/-- R51, R297. Writers that blocked earlier are served first (R59). -/
def execCwr (f : BitVec 4) (a d : BitVec 7) (s : State) : Host.Outcome State Fault Refusal :=
  drive s (fun _ => { rds := [(a, 64)], cis := some d, once := true, settles := true }) (fun w tid s =>
    let n := w.cisNo d
    let c := w.cell.cis! n
    if c.mode ≠ .bcast ∨ inClass w.spine c.cls = false then (.trap (cisBad n), s)
    else if c.full ∨ c.pending.isSome ∨ (w.woke 3 = false ∧ w.cell.blockedOn [3] (BitVec.ofNat 64 n) ≠ []) then
      (.block 3 (BitVec.ofNat 64 n), s)
    else (.done, s.reserveCis w n f (w.src tid a 64)))

/-- R51, R296, R297. DESIGN CHOICE (log entry 31): in the clk in which a read has emptied the cistern, a `cwrt` is accepted ahead of
`cwr` writers that blocked earlier and that R58 lets in from the next clk. -/
def execCwrt (f : BitVec 4) (b a d : BitVec 7) (s : State) : Host.Outcome State Fault Refusal :=
  drive s (fun w => { rds := [(a, 64)], wr := some (b, w.dstWidth b), cis := some d, once := true, settles := true
                      bad := !w.statusOk b }) (fun w tid s =>
    let n := w.cisNo d
    let c := w.cell.cis! n
    if c.mode ≠ .bcast ∨ inClass w.spine c.cls = false then (.trap (cisBad n), s)
    else if c.full ∨ c.pending.isSome then (.done, w.putStatus b 0 s)
    else (.done, w.putStatus b (statusBits true) (s.reserveCis w n f (w.src tid a 64))))

/-- R54, R55, R298: a crew's partial goes to its slot once its release is complete. -/
def execCgath (a d : BitVec 7) (s : State) : Host.Outcome State Fault Refusal :=
  let width := fun (w : Who) => if gatherWide (w.cell.cis! (w.cisNo d)).op.toNat then 64 else 32
  drive s (fun w => { side := .crew, rds := [(a, width w)], cis := some d, once := true, settles := true, basin := true
                      wait := !s.relsDone w 1 3 })
    (fun w _ s =>
      let n := w.cisNo d
      let c := w.cell.cis! n
      let me := w.u - 1
      if c.mode ≠ .gather ∨ inClass false c.cls = false then (.trap (cisBad n), s)
      else if c.full ∨ c.mask.getLsbD me = true ∨ (List.range 128).countP (fun i => c.mask.getLsbD i) = c.g.toNat then
        (.block 4 (BitVec.ofNat 64 n), s)
      else
        let (p, fl) := w.reduce c.op.toNat a (fun _ => true)
        (.done, w.raise ⟨0, 0⟩ fl (s.updCis w.cell.uid n (fun c =>
          { c with mask := c.mask ||| (1#128 <<< me), partials := sset c.partials me p }))))
    (fun w s => s.relStart 1 3 w)

/-- The checks of R48 and R49 that the word alone decides. -/
def cfgWordOk (x : BitVec 64) (ncrew : Nat) : Bool :=
  let mode := (x.extractLsb' 0 2).toNat
  let rc := (x.extractLsb' 8 8).toNat
  let g := (x.extractLsb' 16 8).toNat
  let op := (x.extractLsb' 24 4).toNat
  let cls := (x.extractLsb' 28 2).toNat
  x.extractLsb' 30 34 == 0 && x.extractLsb' 2 6 == 0 && mode != 3 && cls != 3
    && (rc == 0 || mode == 1) && (if mode = 2 then decide (1 ≤ g) && decide (g ≤ 128) && decide (g ≤ ncrew) else g == 0)
    && (op == 0 || mode == 2) && decide (op ≤ 13) && !(mode == 2 && cls == 1)

/-- Configuration of a word (R48); the value stays. -/
def Cistern.configure (c : Cistern) (x : BitVec 64) : Cistern :=
  { c with
    mode := match (x.extractLsb' 0 2).toNat with
      | 1 => .bcast
      | 2 => .gather
      | _ => .free
    rc := x.extractLsb' 8 8, g := x.extractLsb' 16 8, op := x.extractLsb' 24 4, cls := x.extractLsb' 28 2
    full := false, remaining := 0, mask := 0, partials := [] }

/-- GATHER cisterns of a cell other than `n`. -/
def Cell.gathers (c : Cell) (n : Nat) : Nat := (c.cis.zipIdx.filter (fun x => x.2 != n && x.1.mode == .gather)).length

/-- R48, R49, R299. -/
def execCcfg (a d : BitVec 7) (s : State) : Host.Outcome State Fault Refusal :=
  drive s (fun _ => { side := .spine, rds := [(a, 64)], cis := some d }) (fun w tid s =>
    let n := w.cisNo d
    let c := w.cell.cis! n
    let x := w.src tid a 64
    if cfgWordOk x w.cell.hdr.ncrew = false ∨ c.full = true ∨ c.pending.isSome = true ∨ c.mask ≠ 0
        ∨ (x.extractLsb' 0 2 = 2 ∧ 8 ≤ w.cell.gathers n) then (.trap (cisBad n), s)
    else (.done, s.updCis w.cell.uid n (fun c => c.configure x)))

/-- R52, R300: value and flag without waiting; with F = 1 an acquire. -/
def execCpeek (b a d : BitVec 7) (s : State) : Host.Outcome State Fault Refusal :=
  drive s (fun w => { wr := some (d, 64), wr2 := some (b, w.dstWidth b), cis := some a
                      settles := (w.cell.cis! (w.cisNo a)).full, bad := !w.statusOk b, whole := true }) (fun w tid s =>
    let c := w.cell.cis! (w.cisNo a)
    let t : When := ⟨0, 0⟩
    let tids := if w.isK d then w.tids else [tid]
    let s1 := w.write t tid d 64 c.value s
    (.done, tids.foldl (fun s t' => w.write t t' b (w.dstWidth b) (statusBits c.full) s) s1))

/-- R53, R57, R300. -/
def execCdrn (d : BitVec 7) (s : State) : Host.Outcome State Fault Refusal :=
  drive s (fun _ => { cis := some d, once := true }) (fun w _ s =>
    let n := w.cisNo d
    let c := w.cell.cis! n
    if w.spine = false ∧ inClass false c.cls = false then (.trap (cisBad n), s)
    else if c.pending.isSome then (.done, s)
    else (.done, s.updCis w.cell.uid n (fun c => { c with full := false, remaining := 0, mask := 0, partials := [] })))

/-! ## Events -/

/-- The release of a reserved write is complete (R161). -/
def State.landable (s : State) (c : Cell) (p : CisWrite) : Bool :=
  p.tids.all (fun t => s.released ⟨c, p.unit, (c.unit p.unit).core, t, 1, 3, p.seq⟩ && !s.behindMarker c.uid p.unit t p.seq)

/-- R51: the reserved write lands. -/
def execCisternWriteLand (cell n : Nat) (s : State) : Host.Outcome State Fault Refusal :=
  match s.cell? cell with
  | none => .next s
  | some c =>
    match (c.cis! n).pending with
    | none => .next s
    | some p =>
      if s.landable c p then
        .next (s.updCis cell n (fun x => { x with
          value := p.val, full := true, pending := none, override := p.ovr != 0
          remaining := if p.ovr ≠ 0 then p.ovr.setWidth 8 else x.rc }))
      else .next s

/-- Every deposit of the round is in (R55). -/
def Cistern.complete (c : Cistern) : Bool :=
  c.mode == .gather && !c.full && decide (1 ≤ c.g.toNat)
    && (List.range 128).countP (fun i => c.mask.getLsbD i) == c.g.toNat

/-- The combination of the occupied slots in ascending crew index, from the identity (R55). -/
def Cistern.combined (c : Cistern) : W64 :=
  ((List.range 128).filter (fun i => c.mask.getLsbD i)).foldl (fun acc i => (combine c.op.toNat acc (sget c.partials i)).1)
    (gatherId c.op.toNat)

/-- R55. DESIGN CHOICE (log entry 32): the combination is made in the clk of the last deposit, the earliest that R55 allows, and
clears the partials, of which R55 says nothing. -/
def execGatherCombine (cell n : Nat) (s : State) : Host.Outcome State Fault Refusal :=
  match s.cell? cell with
  | none => .next s
  | some c =>
    if (c.cis! n).complete then
      .next (s.updCis cell n (fun x => { x with value := x.combined, full := true, mask := 0, partials := [] }))
    else .next s

/-- A wait of kind 2, 3 or 4 on cistern `n` holds (R58, R383). -/
def Cell.cisWake (c : Cell) (u kind n : Nat) : Bool :=
  let x := c.cis! n
  if kind = 2 then x.full
  else if kind = 3 then !x.full && x.pending.isNone
  else !x.full && !x.mask.getLsbD (u - 1) && !x.complete

/-- A thread other than those blocked on the same cistern in the same way could end a wait of this kind (R61). DESIGN CHOICE (log
entry 33): for a reader that waits on a cistern which `ccfg` has set to FREE, a case R61 does not list, that is the spine, which alone
can configure it again. -/
def Cell.couldEnd (c : Cell) (kind n : Nat) : Bool :=
  let x := c.cis! n
  let live := fun (u tid : Nat) =>
    let t := (c.unit u).thread tid
    t.st != .exited && !(t.st == .blocked && t.wkind == kind && t.wobj == BitVec.ofNat 64 n)
  let any := fun (ok : Nat → Bool) => c.units.zipIdx.any (fun u => ok u.2
    && (List.range u.1.threads.length).any (fun t => live u.2 t))
  if kind = 2 then
    if x.pending.isSome || x.full || x.complete then true
    else match x.mode with
      | .bcast => any (fun u => inClass (u == 0) x.cls)
      | .gather =>
        let free := (c.units.zipIdx.filter (fun u => u.2 != 0 && !x.mask.getLsbD (u.2 - 1)
          && (List.range u.1.threads.length).any (fun t => live u.2 t))).length
        decide (x.g.toNat ≤ (List.range 128).countP (fun i => x.mask.getLsbD i) + free)
      | .free => any (fun u => u == 0)
  else
    match x.mode with
    | .bcast => any (fun _ => true)
    | .gather => any (fun u => u == 0)
    | .free => true

/-- The thread is an orphan of its cistern wait (R61). -/
def Cell.orphan (c : Cell) (u tid : Nat) : Bool :=
  let t := (c.unit u).thread tid
  !c.evicted && !c.evicting && t.st == .blocked && decide (2 ≤ t.wkind) && decide (t.wkind ≤ 4)
    && !c.cisWake u t.wkind t.wobj.toNat && !c.couldEnd t.wkind t.wobj.toNat

/-- R61: the blocked thread parks at its cistern instruction; threads of its bundle that blocked with it park with it. -/
def execCisternOrphanTrap (cell unit tid : Nat) (s : State) : Host.Outcome State Fault Refusal :=
  match s.cell? cell with
  | none => .next s
  | some c =>
    if c.orphan unit tid then
      let t := (c.unit unit).thread tid
      let mates := (List.range (c.unit unit).threads.length).filter (fun i =>
        let x := (c.unit unit).thread i
        c.orphan unit i && x.wseq == t.wseq && x.pc == t.pc && x.wobj == t.wobj)
      .next (s.park cell unit mates ⟨tOrphan, 0, t.wobj⟩ t.pc)
    else .next s

end Sys2Proof.Machine
end

