-- ==== Sys2Proof/Machine/Ring.lean ====
section
/-! DEFINITION. Ring objects (R178-R180): their fields, when they are valid, and how their counters move. -/

namespace Sys2Proof.Machine

/-- The fields of a ring object (R178); a counter is IDX + PH * COUNT. -/
structure Ring where
  base : Nat
  slot : Nat
  count : Nat
  prod : Nat
  w : Nat
  cl : Nat
  rd : Nat
  rl : Nat
  flt : Bool
  waiters : Nat
  /-- every reserved field is zero and every index is below COUNT. -/
  ok : Bool
deriving DecidableEq, Repr

/-- Bits `hi` down to `lo` of a number. -/
def bitsOf (g hi lo : Nat) : Nat := g / 2 ^ lo % 2 ^ (hi - lo + 1)

def ringOf (g : Nat) : Ring :=
  let n := bitsOf g 55 48
  let c := fun (idx ph : Nat) => idx + ph * n
  let wi := bitsOf g 71 64
  let ci := bitsOf g 78 73
  let ri := bitsOf g 87 80
  let li := bitsOf g 103 96
  { base := bitsOf g 31 0, slot := bitsOf g 47 32, count := n, prod := bitsOf g 57 56
    w := c wi (bitsOf g 72 72), cl := c ci (bitsOf g 79 79), rd := c ri (bitsOf g 88 88), rl := c li (bitsOf g 104 104)
    flt := bitsOf g 105 105 == 1, waiters := bitsOf g 127 112
    ok := bitsOf g 63 58 == 0 && bitsOf g 95 89 == 0 && bitsOf g 111 106 == 0
      && decide (wi < n) && decide (ci < n) && decide (ri < n) && decide (li < n) }

def Ring.pack (r : Ring) : Nat :=
  let n := max r.count 1
  r.base + r.slot * 2 ^ 32 + r.count * 2 ^ 48 + r.prod * 2 ^ 56
    + (r.w % n) * 2 ^ 64 + (r.w / n) * 2 ^ 72 + (r.cl % n) * 2 ^ 73 + (r.cl / n) * 2 ^ 79
    + (r.rd % n) * 2 ^ 80 + (r.rd / n) * 2 ^ 88 + (r.rl % n) * 2 ^ 96 + (r.rl / n) * 2 ^ 104
    + (if r.flt then 2 ^ 105 else 0) + (min r.waiters 65535) * 2 ^ 112

/-- d(a, b) (R178). -/
def Ring.d (r : Ring) (a b : Nat) : Nat := (b + 2 * r.count - a) % (2 * r.count)

/-- Advance a counter. -/
def Ring.adv (r : Ring) (a : Nat) : Nat := (a + 1) % (2 * r.count)

/-- PROD, COUNT and SLOT obey the table of R178 and the slots lie in the allocation. -/
def Ring.slotsOk (r : Ring) (c : Cell) : Bool :=
  r.prod != 3 && decide (2 ≤ r.count) && decide (r.count ≤ 64) && r.slot % 16 == 0 && decide (16 ≤ r.slot)
    && !outOfBasin c r.base (r.count * r.slot)

/-- The configuration fields obey the table of R178 and the slots lie in the allocation. -/
def Ring.cfgOk (r : Ring) (c : Cell) : Bool := r.slotsOk c && r.base % 16 == 0

/-- The ring is valid (R178). -/
def Ring.valid (r : Ring) (c : Cell) : Bool :=
  r.ok && r.slotsOk c && decide (r.d r.rl r.rd ≤ r.d r.rl r.w) && decide (r.d r.rl r.w ≤ r.d r.rl r.cl)
    && decide (r.d r.rl r.cl ≤ r.count)

def Ring.full (r : Ring) : Bool := decide (r.count ≤ r.d r.rl r.cl)

/-- What a returned index shows: IDX in [7:0], PH in [8] (R313). -/
def Ring.shown (r : Ring) (a : Nat) : W64 := BitVec.ofNat 64 (a % max r.count 1 + 256 * (a / max r.count 1))

/-- Basin address of the slot of a counter. -/
def Ring.slotAt (r : Ring) (a : Nat) : Nat := r.base + a % max r.count 1 * r.slot

/-- The object at a handle of a cell. -/
def State.ring (s : State) (c : Cell) (h : Nat) : Ring := ringOf (natOfBytes (s.readBasin c h 16))

/-- The valid ring at a handle, or none. -/
def State.ring? (s : State) (c : Cell) (h : Nat) : Option Ring :=
  if h % 16 ≠ 0 ∨ outOfBasin c h 16 = true then none
  else
    let r := s.ring c h
    if r.valid c then some r else none

/-- Write a ring back; its full/empty bit is unchanged (R179). -/
def State.putRing (s : State) (c : Cell) (h : Nat) (r : Ring) : State := s.writeBasin c h (bytesOfNat 16 r.pack)

/-- A counter that `rgadv.pub` or `rgrel` moves on; none when there is nothing to publish or release (R180). -/
def Ring.give (r : Ring) (pub : Bool) : Option Ring :=
  if pub then (if r.w = r.cl then none else some { r with w := r.adv r.w })
  else if r.rl = r.rd then none else some { r with rl := r.adv r.rl }

/-- The counter of a valid ring moves (R180). -/
def State.ringGive (s : State) (c : Cell) (h : Nat) (pub : Bool) : State :=
  match s.ring? c h with
  | none => s
  | some r => if r.flt then s else (r.give pub).elim s (s.putRing c h)

end Sys2Proof.Machine
end

