-- ==== Sys2Proof/Machine/Lines.lean ====
section
/-! DEFINITION. Events of the store path, the homes and the L1s: drains, performed writes and atomics, fills, releases,
ownership, leases, evictions and soft errors (R92, R93, R103-R107, R153, R403, R404). -/

namespace Sys2Proof.Machine

/-! ## When a write may be performed -/

/-- Lines that `n` bytes at a key touch. -/
def linesOf (key n : Nat) : List Nat := (List.range ((key + (n - 1)) / 128 - key / 128 + 1)).map (key / 128 + ·)

/-- Leases of other L1s on a line have passed (R105). -/
def State.leasesOver (s : State) (cl l1 line : Nat) : Bool := decide ((s.line line).foreign cl l1 ≤ s.tb)

/-- Another holder may still hold the line: the home asks it to give the line up (R405, R406). -/
def HLine.heldElsewhere (h : HLine) : Bool := h.holders.any (fun x => x.st != .i)

/-- A holder may have the line newer than its home (R405). -/
def HLine.maybeDirty (h : HLine) : Bool := h.holders.any (fun x => x.st == .m || x.st == .e)

/-- This package's slice holds a line of another home so that no other copy exists (R406). -/
def HLine.owns (h : HLine) : Bool := (h.mine == .m || h.mine == .e) && !h.snoop

/-- A write of `n` bytes from an L1 may be performed at its home now (R105, R107, R406, R409): cluster 1000 + device stands for what
the part itself does. -/
def State.writeReady (s : State) (cl l1 key n : Nat) : Bool :=
  (linesOf key n).all (fun l => s.leasesOver cl l1 l && !(s.line l).heldElsewhere && (!farKey key || (s.line l).owns))
    && !s.foreignOwner cl l1 key n && !s.gatedKey key (devOfCl s.pkg cl)

/-- A write has waited at the home for leases on the line (R403). -/
def HLine.notes (h : HLine) (num : Nat) : Bool := h.noted.any (fun x => x.1 == num)

/-- A write has to wait for a foreign lease: for each such write k falls by one, and that expiry raises nothing (R403). -/
def State.noteWait (s : State) (num cl l1 key n : Nat) : State :=
  (linesOf key n).foldl (fun s l =>
    if s.leasesOver cl l1 l || (s.line l).notes num then s
    else s.updLine l (fun h => { h with k := h.k - 1, waited := true, noted := (num, s.fresh) :: h.noted })) s

/-- The write waits no more: it is performed, or its operation is over. -/
def State.forget (s : State) (num key n : Nat) : State :=
  (linesOf key n).foldl (fun s l =>
    if (s.line l).notes num then s.updLine l (fun h => { h with noted := h.noted.filter (fun x => x.1 != num) }) else s) s

/-- The home sends an invalidation to every holder of the lines (R406). -/
def State.askHolders (s : State) (key n : Nat) : State :=
  (linesOf key n).foldl (fun s l =>
    if (s.line l).heldElsewhere then
      s.updLine l (fun h => { h with holders := h.holders.map (fun x => if x.st = .i then x else { x with asked := true }) })
    else s) s

/-- The home of another device's or the host's line grants the slice ownership, when its other holders have given the line up: in a
clk that the outside chooses (R406). -/
def State.ownGrant (s : State) (line : Nat) : Bool :=
  farKey (128 * line) && !(s.line line).owns && !(s.line line).snoop && Config.freeBit s.fresh 35

def State.takeGrant (s : State) (key n : Nat) : State :=
  (linesOf key n).foldl (fun s l => if s.ownGrant l then s.updLine l (fun h => { h with mine := .e }) else s) s

/-- A write that is not ready still has something to announce at the home. -/
def State.writeNews (s : State) (num cl l1 key n : Nat) : Bool :=
  (linesOf key n).any (fun l =>
    (!s.leasesOver cl l1 l && !(s.line l).notes num) || (s.line l).holders.any (fun x => x.st != .i && !x.asked) || s.ownGrant l)

/-- What a waiting write announces. -/
def State.announce (s : State) (num cl l1 key n : Nat) : State := ((s.noteWait num cl l1 key n).askHolders key n).takeGrant key n

/-- A write of the part itself, with its number, may be performed at its home now: no write that came before it waits there, and no flip
of bias is under way (R404, R409). -/
def State.partReady (s : State) (num dev key n : Nat) : Bool :=
  s.writeReady (1000 + dev) 0 key n && !s.flipping key dev
    && (linesOf key n).all (fun l => !s.aheadAt l num ((((s.line l).noted.find? (fun x => x.1 == num)).map (·.2)).getD s.fresh))

/-! ## Values that loads take, and stores that were held back -/

def State.updStore (s : State) (num : Nat) (f : StoreEnt → StoreEnt) : State :=
  { s with clu := { s.clu with stores := s.clu.stores.map (fun e => if e.seq = num then f e else e) } }

def State.dropStore (s : State) (num : Nat) : State :=
  { s with clu := { s.clu with stores := s.clu.stores.filter (fun e => e.seq != num) } }

/-- A load entry is over. -/
def State.endLoad (s : State) (num : Nat) : State :=
  { s with clu := { s.clu with loads := s.clu.loads.map (fun x => if x.num = num then { x with done := true } else x) } }

/-- Address that a failing line or home gives POISON (R373). -/
def State.poisonAddr (s : State) (key : Nat) (va : W64) : W64 := if (s.line (key / 128)).poison then lineVa va else va

/-- A load entry takes its bytes, or none of them when the line is poisoned (R109, R111, R283). -/
def State.takeValue (s : State) (l : LoadEnt) (bs : Option (List Byte)) : State :=
  let ls := s.loadsOf l.cell l.unit
  let s1 := s.endLoad l.num
  match bs with
  | some bs => s1.updUnit l.cell l.unit (fun u => u.arrive (l.unit == 0) l ls s.clk s.fresh (extendTo l.sgn l.size bs))
  | none => s1.notePoison l.cell l.unit l.tid (s.poisonAddr l.key l.va) l.pc

/-- The bytes of a waiting basin entry are written, and what its kind does besides (R97, R108, R180, R294). -/
def State.performBasin (s : State) (e : StoreEnt) : State :=
  let s1 := s.dropStore e.seq
  match e.kind with
  | .marker .. => s1
  | .plain => s1.poke e.key e.bytes
  | .full => { s1.poke e.key e.bytes with home := { (s1.poke e.key e.bytes).home with fe := sset s1.home.fe (keyAddr e.key / 16) 1#1 } }
  | .ring pub => (s1.cell? e.cell).elim s1 (fun c => s1.ringGive c e.va.toNat pub)
  | .atomic op b d load =>
    let old := readBytes s1.home.mem e.key e.bytes.length
    let s2 := match atomNew op (BitVec.ofNat 64 (natOfBytes old)) b d with
      | some x => s1.poke e.key (bytesOfNat e.bytes.length x.toNat)
      | none => s1
    match load.bind (fun k => s2.clu.loads.find? (fun l => l.num == k)) with
    | some l => s2.takeValue l (some old)
    | none => s2

/-- A held entry's turn has come: at the basin it is performed, in global memory it becomes dirty in its L1 (R103, R150, R153). -/
def State.letGo (s : State) (e : StoreEnt) : State :=
  if basinKey e.key then s.performBasin e
  else
    let s1 := s.dropStore e.seq
    let s2 := { s1 with clu := { s1.clu with stores := s1.clu.stores ++ [{ e with ph := .dirty, born := s.tb }] } }
    if e.kind = .plain then s2.l1Write e.cl e.l1 e.key e.kid e.bytes else s2

/-- An entry of the store path that nothing holds back any more. -/
def State.freed (s : State) (e : StoreEnt) : Bool := e.ph == .held && !e.isMarker && !s.mustHold e

/-- A basin load that waited for its thread's earlier accesses to the word may take its value (R149). -/
def State.loadFreed (s : State) (l : LoadEnt) : Bool := basinKey l.key && !l.done && !l.isAtom && !s.mustWait l

/-- Stores to global memory that have been held back go on as far as they may, in order: at most `n` of them. A basin access takes its
turn in a clk (R101, R125). -/
def State.promote (s : State) : Nat → State
  | 0 => s
  | n + 1 =>
    match s.clu.stores.find? (fun e => s.freed e && !basinKey e.key) with
    | some e => ((s.letGo e).settleBatches e.cell e.unit).promote n
    | none => s

/-- An access of a unit is over: its batches complete, and what it held back goes on. -/
def State.settled (s : State) (cell u : Nat) : State :=
  let s1 := s.settleBatches cell u
  s1.promote (s1.clu.stores.length + s1.clu.loads.length)

/-- Basin accesses that take their turn in this clk (R101). -/
def State.basinDue (s : State) : List Nat :=
  (s.clu.stores.filter (fun e => basinKey e.key && s.freed e)).map (·.seq) ++ (s.clu.loads.filter s.loadFreed).map (·.num)

/-- A basin access that was held back acts (R97, R101). -/
def State.basinTurn (s : State) (num : Nat) : State :=
  match s.clu.stores.find? (fun e => e.seq == num) with
  | some e => if basinKey e.key && s.freed e then (s.performBasin e).settled e.cell e.unit else s
  | none => match s.clu.loads.find? (fun l => l.num == num) with
    | some l => if s.loadFreed l then (s.takeValue l (some (readBytes s.home.mem l.key l.n))).settled l.cell l.unit else s
    | none => s

/-! ## Draining -/

/-- Entry `x`, which the L1 took earlier, goes ahead of `e`: its thread's (R106), or one to a common word of the same L1, whose value
the thread of `e` may have read (R149). -/
def StoreEnt.leads (x e : StoreEnt) : Bool :=
  !x.isMarker && !basinKey x.key && (x.kin e || (x.ph != .held && x.cl == e.cl && x.l1 == e.l1 && sameWord x.key x.bytes.length e.key e.bytes.length))

/-- Entries that go ahead of this one. -/
def State.leaders (s : State) (e : StoreEnt) : List StoreEnt :=
  (s.clu.stores.takeWhile (fun x => x.seq != e.seq)).filter (fun x => x.leads e)

/-- Every entry ahead of a dirty one is on its way: it may drain (R106, R149). -/
def State.nextDrain (s : State) (e : StoreEnt) : Bool :=
  e.ph == .dirty && (s.leaders e).all (fun x => x.ph == .sent || x.ph == .drained)

/-- R106: the entry leaves the L1 for its home, across the fabric on the narrow plane (R412). -/
def State.drain (s : State) (num : Nat) : State :=
  match s.clu.stores.find? (fun e => e.seq == num) with
  | none => s
  | some e => if s.nextDrain e then (s.updStore num (fun x => { x with ph := .sent })).sendTo e.cl e.key e.bytes.length false (.request num)
    else s

/-- R106. -/
def execStoreDrain (num : Nat) (s : State) : Host.Outcome State Fault Refusal := .next (s.drain num)

/-- R106: a word that has been dirty for 2,048 tb. -/
def execDirtyWordTimeout (num : Nat) (s : State) : Host.Outcome State Fault Refusal :=
  match s.clu.stores.find? (fun e => e.seq == num) with
  | none => .next s
  | some e => .next (if e.born + Config.dirtyLimit ≤ s.tb then s.drain num else s)

/-- What a cell that is evicted waits for: its units' accesses, and what they may have read in their L1s (R168, R384). -/
def Cell.evictReleases (c : Cell) : List Release :=
  if c.evicting then (List.range c.units.length).map (fun u => ⟨c, u, (c.unit u).core, 0, 2, 3, c.evSeq⟩) else []

/-- Releases that have not completed: the markers, those that threads wait for at their instruction (R153), and those of evictions. -/
def State.releases (s : State) : List Release :=
  s.clu.stores.filterMap (fun e => match e.kind, s.cell? e.cell with
    | .marker scope q, some c => some ⟨c, e.unit, (c.unit e.unit).core, e.tid, scope, q, e.seq⟩
    | _, _ => none)
  ++ s.cells.flatMap (fun c => c.units.zipIdx.flatMap (fun u => u.1.threads.zipIdx.filterMap (fun t =>
    if t.1.stage = 0 then none
    else some ⟨c, u.2, u.1.core, t.2, BitVec.ofNat 3 (t.1.stage / 8 % 8), BitVec.ofNat 2 (t.1.stage % 8), t.1.stage / 64⟩)))
  ++ s.cells.flatMap Cell.evictReleases

/-- Entries that drain now, with all that goes ahead of them: those that a release waits for, of an evicted line, or dirty for
2,048 tb (R106). -/
def State.drainsDue (s : State) : List StoreEnt :=
  let rs := s.releases
  s.clu.stores.foldr (fun e due =>
    if e.isMarker || basinKey e.key then due
    else if (e.ph == .dirty && (e.urged || decide (e.born + Config.dirtyLimit ≤ s.tb) || rs.any (fun r => r.waits e)))
      || due.any (fun x => e.leads x) then e :: due else due) []

/-! ## Performing -/

/-- The tile of a region key, when it refuses the write (R138). DESIGN CHOICE (log entry 111): the tile is looked at when the write is
performed, also for a drain that reached the home before the seal and waited there for leases, of which R138 does not speak. -/
def State.tileRefuses (s : State) (ctx : BitVec 32) (key : Nat) : Option W64 :=
  if keySpace key < 2 ^ 32 ∨ keySpace key = 2 ^ 33 then none
  else
    let va := BitVec.ofNat 64 (keyAddr key)
    match (s.ctx? ctx).bind (·.region? va) with
    | none => some 0
    | some r =>
      let t := s.tile ctx (r.tileBase va)
      if t.st = .building then none else some t.word

/-- A drain that fails (R93, R138, R283): a pending trap of the thread, or a late drain report when it has exited. -/
def State.drainFails (s : State) (e : StoreEnt) (poison : Bool) (word : W64) : State :=
  match s.cell? e.cell with
  | none => s
  | some c =>
    if ((c.unit e.unit).thread e.tid).st = .exited then s.lateDrain c e.unit (if poison then tPoison else tRecWrite) ((e.va >>> 2) <<< 2) e.pc
    else if poison then s.notePoison e.cell e.unit e.tid (s.poisonAddr e.key e.va) e.pc
    else s.noteRecWrite e.cell e.unit e.tid e.va e.pc word

/-- The L1 becomes owner of the words of an atomic, when the device chooses it and the home may grant it (R107, R120). -/
def State.mayOwn (s : State) (e : StoreEnt) : State :=
  if keySpace e.key < 2 ^ 20 ∧ s.home.pipes.all (fun p => p.gran != e.key / 16) = true
      ∧ (s.line (e.key / 128)).leases.all (fun x => (x.1 == e.cl && x.2.1 == e.l1) || decide (x.2.2 ≤ s.tb)) = true
      ∧ Config.freeBit s.fresh 13 = true then
    let ws := (wordsOf e.key e.bytes.length).filter (fun w => !(s.clu.owned.contains (e.cl, e.l1, w)))
    { s with clu := { s.clu with owned := ws.map (fun w => (e.cl, e.l1, w)) ++ s.clu.owned } }
  else s

/-- An atomic in its word's coherence order (R107, R288); its own L1 shows the new value too (R148). -/
def State.doAtomic (s : State) (e : StoreEnt) (op : BitVec 4) (b d : W64) (load : Option Nat) : State :=
  let n := e.bytes.length
  let s1 := s.underKey (e.key / 128) e.kid
  let old := readBytes s1.home.mem e.key n
  let s2 := match atomNew op (BitVec.ofNat 64 (natOfBytes old)) b d with
    | some x => (s1.perform (devOfCl s.pkg e.cl) e.key e.kid (bytesOfNat n x.toNat)).l1Keep e.cl e.l1 e.key e.kid (bytesOfNat n x.toNat)
    | none => s1
  let s3 := match load.bind (fun k => s2.clu.loads.find? (fun l => l.num == k)) with
    | some l => s2.takeValue l (some old)
    | none => s2
  s3.mayOwn e

/-- A store with those that merged into it, as one performed write (R106, R120, R150). -/
def State.doStore (s : State) (e : StoreEnt) : State :=
  (e.more.foldl (fun s p => s.poke p.1 p.2) (s.underKey (e.key / 128) e.kid)).perform (devOfCl s.pkg e.cl) e.key e.kid e.bytes

/-- The writes that reached the home before this one on its line, and its thread's earlier entries, are over (R150, R404). -/
def State.firstAtHome (s : State) (e : StoreEnt) : Bool :=
  e.ph == .drained && (s.leaders e).isEmpty
    && !s.aheadAt (e.key / 128) e.seq e.born

/-- R105: a thread's write that has come to its home: performed, or announced while it has to wait. -/
def State.performStore (s : State) (e : StoreEnt) : State :=
  if !s.firstAtHome e then s
  else if !s.writeReady e.cl e.l1 e.key e.bytes.length then s.announce e.seq e.cl e.l1 e.key e.bytes.length
  else
    let poison := (s.line (e.key / 128)).poison || unreachable s.pkg e.key
    let refused := s.tileRefuses e.ctx e.key
    let s1 := (s.dropStore e.seq).forget e.seq e.key e.bytes.length
    let s2 :=
      if poison || refused.isSome then
        let s2 := s1.drainFails e poison (refused.getD 0)
        match e.kind with
        | .atomic _ _ _ (some k) => s2.endLoad k
        | _ => s2
      else match e.kind with
        | .atomic op b d load => s1.doAtomic e op b d load
        | _ => s1.doStore e
    s2.settled e.cell e.unit

/-- An entry on its way reaches its home, after those ahead of it and, across the fabric, when its flits have arrived (R413). -/
def State.reachHome (s : State) (e : StoreEnt) : State :=
  if e.ph == .sent && !s.inFlight (.request e.seq) && !s.inFlight (.lineData e.seq) && (s.leaders e).all (fun x => x.ph == .drained) then
    (s.updStore e.seq (fun x => { x with ph := .drained, born := s.fresh })).tick1
  else s

/-- A write of the host or the siphon at its home (R105, R136, R408): no L1 is left out. -/
def State.firstWrite (s : State) (h : HomeWrite) : Bool :=
  (linesOf h.key h.bytes.length).all (fun l => !s.aheadAt l h.num h.num)

def State.performWrite (s : State) (h : HomeWrite) : State :=
  let n := h.bytes.length
  if !s.firstWrite h then s
  else if !s.writeReady (1000 + h.dev) 0 h.key n then s.announce h.num (1000 + h.dev) 0 h.key n
  else
    let s := s.forget h.num h.key n
    let s1 := { s with home := { s.home with writes := s.home.writes.filter (fun x => x.num != h.num) } }
    if h.clear then (s1.updLine (h.key / 128) (fun l => { l with poison := false })).perform h.dev h.key h.kid h.bytes
    else if (linesOf h.key n).any (fun l => (s.line l).poison) then s1
    else s1.perform h.dev h.key h.kid h.bytes

/-- R105: a write reaches its home, and is performed there once the leases of other L1s have passed. -/
def execWritePerformed (num : Nat) (s : State) : Host.Outcome State Fault Refusal :=
  match s.clu.stores.find? (fun e => e.seq == num && !e.isMarker) with
  | some e =>
    let s1 := s.reachHome e
    match s1.clu.stores.find? (fun x => x.seq == num) with
    | some e1 => .next (s1.performStore e1)
    | none => .next s1
  | none => match s.home.writes.find? (fun h => h.num == num) with
    | some h => .next (s.performWrite h)
    | none => .next s

/-- Writes that are at their homes and whose time has come, or that have something to announce there (R105, R403). -/
def State.writesDue (s : State) : List Nat :=
  let due := fun num cl l1 key n => s.writeReady cl l1 key n || s.writeNews num cl l1 key n
  (s.clu.stores.filter (fun e => s.firstAtHome e && due e.seq e.cl e.l1 e.key e.bytes.length)).map (·.seq)
    ++ (s.home.writes.filter (fun h => s.firstWrite h && due h.num (1000 + h.dev) 0 h.key h.bytes.length)).map (·.num)

/-- The release of a marker is complete, or its cell is gone (R153). -/
def State.markerOver (s : State) (e : StoreEnt) : Bool :=
  match e.kind, s.cell? e.cell with
  | .marker scope q, some c => s.released ⟨c, e.unit, (c.unit e.unit).core, e.tid, scope, q, e.seq⟩ && !s.behindMarker e.cell e.unit e.tid e.seq
  | .marker .., none => true
  | _, _ => false

/-- R153: the covered writes are visible at the scope; what the release held back goes on. -/
def execReleaseComplete (num : Nat) (s : State) : Host.Outcome State Fault Refusal :=
  match s.clu.stores.find? (fun e => e.seq == num) with
  | none => .next s
  | some e => .next (if s.markerOver e then (s.dropStore num).settled e.cell e.unit else s)

/-! ## Fills -/

/-- No holder keeps the home from granting a lease: none may be dirty, and in host bias the host holds nothing (R405, R408). -/
def State.holdersLet (s : State) (line : Nat) : Bool :=
  (s.line line).holders.all (fun x => x.st == .i || (x.st == .s && !s.hostBias (128 * line)))

/-- H-die whose directory has a line's entry (R405). -/
def State.dirDie (s : State) (line : Nat) : Nat := keySlice s.pkg (128 * line) (keySpace (128 * line)) / 32

/-- The line has an entry in the directory of its home in this package (R405). -/
def HLine.listed (h : HLine) : Bool := decide (keySpace (128 * h.line) < 16) && (h.heldElsewhere || !h.devs.isEmpty)

/-- The directory of the line's H-die has no free entry (R405). -/
def State.dirFull (s : State) (line : Nat) : Bool :=
  decide (Config.dirEntries ≤ s.home.lines.countP (fun h => h.listed && s.dirDie h.line == s.dirDie line))

/-- A device may become a holder of the line. DESIGN CHOICE (log entry 128): requests of devices of other packages for lines of this
package's memory are no operation of the table; holders outside are those that the state lists: another home's has granted it, or the directory of its own has room (R405, R406). -/
def State.mayHold (s : State) (line dev : Nat) : Bool :=
  let h := s.line line
  if farKey (128 * line) then h.mine != .i
  else !foreignKey (128 * line) dev || h.devs.contains dev || h.listed || !s.dirFull line

/-- The home may grant a lease on the line to an L1 (R107, R404, R406, R409). -/
def State.leaseReady (s : State) (cl l1 line : Nat) : Bool :=
  let dev := devOfCl s.pkg cl
  !s.writeWaits line && !s.foreignOwner cl l1 (128 * line) 128 && !s.flipping (128 * line) dev && !(s.line line).snoop
    && s.holdersLet line && s.mayHold line dev

/-- The L2 can serve the line: a line of a tile only while it holds it (R137, R139). -/
def State.lineThere (s : State) (line : Nat) : Bool :=
  let key := 128 * line
  if keySpace key < 2 ^ 32 then true
  else
    let ctx := BitVec.ofNat 32 (keySpace key - 2 ^ 32)
    let va := BitVec.ofNat 64 (keyAddr key)
    match (s.ctx? ctx).bind (·.region? va) with
    | none => false
    | some r => (s.tile ctx (r.tileBase va)).present.contains ((va.toNat - (r.tileBase va).toNat) / 128)

/-- A load whose fetch this is, of a sector: it may take its value when the sector is there. -/
def State.awaits (s : State) (f : Fetch) (l : LoadEnt) : Bool :=
  l.cl == f.cl && l.l1 == f.l1 && l.key / 128 == f.line && l.kid == f.kid && !l.done && !l.isAtom && l.got.isNone && !s.mustWait l

/-- One sector of a fetch returns, the device's choice which, with a lease; every load that waits for it there takes its value (R103). -/
def State.fill (s : State) (f : Fetch) : State :=
  let left := (List.range 4).filter (fun i => f.left.getLsbD i)
  let i := (left[Config.freeNat s.fresh 34 % max left.length 1]?).getD 0
  let (ex, s1) := ((s.underKey f.line f.kid).enterL2 f.line (devOfCl s.pkg f.cl)).lease f.cl f.l1 f.line f.long
  let s2 := s1.l1Fill f.cl f.l1 f.line f.kid ex i f.left
  let rest := f.left &&& ~~~ (1#4 <<< i)
  let s3 := { s2 with clu := { s2.clu with fetches := s2.clu.fetches.flatMap (fun (x : Fetch) =>
    if x.num = f.num then (if rest = 0 then [] else [{ f with left := rest }]) else [x]) } }
  let bytes := ((s3.l1Line? f.cl f.l1 f.line f.kid).map L1Line.bytes).getD []
  let ls := s3.clu.loads.filter (fun l => s3.awaits f l && l.key % 128 / 32 == i)
  ls.foldl (fun s l => if s.mustWait l then s
    else (s.takeValue l (some ((bytes.drop (l.key % 128)).take l.n))).settled l.cell l.unit) s3

/-- A load that has missed goes on: with bytes promised to it, on a failing line without any, on a hit, or with a fetch (R103, R283). -/
def State.serveLoad (s : State) (l : LoadEnt) : State :=
  let line := l.key / 128
  if s.mustWait l then s
  else
    match l.got, s.l1Read l.cl l.l1 l.key l.n l.kid with
    | some bs, _ => (s.takeValue l (some bs)).settled l.cell l.unit
    | none, some bs => (s.takeValue l (some bs)).settled l.cell l.unit
    | none, none =>
      if (s.line line).poison || unreachable s.pkg l.key then (s.takeValue l none).settled l.cell l.unit
      else s.startFetch l.cl l.l1 line l.kid false

/-- R103: a load that missed goes on, or a sector of a fetch returns. A fetch that meets a failing line, or a tile's line that has been
dropped, brings nothing. -/
def execL1FillReturn (num : Nat) (s : State) : Host.Outcome State Fault Refusal :=
  match s.clu.loads.find? (fun l => l.num == num && !l.done && !l.isAtom && !basinKey l.key) with
  | some l => .next (if s.inFlight (.lineData num) then s else s.serveLoad l)
  | none =>
    match s.clu.fetches.find? (fun f => f.num == num) with
    | none => .next s
    | some f =>
      if s.inFlight (.request num) || s.inFlight (.lineData num) then .next s
      else if (s.line f.line).poison || unreachable s.pkg (128 * f.line) || !s.lineThere f.line then
        .next { s with clu := { s.clu with fetches := s.clu.fetches.filter (fun x => x.num != num) } }
      else if s.leaseReady f.cl f.l1 f.line then .next (s.fill f)
      else if !s.holdersLet f.line then .next (s.askHolders (128 * f.line) 128)
      else .next (if farKey (128 * f.line) && (s.line f.line).mine == .i && !(s.line f.line).snoop
        then s.updLine f.line (fun h => { h with mine := .s }) else s)

/-! ## Leases, ownership, eviction, errors -/

/-- R403: a line's latest expiry passes: k rises once for it, unless a write waited on the line. DEDUCED (log entry 112): a wait keeps
the expiry that it waited for from raising k, and no later one. -/
def execLeaseExpiry (line : Nat) (s : State) : Host.Outcome State Fault Refusal :=
  let h := s.line line
  if h.present ∧ h.latest ≠ 0 ∧ h.latest ≤ s.tb ∧ h.latest ≠ h.raised then
    .next (s.updLine line (fun h =>
      { h with k := if h.waited = false ∧ h.k < 4 then h.k + 1 else h.k, waited := false, raised := h.latest }))
  else .next s

/-- Some access needs a word that an L1 owns (R107). -/
def State.wantsWord (s : State) (cl l1 word : Nat) : Bool :=
  let line := word / 32
  let other := fun (c l : Nat) => !(c == cl && l == l1)
  s.clu.loads.any (fun l => !l.done && l.key / 128 == line && other l.cl l.l1)
    || s.clu.stores.any (fun e => e.ph == .drained && e.key / 128 == line && other e.cl e.l1)
    || s.clu.fetches.any (fun f => f.line == line && other f.cl f.l1)
    || s.home.writes.any (fun h => inLines h.key h.bytes.length line) || !s.clu.copies.isEmpty || !s.clu.mx.isEmpty
    || s.sched.queues.any (fun q => !q.running.isEmpty) || !s.home.flips.isEmpty

/-- An atomic of another L1 needs a word that an L1 owns (R403). -/
def State.atomicWants (s : State) (cl l1 word : Nat) : Bool :=
  s.clu.stores.any (fun e => e.isAtomic && e.ph == .drained && e.key / 128 == word / 32 && !(e.cl == cl && e.l1 == l1))

/-- R107: the home takes a word back; its value has been in memory since the atomic; k becomes 0 when an atomic needs it (R403). -/
def execOwnershipRecall (cl l1 word : Nat) (s : State) : Host.Outcome State Fault Refusal :=
  if s.clu.owned.contains (cl, l1, word) && s.wantsWord cl l1 word then
    let s1 := { s with clu := { s.clu with owned := s.clu.owned.filter (fun o => o != (cl, l1, word)) } }
    .next (if s.atomicWants cl l1 word then s1.updLine (word / 32) (fun h => { h with k := 0 }) else s1)
  else .next s

/-- R92, R139: a line leaves the L2, or a line of an unpinned RESIDENT tile is dropped. -/
def execL2Eviction (line : Nat) (s : State) : Host.Outcome State Fault Refusal :=
  let key := 128 * line
  if s.clu.loads.any (fun l => !l.done && l.key / 128 == line) ∨ s.writeWaits line = true then .next s
  else if 2 ^ 32 ≤ keySpace key ∧ keySpace key < 2 ^ 33 then
    let ctx := BitVec.ofNat 32 (keySpace key - 2 ^ 32)
    let va := BitVec.ofNat 64 (keyAddr key)
    match (s.ctx? ctx).bind (·.region? va) with
    | none => .next s
    | some r =>
      let t := s.tile ctx (r.tileBase va)
      let i := (va.toNat - t.base.toNat) / 128
      if t.st = .resident ∧ t.pin = 0 ∧ t.present.contains i = true then
        .next (s.dropTileLine t i)
      else .next s
  else
    let h := s.line line
    if h.present ∧ h.latest ≤ s.tb then .next (s.evictLine h) else .next s

/-- R93: an uncorrectable error poisons the line at its home. -/
def execSoftError (line : Nat) (s : State) : Host.Outcome State Fault Refusal :=
  .next (s.updLine line (fun h => { h with poison := true }))

end Sys2Proof.Machine
end

