-- ==== Sys2Proof/Machine/Recipes.lean ====
section
/-! DEFINITION. Recipe tile instructions and the seal (R138, R141, R145, R303-R307). -/

namespace Sys2Proof.Machine

/-- The tile that A names, or the trap (R90, R303). -/
def State.namedTile (s : State) (w : Who) (va : W64) : Except TrapInfo (Context × Region) :=
  if canonical va = false then .error ⟨tTranslation, va, 0⟩
  else match s.ctx? w.cell.ctx with
  | none => .error ⟨tProtection, va, 0⟩
  | some c =>
    match c.region? va with
    | none => .error ⟨tProtection, va, 0⟩
    | some r => if r.tileBase va = va then .ok (c, r) else .error ⟨tMisaligned, va, BitVec.ofNat 64 r.size⟩

/-- One thread's work on a named tile. -/
def tileLane (a : BitVec 7) (f : Who → Nat → Context → Region → Tile → State → LaneOut × State)
    (w : Who) (tid : Nat) (s : State) : LaneOut × State :=
  let va := w.src tid a 64
  match s.namedTile w va with
  | .error i => (.trap i, s)
  | .ok (c, r) => f w tid c r (s.tile c.tag va) s

def tileDesc (w : Who) (a : BitVec 7) (rel : Bool) : Desc where
  rds := [(a, 64)]
  bad := !w.baseOk a
  settles := rel

/-- A trap of a tile with its record word (R373). -/
def tileTrap (code : BitVec 8) (t : Tile) : LaneOut := .trap ⟨code, t.base, t.word⟩

/-- The tile that a thread's `rseal` names. -/
def State.sealed? (s : State) (w : Who) (a : BitVec 7) (tid : Nat) : Option Tile :=
  match s.namedTile w (w.src tid a 64) with
  | .ok (c, r) => some (s.tile c.tag (r.tileBase (w.src tid a 64)))
  | .error _ => none

/-- The thread's `rseal` waits for nothing more: it does not name a BUILDING tile, or it takes a pending trap. -/
def State.sealOver (s : State) (w : Who) (a : BitVec 7) (tid : Nat) : Bool :=
  (pendingTrap w tid).isSome || ((w.unit.thread tid).stage != 0 && (w.unit.thread tid).answer.isNone)
    || (match s.sealed? w a tid with | some t => t.st != .building | none => true)

/-- The release of a thread that seals begins, and it keeps the tile (R138). -/
def State.startSeal (w : Who) (a : BitVec 7) (s : State) (tid : Nat) : State :=
  if (w.unit.thread tid).stage ≠ 0 ∨ s.sealOver w a tid = true then s
  else
    (s.relStart 2 2 { w with tids := [tid] }).updThread w.cell.uid w.u tid (fun x => { x with answer := some (w.src tid a 64) })

/-- R138, R304: a device-scope release of the thread's stores, then the seal, which is the completion's. While the release runs the
thread waits with the tile in `answer`; the completion clears it. -/
def execRseal (a : BitVec 7) (s : State) : Host.Outcome State Fault Refusal :=
  drive s (fun w => { tileDesc w a true with wait := !w.tids.all (s.sealOver w a) })
    (fun w tid s => tileLane a (fun w tid _ _ t s =>
      let th := w.unit.thread tid
      if th.stage ≠ 0 ∧ th.answer = none then (.done, s)
      else match t.st with
        | .resident => (.done, s)
        | .absent => (tileTrap tRecWrite t, s)
        | .poisoned => (tileTrap tRecFailed t, s)
        | .retired => (tileTrap tRecRetired t, s)
        | .building => (.stall, s)) w tid s)
    (fun w s => w.tids.foldl (State.startSeal w a) s)

/-- A thread of the same bundle before this one has its seal still to make (R281, R303). -/
def State.sealsBefore (s : State) (c : Cell) (unit tid : Nat) : Bool :=
  let us := c.unit unit
  let th := us.thread tid
  (List.range tid).any (fun j =>
    let x := us.thread j
    x.st == .eligible && x.pc == th.pc && x.bun == th.bun && x.stage != 0 && (match x.answer with
      | some b => (s.tile c.ctx b).st == .building
      | none => false))

/-- R138: the sealing release has completed; the tile becomes RESIDENT and its waiters are served. Threads of a bundle seal in ascending
`tid`. -/
def execRsealComplete (cell unit tid : Nat) (s : State) : Host.Outcome State Fault Refusal :=
  match s.cell? cell with
  | none => .next s
  | some c =>
    let th := (c.unit unit).thread tid
    let n := th.stage / 64
    match th.answer, s.ctx? c.ctx with
    | some base, some cx =>
      match cx.region? base with
      | none => .next s
      | some r =>
        if th.st = .eligible ∧ th.stage ≠ 0 ∧ th.ppois = none ∧ th.prw = none ∧ (s.tile cx.tag base).st = .building
            ∧ s.released ⟨c, unit, (c.unit unit).core, tid, 2, 2, n⟩ = true ∧ s.behindMarker cell unit tid n = false
            ∧ s.sealsBefore c unit tid = false then
          .next ((s.sealTile cx r base).updThread cell unit tid (fun x => { x with answer := none }))
        else .next s
    | _, _ => .next s

/-- R145, R305. -/
def execRdropShed (a : BitVec 7) (s : State) : Host.Outcome State Fault Refusal :=
  drive s (fun w => tileDesc w a false) (tileLane a (fun _ _ c r t s =>
    match t.st with
    | .building => (.block 8 t.base, s)
    | .resident => (.done, if t.pin = 0 then s.dropTile t else s)
    | .poisoned | .retired => (.done, s.moveTile c.tag t.base (fun x => { x with st := .absent }))
    | .absent => (.done, s)))

/-- R145, R305. -/
def execRdropRetire (a : BitVec 7) (s : State) : Host.Outcome State Fault Refusal :=
  drive s (fun w => tileDesc w a false) (tileLane a (fun _ _ c _ t s =>
    match t.st with
    | .building => (.block 8 t.base, s)
    | .retired => (.done, s)
    | _ => (.done, (s.dropTile t).moveTile c.tag t.base (fun x => { x with st := .retired, pin := 0 }))))

/-- R141, R306. -/
def execRpin (a : BitVec 7) (s : State) : Host.Outcome State Fault Refusal :=
  drive s (fun w => tileDesc w a false) (tileLane a (fun _ _ c r t s =>
    match t.st with
    | .building => (.block 8 t.base, s)
    | .retired => (tileTrap tRecRetired t, s)
    | _ =>
      if t.pin = 0 ∧ r.cap < s.pinnedBytes c.tag r + r.size then (tileTrap tRecCapacity t, s)
      else (.done, s.moveTile c.tag t.base (fun x => { x with pin := x.pin + 1 }))))

/-- R141, R306. -/
def execRpinUnpin (a : BitVec 7) (s : State) : Host.Outcome State Fault Refusal :=
  drive s (fun w => tileDesc w a false) (tileLane a (fun _ _ c _ t s =>
    match t.st with
    | .building => (.block 8 t.base, s)
    | .retired => (.done, s)
    | _ => (.done, if t.pin = 0 then s else s.moveTile c.tag t.base (fun x => { x with pin := x.pin - 1 }))))

/-- R145, R307: the siphon's copy of the record word, in every state; an acquire. -/
def execRsta (a d : BitVec 7) (s : State) : Host.Outcome State Fault Refusal :=
  drive s (fun w => { rds := [(a, 64)], wr := some (d, 64), bad := !w.baseOk a || !w.dataOk d, settles := true })
    (tileLane a (fun w tid _ _ t s => (.done, w.putData tid d 8 (bytesOfNat 8 t.word.toNat) s)))

end Sys2Proof.Machine
end

