-- ==== Sys2Proof/Machine/Nodes.lean ====
section
/-! DEFINITION. Node bins: emit, tbin, bin timers and remote pulls (R190-R194, R317, R318); and the reading of global bytes
by the launch unit and the engines. -/

namespace Sys2Proof.Machine

/-! ## Global bytes read for an operation of a cell (R174, R177) -/

/-- What a read or write of global bytes meets. -/
inductive Span (α : Type) where
  | ok (a : α)
  | fault (code : BitVec 8) (va : W64)
  /-- waits at this address for a build, a bias flip or an owner. -/
  | wait (va : W64)
  | host (va : W64)
deriving DecidableEq, Repr

/-- What follows a read, when it succeeds. -/
def andThen {α β : Type} (r : Span α × State) (f : α → State → Span β × State) : Span β × State :=
  match r with
  | (.ok a, s) => f a s
  | (.fault c va, s) => (.fault c va, s)
  | (.wait va, s) => (.wait va, s)
  | (.host va, s) => (.host va, s)

/-- Bytes from `va` to the end of its line, at most `n`. -/
def lineRest (va : W64) (n : Nat) : Nat := min n (128 - va.toNat % 128)

/-- Words of a range. -/
def ownedIn (key n : Nat) (o : Nat × Nat × Nat) : Bool := decide (key / 4 ≤ o.2.2) && decide (o.2.2 ≤ (key + (n - 1)) / 4)

/-- Words of a range that an L1 owns go back to their home, for an access of the part itself (R107). -/
def State.recall (s : State) (key n : Nat) : State :=
  { s with clu := { s.clu with owned := s.clu.owned.filter (fun o => !ownedIn key n o) } }

/-- The same for an atomic, which sets k to 0 (R403). -/
def State.recallAtomic (s : State) (key n : Nat) : State :=
  let lines := ((s.clu.owned.filter (ownedIn key n)).map (fun o => o.2.2 / 32)).dedup
  lines.foldl (fun s l => s.updLine l (fun h => { h with k := 0 })) (s.recall key n)

/-- The bytes of one line of global memory as an engine of the cell reads them. -/
def State.readPiece (s : State) (c : Cell) (cx : Context) (va : W64) (n : Nat) : Span (List Byte) × State :=
  let read := fun (s : State) (key : Nat) (kid : BitVec 8) =>
    if unreachable s.pkg key then (Span.fault tPoison va, s)
    else if (s.line (key / 128)).poison then (.fault tPoison (lineVa va), s)
    else if s.flipping key c.dev then (.wait va, s)
    else if (s.line (key / 128)).maybeDirty then (.wait va, s.askHolders key n)
    else
      let s1 := ((s.recall key n).underKey (key / 128) kid).enterL2 (key / 128) c.dev
      (.ok (readBytes s1.home.mem key n), s1)
  match translate s cx c.cl va .load with
  | (.trap code, s1) => (.fault code va, s1)
  | (.host, s1) => (.host va, s1)
  | (.ok key kid _ _, s1) => read s1 key kid
  | (.region key, s1) =>
    match cx.region? va with
    | none => (.fault tTranslation va, s1)
    | some r =>
      match s1.tileRead cx r va c true with
      | (.ok, s2) => read s2 key 0
      | (.trap code, s2) => (.fault code va, s2)
      | (.wait, s2) => (.wait va, s2)

/-- An engine's operation waits for the end of the build at whose tile its read stopped (R137, R138). -/
def State.waitBuild (s : State) (cx : Context) (va : W64) (num : Nat) : State :=
  match cx.region? va with
  | none => s
  | some r =>
    let t := s.tile cx.tag (r.tileBase va)
    if t.st = .building ∧ t.present.contains ((va.toNat - t.base.toNat) / 128) = false ∧ t.waiters.all (fun x => x.2 != num) = true then
      (s.updTile cx.tag t.base (fun x => { x with waiters := x.waiters ++ [(s.fresh, num)] })).tick1
    else s

/-- The build that an operation waits for has not ended. -/
def State.awaitsBuild (s : State) (num : Nat) : Bool := s.home.tiles.any (fun t => t.st == .building && t.waiters.any (fun x => x.2 == num))

/-- The operation waits for no build any more. -/
def State.endWait (s : State) (num : Nat) : State :=
  { s with home := { s.home with tiles := s.home.tiles.map (fun t => { t with waiters := t.waiters.filter (fun x => x.2 != num) }) } }

/-- `n` global bytes, line by line; `fuel` is at least the number of lines. -/
def State.readSpan (s : State) (c : Cell) (cx : Context) (va : W64) (n : Nat) : Nat → Span (List Byte) × State
  | 0 => (.ok [], s)
  | fuel + 1 =>
    if n = 0 then (.ok [], s)
    else
      let k := lineRest va n
      match s.readPiece c cx va k with
      | (.ok bs, s1) =>
        match s1.readSpan c cx (va + BitVec.ofNat 64 k) (n - k) fuel with
        | (.ok r, s2) => (.ok (bs ++ r), s2)
        | (x, s2) => (x, s2)
      | (x, s1) => (x, s1)

/-- The engine's request to the host for a page (R381): no thread stalls. -/
def State.engineStall (s : State) (c : Cell) (va : W64) : State :=
  let size := s.faultSize c.ctx c.cl va
  let page := pageBase va size
  let mine := fun (x : CoreStall) => x.cl == c.cl && x.ctx == c.ctx && x.page == page
  let asked := s.clu.stalls.any (fun x => mine x && x.answer == 0)
  { s with
    clu := { s.clu with stalls := putIn (fun x => mine x && x.core == 101) ⟨c.cl, 101, c.ctx, page, size, 0⟩ s.clu.stalls }
    pkg := { s.pkg with hostReqs := if asked then s.pkg.hostReqs else (c.ctx, page, c.cl) :: s.pkg.hostReqs } }

/-- The engines of a cell's cluster wait for the host's answer about a page. -/
def State.asksHost (s : State) (c : Cell) (va : W64) : Bool :=
  s.clu.stalls.any (fun x => x.cl == c.cl && x.core == 101 && x.ctx == c.ctx && x.holds va && x.answer == 0)

/-- Lines that `n` bytes at an address touch, as fuel. -/
def spanFuel (n : Nat) : Nat := n / 128 + 2

/-! ## Nodes and bins (R190-R194) -/

def State.updNode (s : State) (dev idx : Nat) (f : LNode → LNode) : State :=
  { s with sched := { s.sched with nodes := s.sched.nodes.map (fun n => if n.dev = dev ∧ n.idx = idx then f n else n) } }

def State.node? (s : State) (dev idx : Nat) : Option LNode := s.sched.nodes.find? (fun n => n.dev == dev && n.idx == idx)

/-- Fields of a node handle (R190). -/
def handleIdx (h : W64) : Nat := (h.extractLsb' 0 16).toNat
def handleFab (h : W64) : BitVec 16 := h.extractLsb' 16 16
def handleTag (h : W64) : BitVec 32 := h.extractLsb' 32 32

/-- The node of a handle on a device, when it is registered to the context (R191). -/
def State.ownNode (s : State) (dev : Nat) (ctx : BitVec 32) (h : W64) : Option LNode :=
  if handleTag h ≠ ctx ∨ Config.maxNodes ≤ handleIdx h then none
  else match s.node? dev (handleIdx h) with
    | some n => if n.ctx = ctx then some n else none
    | none => none

/-- The bin with the oldest first record. -/
def oldestBin : List Bin → Option Bin
  | [] => none
  | b :: r => match oldestBin r with
    | some x => if x.since < b.since then some x else some b
    | none => some b

/-- The first `n` spilled records of a key, and the others where they stand. -/
def takeSpill (key : W64) : Nat → List (W64 × Nat × List Byte) → List (List Byte) × List (W64 × Nat × List Byte)
  | _, [] => ([], [])
  | n, x :: r =>
    if x.1 = key ∧ n ≠ 0 then ((takeSpill key (n - 1) r).map (x.2.2 :: ·) id) else ((takeSpill key n r).map id (x :: ·))

/-- When an open key's bin fires, the oldest spilled key opens with its records, C of them at most (R193); a bin so filled
fires in turn. -/
def State.openSpill (s : State) (dev idx : Nat) : Nat → State
  | 0 => s
  | fuel + 1 =>
    match s.node? dev idx with
    | none => s
    | some n =>
      match n.spill with
      | [] => s
      | (key, tb, _) :: _ =>
        if Config.maxKeys ≤ n.bins.length ∨ n.bins.any (fun b => b.key == key) = true then s
        else
          let (recs, rest) := takeSpill key n.c n.spill
          if recs.length = n.c then
            ((s.updNode dev idx (fun n => { n with spill := rest })).fireNode n n.pri recs none).openSpill dev idx fuel
          else s.updNode dev idx (fun n => { n with spill := rest, bins := n.bins ++ [⟨key, tb, recs⟩] })

/-- A bin fires: one cell of the node's kernel (R192). -/
def State.fireBin (s : State) (dev idx : Nat) (key : W64) : State :=
  match s.node? dev idx with
  | none => s
  | some n =>
    match n.bins.find? (fun b => b.key == key) with
    | none => s
    | some b =>
      let s1 := s.updNode dev idx (fun n => { n with bins := n.bins.filter (fun x => x.key != key) })
      (s1.fireNode n n.pri b.recs none).openSpill dev idx (n.spill.length + 1)

/-- The launch unit receives a record (R192, R193). -/
def State.binInsert (s : State) (n : LNode) (rec : List Byte) : State :=
  let key : W64 := if n.keyed then BitVec.ofNat 64 (natOfBytes (rec.take 8)) else 0
  let s1 :=
    if n.bins.any (fun b => b.key == key) then
      s.updNode n.dev n.idx (fun n => { n with bins := n.bins.map (fun b => if b.key = key then { b with recs := b.recs ++ [rec] } else b) })
    else if n.keyed ∧ Config.maxKeys ≤ n.bins.length then
      s.updNode n.dev n.idx (fun n => { n with spill := n.spill ++ [(key, s.tb, rec)] })
    else s.updNode n.dev n.idx (fun n => { n with bins := n.bins ++ [⟨key, s.tb, [rec]⟩] })
  match (s1.node? n.dev n.idx).bind (fun n => n.bins.find? (fun b => b.key == key)) with
  | some b => if n.c ≤ b.recs.length then s1.fireBin n.dev n.idx key else s1
  | none => s1

/-- Records waiting in a node. -/
def LNode.records (n : LNode) : Nat := (n.bins.map (fun b => b.recs.length)).sum + n.spill.length

/-- Records of a device that wait in bins and spill tables, and those of batches not yet placed (R192). -/
def State.spillUsed (s : State) (dev : Nat) : Nat :=
  ((s.sched.nodes.filter (fun n => n.dev == dev)).map LNode.records).sum
    + ((s.sched.launches.filter (fun l => l.next == 0 && l.node.isSome
        && ((s.ctx? l.ctx).map (·.dev)) == some dev)).map (fun l => l.batch.length)).sum

def State.spillFull (s : State) (dev : Nat) : Bool := decide (s.sched.spillRoom ≤ s.spillUsed dev)

/-! ## emit (R191, R317) -/

/-- A field that may name a uniform operand (R310). -/
def Who.uniform (w : Who) (f : BitVec 7) : Bool :=
  match w.op f with
  | .x _ | .k _ | .cis _ | .zero | .spec _ => true
  | .v _ | .tid | .ones => false

/-- Forms of `emit`. -/
inductive EmitForm where
  | plain | keyed | remote
deriving DecidableEq, Repr

/-- Where an emit goes: a node of this device, or another device. -/
inductive EmitTo where
  | here (n : LNode)
  | there
deriving DecidableEq, Repr

/-- The EMIT cases (R191); none when it traps. -/
def State.emitTo (s : State) (dev : Nat) (ctx : BitVec 32) (h : W64) (f : EmitForm) : Option EmitTo :=
  if handleFab h = fabidOf s.pkg dev then
    match s.ownNode dev ctx h with
    | none => none
    | some n =>
      if (f = .plain ∧ n.keyed = true) ∨ (f = .keyed ∧ n.keyed = false) then none else some (.here n)
  else if f ≠ .remote ∨ handleTag h ≠ ctx ∨ Config.maxNodes ≤ handleIdx h then none
  else match devOfFabid s.pkg (handleFab h) with
    | some d => (s.ownNode d ctx h).map (fun _ => .there)
    | none => if reachable s.pkg (handleFab h) then some .there else none

/-- The trap of an emit's record read. -/
def readTrap (code : BitVec 8) (va pc : W64) (s : State) (ctx : BitVec 32) : TrapInfo :=
  if code = tPoison then ⟨code, va, pc⟩
  else if code = tTranslation ∨ code = tProtection then ⟨code, va, 0⟩
  else ⟨code, va, match (s.ctx? ctx).bind (·.region? va) with
    | some r => (s.tile ctx (r.tileBase va)).word
    | none => 0⟩

/-- The record of an emit to a node of this device: read, kept while the spill area has no room, then binned (R192, R317). -/
def emitHere (w : Who) (tid : Nat) (n : LNode) (h va : W64) (s : State) : LaneOut × State :=
  let kept := (w.unit.thread tid).kept
  if kept ≠ [] then (if s.spillFull n.dev then (.block 12 h, s) else (.done, s.binInsert n kept))
  else match s.ctx? w.cell.ctx with
  | none => (.trap ⟨tEmit, h, 0⟩, s)
  | some cx =>
    match s.readSpan w.cell cx va n.z (spanFuel n.z) with
    | (.fault code a, s1) => (.trap (readTrap code a w.pc s1 w.cell.ctx), s1)
    | (.host a, s1) => (.block 16 a, s1.hostStall w.cell w.u w.unit w.tids a 0)
    | (.wait _, s1) => if (cx.region? va).isSome then (.block 8 va, s1) else (.stall, s1)
    | (.ok rec, s1) =>
      if s1.spillFull n.dev then (.block 12 h, s1.updThread w.cell.uid w.u tid (fun t => { t with kept := rec })) else (.done, s1.binInsert n rec)

/-- The shared work of the three forms (R317): the handle, the alignment, the release, then the record. -/
def emitOp (f : EmitForm) (b a : BitVec 7) (s : State) : Host.Outcome State Fault Refusal :=
  let scope : BitVec 3 := if f = .remote then 3 else 2
  let sent := fun (w : Who) => (s.emitTo w.cell.dev w.cell.ctx (w.src w.lead a 64) f).isSome && (w.src w.lead b 64).toNat % 8 == 0
  drive s (fun w => { rds := [(a, 64), (b, 64)], once := true, settles := true, bad := !w.uniform a || !w.uniform b
                      wait := (!w.wake || w.woke 2) && sent w && !s.relsDone w scope 2 })
    (fun w tid s =>
      let h := w.src tid a 64
      let va := w.src tid b 64
      match s.emitTo w.cell.dev w.cell.ctx h f with
      | none => (.trap ⟨tEmit, h, 0⟩, s)
      | some tgt =>
        if va.toNat % 8 ≠ 0 then (.trap ⟨tMisaligned, va, 8⟩, s)
        else match tgt with
          | .here n => emitHere w tid n h va s
          | .there =>
            let r : RemoteEmit := ⟨s.fresh, w.cell.uid, w.u, w.tids, w.cell.ctx, h, va⟩
            let s1 : State := { s with fresh := s.fresh + 1, sched := { s.sched with remotes := s.sched.remotes ++ [r] } }
            -- its index goes to a device of another package on the narrow plane, in the class without address (R412, R413)
            (.block 13 h, if (devOfFabid s.pkg (handleFab h)).isSome then s1
              else s1.sendFlits w.cell.cl (handleFab h) 16 false none (.remoteEmit s.fresh)))
    (fun w s => if sent w then s.relStart scope 2 w else s)

/-- R191, R192, R317. -/
def execEmitPlain (b a : BitVec 7) (s : State) : Host.Outcome State Fault Refusal := emitOp .plain b a s
/-- R191, R193, R317. -/
def execEmitKeyed (b a : BitVec 7) (s : State) : Host.Outcome State Fault Refusal := emitOp .keyed b a s
/-- R191, R317. -/
def execEmitRemote (b a : BitVec 7) (s : State) : Host.Outcome State Fault Refusal := emitOp .remote b a s

/-- The remote emit that a blocked thread waits for is not over (R191). -/
def State.remotePending (s : State) (cell u tid : Nat) : Bool :=
  s.sched.remotes.any (fun r => r.cell == cell && r.unit == u && r.tids.contains tid)

/-- Bytes of a record that the target's launch unit pulls. DESIGN CHOICE (log entry 61): a node of another package is not in the state,
and its record counts 8 bytes, the least that R190 admits. -/
def State.pullSize (s : State) (r : RemoteEmit) : Nat :=
  (((devOfFabid s.pkg (handleFab r.handle)).bind (fun d => s.ownNode d r.src r.handle)).map (·.z)).getD 8

/-- The record as another device's launch unit reads it (R191): an address of a recipe region, which is local to its device, faults
with PROTECTION (R135). -/
def State.pullRecord (s : State) (c : Cell) (cx : Context) (va : W64) (z : Nat) : Span (List Byte) × State :=
  let n := ((List.range z).find? (fun i => (cx.region? (va + BitVec.ofNat 64 i)).isSome)).getD z
  match s.readSpan c cx va n (spanFuel n) with
  | (.ok bs, s1) => (if n < z then .fault tProtection (va + BitVec.ofNat 64 n) else .ok bs, s1)
  | x => x

/-- The threads that wait for a remote emit trap: its record cannot be read (R191). -/
def State.remoteFault (s : State) (c : Cell) (r : RemoteEmit) (i : W64 → TrapInfo) : State :=
  let s0 := { s with sched := { s.sched with remotes := s.sched.remotes.filter (fun x => x.id != r.id) } }
  let wait := r.tids.filter (fun t => ((c.unit r.unit).thread t).st == .blocked && ((c.unit r.unit).thread t).wkind == 13)
  let pc := ((c.unit r.unit).thread (wait.headD 0)).pc
  if wait.isEmpty then s0 else s0.park r.cell r.unit wait (i pc) pc

/-- R191: the target's launch unit pulls the record: a fault traps the emitting threads; otherwise the emit is complete, and a
node on another device of the package bins the record. -/
def execRemoteEmitPull (num : Nat) (s : State) : Host.Outcome State Fault Refusal :=
  match s.sched.remotes.find? (fun r => r.id == num) with
  | none => .next s
  | some r =>
    match s.cell? r.cell, s.ctx? r.src with
    | some c, some cx =>
      let t := devOfFabid s.pkg (handleFab r.handle)
      let node := t.bind (fun d => s.ownNode d r.src r.handle)
      if s.inFlight (.remoteEmit num) || (node.map (fun n => s.spillFull n.dev)).getD false || s.asksHost c r.va then .next s
      else match s.pullRecord c cx r.va (s.pullSize r) with
        | (.wait _, s1) => .next s1
        | (.host a, s1) => .next (if s1.asksHost c a then s1 else s1.engineStall c a)
        | (.fault code a, s1) =>
          .next (if c.evicted || c.evicting then s else s.remoteFault c r (fun pc => readTrap code a pc s1 r.src))
        | (.ok rec, s1) =>
          let s2 := { s1 with sched := { s1.sched with remotes := s1.sched.remotes.filter (fun x => x.id != num) } }
          match node with
          | some n => .next (s2.binInsert n rec)
          | none => .next s2
    | _, _ => .next { s with sched := { s.sched with remotes := s.sched.remotes.filter (fun x => x.id != num) } }

/-! ## tbin (R318) -/

def tbinOp (a : BitVec 7) (d : Option (BitVec 7)) (f : Who → LNode → State → State) (s : State) :
    Host.Outcome State Fault Refusal :=
  drive s (fun w => { rds := [(a, 64)], wr := d.map (fun d => (d, w.dstWidth d)), once := true, bad := !w.uniform a })
    (fun w tid s =>
      let h := w.src tid a 64
      match (if handleFab h = fabidOf s.pkg w.cell.dev then s.ownNode w.cell.dev w.cell.ctx h else none) with
      | none => (.trap ⟨tEmit, h, 0⟩, s)
      | some n => (.done, f w n s))

/-- Bins that a flush fires, oldest first record first. -/
def flushOrder : Nat → List Bin → List W64
  | 0, _ => []
  | k + 1, bs => match oldestBin bs with
    | none => []
    | some b => b.key :: flushOrder k (bs.filter (fun x => x.key != b.key))

/-- R192, R318. -/
def execTbinFlush (a : BitVec 7) (s : State) : Host.Outcome State Fault Refusal :=
  tbinOp a none (fun _ n s => (flushOrder n.bins.length n.bins).foldl (fun s k => s.fireBin n.dev n.idx k) s) s

/-- R192, R318. -/
def execTbinQuery (a d : BitVec 7) (s : State) : Host.Outcome State Fault Refusal :=
  tbinOp a (some d) (fun w n s => w.putStatus d (BitVec.ofNat 64 n.records) s) s

/-- R192: T has passed since the bin's first record. -/
def execBinTimerExpiry (dev node : Nat) (key : BitVec 64) (s : State) : Host.Outcome State Fault Refusal :=
  match s.node? dev node with
  | none => .next s
  | some n =>
    if n.t ≠ 0 ∧ n.bins.any (fun b => b.key == key && decide (b.since + n.t ≤ s.tb)) = true then .next (s.fireBin dev node key)
    else .next s

end Sys2Proof.Machine
end

