-- ==== Sys2Proof/Machine/Rings.lean ====
section
/-! DEFINITION. Ring objects and the instructions on them (R178-R181, R312-R314). -/

namespace Sys2Proof.Machine

/-- Blocked waiters on a ring (R181). -/
def Cell.ringWaiters (c : Cell) (h : Nat) : List (Nat × Nat) := c.blockedOn [6, 7] (BitVec.ofNat 64 h)

/-- WAITERS shows the waiters there are now. -/
def State.countWaiters (s : State) (cell h : Nat) : State :=
  match s.cell? cell with
  | none => s
  | some c =>
    match s.ring? c h with
    | none => s
    | some r => s.putRing c h { r with waiters := (c.ringWaiters h).length }

/-- MISALIGNED and BASIN_RANGE of a handle (R179, R312). -/
def handleTrap (c : Cell) (a : W64) : Option TrapInfo :=
  let h := a.toNat % 2 ^ 32
  if h % 16 ≠ 0 then some ⟨tMisaligned, BitVec.ofNat 64 h, 16⟩
  else if outOfBasin c h 16 then some ⟨tBasin, BitVec.ofNat 64 h, 16⟩
  else none

def ringState (h : Nat) : TrapInfo := ⟨tRing, BitVec.ofNat 64 h, 0⟩

/-- An engine operation of the cell holds an unpublished claim on the ring (R180). -/
def State.engineClaims (s : State) (cell h : Nat) : Bool :=
  s.clu.copies.any (fun o => o.cell == cell && o.claim.isSome && ((o.p.getD 3 0).toNat % 2 ^ 32 == h))
    || s.clu.mx.any (fun e => e.cell == cell && e.claim.isSome && ((e.p.getD 2 0).toNat / 2 ^ 32 == h))

/-- The bundle's own accesses to the object granule are not over: its ring instruction waits for them, as what an instruction does to a
ring is in place before the next one of its thread (R149, R201). DEDUCED (log entry 102). -/
def State.ringBehind (s : State) (w : Who) (a : BitVec 7) : Bool :=
  w.tids.any (fun t => s.basinBehind w t ((w.src w.lead a 32)) 16)

/-- Moves of a ring's counters that are still held go with the old ring. -/
def State.dropMoves (s : State) (cell h : Nat) : State :=
  { s with clu := { s.clu with stores := s.clu.stores.filter (fun e => match e.kind with
    | .ring _ => !(e.cell == cell && e.va.toNat == h)
    | _ => true) } }

/-- R180, R312. -/
def execRginit (b a : BitVec 7) (s : State) : Host.Outcome State Fault Refusal :=
  drive s (fun w => { rds := [(a, 64), (b, 64)], once := true, wait := s.ringBehind w a }) (fun w tid s =>
    let x := w.src tid a 64
    let cfg := (w.src tid b 64).toNat
    let h := x.toNat % 2 ^ 32
    match handleTrap w.cell x with
    | some i => (.trap i, s)
    | none =>
      let r := ringOf cfg
      let overlap := decide (r.base < h + 16) && decide (h < r.base + r.count * r.slot)
      if x.toNat / 2 ^ 32 ≠ 0 ∨ bitsOf cfg 63 58 ≠ 0 ∨ r.cfgOk w.cell = false ∨ overlap = true
          ∨ w.cell.ringWaiters h ≠ [] ∨ s.engineClaims w.cell.uid h = true then (.trap (ringState h), s)
      else (.done, (s.dropMoves w.cell.uid h).putRing w.cell h { r with w := 0, cl := 0, rd := 0, rl := 0, flt := false, waiters := 0 }))

/-- The shared frame of the ring instructions (R179, R313): checks of the handle and the object, then `body`. -/
def ringOp (a : BitVec 7) (d : Option (BitVec 7)) (crewProd : Bool)
    (body : Who → Nat → Ring → State → LaneOut × State) (s : State) : Host.Outcome State Fault Refusal :=
  drive s (fun w => { rds := [(a, 64)], wr := d.map (fun d => (d, w.dstWidth d)), once := true, settles := true
                      wait := s.ringBehind w a })
    (fun w tid s =>
      let x := w.src tid a 64
      let h := x.toNat % 2 ^ 32
      match handleTrap w.cell x with
      | some i => (.trap i, s)
      | none =>
        match s.ring? w.cell h with
        | none => (.trap (ringState h), s)
        | some r =>
          if x.toNat / 2 ^ 32 ≠ 0 ∨ (crewProd = true ∧ r.prod ≠ 0) ∨ r.flt = true then (.trap (ringState h), s)
          else body w h r s)

/-- `rgwait` and `rgadv.claim`: block while there is nothing to take or earlier waiters are unserved (R181), else take. -/
def ringTake (kind : Nat) (d : BitVec 7) (none : Ring → Bool) (cur : Ring → Nat) (take : Ring → Ring)
    (w : Who) (h : Nat) (r : Ring) (s : State) : LaneOut × State :=
  let obj := BitVec.ofNat 64 h
  let n := (w.cell.ringWaiters h).length
  let mine := w.woke kind
  if none r = true ∨ (mine = false ∧ w.cell.blockedOn [kind] obj ≠ []) then
    (.block kind obj, s.putRing w.cell h { r with waiters := if mine then n else n + 1 })
  else (.done, w.putStatus d (r.shown (cur r)) (s.putRing w.cell h { take r with waiters := if mine then n - 1 else n }))

/-- Moves of a ring's counters that are still held behind their releases, in order. -/
def State.ringMoves (s : State) (cell h : Nat) : List Bool :=
  s.clu.stores.filterMap (fun e => match e.kind with
    | .ring pub => if e.cell = cell ∧ e.va.toNat = h then some pub else none
    | _ => none)

/-- `rgrel` and `rgadv.pub`: a cell-scope release; the counter moves once it is complete, and the thread waits for nothing (R326). -/
def ringGive (pub : Bool) (w : Who) (h : Nat) (r : Ring) (s : State) : LaneOut × State :=
  let r1 := (s.ringMoves w.cell.uid h).foldl (fun r p => (r.give p).getD r) r
  if (r1.give pub).isNone then (.trap (ringState h), s)
  else
    let s1 := w.tids.foldl (fun s t => s.beginRelease w t 1 3) s
    let ea := BitVec.ofNat 64 h
    let scal := w.u != 0
    let none16 : List Byte := List.replicate 16 0
    if s1.basinWaits w w.lead scal (.ring pub) ea none16 then
      (.done, s1.putStore w w.lead scal (.ring pub) ea (basinAddr w.cell h) none16)
    else (.done, s1.ringGive w.cell h pub)

/-- R180, R313. -/
def execRgwait (a d : BitVec 7) (s : State) : Host.Outcome State Fault Refusal :=
  ringOp a (some d) false (ringTake 6 d (fun r => r.rd == r.w) (fun r => r.rd) (fun r => { r with rd := r.adv r.rd })) s

/-- R180, R313. -/
def execRgrel (a : BitVec 7) (s : State) : Host.Outcome State Fault Refusal :=
  ringOp a none false (ringGive false) s

/-- R180, R313. -/
def execRgadvClaim (a d : BitVec 7) (s : State) : Host.Outcome State Fault Refusal :=
  ringOp a (some d) true (ringTake 7 d Ring.full (fun r => r.cl) (fun r => { r with cl := r.adv r.cl })) s

/-- R180, R313. -/
def execRgadvPub (a : BitVec 7) (s : State) : Host.Outcome State Fault Refusal :=
  ringOp a none true (ringGive true) s

/-- A waiter of kind 6 or 7 may go on. -/
def State.ringWakes (s : State) (c : Cell) (kind h : Nat) : Bool :=
  match s.ring? c h with
  | none => false
  | some r => !r.flt && (if kind = 6 then r.rd != r.w else !r.full)

/-- R180: threads blocked on a ring trap in the clk after FLT is set, one record for each bundle and instruction. -/
def execRingFltTrap (cell : Nat) (ring : BitVec 32) (s : State) : Host.Outcome State Fault Refusal :=
  match s.cell? cell with
  | none => .next s
  | some c =>
    match s.ring? c ring.toNat with
    | none => .next s
    | some r =>
      if r.flt = false ∨ c.evicted = true ∨ c.evicting = true then .next s
      else
        let s1 := (c.ringWaiters ring.toNat).foldl (fun s g =>
          let u := c.unit g.1
          let tids := (List.range u.threads.length).filter (fun t =>
            (u.thread t).st == .blocked && ((u.thread t).wkind == 6 || (u.thread t).wkind == 7)
              && (u.thread t).wobj == ring.setWidth 64 && (u.thread t).wseq == g.2)
          s.park cell g.1 tids (ringState ring.toNat) (u.thread (tids.headD 0)).pc) s
        .next (s1.countWaiters cell ring.toNat)

/-! ## Engine claims and publishes (R180) -/

/-- What an engine claim meets. -/
inductive Claimed where
  | took (ctr base : Nat) (s : State)
  | full
  | bad

def State.engineClaim (s : State) (c : Cell) (h prod : Nat) : Claimed :=
  match s.ring? c h with
  | none => .bad
  | some r =>
    if r.prod ≠ prod then .bad
    else if r.full then .full
    else .took r.cl (r.slotAt r.cl) (s.putRing c h { r with cl := r.adv r.cl })

/-- The oldest claim is published. -/
def State.enginePublish (s : State) (c : Cell) (h : Nat) : State :=
  match s.ring? c h with
  | none => s
  | some r => if r.w = r.cl then s else s.putRing c h { r with w := r.adv r.w }

/-- A claim is voided: FLT is set (R174, R180). -/
def State.engineVoid (s : State) (c : Cell) (h : Nat) : State :=
  match s.ring? c h with
  | none => s
  | some r => s.putRing c h { r with flt := true }

end Sys2Proof.Machine
end

