-- ==== Sys2Proof/Machine/Copy.lean ====
section
/-! DEFINITION. The copy engine (R171-R177, R309-R311): cpy, ring claims, pieces and completions. -/

namespace Sys2Proof.Machine

/-! ## Parameter block (R171) -/

def CopyOp.w (o : CopyOp) (i : Nat) : Nat := (o.p.getD i 0).toNat
/-- 0 plain, 1 multicast, 2 sliced. -/
def CopyOp.kind (o : CopyOp) : Nat := o.f.toNat % 4
/-- 0 none, 1 full, 2 ring, 3 emit. -/
def CopyOp.comp (o : CopyOp) : Nat := o.f.toNat / 4
def CopyOp.gva (o : CopyOp) : Nat := o.w 0
def CopyOp.rows (o : CopyOp) : Nat := bitsOf (o.w 1) 63 48
def CopyOp.rbytes (o : CopyOp) : Nat := bitsOf (o.w 1) 47 32
def CopyOp.baddr (o : CopyOp) : Nat := bitsOf (o.w 1) 31 0
def CopyOp.dir (o : CopyOp) : Nat := bitsOf (o.w 2) 49 48
def CopyOp.bstride (o : CopyOp) : Nat := bitsOf (o.w 2) 47 32
def CopyOp.gstrideU (o : CopyOp) : Nat := bitsOf (o.w 2) 31 0
def CopyOp.gstride (o : CopyOp) : Int := (BitVec.ofNat 32 o.gstrideU).toInt
def CopyOp.aux (o : CopyOp) : Nat := o.w 3
def CopyOp.handle (o : CopyOp) : Nat := o.aux % 2 ^ 32
def CopyOp.big (o : CopyOp) : Bool := decide (Config.drawCopyBytes ≤ o.rows * o.rbytes)

/-- BSTRIDE as the slot check counts it (R172). -/
def CopyOp.pitch (o : CopyOp) : Nat := if o.rows = 1 then o.rbytes else o.bstride

/-- Legal combinations of kind, direction and completion (R172). -/
def CopyOp.legal (o : CopyOp) : Bool :=
  match o.kind, o.dir with
  | 0, 0 => true
  | 0, 1 => o.comp != 2
  | 1, 0 | 1, 2 | 2, 0 => decide (o.comp ≤ 1)
  | _, _ => false

/-- The COPY_PARAM cases that need no object (R171, R172). -/
def CopyOp.badParam (o : CopyOp) (c : Cell) : Bool :=
  let gang := c.hdr.gang
  let ring := o.comp == 2
  let last := o.rows - 1
  let aux := if o.kind = 1 then decide (o.aux = 0) || decide (2 ^ gang ≤ o.aux)
    else if o.kind = 2 then decide (gang ≤ o.aux)
    else if ring then decide (2 ^ 32 ≤ o.aux)
    else if o.comp = 1 ∧ o.dir = 1 then decide (2 ^ 32 ≤ o.aux) || o.aux % 16 != 0 || outOfBasin c o.aux 16
    else o.comp != 3 && o.aux != 0
  !o.legal || bitsOf (o.w 2) 63 50 != 0 || o.rows == 0 || o.rbytes % 16 != 0 || decide (o.rbytes < 16)
    || o.bstride % 16 != 0 || o.gstrideU % 16 != 0 || o.gva % 16 != 0 || (o.dir == 2 && decide (2 ^ 32 ≤ o.gva))
    || (!ring && o.baddr % 16 != 0) || aux || (o.kind != 0 && gang == 0)
    || (decide (1 < o.rows) && (decide (o.bstride < o.rbytes) || (o.dir == 2 && decide (o.gstrideU < o.rbytes))
        || (o.dir == 1 && decide (o.gstride.natAbs < o.rbytes))))
    || (!ring && outOfBasin c o.baddr (last * o.bstride + o.rbytes))
    || (o.dir == 2 && outOfBasin c o.gva (last * o.gstrideU + o.rbytes))

/-- CheckCopy (R311): the trap, if any. -/
def State.checkCopy (s : State) (c : Cell) (o : CopyOp) : Option TrapInfo :=
  let param := TrapInfo.simple tCopy
  if o.badParam c then some param
  else if o.comp = 2 then
    match s.ring? c o.handle with
    | none => some (ringState o.handle)
    | some r => if r.prod ≠ 1 then some (ringState o.handle)
      else if r.slot < o.rows * o.pitch then some param else none
  else if o.comp = 3 then
    match s.emitTo c.dev c.ctx (o.p.getD 3 0) .plain with
    | some (.here n) => if n.z < 16 then some param else none
    | _ => some ⟨tEmit, o.p.getD 3 0, 0⟩
  else none

/-- Copies that hold a place in a cluster's engine (R176). -/
def State.copiesHeld (s : State) (cl : Nat) : Nat :=
  (s.clu.copies.filter (fun o => o.cl == cl && !o.voided && !o.stopped)).length

/-- A field that may start a parameter block (R309). -/
def Who.blockOk (w : Who) (a : BitVec 7) : Bool :=
  if w.spine then decide (a.toNat ≤ 60) else decide (88 ≤ a.toNat) && decide (a.toNat ≤ 108)

/-- The four registers of a parameter block. -/
def Who.block (w : Who) (tid : Nat) (a : BitVec 7) : List W64 :=
  [w.src tid a 64, w.src tid (a + 1) 64, w.src tid (a + 2) 64, w.src tid (a + 3) 64]

def blockDesc (w : Who) (a : BitVec 7) (r : RoleReq) : Desc where
  role := r
  rds := if w.blockOk a then [(a, 64), (a + 1, 64), (a + 2, 64), (a + 3, 64)] else []
  once := true
  bad := !w.blockOk a

/-- Ask the die's sluice for a grant (R195). -/
def State.askGrant (s : State) (die kind cell num : Nat) (pri : BitVec 3) : State :=
  if s.clu.draws.any (fun d => d.kind == kind && d.cell == cell && d.num == num) then s
  else { s with fresh := s.fresh + 1, clu := { s.clu with draws := s.clu.draws ++ [⟨die, kind, cell, num, pri, s.fresh, s.tb⟩] } }

/-- R176, R311. -/
def execCpy (c k : BitVec 2) (a : BitVec 7) (s : State) : Host.Outcome State Fault Refusal :=
  let op := fun (w : Who) (tid n : Nat) => (⟨n, w.cell.uid, w.u, tid, w.cell.cl, c ++ k, w.block tid a, n, 0, none, false, false, false⟩ : CopyOp)
  drive s (fun w => { blockDesc w a .copy with
                      bad := !w.blockOk a || k == 3
                      hold := decide (Config.copyPlaces ≤ s.copiesHeld w.cell.cl) && (s.checkCopy w.cell (op w w.lead 0)).isNone })
    (fun w tid s =>
      let o := op w tid s.fresh
      match s.checkCopy w.cell o with
      | some i => (.trap i, s)
      | none =>
        let s1 := s.shutStores w.cell.uid w.u tid
        let s1 := { s1 with fresh := s.fresh + 1, clu := { s1.clu with copies := s1.clu.copies ++ [o] } }
        (.done, if o.big then s1.askGrant (w.cell.cl / 13) 1 w.cell.uid o.num w.cell.pri else s1))

/-! ## Progress -/

def State.updCopy (s : State) (num : Nat) (f : CopyOp → CopyOp) : State :=
  { s with clu := { s.clu with copies := s.clu.copies.map (fun o => if o.num = num then f o else o) } }

def State.dropCopy (s : State) (num : Nat) : State :=
  let s1 := s.dropDraws (fun d => d.kind == 1 && d.num == num)
  { s1 with clu := { s1.clu with copies := s1.clu.copies.filter (fun o => o.num != num) } }

def State.copy? (s : State) (num : Nat) : Option CopyOp := s.clu.copies.find? (fun o => o.num == num)

/-- First row and number of rows of an operation (R173). -/
def CopyOp.span (o : CopyOp) (c : Cell) : Nat × Nat :=
  if o.kind = 2 then
    let n := max c.hdr.gang 1
    let i := o.aux * o.rows / n
    (i, (o.aux + 1) * o.rows / n - i)
  else (0, o.rows)

/-- Bytes that the operation moves. -/
def CopyOp.total (o : CopyOp) (c : Cell) : Nat := (o.span c).2 * o.rbytes

/-- Row and offset of the next byte. -/
def CopyOp.next (o : CopyOp) (c : Cell) : Nat × Nat := ((o.span c).1 + o.bytes / max o.rbytes 1, o.bytes % max o.rbytes 1)

/-- Basin address of a row (R173): in the claimed slot with ring completion. -/
def CopyOp.rowAt (o : CopyOp) (i : Nat) : Nat :=
  (match o.claim with
    | some (_, b) => if o.comp = 2 then b else o.baddr
    | none => o.baddr) + i * o.bstride

/-- Global VA of a row. -/
def CopyOp.rowVa (o : CopyOp) (i : Nat) : W64 := BitVec.ofInt 64 ((o.gva : Int) + i * o.gstride)

/-- The next piece's global VA. -/
def CopyOp.nextVa (o : CopyOp) (c : Cell) : W64 := o.rowVa (o.next c).1 + BitVec.ofNat 64 (o.next c).2

/-- Cells whose basins receive the bytes (R173). -/
def State.copyDests (s : State) (o : CopyOp) (c : Cell) : List Cell :=
  if o.kind = 0 then [c]
  else s.cells.filter (fun x => (x.uid == c.uid || c.peers.contains x.uid) && !x.evicted
    && (o.kind == 2 || (BitVec.ofNat 64 o.aux).getLsbD x.rank))

/-- The fault report's parameter block: with a voided claim, its counter in [40:32] of p3 (R375). -/
def CopyOp.reportBlock (o : CopyOp) : List W64 :=
  match o.claim with
  | some (k, _) => o.p.take 3 ++ [BitVec.ofNat 64 (o.handle + k * 2 ^ 32)]
  | none => o.p

/-- A copy ends with a fault report (R174); a held claim is voided and stays to be published in order (R180). -/
def State.copyFault (s : State) (c : Cell) (o : CopyOp) (code : BitVec 8) (va : W64) : State :=
  let s1 := s.engineFault c o.unit code o.bytes va o.reportBlock
  if o.claim.isSome then
    ((s1.dropDraws (fun d => d.kind == 1 && d.num == o.num)).updCopy o.num
      (fun x => { x with voided := true, granted := false })).engineVoid c o.handle
  else s1.dropCopy o.num

/-- The operation's cell is on its cluster. -/
def State.copyCell (s : State) (o : CopyOp) : Option Cell :=
  (s.cell? o.cell).bind (fun c => if c.evicted || o.stopped then none else some c)

/-- R176, R180: claims on one ring are made in order of acceptance. -/
def execCopyRingClaim (num : Nat) (s : State) : Host.Outcome State Fault Refusal :=
  match s.copy? num with
  | none => .next s
  | some o =>
    match s.copyCell o with
    | none => .next s
    | some c =>
      let first := s.clu.copies.all (fun x => !(x.cell == o.cell && x.comp == 2 && x.handle == o.handle && x.claim.isNone
        && decide (x.num < o.num)))
      if o.comp ≠ 2 ∨ o.claim.isSome = true ∨ first = false then .next s
      else match s.engineClaim c o.handle 1 with
        | .full => .next s
        | .bad => .next (s.copyFault c o tRing (BitVec.ofNat 64 o.handle))
        | .took k b s1 => .next (s1.updCopy num (fun x => { x with claim := some (k, b) }))

/-- Everything that comes before the operation's first piece is over (R163, R176). -/
def State.copyReady (s : State) (c : Cell) (o : CopyOp) : Bool :=
  !o.voided && decide (o.bytes < o.total c) && !s.awaitsBuild o.num && (!o.big || o.granted) && (o.comp != 2 || o.claim.isSome)
    && s.released ⟨c, o.unit, (c.unit o.unit).core, o.tid, 2, 3, o.seq⟩ && !s.behindMarker c.uid o.unit o.tid o.seq
    && (o.dir == 2 || !s.asksHost c (o.nextVa c))

/-- Bytes of the piece that starts at a VA (R174): to the end of the row, the page or the tile. -/
def State.pieceLen (s : State) (c : Cell) (cx : Context) (va : W64) (acc : Access) (n : Nat) : Nat :=
  match cx.region? va with
  | some r => min n (r.size - (va.toNat - r.base.toNat) % r.size)
  | none => match translate s cx c.cl va acc with
    | (.ok _ _ page _, _) => min n (page - va.toNat % page)
    | _ => n

/-- The lines of a write piece with their keys, or what the first refused one meets. -/
def State.writeSpan (s : State) (c : Cell) (cx : Context) (va : W64) (n : Nat) :
    Nat → Span (List (Nat × BitVec 8 × Nat)) × State
  | 0 => (.ok [], s)
  | fuel + 1 =>
    if n = 0 then (.ok [], s)
    else
      let k := lineRest va n
      let line := fun (s : State) (key : Nat) (kid : BitVec 8) =>
        if unreachable s.pkg key then (Span.fault tPoison va, s)
        else if (s.line (key / 128)).poison then (.fault tPoison (lineVa va), s)
        else match s.writeSpan c cx (va + BitVec.ofNat 64 k) (n - k) fuel with
          | (.ok r, s2) => (.ok ((key, kid, k) :: r), s2)
          | (x, s2) => (x, s2)
      match translate s cx c.cl va .store with
      | (.trap code, s1) => (.fault code va, s1)
      | (.host, s1) => (.host va, s1)
      | (.ok key kid _ _, s1) => line s1 key kid
      | (.region key, s1) =>
        match cx.region? va with
        | none => (.fault tTranslation va, s1)
        | some r => match s1.tileWrite cx r va c.uid with
          | (.ok, s2) => line s2 key 0
          | (.trap code, s2) => (.fault code va, s2)
          | (.wait, s2) => (.wait va, s2)

/-- Every line of a write piece of operation `num` may be written now. -/
def State.spanReady (s : State) (num dev : Nat) (ls : List (Nat × BitVec 8 × Nat)) : Bool :=
  ls.all (fun l => s.partReady num dev l.1 l.2.2)

/-- Write the bytes of a piece line by line (R105, R120: one write of each granule). -/
def State.performSpan (s : State) (dev : Nat) : List (Nat × BitVec 8 × Nat) → List Byte → State
  | [], _ => s
  | (key, kid, n) :: r, bs => (s.perform dev key kid (bs.take n)).performSpan dev r (bs.drop n)

/-- Write bytes to the destinations' basins, whole granules (R99, R173). -/
def State.deliver (s : State) (ds : List Cell) (a : Nat) (bs : List Byte) : State :=
  ds.foldl (fun s d => s.engineWrite d a bs) s

/-- Bytes that a cluster's copy engine may still move in this clk (R176): a multicast counts each source byte once. -/
def State.copyRoom (s : State) (cl : Nat) : Nat := Config.copyRate - (s.clu.moved.lookup cl).getD 0

/-- The engine has moved so many bytes in this clk. -/
def State.countMoved (s : State) (cl n : Nat) : State :=
  { s with clu := { s.clu with moved := putIn (fun x => x.1 == cl) (cl, (s.clu.moved.lookup cl).getD 0 + n) s.clu.moved } }

/-- The next bytes of a copy that is ready, as many as its engine may move in this clk (R174, R176). What is left of the piece is looked
at first, and the bytes move only where none of it faults. DESIGN CHOICE (log entry 113): a fault that comes up in a piece some of whose
bytes have moved leaves those bytes moved. -/
def State.piece (s : State) (c : Cell) (cx : Context) (o : CopyOp) : State :=
  let (i, off) := o.next c
  let left := o.rbytes - off
  let room := s.copyRoom c.cl
  let done := fun (s : State) (n : Nat) => (s.updCopy o.num (fun x => { x with bytes := x.bytes + n })).countMoved c.cl n
  if room = 0 then s else
  match o.dir with
  | 2 =>
    let n := min left room
    done (s.deliver (s.copyDests o c) (o.rowAt i + off) (s.readBasin c (o.gva + i * o.gstrideU + off) n)) n
  | 1 =>
    let va := o.nextVa c
    let n := s.pieceLen c cx va .store left
    let m := min n room
    match s.writeSpan c cx va n (spanFuel n), s.writeSpan c cx va m (spanFuel m) with
    | (.fault code a, _), _ => s.copyFault c o code a
    | (.host a, _), _ => s.engineStall c a
    | (.wait _, _), _ => s
    | _, (.ok ls, s1) =>
      if s1.spanReady o.num c.dev ls then
        let s1 := ls.foldl (fun s l => s.forget o.num l.1 l.2.2) s1
        done (ls.foldl (fun s l => s.sendTo c.cl l.1 l.2.2 true (.copyData o.num)) (s1.performSpan c.dev ls (s1.readBasin c (o.rowAt i + off) m))) m
      else ls.foldl (fun s l => s.announce o.num (1000 + c.dev) 0 l.1 l.2.2) s1
    | _, _ => s
  | _ =>
    let va := o.nextVa c
    let n := s.pieceLen c cx va .load left
    match s.readSpan c cx va n (spanFuel n) with
    | (.fault code a, s1) => s1.copyFault c o code a
    | (.host a, s1) => s1.engineStall c a
    | (.wait a, s1) => s1.waitBuild cx a o.num
    | (.ok bs, s1) => done (s1.deliver (s1.copyDests o c) (o.rowAt i + off) (bs.take room)) (min n room)

/-- R174, R177. -/
def execCopyPiece (num : Nat) (s : State) : Host.Outcome State Fault Refusal :=
  match s.copy? num with
  | none => .next s
  | some o =>
    match s.copyCell o, (s.cell? o.cell).bind (fun c => s.ctx? c.ctx) with
    | some c, some cx => .next (if s.copyReady c o then (s.endWait num).piece c cx o else s)
    | _, _ => .next s

/-- Its slot may be published: every earlier claim on the ring is (R180). -/
def State.publishes (s : State) (o : CopyOp) : Bool :=
  s.clu.copies.all (fun x => !(x.cell == o.cell && x.comp == 2 && x.handle == o.handle && x.claim.isSome && decide (x.num < o.num)))

/-- The record of emit completion (R175). -/
def CopyOp.record (o : CopyOp) (c : Cell) (z : Nat) : List Byte :=
  bytesOfNat 8 (if o.dir = 1 then o.gva else o.baddr) ++ bytesOfNat 8 (o.total c) ++ List.replicate (z - 16) 0

/-- R175, R180: the completion action of a copy that has ended, or the publication of a voided slot. -/
def execCopyComplete (num : Nat) (s : State) : Host.Outcome State Fault Refusal :=
  match s.copy? num with
  | none => .next s
  | some o =>
    match s.copyCell o with
    | none => .next s
    | some c =>
      if o.voided then
        .next (if s.publishes o then (s.dropCopy num).enginePublish c o.handle else s)
      else if s.inFlight (.copyData num) = true ∨ o.bytes ≠ o.total c ∨ (o.comp = 2 ∧ o.claim.isNone = true) ∨ (o.big = true ∧ o.granted = false) then .next s
      else match o.comp with
        | 1 => .next (if o.dir = 1 then (s.dropCopy num).setFe c o.aux true else s.dropCopy num)
        | 2 => .next (if s.publishes o then (s.dropCopy num).enginePublish c o.handle else s)
        | 3 =>
          match s.emitTo c.dev c.ctx (o.p.getD 3 0) .plain with
          | some (.here n) => .next (if s.spillFull n.dev then s else (s.dropCopy num).binInsert n (o.record c n.z))
          | _ => .next (s.copyFault c o tEmit (o.p.getD 3 0))
        | _ => .next (s.dropCopy num)

end Sys2Proof.Machine
end

