-- ==== Sys2Proof/Machine/Matrix.lean ====
section
/-! DEFINITION. The matrix array (R80, R81, R182-R189, R315, R316): mxld, mxrun, mxq, tile loads and jobs. -/

namespace Sys2Proof.Machine

/-! ## Formats (R79, R182) -/

/-- WFMT, AC8, SP24, WSRC of a flags word. -/
def mxFmt (f : Nat) : Nat := f % 4
def mxAc8 (f : Nat) : Bool := f / 4 % 2 == 1
def mxSparse (f : Nat) : Bool := f / 8 % 2 == 1
def mxBasin (f : Nat) : Bool := f / 16 % 2 == 1

/-- Record bytes of a code format (R79). -/
def recBytes (fmt : Nat) : Nat := if fmt = 1 then 17 else if fmt = 2 then 25 else 33

/-- Logical K. -/
def mxK (f : Nat) : Nat := 128 * (if mxAc8 f then 2 else 1) * (if mxSparse f then 2 else 1)

/-- Column bytes, metadata apart. -/
def mxColBytes (f : Nat) : Nat := if mxFmt f = 0 then 256 else recBytes (mxFmt f) * (if mxAc8 f then 8 else 4)

/-- Metadata bytes of a column. -/
def mxMeta (f : Nat) : Nat := if mxSparse f then (if mxAc8 f then 64 else 32) else 0

/-- Code book entries. -/
def mxBook (f : Nat) : Nat := if mxFmt f = 1 then 16 else if mxFmt f = 2 then 64 else 256

/-- Activation row bytes of a tile format. -/
def mxRow (f pitch : Nat) : Nat := if mxAc8 f then (mxK f / 32 - 1) * pitch + 33 else 2 * mxK f

/-! ## Parameter blocks (R183, R184) -/

def MxEnt.w (e : MxEnt) (i : Nat) : Nat := (e.p.getD i 0).toNat
def MxEnt.flags (e : MxEnt) : Nat := e.w 3 % 32
def MxEnt.astride (e : MxEnt) : Nat := bitsOf (e.w 0) 63 32
def MxEnt.aaddr (e : MxEnt) : Nat := bitsOf (e.w 0) 31 0
def MxEnt.ostride (e : MxEnt) : Nat := bitsOf (e.w 1) 63 32
def MxEnt.oaddr (e : MxEnt) : Nat := bitsOf (e.w 1) 31 0
def MxEnt.ringh (e : MxEnt) : Nat := bitsOf (e.w 2) 63 32
def MxEnt.pitchField (e : MxEnt) : Nat := bitsOf (e.w 2) 31 16
def MxEnt.pitch (e : MxEnt) : Nat := if e.pitchField = 0 then 33 else e.pitchField
def MxEnt.toRing (e : MxEnt) : Bool := bitsOf (e.w 2) 11 11 == 1
def MxEnt.reuse (e : MxEnt) : Bool := bitsOf (e.w 2) 10 10 == 1
def MxEnt.accum (e : MxEnt) : Bool := bitsOf (e.w 2) 9 9 == 1
def MxEnt.m (e : MxEnt) : Nat := bitsOf (e.w 2) 8 0

/-- MATRIX_PARAM cases of `mxld` (R185). -/
def MxEnt.badLoad (e : MxEnt) (c : Cell) : Bool :=
  let f := e.flags
  let stride := bitsOf (e.w 1) 63 32
  let code := mxFmt f != 0
  decide (32 ≤ e.w 3) || bitsOf (e.w 2) 63 32 != 0 || (!code && (mxAc8 f || mxSparse f)) || decide (stride < mxColBytes f)
    || (mxBasin f && (decide (2 ^ 32 ≤ e.w 0) || outOfBasin c (e.w 0) (127 * stride + mxColBytes f)))
    || (code && outOfBasin c (bitsOf (e.w 1) 31 0) (2 * mxBook f))
    || (mxSparse f && outOfBasin c (bitsOf (e.w 2) 31 0) (128 * mxMeta f))

/-- The activation rows leave the allocation under a tile format. -/
def MxEnt.rowsOut (e : MxEnt) (c : Cell) (f : Nat) : Bool := outOfBasin c e.aaddr ((e.m - 1) * e.astride + mxRow f e.pitch)

/-- MATRIX_PARAM cases of `mxrun` that need no ring (R185); `f` is the activation format fixed at enqueue. -/
def MxEnt.badJob (e : MxEnt) (c : Cell) (f : Nat) : Bool :=
  bitsOf (e.w 2) 15 12 != 0 || e.w 3 != 0 || e.m == 0 || decide (256 < e.m)
    || e.ostride % 16 != 0 || decide (e.ostride < 512)
    || (if mxAc8 f then e.pitchField != 0 && decide (e.pitchField < 33) else e.pitchField != 0)
    || e.rowsOut c f
    || (!e.toRing && (e.oaddr % 16 != 0 || e.ringh != 0 || outOfBasin c e.oaddr ((e.m - 1) * e.ostride + 512)))

/-! ## Enqueueing (R186, R315) -/

/-- Entries of a unit's queue, in order, a restore's repeated plane loads at its head (R189). -/
def State.mxQueue (s : State) (cell u : Nat) : List MxEnt := s.clu.mx.filter (fun e => e.cell == cell && e.unit == u)

/-- Places that a unit's own entries hold in its queue. -/
def State.mxPlaces (s : State) (cell u : Nat) : Nat := ((s.mxQueue cell u).filter (fun e => e.reload == 0)).length

def mxEnqueue (isRun : Bool) (a : BitVec 7) (check : State → Cell → MxEnt → Option TrapInfo) (s : State) :
    Host.Outcome State Fault Refusal :=
  let ent := fun (w : Who) (tid n : Nat) (s : State) =>
    (⟨n, w.cell.uid, w.u, w.cell.cl, isRun, 0, w.block tid a, (s.cell? w.cell.uid).elim (0 : BitVec 5) (fun c => (c.unit w.u).mxFlags),
      n, false, false, 0, 0, none, false⟩ : MxEnt)
  drive s (fun w => { blockDesc w a .matrix with
                      hold := decide (Config.mxDepth ≤ s.mxPlaces w.cell.uid w.u) && (check s w.cell (ent w w.lead 0 s)).isNone })
    (fun w tid s =>
      let e := ent w tid s.fresh s
      match check s w.cell e with
      | some i => (.trap i, s)
      | none =>
        let s1 := s.shutFor w.cell.uid w.u w.tids
        let s1 := { s1 with fresh := s1.fresh + 1, clu := { s1.clu with mx := s1.clu.mx ++ [e] } }
        (.done, if isRun then s1 else s1.updUnit w.cell.uid w.u (fun u => { u with mxFlags := BitVec.ofNat 5 e.flags })))

/-- R315. -/
def execMxld (a : BitVec 7) (s : State) : Host.Outcome State Fault Refusal :=
  mxEnqueue false a (fun _ c e => if e.badLoad c then some (.simple tMatrix) else none) s

/-- R315. -/
def execMxrun (a : BitVec 7) (s : State) : Host.Outcome State Fault Refusal :=
  mxEnqueue true a (fun s c e =>
    if e.badJob c e.act.toNat then some (.simple tMatrix)
    else if e.toRing then
      match s.ring? c e.ringh with
      | none => some (ringState e.ringh)
      | some r => if r.prod ≠ 2 then some (ringState e.ringh)
        else if r.slot < e.m * e.ostride then some (.simple tMatrix) else none
    else none) s

/-! ## Planes -/

def Plane.empty : Plane := ⟨false, none, [], [], [], []⟩

def State.array (s : State) (cl : Nat) : MxArray := (s.clu.arrays.find? (fun a => a.cl == cl)).getD ⟨cl, Plane.empty, Plane.empty, none⟩

def State.setArray (s : State) (a : MxArray) : State :=
  { s with clu := { s.clu with arrays := putIn (fun x => x.cl == a.cl) a s.clu.arrays } }

/-- A plane holds a tile that a queue owns. -/
def Plane.of (p : Plane) (cell u : Nat) : Bool := p.valid && p.owner == some (cell, u)

/-- A plane counts as empty: no tile, or a tile with no owner (R186). -/
def Plane.free (p : Plane) : Bool := !p.valid || p.owner.isNone

/-- R188, R316. -/
def execMxq (d : BitVec 7) (s : State) : Host.Outcome State Fault Refusal :=
  drive s (fun w => { role := .matrix, wr := some (d, w.dstWidth d), once := true }) (fun w _ s =>
    let n := s.mxPlaces w.cell.uid w.u
    let a := s.array w.cell.cl
    let b := fun (x : Bool) (k : Nat) => if x then 2 ^ k else 0
    let disc := (s.cell? w.cell.uid).elim false (fun c => (c.unit w.u).mxDisc)
    let v := n + b disc 3 + b (a.shadow.of w.cell.uid w.u) 4 + b (a.active.of w.cell.uid w.u) 5
    (.done, w.putStatus d (BitVec.ofNat 64 v) (s.updUnit w.cell.uid w.u (fun u => { u with mxDisc := false }))))

/-! ## Arbitration (R186) -/

def State.updMx (s : State) (num : Nat) (f : MxEnt → MxEnt) : State :=
  { s with clu := { s.clu with mx := s.clu.mx.map (fun e => if e.num = num then f e else e) } }

def State.dropMx (s : State) (num : Nat) : State :=
  let s1 := s.dropDraws (fun d => d.kind == 2 && d.num == num)
  { s1 with clu := { s1.clu with mx := s1.clu.mx.filter (fun e => e.num != num) } }

def State.mx? (s : State) (num : Nat) : Option MxEnt := s.clu.mx.find? (fun e => e.num == num)

/-- The entry is at the head of its queue and its cell is on its cluster. -/
def State.mxHead (s : State) (e : MxEnt) : Bool :=
  ((s.mxQueue e.cell e.unit).head?).map (·.num) == some e.num
    && (match s.cell? e.cell with
      | some c => !c.evicted && !c.evicting && !e.stopped
      | none => false)

/-- The planes let the entry start (R186); of a restored cell's repeated loads the active plane's comes first (R189). -/
def State.planesLet (s : State) (e : MxEnt) : Bool :=
  let a := s.array e.cl
  if e.reload = 2 ∧ s.clu.mx.any (fun x => x.cell == e.cell && x.reload == 1) = true then false
  else if e.isRun then e.reuse || a.shadow.free || a.shadow.of e.cell e.unit
  else a.shadow.free || a.shadow.of e.cell e.unit

/-- Everything before the entry's issue that it must follow is over (R163). -/
def State.mxForked (s : State) (e : MxEnt) : Bool :=
  match s.cell? e.cell with
  | none => false
  | some c => (List.range (c.unit e.unit).threads.length).all (fun t =>
      s.released ⟨c, e.unit, (c.unit e.unit).core, t, 2, 3, e.seq⟩ && !s.behindMarker c.uid e.unit t e.seq)

/-- A head entry that could start but for its grant. -/
def State.mxCould (s : State) (e : MxEnt) : Bool :=
  s.mxHead e && !e.running && s.planesLet e && s.mxForked e

/-- Rank of a queue in the arbitration order (R59): the spines, then crews by logical core and slot. -/
def State.mxRank (s : State) (cell u : Nat) : Option Nat := (s.cell? cell).map (fun c => unitRank c u % 1000000)

/-- The queue served next: round-robin after the last one served, from the spine while there is none. -/
def State.mxNext (s : State) (cl : Nat) : Option MxEnt :=
  let ready := s.clu.mx.filter (fun e => e.cl == cl && e.granted && s.mxCould e)
  let last := s.array cl |>.last
  let key := fun (e : MxEnt) =>
    let r := (s.mxRank e.cell e.unit).getD 0
    if last.all (fun l => decide (l < r)) then r else r + 1000000
  ready.foldl (fun a e => match a with
    | some x => if key e < key x then some e else a
    | none => some e) none

def State.mxBusy (s : State) (cl : Nat) : Bool := s.clu.mx.any (fun e => e.cl == cl && e.running)

/-- An entry faults: the report, and its queue is discarded (R188). DESIGN CHOICE (log entry 125): the bit that `mxq` shows for a discard is
set also where no later entry stood in the queue. -/
def State.mxFault (s : State) (c : Cell) (e : MxEnt) (code : BitVec 8) (va : W64) : State :=
  let s1 := s.engineFault c e.unit code 0 va e.p
  let gone := (s1.mxQueue e.cell e.unit).map (·.num)
  let s2 := gone.foldl (fun s n => s.dropMx n) s1
  let s3 := s2.updUnit e.cell e.unit (fun u => { u with mxDisc := true })
  if e.isRun then s3
  else
    let a := s3.array e.cl
    s3.setArray { a with shadow := Plane.empty }

/-- R186: the head load asks for its grant, and starts when it has one and its turn has come. -/
def execMxldStart (num : Nat) (s : State) : Host.Outcome State Fault Refusal :=
  match s.mx? num with
  | none => .next s
  | some e =>
    match s.cell? e.cell with
    | none => .next s
    | some c =>
      if e.isRun ∨ s.mxCould e = false then .next s
      else if e.granted = false then .next (s.askGrant (e.cl / 13) 2 e.cell e.num c.pri)
      else if s.mxBusy e.cl = true ∨ (s.mxNext e.cl).map (·.num) ≠ some num then .next s
      else
        let a := s.array e.cl
        .next ((s.updMx num (fun x => { x with running := true, started := s.clk })).setArray
          { a with shadow := Plane.empty, last := s.mxRank e.cell e.unit })

/-- The columns of a tile (R183): from the basin or, line by line, from global memory. -/
def State.readCols (s : State) (c : Cell) (cx : Context) (e : MxEnt) : Nat → Span (List (List Byte)) × State
  | 0 => (.ok [], s)
  | k + 1 =>
    let n := 127 - k
    let size := mxColBytes e.flags
    let stride := bitsOf (e.w 1) 63 32
    let one := if mxBasin e.flags then (Span.ok (s.readBasin c (e.w 0 + n * stride) size), s)
      else s.readSpan c cx (BitVec.ofNat 64 (e.w 0 + n * stride)) size (spanFuel size)
    match one with
    | (.ok col, s1) =>
      match s1.readCols c cx e k with
      | (.ok r, s2) => (.ok (col :: r), s2)
      | (x, s2) => (x, s2)
    | (.fault code a, s1) => (.fault code a, s1)
    | (.wait a, s1) => (.wait a, s1)
    | (.host a, s1) => (.host a, s1)

/-- Position of kept element `i` of a column (R183). -/
def metaPos (m : List Byte) (i : Nat) : Nat := (m.getD (i / 4) 0).toNat / 4 ^ (i % 4) % 4

/-- The two positions of every group differ and ascend. -/
def metaOk (m : List Byte) : Bool := (List.range (2 * m.length)).all (fun g => decide (metaPos m (2 * g) < metaPos m (2 * g + 1)))

/-- R187, R188: the load ends with the tile in the shadow plane, or faults. -/
def execMxldComplete (num : Nat) (s : State) : Host.Outcome State Fault Refusal :=
  match s.mx? num with
  | none => .next s
  | some e =>
    match s.cell? e.cell, (s.cell? e.cell).bind (fun c => s.ctx? c.ctx) with
    | some c, some cx =>
      if e.isRun ∨ e.running = false ∨ s.awaitsBuild num = true then .next s
      else
        let f := e.flags
        match (s.endWait num).readCols c cx e 128 with
        | (.fault code a, s1) => .next (s1.mxFault c e code a)
        | (.wait a, s1) => .next (s1.waitBuild cx a num)
        | (.host a, s1) => .next (s1.engineStall c a)
        | (.ok cols, s1) =>
          let cb := bitsOf (e.w 1) 31 0
          let mt := bitsOf (e.w 2) 31 0
          let book := if mxFmt f = 0 then []
            else (List.range (mxBook f)).map (fun i => BitVec.ofNat 16 (natOfBytes (s1.readBasin c (cb + 2 * i) 2)))
          let metas := (List.range 128).map (fun n => s1.readBasin c (mt + n * mxMeta f) (mxMeta f))
          if mxSparse f = true ∧ metas.all metaOk = false then .next (s1.mxFault c e tMatrix (BitVec.ofNat 64 mt))
          else
            let p : Plane := ⟨true, some (e.cell, e.unit), e.p, cols, if mxSparse f then metas else [], book⟩
            let a := s1.array e.cl
            .next ((s1.dropMx num).setArray (if e.reload = 1 then { a with active := p } else { a with shadow := p }))
    | _, _ => .next s

/-! ## Jobs (R80, R184, R186, R187) -/

/-- The tile a job runs on when it may use no other: BF16, every weight +0 (R186). -/
def Plane.zero : Plane := ⟨true, none, [0, 0, 0, 0], List.replicate 128 (List.replicate 256 0), [], []⟩

def Plane.flags (p : Plane) : Nat := (p.p.getD 3 0).toNat % 32

/-- The tile that a job of the cell runs on. -/
def MxArray.tileFor (a : MxArray) (cell : Nat) : Plane :=
  if a.active.valid && (a.active.owner.map (·.1)) == some cell then a.active else Plane.zero

/-- R186, R187: the job swaps planes, fixes its format, claims its slot and runs; or it ends with a fault report. -/
def State.jobGo (s : State) (c : Cell) (e : MxEnt) : State :=
  let a0 := s.array e.cl
  let a1 := if e.running = false ∧ e.reuse = false ∧ a0.shadow.of e.cell e.unit = true then
      { a0 with active := a0.shadow, shadow := Plane.empty } else a0
  let s1 := s.setArray { a1 with last := s.mxRank e.cell e.unit }
  let f := (a1.tileFor e.cell).flags
  if mxAc8 f ≠ mxAc8 e.act.toNat ∨ e.rowsOut c f = true then s1.mxFault c e tMatrix 0
  else if e.toRing then
    match s1.engineClaim c e.ringh 2 with
    | .bad => s1.mxFault c e tRing (BitVec.ofNat 64 e.ringh)
    | .full => s1.updMx e.num (fun x => { x with running := true })
    | .took k b s2 => s2.updMx e.num (fun x => { x with running := true, started := s.clk, claim := some (k, b) })
  else s1.updMx e.num (fun x => { x with running := true, started := s.clk })

/-- R186: a job asks for its grant and starts; a job that waits for a ring slot tries again. -/
def execJobStart (num : Nat) (s : State) : Host.Outcome State Fault Refusal :=
  match s.mx? num with
  | none => .next s
  | some e =>
    match s.cell? e.cell with
    | none => .next s
    | some c =>
      if e.isRun = false then .next s
      else if e.running then
        if e.toRing = true ∧ e.claim.isNone = true ∧ c.evicted = false then .next (s.jobGo c e) else .next s
      else if s.mxCould e = false then .next s
      else if e.granted = false then .next (s.askGrant (e.cl / 13) 2 e.cell e.num c.pri)
      else if s.mxBusy e.cl = true ∨ (s.mxNext e.cl).map (·.num) ≠ some num then .next s
      else .next (s.jobGo c e)

/-- Elements of one operand in a block of 32, none where pruned, and the block's scale byte, none for BF16. -/
structure Block where
  elems : List (Option Fv)
  scale : Option (BitVec 8)

def bf16At (bs : List Byte) (i : Nat) : Fv := unpack bf16 (natOfBytes ((bs.drop (2 * i)).take 2))

/-- Code `j` of a record's payload (R79). -/
def codeAt (fmt : Nat) (payload : List Byte) (j : Nat) : Nat :=
  let bits := if fmt = 1 then 4 else if fmt = 2 then 6 else 8
  natOfBytes payload / 2 ^ (bits * j) % 2 ^ bits

/-- Block `b` of column `n` of a tile. -/
def Plane.block (p : Plane) (n b : Nat) : Block :=
  let f := p.flags
  let col := p.cols.getD n []
  if mxFmt f = 0 then ⟨(List.range 32).map (fun j => some (bf16At col (32 * b + j))), none⟩
  else
    let size := recBytes (mxFmt f)
    let rec1 := fun (r : Nat) => (col.drop (r * size)).take size
    let val := fun (x : List Byte) (j : Nat) => unpack bf16 ((p.book.getD (codeAt (mxFmt f) (x.drop 1) j) 0).toNat)
    if mxSparse f then
      let x := rec1 (b / 2)
      let m := p.metas.getD n []
      ⟨(List.range 32).map (fun j =>
        let g := j / 4
        let pick := fun (i : Nat) => metaPos m (16 * b + 2 * g + i) == j % 4
        if pick 0 then some (val x (16 * (b % 2) + 2 * g))
        else if pick 1 then some (val x (16 * (b % 2) + 2 * g + 1)) else none), x.head?⟩
    else
      let x := rec1 b
      ⟨(List.range 32).map (fun j => some (val x j)), x.head?⟩

/-- Block `b` of an activation row. -/
def actBlock (s : State) (c : Cell) (ac8 : Bool) (a pitch b : Nat) : Block :=
  if ac8 then
    let x := s.readBasin c (a + b * pitch) 33
    ⟨(List.range 32).map (fun j => some (unpack bf16 ((lin8.getD (x.getD (j + 1) 0).toNat 0).toNat))), x.head?⟩
  else
    let x := s.readBasin c (a + 64 * b) 64
    ⟨(List.range 32).map (fun j => some (bf16At x j)), none⟩

/-- Exact sum of the products of two blocks; none is a NaN (R80). -/
def blockSum (w a : Block) : Option Fv :=
  let ps := (List.zip w.elems a.elems).filterMap (fun x => match x.1, x.2 with
    | some p, some q => some (mulExact p q)
    | _, _ => none)
  if ps.any (fun p => match p with | none | some (.nan _) => true | _ => false) then none
  else sumExact (ps.filterMap id)

/-- Scale of a block: 1 for BF16. -/
def Block.factor (b : Block) : Nat × Int :=
  match b.scale with
  | none => (1, 0)
  | some x => (scaleOf x).getD (0, 0)

def Block.isScale (b : Block) (x : BitVec 8) : Bool := b.scale == some x

/-- RoundF32(P * Scale(sW) * Scale(sA)) (R80). -/
def blockTerm (w a : Block) : Nat :=
  if w.isScale 0xFF || a.isScale 0xFF then f32.nan
  else if w.isScale 0 || a.isScale 0 then 0
  else match blockSum w a with
    | none | some (.nan _) => f32.nan
    | some (.inf n) => f32.signBit n + f32.infBits
    | some (.fin n m e) =>
      if m = 0 then 0
      else (roundTo f32 .rne n (m * w.factor.1 * a.factor.1) (e + w.factor.2 + a.factor.2)).1

/-- One output element (R80). -/
def mxElement (t : Plane) (acts : List Block) (n : Nat) (start : Nat) : Nat :=
  acts.zipIdx.foldl (fun acc x => (fAdd f32 .rne (unpack f32 acc) (unpack f32 (blockTerm (t.block n x.2) x.1))).1) start

/-- Row `i` of a job: the activation row is read before its output row is written (R187). -/
def State.jobRow (s : State) (c : Cell) (e : MxEnt) (t : Plane) (out i : Nat) : State :=
  let f := t.flags
  let acts := (List.range (mxK f / 32)).map (fun b => actBlock s c (mxAc8 f) (e.aaddr + i * e.astride) e.pitch b)
  let o := out + i * e.ostride
  let old := if e.accum then s.readBasin c o 512 else List.replicate 512 0
  let bytes := (List.range 128).flatMap (fun n => bytesOfNat 4 (mxElement t acts n (natOfBytes ((old.drop (4 * n)).take 4))))
  s.engineWrite c o bytes

/-- R187: the next output row is written; with the last one the job ends and its slot is published. -/
def execJobEnd (num : Nat) (s : State) : Host.Outcome State Fault Refusal :=
  match s.mx? num with
  | none => .next s
  | some e =>
    match s.cell? e.cell with
    | none => .next s
    | some c =>
      if e.isRun = false ∨ e.running = false ∨ (e.toRing = true ∧ e.claim.isNone = true) ∨ c.evicted = true then .next s
      else
        let t := (s.array e.cl).tileFor e.cell
        let out := match e.claim with
          | some (_, b) => b
          | none => e.oaddr
        let s1 := s.jobRow c e t out e.rows
        if e.rows + 1 < e.m then .next (s1.updMx num (fun x => { x with rows := x.rows + 1 }))
        else .next (if e.toRing then (s1.dropMx num).enginePublish c e.ringh else s1.dropMx num)

end Sys2Proof.Machine
end

