-- ==== Sys2Proof/Machine/Draw.lean ====
section
/-! DEFINITION. Draw grants, the sluices and package power (R195, R319, R423, R424). -/

namespace Sys2Proof.Machine

/-- R195, R319: a request blocks until its grant arrives; D receives the tb waited. -/
def execDrawReq (d : BitVec 7) (s : State) : Host.Outcome State Fault Refusal :=
  drive s (fun w => { wr := some (d, w.dstWidth d), once := true }) (fun w tid s =>
    let us := ((s.cell? w.cell.uid).map (fun c => c.unit w.u)).getD w.unit
    match (if w.wake then (w.unit.thread tid).answer else none) with
    | some waited => (.done, w.putStatus d waited s)
    | none =>
      if w.wake then (.block 14 0, s)
      else if us.drawHeld then (.done, w.putStatus d 0 s)
      else if us.drawPend then (.block 14 0, s)
      else
        let s1 := s.askGrant (w.cell.cl / 13) 0 w.cell.uid w.u w.cell.pri
        (.block 14 0, s1.updUnit w.cell.uid w.u (fun u => { u with drawPend := true })))

/-- R195, R319. -/
def execDrawRel (s : State) : Host.Outcome State Fault Refusal :=
  drive s (fun _ => { once := true }) (fun w _ s =>
    (.done, s.updUnit w.cell.uid w.u (fun u => { u with drawHeld := false })))

/-- Grants that a C-die's heavy operations hold (R423). A unit whose held grant is requested again after a restore holds none yet. -/
def State.grantsHeld (s : State) (die : Nat) : Nat :=
  ((s.cells.filter (fun c => c.cl / 13 == die && !c.evicted)).map (fun c => (c.units.filter (fun u => u.drawHeld && !u.drawPend)).length)).sum
    + (s.clu.copies.filter (fun o => o.cl / 13 == die && o.granted)).length
    + (s.clu.mx.filter (fun e => e.cl / 13 == die && e.granted)).length

/-- The request that a sluice grants next: priority, then arrival. -/
def State.nextDraw (s : State) (die : Nat) : Option DrawReq :=
  (s.clu.draws.filter (fun d => d.die == die)).foldl (fun a d => match a with
    | some x => if decide (x.pri.toNat < d.pri.toNat) || (x.pri == d.pri && decide (d.seq < x.seq)) then some d else a
    | none => some d) none

/-- A grant may be made on a die (R423, R424). -/
def State.mayGrant (s : State) (die : Nat) : Bool :=
  !s.pkg.hot.contains die && decide (s.grantsHeld die < s.pkg.budgets.getD die 0) && (s.nextDraw die).isSome

/-- Waiting time is counted for the context (R195, R346). -/
def State.countWait (s : State) (cell tb : Nat) : State :=
  match s.cell? cell with
  | none => s
  | some c => s.updCtx c.ctx (fun x => { x with drawWait := x.drawWait + BitVec.ofNat 64 tb })

/-- R195, R423. -/
def execDrawGrant (die : Nat) (s : State) : Host.Outcome State Fault Refusal :=
  if s.mayGrant die = false then .next s
  else match s.nextDraw die with
    | none => .next s
    | some d =>
      let s1 := { s with clu := { s.clu with draws := s.clu.draws.filter (fun x => x.seq != d.seq) } }
      let s2 := s1.countWait d.cell (s.tb - d.since)
      match d.kind with
      | 0 => .next (s2.updUnit d.cell d.num (fun u =>
          { u with drawHeld := true, drawPend := false
                   threads := u.threads.map (fun t => if t.st = .blocked ∧ t.wkind = 14 then
                     { t with answer := some (BitVec.ofNat 64 (s.tb - t.wclk * 5 / 8)) } else t) }))
      | 1 => .next (s2.updCopy d.num (fun o => { o with granted := true }))
      | _ => .next (s2.updMx d.num (fun e => { e with granted := true }))

/-- Requests queued at a die. -/
def State.queuedAt (s : State) (die : Nat) : Nat := (s.clu.draws.filter (fun d => d.die == die)).length

/-- R423, R424: the measurement, and the budgets of the next 10 µs: shares of what the master can allow, in proportion to the
requests queued; a quarter less after the cap was passed. -/
def execPowerBudgetPeriod (watts : Nat) (s : State) : Host.Outcome State Fault Refusal :=
  if s.tb < s.pkg.periodEnd then .next s
  else
    let all := ((List.range 8).map s.queuedAt).sum
    let room := Config.freeNat s.fresh 20
    let next := (List.range 8).map (fun d =>
      let old := s.pkg.budgets.getD d 0
      if s.pkg.cap < watts then old - old / 4
      else if all = 0 then old else room * s.queuedAt d / all)
    .next { s with pkg := { s.pkg with measured := watts, budgets := next, periodEnd := s.tb + 10000 } }

/-- R424: above 105 °C nothing new is granted on the die. -/
def execThermalLimit (die : Nat) (s : State) : Host.Outcome State Fault Refusal :=
  .next { s with pkg := { s.pkg with hot := if s.pkg.hot.contains die then s.pkg.hot else die :: s.pkg.hot } }

/-- R424: below 100 °C the master may grant again. -/
def execTemperatureFall (die : Nat) (s : State) : Host.Outcome State Fault Refusal :=
  .next { s with pkg := { s.pkg with hot := s.pkg.hot.filter (· != die) } }

/-- R424: at 120 °C power is removed; no state of the package survives but the fuses and the firmware. -/
def execThermalTrip (s : State) : Host.Outcome State Fault Refusal :=
  .next { State.reset with agenda := s.agenda, fresh := s.fresh
                           home := { Home.reset with mem := s.home.mem.filter (fun x => farKey x.1) }
                           pkg := { Package.reset with powered := false, fuseCl := s.pkg.fuseCl, fuseSc := s.pkg.fuseSc, fwHash := s.pkg.fwHash } }

end Sys2Proof.Machine
end

