-- ==== Sys2Proof/Machine/Kernel.lean ====
section
/-! DEFINITION. Reads and writes of the F-die and the launch unit, the kernel header (R213-R217), patch values, and the fit of
a cell on a cluster (R11-R15, R143). -/

namespace Sys2Proof.Machine

/-! ## Global bytes read and written by the F-die (R356) -/

/-- Bytes of one line as the F-die reads them at their home. -/
def State.fPiece (s : State) (cx : Context) (va : W64) (n : Nat) : Span (List Byte) × State :=
  let read := fun (key : Nat) (kid : BitVec 8) =>
    if unreachable s.pkg key || (s.line (key / 128)).poison then (Span.fault tPoison va, s)
    else if s.flipping key cx.dev then (.wait va, s)
    else if (s.line (key / 128)).maybeDirty then (.wait va, s.askHolders key n)
    else
      let s1 := ((s.recall key n).underKey (key / 128) kid).enterL2 (key / 128) cx.dev
      (.ok (readBytes s1.home.mem key n), s1)
  match translateF s cx va .load with
  | .trap code => (.fault code va, s)
  | .host => (.fault tTranslation va, s)
  | .ok key kid _ _ => read key kid
  | .region key =>
    match cx.region? va with
    | none => (.fault tTranslation va, s)
    | some r =>
      let t := s.tile cx.tag (r.tileBase va)
      let i := (va.toNat - t.base.toNat) / 128
      if (t.st = .resident ∨ t.st = .building) ∧ t.present.contains i = true then read key 0
      else (.fault tRecFailed va, s)

/-- `n` bytes as the F-die reads them; `fuel` is at least the number of lines. -/
def State.fRead (s : State) (cx : Context) (va : W64) (n : Nat) : Nat → Span (List Byte) × State
  | 0 => (.ok [], s)
  | fuel + 1 =>
    if n = 0 then (.ok [], s)
    else
      let k := lineRest va n
      andThen (s.fPiece cx va k) (fun bs s1 =>
        andThen (s1.fRead cx (va + BitVec.ofNat 64 k) (n - k) fuel) (fun r s2 => (.ok (bs ++ r), s2)))

/-- A read of the F-die. -/
def State.fBytes (s : State) (cx : Context) (va : W64) (n : Nat) : Span (List Byte) × State := s.fRead cx va n (spanFuel n)

/-- Where a write of the F-die goes, within one line: key and key id. -/
def State.fTarget (s : State) (cx : Context) (va : W64) (acc : Access) : Option (Nat × BitVec 8) :=
  match translateF s cx va acc with
  | .ok key kid _ _ =>
    if unreachable s.pkg key || (s.line (key / 128)).poison then none else some (key, kid)
  | .region key =>
    match cx.region? va with
    | some r => if (s.tile cx.tag (r.tileBase va)).st = .building then some (key, 0) else none
    | none => none
  | _ => none

/-! ## The header (R214-R217) -/

/-- A little-endian field of the image. -/
def fieldAt (b : List Byte) (o n : Nat) : Nat := natOfBytes ((b.drop o).take n)

/-- Offsets and sizes of the fixed part that the header record does not keep. -/
structure HdrDims where
  code : Nat
  spineBytes : Nat
  crewBytes : Nat
  cdeclOff : Nat
  roleOff : Nat
  patchOff : Nat
  ncdecl : Nat
  nrole : Nat
  npatch : Nat
  pbytes : Nat
deriving DecidableEq, Repr

def hdrDims (b : List Byte) : HdrDims :=
  { code := fieldAt b 20 4, spineBytes := fieldAt b 28 4, crewBytes := fieldAt b 36 4, cdeclOff := fieldAt b 64 4
    roleOff := fieldAt b 68 4, patchOff := fieldAt b 72 4, ncdecl := fieldAt b 49 1, nrole := fieldAt b 50 1
    npatch := fieldAt b 51 1, pbytes := fieldAt b 52 4 }

/-- The fixed part as a header without its tables. -/
def hdrFixed (b : List Byte) : Header :=
  let w := fieldAt b 56 8
  { width := 32 * (fieldAt b 40 1 + 1), ncrew := fieldAt b 41 1 + 1, fast := 8 * fieldAt b 42 1, slow := 8 * fieldAt b 43 1
    basin := fieldAt b 44 2, bzero := fieldAt b 46 1 % 2 == 1, fused := fieldAt b 46 1 / 2 % 2 == 1, gang := fieldAt b 47 1
    ncis := fieldAt b 48 1, cdecls := [], roles := [], patches := [], spineOff := fieldAt b 24 4, crewOff := fieldAt b 32 4
    hbytes := fieldAt b 16 4, node := bitsOf w 26 26 == 1, nkeyed := bitsOf w 25 25 == 1, ncount := bitsOf w 24 16
    nsize := bitsOf w 15 0, ntimer := bitsOf w 63 32 }

/-- The fixed part obeys R214 and R216. -/
def hdrFixedOk (b : List Byte) (kimg : W64) : Bool :=
  let h := hdrFixed b
  let d := hdrDims b
  let sect := fun (off n : Nat) => off % 32 == 0 && n % 32 == 0 && decide (32 ≤ n) && decide (off + n ≤ d.code)
  let tab := fun (off al n : Nat) => off % al == 0 && (n == 0 || decide (off + n ≤ h.hbytes))
  fieldAt b 0 4 == 0x4837564B && fieldAt b 4 2 == 0x0100 && fieldAt b 6 2 == 1 && decide (fieldAt b 8 8 < 64)
    && h.hbytes % 32 == 0 && decide (128 ≤ h.hbytes) && (kimg.toNat + h.hbytes) % 32 == 0
    && sect h.spineOff d.spineBytes && sect h.crewOff d.crewBytes
    && decide (h.width ≤ 128) && decide (h.ncrew ≤ 128) && decide (8 ≤ h.fast) && decide (h.fast ≤ 192)
    && decide (h.slow ≤ 64) && decide (h.basin ≤ 512) && decide (fieldAt b 46 1 < 4)
    && [0, 2, 4, 8].contains h.gang && decide (h.ncis ≤ 64) && decide (d.ncdecl ≤ 64) && decide (d.nrole ≤ 16)
    && decide (d.npatch ≤ 64) && bitsOf (fieldAt b 56 8) 31 27 == 0
    && (!h.node || (h.nsize % 8 == 0 && decide (8 ≤ h.nsize) && decide (h.nsize ≤ 256) && decide (1 ≤ h.ncount)
      && decide (h.ncount ≤ 256) && decide (h.ntimer ≤ 1000000)))
    && fieldAt b 76 52 == 0
    && tab d.cdeclOff 8 (8 * d.ncdecl) && tab d.roleOff 4 (4 * d.nrole) && tab d.patchOff 8 (8 * d.npatch)

/-- Entries of `size` bytes as numbers. -/
def entries (size n : Nat) (b : List Byte) : List Nat := (List.range n).map (fun i => fieldAt b (size * i) size)

/-- A cistern entry obeys R215 and R48. -/
def cdeclOk (h : Header) (e : Nat) : Bool :=
  bitsOf e 63 38 == 0 && bitsOf e 31 30 == 0 && decide (bitsOf e 37 32 < h.ncis)
    && cfgWordOk (BitVec.ofNat 64 (bitsOf e 29 0)) h.ncrew

/-- A role entry obeys R215 and R217. -/
def roleOk (h : Header) (e : Nat) : Bool :=
  bitsOf e 31 18 == 0 && decide (bitsOf e 7 0 ≤ bitsOf e 15 8) && decide (bitsOf e 15 8 < h.ncrew)

/-- A patch entry obeys R215, apart from the word it names. -/
def patchOk (d : HdrDims) (e : Nat) : Bool :=
  bitsOf e 63 50 == 0 && bitsOf e 49 48 != 3 && bitsOf e 31 0 % 8 != 0 && decide (4 * bitsOf e 31 0 + 4 ≤ d.code)
    && decide (bitsOf e 47 32 + 4 ≤ d.pbytes)

/-- Opcodes whose format holds a field of the kind (R205, R209-R212): 0 IMM11, 1 IMM18, 2 IMM7. -/
def kindOps : Nat → List Nat
  | 0 => [0x10, 0x11, 0x12, 0x13, 0x14, 0x15, 0x16, 0x1A, 0x48, 0x59, 0x6B, 0x6C, 0x6E, 0x7A, 0x7B]
  | 1 => [0x18, 0x19]
  | 2 => [0x17, 0x41, 0x43]
  | _ => []

/-- Two ranges of roles overlap. -/
def rolesClash (a b : Nat × Nat × Nat) : Bool := decide (a.1 ≤ b.2.1) && decide (b.1 ≤ a.2.1)

/-- Some pair of a list, in order, meets a test. -/
def anyPair {α : Type} (f : α → α → Bool) : List α → Bool
  | [] => false
  | a :: r => r.any (f a) || anyPair f r

/-- What reading a kernel image comes to. -/
inductive HdrRes where
  | ok (h : Header)
  | bad
  | fault
  | wait
deriving DecidableEq, Repr

/-- The words that patch entries name, with the kinds, as the image holds them. -/
def State.patchWords (s : State) (cx : Context) (base : W64) : List (Nat × Nat × Nat) → Span (List (Nat × Nat)) × State
  | [] => (.ok [], s)
  | (i, _, kind) :: r =>
    andThen (s.fBytes cx (base + BitVec.ofNat 64 (4 * i)) 4) (fun b s1 =>
      andThen (s1.patchWords cx base r) (fun l s2 => (.ok ((kind, natOfBytes b) :: l), s2)))

/-- The checks of the tables (R215, R217), after every byte of them has been read. -/
def tablesOk (h : Header) (d : HdrDims) (ce re pe : List Nat) (words : List (Nat × Nat)) : Bool :=
  ce.all (cdeclOk h) && (ce.map (fun e => bitsOf e 37 32)).Nodup
    && decide ((ce.filter (fun e => bitsOf e 1 0 == 2)).length ≤ 8)
    && re.all (roleOk h) && !anyPair rolesClash h.roles
    && pe.all (patchOk d) && (pe.map (fun e => bitsOf e 31 0)).Nodup
    && words.all (fun w => (kindOps w.1).contains (w.2 % 128))

/-- A table of an image as its fixed part places it: offset, alignment, entries, bytes of an entry, most entries. One that breaks R215
there is none to read. -/
def hdrTable (hbytes off al n size most : Nat) : Nat × Nat :=
  if off % al = 0 ∧ n ≤ most ∧ (n = 0 ∨ off + size * n ≤ hbytes) then (off, size * n) else (off, 0)

/-- The launch unit reads a kernel header: the fixed part, the tables and the words that patch entries name, and only then the rules of
R217: bytes that cannot be read come first (R358). DEDUCED (log entry 116): of an image that breaks a rule the tables and words are
read that it still places by the rules. -/
def State.headerBytes (s : State) (cx : Context) (kimg : W64) : Span (Option Header) × State :=
  andThen (s.fBytes cx kimg 128) (fun b s1 =>
    let d := hdrDims b
    let h0 := hdrFixed b
    let tab := fun (s : State) (x : Nat × Nat) => s.fBytes cx (kimg + BitVec.ofNat 64 x.1) x.2
    andThen (tab s1 (hdrTable h0.hbytes d.cdeclOff 8 d.ncdecl 8 64)) (fun cb s2 =>
      andThen (tab s2 (hdrTable h0.hbytes d.roleOff 4 d.nrole 4 16)) (fun rb s3 =>
        andThen (tab s3 (hdrTable h0.hbytes d.patchOff 8 d.npatch 8 64)) (fun pb s4 =>
          let ce := entries 8 (cb.length / 8) cb
          let re := entries 4 (rb.length / 4) rb
          let pe := entries 8 (pb.length / 8) pb
          let h : Header := { h0 with
            cdecls := ce.map (fun e => (bitsOf e 37 32, BitVec.ofNat 30 e))
            roles := re.map (fun e => (bitsOf e 7 0, bitsOf e 15 8, bitsOf e 17 16))
            patches := pe.map (fun e => (bitsOf e 31 0, bitsOf e 47 32, bitsOf e 49 48)) }
          let named := (pe.filter (patchOk d)).map (fun e => (bitsOf e 31 0, bitsOf e 47 32, bitsOf e 49 48))
          andThen (s4.patchWords cx (kimg + BitVec.ofNat 64 h.hbytes) named) (fun ws s5 =>
            (.ok (if hdrFixedOk b kimg && tablesOk h d ce re pe ws then some h else none), s5))))))

/-- What reading a kernel image comes to. -/
def State.readHeader (s : State) (cx : Context) (kimg : W64) : HdrRes × State :=
  match s.headerBytes cx kimg with
  | (.ok (some h), s1) => (.ok h, s1)
  | (.ok none, s1) => (.bad, s1)
  | (.wait _, s1) => (.wait, s1)
  | (_, s1) => (.fault, s1)

/-! ## Patch values (R213, R426) -/

/-- Bits of a patch field. -/
def kindBits : Nat → Nat
  | 0 => 11
  | 1 => 18
  | _ => 7

/-- The value fits the field as a signed value. -/
def patchFits (kind : Nat) (v : BitVec 32) : Bool :=
  decide (-(2 ^ (kindBits kind - 1) : Int) ≤ v.toInt) && decide (v.toInt < 2 ^ (kindBits kind - 1))

/-- What reading patch values comes to. -/
inductive PatchRes where
  | ok (l : List (BitVec 64 × Nat × BitVec 32))
  /-- the entry with this index does not fit. -/
  | range (i : Nat)
  | fault
  | wait
deriving DecidableEq, Repr

/-- The values of the entries from index `i`, from the parameter block: unreadable bytes come before values that do not fit. -/
def State.patchValues (s : State) (cx : Context) (base param : W64) (i : Nat) :
    List (Nat × Nat × Nat) → PatchRes × State
  | [] => (.ok [], s)
  | (w, off, kind) :: r =>
    match s.fBytes cx (param + BitVec.ofNat 64 off) 4 with
    | (.wait _, s1) => (.wait, s1)
    | (.ok b, s1) =>
      let v := BitVec.ofNat 32 (natOfBytes b)
      match s1.patchValues cx base param (i + 1) r with
      | (.ok l, s2) => (if patchFits kind v then .ok ((base + BitVec.ofNat 64 (4 * w), kind, v) :: l) else .range i, s2)
      | (.range j, s2) => (if patchFits kind v then .range j else .range i, s2)
      | (x, s2) => (x, s2)
    | (_, s1) => (.fault, s1)

/-- A word with its patch (R213). -/
def patchWord (w : BitVec 32) (kind : Nat) (v : BitVec 32) : BitVec 32 :=
  match kind with
  | 0 => (v.extractLsb' 0 11) ++ (w.extractLsb' 0 21)
  | 1 => (v.extractLsb' 0 18) ++ (w.extractLsb' 0 14)
  | _ => (w.extractLsb' 28 4) ++ (v.extractLsb' 0 7) ++ (w.extractLsb' 0 21)

/-! ## Fit (R11-R15, R143) -/

/-- Crews of a cell of `n` crews on logical core `j` of `e` (R13). -/
def dealt (n e j : Nat) : Nat := (n - j + (e - 1)) / e

/-- What is in use on a cluster, or withheld. -/
structure Use where
  spines : Nat
  slots : List Nat
  fast : List Nat
  slow : List Nat
  cis : Nat
deriving DecidableEq, Repr

def Use.zero (e : Nat) : Use := ⟨0, List.replicate e 0, List.replicate e 0, List.replicate e 0, 0⟩

def addLists (a b : List Nat) : List Nat := List.zipWith (· + ·) a b

def Use.add (a b : Use) : Use :=
  ⟨a.spines + b.spines, addLists a.slots b.slots, addLists a.fast b.fast, addLists a.slow b.slow, a.cis + b.cis⟩

/-- What a cell of a kernel takes on a cluster of `e` cores. -/
def Header.use (h : Header) (e : Nat) : Use :=
  let c := (List.range e).map (fun j => dealt h.ncrew e j)
  ⟨1, c, c.map (· * h.fast), c.map (· * h.slow), h.ncis⟩

/-- The recipe reserve (R143). -/
def reserveUse (e : Nat) : Use :=
  let c := (List.range e).map (fun j => dealt 8 e j)
  ⟨1, c, c.map (· * 64), c.map (fun _ => 0), 16⟩

/-- Within a cluster's capacity (R2, R12, R28). -/
def Use.fits (u : Use) : Bool :=
  decide (u.spines ≤ 4) && u.slots.all (fun n => decide (n ≤ Config.crewSlots)) && u.fast.all (fun n => decide (n ≤ Config.fastRegs))
    && u.slow.all (fun n => decide (n ≤ Config.slowRegs)) && decide (u.cis ≤ Config.cisternsPerCluster)

/-- Bytes of basin that ordinary cells may use when the reserve binds them (R94). -/
def openBasin (reserve : Bool) : Nat := if reserve then Config.basinBytes - 262144 else Config.basinBytes

/-- Cells placed on a cluster. -/
def State.cellsOn (s : State) (cl : Nat) : List Cell := s.cells.filter (fun c => c.cl == cl && !c.evicted)

/-- What a set of cells uses. -/
def useOf (e : Nat) (cs : List Cell) : Use := cs.foldl (fun u c => u.add (c.hdr.use e)) (Use.zero e)

/-- Lowest offset of `n` free bytes below `top`, among the candidates: 0 and the ends of the allocations. DESIGN CHOICE (log entry 38):
R11 and R94 leave open which free range an allocation takes. -/
def freeBasin (cs : List Cell) (n top : Nat) : Option Nat :=
  let ok := fun (o : Nat) => decide (o + n ≤ top)
    && cs.all (fun c => c.basinSize == 0 || n == 0 || decide (o + n ≤ c.basinOff) || decide (c.basinOff + c.basinSize ≤ o))
  let cands := (0 :: cs.map (fun c => c.basinOff + c.basinSize)).filter ok
  cands.foldl (fun a o => match a with
    | some x => some (min x o)
    | none => some o) none

/-- A cell of a kernel fits an empty cluster of `e` cores (R16). -/
def Header.fitsEmpty (h : Header) (e : Nat) (reserve : Bool) : Bool :=
  let u := if reserve then (h.use e).add (reserveUse e) else h.use e
  decide (0 < e) && u.fits && decide (4096 * h.basin ≤ openBasin reserve)

/-- A cell, or a gang of them on one C-die, fits some empty cluster of the device (R16, R217). -/
def State.fitsDevice (s : State) (h : Header) (dev : Nat) (reserve : Bool) : Bool :=
  let ok := (devClusters s.pkg dev).filter (fun c => h.fitsEmpty (numCores s.pkg c) reserve)
  if h.gang = 0 then !ok.isEmpty
  else (List.range 8).any (fun d => decide (h.gang ≤ (ok.filter (fun c => c / 13 == d)).length))

/-- CREWSTRIDE of a save record (R387). -/
def Header.crewStride (h : Header) : Nat := (0x1300 + 512 * (h.fast + h.slow) + 4095) / 4096 * 4096

def upTo4k (n : Nat) : Nat := (n + 4095) / 4096 * 4096

/-- Offsets of the variable sections of a save record with given counts (R387): MQ, CPY, SUB, CREW, FE, BASIN, TOTAL. -/
structure SaveLayout where
  mq : Nat
  cpy : Nat
  sub : Nat
  crew : Nat
  fe : Nat
  basin : Nat
  total : Nat
deriving DecidableEq, Repr

def Header.layout (h : Header) (nmq ncpy nsub : Nat) : SaveLayout :=
  let bytes := 4096 * h.basin
  let cpy := 0x3000 + upTo4k (48 * nmq)
  let sub := cpy + upTo4k (48 * ncpy)
  let crew := sub + upTo4k (32 * nsub)
  let fe := crew + h.ncrew * h.crewStride
  let basin := fe + upTo4k (bytes / 128)
  ⟨0x3000, cpy, sub, crew, fe, basin, basin + upTo4k bytes⟩

/-- Bytes that a cell's record may need: every matrix queue full, 16 copies, every subscription record (R386). -/
def Header.saveBytes (h : Header) : Nat := (h.layout (4 * (h.ncrew + 1)) 16 Config.maxSubs).total

/-- Room for `n` bytes in a context's pool: the lowest address (R386). -/
def State.poolRoom (s : State) (cx : Context) (n : Nat) : Option (BitVec 48) :=
  let held := (s.cells.filter (fun c => c.ctx == cx.tag)).map (fun c => (c.save.toNat, c.saveLen))
  let base := upTo4k cx.poolBase.toNat
  let ok := fun (o : Nat) => decide (base ≤ o) && decide (o + n ≤ cx.poolBase.toNat + cx.poolSize)
    && held.all (fun x => decide (o + n ≤ x.1) || decide (x.1 + x.2 ≤ o))
  let cands := (base :: held.map (fun x => x.1 + x.2)).filter ok
  (cands.foldl (fun a o => match a with
    | some x => some (min x o)
    | none => some o) none).map (BitVec.ofNat 48)

/-- The record exceeds the whole pool (R386). -/
def Context.poolTooSmall (cx : Context) (h : Header) : Bool :=
  decide (cx.poolBase.toNat + cx.poolSize < upTo4k cx.poolBase.toNat + h.saveBytes)

end Sys2Proof.Machine
end

