-- ==== Sys2Proof/Machine/Registers.lean ====
section
/-! DEFINITION. The system registers (R320, R321, R345-R350): rdsys, wrsys and the same writes by the host (R340). -/

namespace Sys2Proof.Machine

/-! ## Reading (R346-R348) -/

/-- C-dies of a device in ascending physical order. -/
def devDies (m : Mode) (dev : Nat) : List Nat := (List.range 8).filter (fun d => devOfDie m d == dev)

/-- PMODE (R346). -/
def pmodeWord (p : Package) : Nat := stacksUp p * 256 + numDevs p.mode * 16 + p.mode.code

/-- Physical cores of the logical cores of a cluster, two bits each (R346). -/
def coreCodes (p : Package) (cl : Nat) : Nat := (clCores p cl).zipIdx.foldl (fun a x => a + x.1 * 4 ^ x.2) 0

def Region.word (r : Region) : W64 := r.desc ++ r.err ++ (BitVec.ofBool r.v)

def Context.nodeReg (c : Context) (idx : Nat) : NodeReg := (c.nodeRegs.find? (fun n => n.idx == idx)).getD ⟨idx, 0, 0⟩

/-- NODEREG as a context reads it; 0 when another context holds the instance (R348). -/
def State.nodeWord (s : State) (c : Context) (idx : Nat) : W64 :=
  match s.node? c.dev idx with
  | some n => if n.ctx = c.tag then n.desc ++ (c.nodeReg idx).err ++ 1#1 else 0
  | none => let r := c.nodeReg idx; r.desc ++ r.err ++ 0#1

/-- The tb that a context's requests which still wait have spent so far (R346). -/
def State.drawnSoFar (s : State) (ctx : BitVec 32) : Nat :=
  ((s.clu.draws.filter (fun d => ((s.cell? d.cell).map (·.ctx)) == some ctx)).map (fun d => s.tb - d.since)).sum

/-- A register of a context on its device, instance `i` (R321, R345). -/
def State.readReg (s : State) (c : Context) (num : BitVec 11) (i : Nat) : W64 :=
  let p := s.pkg
  let cl := (devClusters p c.dev)[i]?
  let die := (devDies p.mode c.dev)[i]?
  match num.toNat with
  | 0x000 => BitVec.ofNat 64 (c.dev * 2 ^ 16 + (fabidOf p c.dev).toNat)
  | 0x001 => BitVec.ofNat 64 (pmodeWord p)
  | 0x002 => BitVec.ofNat 64 (devClusters p c.dev).length
  | 0x003 => BitVec.ofNat 64 ((cl.map (numCores p)).getD 0)
  | 0x004 => BitVec.ofNat 64 ((cl.map (fun x => x / 13 * 256 + x % 13)).getD 0)
  | 0x005 => BitVec.ofNat 64 ((cl.map (coreCodes p)).getD 0)
  | 0x006 => ((die.map (hmapCl p)).getD 0).setWidth 64
  | 0x007 => ((die.map (hmapSc p)).getD 0).setWidth 64
  | 0x008 => c.drawWait + BitVec.ofNat 64 (s.drawnSoFar c.tag)
  | 0x100 => BitVec.ofNat 64 (c.tag.toNat * 2 ^ 32 + c.topPri.toNat * 256 + c.trapHost.toNat * 2 + c.chk.toNat)
  | 0x101 => c.trapq
  | 0x102 => c.tqHead.setWidth 64
  | 0x103 => c.tqTail.setWidth 64
  | 0x104 => c.slice.setWidth 64
  | 0x105 => c.watchdog.setWidth 64
  | 0x106 => (c.regions[i]?.map Region.word).getD 0
  | 0x107 => if i < Config.maxNodes then s.nodeWord c i else 0
  | 0x108 => c.handler
  | _ => 0

/-! ## Plain writes (R347) -/

/-- LOG2N as it is written: 1-3 become 4, above 16 becomes 16. -/
def clampLog (n : Nat) : Nat := if n = 0 then 0 else if n < 4 then 4 else if 16 < n then 16 else n

/-- A ring register: base and LOG2N, reserved bits cleared (R347). -/
def ringWord (v : W64) : W64 := (v.extractLsb' 12 52) ++ (0#7) ++ (BitVec.ofNat 5 (clampLog (v.extractLsb' 0 5).toNat))

def clampTo (lo hi : Nat) (v : BitVec 32) : BitVec 32 := BitVec.ofNat 32 (min hi (max lo v.toNat))

/-- Records of a trap queue. -/
def Context.tqSize (c : Context) : Nat := 2 ^ (c.trapq.extractLsb' 0 5).toNat

def Context.setTrapq (c : Context) (v : W64) : Context := { c with trapq := ringWord v, tqHead := 0, tqTail := 0 }

def Context.setTqHead (c : Context) (v : W64) : Context :=
  let h : BitVec 32 := v.setWidth 32
  if c.tqSize < (c.tqTail - h).toNat then c else { c with tqHead := h }

/-- CTXCTL, SLICE and WATCHDOG, field by field. -/
def Context.setPlain (c : Context) (num : BitVec 11) (v : W64) : Context :=
  match num.toNat with
  | 0x100 => { c with trapHost := v.getLsbD 1, chk := v.getLsbD 0 }
  | 0x104 => { c with slice := clampTo 100000 100000000 (v.setWidth 32) }
  | 0x105 => { c with watchdog := clampTo 1000000 1000000000 (v.setWidth 32) }
  | _ => c

/-! ## Regions (R348-R350) -/

/-- A region descriptor (R349), or none when it is malformed. -/
def regionOfDesc (b : List Byte) : Option Region :=
  let base := fieldAt b 0 8
  let z := fieldAt b 16 4
  let size := 16384 * 2 ^ z
  let tiles := fieldAt b 20 4
  let cap := fieldAt b 24 8
  if 3 ≤ z ∨ base % size ≠ 0 ∨ fieldAt b 8 8 % 128 ≠ 0 ∨ tiles = 0 ∨ 65536 < tiles ∨ cap % size ≠ 0 ∨ fieldAt b 32 32 ≠ 0 then none
  else some { base := BitVec.ofNat 64 base, table := BitVec.ofNat 64 (fieldAt b 8 8), zsel := BitVec.ofNat 2 z, tiles := tiles
              cap := cap, v := true }

def Region.last (r : Region) : Nat := r.base.toNat + r.tiles * r.size

def Region.meets (a b : Region) : Bool := decide (a.base.toNat < b.last) && decide (b.base.toNat < a.last)

/-- A page that the context maps lies in a region's range. -/
def State.mapsIn (s : State) (c : Context) (r : Region) : Bool :=
  (List.range ((r.last - 1) / 65536 - r.base.toNat / 65536 + 1)).any (fun i =>
    match walkFrom s c.dev (BitVec.ofNat 64 (r.base.toNat / 65536 * 65536 + 65536 * i)) 3 c.root.toNat with
    | .leaf _ _ => true
    | _ => false)

/-- Other regions of a device than instance `i` of a context. -/
def State.otherRegions (s : State) (c : Context) (i : Nat) : List Region :=
  (s.sched.ctxs.filter (fun x => x.dev == c.dev)).flatMap (fun x =>
    (x.regions.zipIdx.filter (fun r => r.1.v && !(x.tag == c.tag && r.2 == i))).map (·.1))

/-- Bound of the pin caps of a device (R350). DESIGN CHOICE (log entry 123): R350's figure for mode ONE stands also where an H-die is
excluded and half of the L2 that is left is less. -/
def capBound (m : Mode) : Nat :=
  match m with
  | .one => 128 * 2 ^ 20
  | .two => 64 * 2 ^ 20
  | .eight => 16 * 2 ^ 20

/-- Tiles of a region that the siphon keeps. -/
def State.tilesOf (s : State) (c : Context) (r : Region) : List Tile :=
  s.home.tiles.filter (fun t => t.ctx == c.tag && r.holds t.base)

/-- Destroy check of R348: ERR 4. -/
def State.regionBusy (s : State) (c : Context) (r : Region) : Bool :=
  r.v && (s.tilesOf c r).any (fun t => t.st == .building || t.pin != 0)

/-- Destroying a region drops every line of it (R349). -/
def State.dropRegion (s : State) (c : Context) (r : Region) : State :=
  let ts := s.tilesOf c r
  let s1 := ts.foldl (fun s t => s.dropTile t) s
  { s1 with home := { s1.home with tiles := s1.home.tiles.filter (fun t => !(t.ctx == c.tag && r.holds t.base)) } }

def State.setRegion (s : State) (c : Context) (i : Nat) (f : Region → Region) : State :=
  s.updCtx c.tag (fun x => { x with regions := modNth f i x.regions })

/-- Bits [63:6] of a write. -/
def descOf (v : W64) : BitVec 58 := v.extractLsb' 6 58
def descVa (v : W64) : W64 := (v >>> 6) <<< 6

/-- A write of RREGION[i] with V = 1; none while the descriptor cannot be read yet. -/
def State.regionCreate (s : State) (c : Context) (i : Nat) (v : W64) : Option State :=
  match c.regions[i]? with
  | none => some s
  | some old =>
    let fails := fun (s : State) (e : BitVec 5) => some (s.setRegion c i (fun r => { r with err := e }))
    if s.regionBusy c old then fails s 4
    else match s.fBytes c (descVa v) 64 with
      | (.wait _, _) => none
      | (.ok b, s1) =>
        match regionOfDesc b with
        | none => fails s1 1
        | some r =>
          if (s1.otherRegions c i).any r.meets || s1.mapsIn c r then fails s1 2
          else if capBound s1.pkg.mode < ((s1.otherRegions c i).map Region.cap).sum + r.cap then fails s1 3
          else
            let s2 := if old.v then s1.dropRegion c old else s1
            some ((s2.setRegion c i (fun _ => { r with desc := descOf v })).updCtx c.tag (fun x => { x with reserve := true }))
      | (_, s1) => fails s1 1

/-- A write of RREGION[i] with V = 0. -/
def State.regionDestroy (s : State) (c : Context) (i : Nat) (v : W64) : State :=
  match c.regions[i]? with
  | none => s
  | some old =>
    if old.v = false then s
    else if s.regionBusy c old then s.setRegion c i (fun r => { r with err := 4 })
    else ((s.dropRegion c old).setRegion c i (fun _ => { desc := descOf v })).updCtx c.tag
      (fun x => { x with reserve := x.regions.any (fun r => r.v) })

/-! ## Nodes (R190, R348, R349) -/

/-- A node descriptor (R349), or none when it is malformed; the header is filled in later. -/
def nodeOfDesc (c : Context) (idx : Nat) (v : W64) (b : List Byte) : Option (Header → LNode) :=
  let w := fieldAt b 16 4
  let z := bitsOf w 15 0
  let n := bitsOf w 24 16
  let t := fieldAt b 20 4
  let pri := fieldAt b 24 1
  if bitsOf w 31 26 ≠ 0 ∨ z % 8 ≠ 0 ∨ z < 8 ∨ 256 < z ∨ n = 0 ∨ 256 < n ∨ 1000000 < t ∨ 7 < pri ∨ c.topPri.toNat < pri
      ∨ fieldAt b 25 39 ≠ 0 then none
  else some (fun h => ⟨c.dev, idx, c.tag, descOf v, BitVec.ofNat 64 (fieldAt b 0 8), BitVec.ofNat 64 (fieldAt b 8 8), z, n, t,
    bitsOf w 25 25 == 1, BitVec.ofNat 3 pri, h, [], []⟩)

/-- A header declaration disagrees with the descriptor (R349). -/
def LNode.mismatch (n : LNode) : Bool :=
  n.hdr.node && (n.z != n.hdr.nsize || n.c != n.hdr.ncount || n.t != n.hdr.ntimer || n.keyed != n.hdr.nkeyed)

/-- Destroy check of R348: ERR 4. -/
def State.nodeBusy (s : State) (n : LNode) : Bool :=
  n.records != 0 || s.sched.launches.any (fun l => l.ctx == n.ctx && l.node == some n.idx)

def State.setNodeReg (s : State) (c : Context) (r : NodeReg) : State :=
  s.updCtx c.tag (fun x => { x with nodeRegs := putIn (fun y => y.idx == r.idx) r x.nodeRegs })

def State.nodeErr (s : State) (c : Context) (idx : Nat) (e : BitVec 5) : State :=
  s.setNodeReg c { c.nodeReg idx with err := e }

def State.dropNode (s : State) (dev idx : Nat) : State :=
  { s with sched := { s.sched with nodes := s.sched.nodes.filter (fun n => !(n.dev == dev && n.idx == idx)) } }

/-- The create checks of a node after its descriptor: ERR, or 0. -/
def State.nodeCheck (s : State) (hr : HdrRes) (n : Header → LNode) (heldByOther : Bool) : BitVec 5 :=
  match hr with
  | .ok h =>
    let x := n h
    if x.mismatch then 1
    else if h.gang ≠ 0 then 2
    else if 4096 * h.basin < x.c * x.z then 3
    else if heldByOther then 5 else 0
  | _ => 2

/-- A write of NODEREG[i] with V = 1; none while the descriptor or the kernel cannot be read yet. -/
def State.nodeCreate (s : State) (c : Context) (i : Nat) (v : W64) : Option State :=
  if Config.maxNodes ≤ i then some s
  else
    let old := s.node? c.dev i
    let mine := (old.map (fun n => n.ctx == c.tag)).getD false
    let other := old.isSome && !mine
    if mine && (old.map s.nodeBusy).getD false then some (s.nodeErr c i 4)
    else match s.fBytes c (descVa v) 64 with
      | (.wait _, _) => none
      | (.ok b, s1) =>
        match nodeOfDesc c i v b with
        | none => some (s1.nodeErr c i 1)
        | some n =>
          match s1.readHeader c (BitVec.ofNat 64 (fieldAt b 0 8)) with
          | (.wait, _) => none
          | (hr, s2) =>
            let e := s2.nodeCheck hr n other
            match hr with
            | .ok h =>
              if e ≠ 0 then some (s2.nodeErr c i e)
              else
                let s3 := if mine then s2.dropNode c.dev i else s2
                some ({ s3 with sched := { s3.sched with nodes := s3.sched.nodes ++ [n h] } }.setNodeReg c ⟨i, descOf v, 0⟩)
            | _ => some (s2.nodeErr c i e)
      | (_, s1) => some (s1.nodeErr c i 1)

/-- A write of NODEREG[i] with V = 0. -/
def State.nodeDestroy (s : State) (c : Context) (i : Nat) (v : W64) : State :=
  match s.node? c.dev i with
  | none => s
  | some n =>
    if n.ctx ≠ c.tag then s.nodeErr c i 5
    else if s.nodeBusy n then s.nodeErr c i 4
    else (s.dropNode c.dev i).setNodeReg c ⟨i, descOf v, 0⟩

/-! ## The write of a register -/

/-- A write of a register, instance `i`, by a handler cell or the host (R340); none while it must wait. -/
def State.writeReg (s : State) (c : Context) (num : BitVec 11) (i : Nat) (v : W64) : Option State :=
  match num.toNat with
  | 0x101 => some (s.updCtx c.tag (fun x => x.setTrapq v))
  | 0x102 => some (s.updCtx c.tag (fun x => x.setTqHead v))
  | 0x106 => if v.getLsbD 0 then s.regionCreate c i v else some (s.regionDestroy c i v)
  | 0x107 => if v.getLsbD 0 then s.nodeCreate c i v else some (s.nodeDestroy c i v)
  | _ => some (s.updCtx c.tag (fun x => x.setPlain num v))

/-- Registers with instances (R321). -/
def hasInstances (num : BitVec 11) : Bool := [0x003, 0x004, 0x005, 0x006, 0x007, 0x106, 0x107].contains num.toNat

/-- PRIVILEGE of a register access (R321): AUX is the register number. -/
def regPriv (w : Who) (num : BitVec 11) : Option W64 :=
  if num.toNat < 0x100 ∨ w.cell.handler = true then none else some (num.setWidth 64)

/-- The instance that A names. -/
def Who.instance_ (w : Who) (num : BitVec 11) (tid : Nat) (a : BitVec 7) : Nat :=
  if hasInstances num then (w.src tid a 32).toNat else 0

/-- R320. -/
def execRdsys (i : BitVec 11) (a d : BitVec 7) (s : State) : Host.Outcome State Fault Refusal :=
  alu s (fun w => { rds := if hasInstances i then [(a, 32)] else [], wr := some (d, w.dstWidth d), lat := 4
                    bad := !rdsysNum i, priv := regPriv w i })
    (fun w tid => (((s.ctx? w.cell.ctx).map (fun c => s.readReg c i (w.instance_ i tid a))).getD 0, 0))

/-- The register that a host command writes: context, number, instance. -/
def regKey (i : Instr) : Option (BitVec 32 × Nat × Nat) :=
  match i with
  | .trapqWrite ctx _ => some (ctx, 0x101, 0)
  | .trapqheadWrite ctx _ => some (ctx, 0x102, 0)
  | .rregionCreate ctx r _ | .rregionDestroy ctx r _ => some (ctx, 0x106, r)
  | .noderegRegister ctx n _ | .noderegDestroy ctx n _ => some (ctx, 0x107, n)
  | .sysregWrite ctx num _ => some (ctx, num.toNat, 0)
  | _ => none

/-- A write of the register that the F-die received earlier still waits: this one comes after it (R340). -/
def State.regBehind (s : State) (ctx : BitVec 32) (num : BitVec 11) (i : Nat) (before : List Instr) : Bool :=
  before.any (fun x => regKey x == some (ctx, num.toNat, i) && s.waiting.contains x)

/-- `wrsys` waits for the device-scope sequentially consistent fence that it contains (R320), and for writes of its register that the
F-die received before it (R340). -/
def wrsysDesc (s : State) (w : Who) (i : BitVec 11) (a d : BitVec 7) : Desc where
  rds := (if hasInstances i then [(a, 32)] else []) ++ [(d, 64)]
  scalar := w.isK d
  settles := true
  bad := !wrsysNum i || !w.dataOk d
  priv := regPriv w i
  wait := w.tids.any (fun t => s.loadsOpen w t 3) || !s.relsDone w 2 3
    || w.tids.any (fun t => s.regBehind w.cell.ctx i (w.instance_ i t a) s.waiting)

/-- R320: the fence, then the write, which is in effect before any later access. -/
def execWrsys (i : BitVec 11) (a d : BitVec 7) (s : State) : Host.Outcome State Fault Refusal :=
  drive s (fun w => wrsysDesc s w i a d)
    (fun w tid s =>
      match s.ctx? w.cell.ctx with
      | none => (.done, s)
      | some c => match s.writeReg c i (w.instance_ i tid a) (w.src tid d 64) with
        | some s1 => (.done, s1)
        | none => (.stall, s))
    (fun w s => s.relStart 2 3 w)

/-! ## The host's writes (R340) -/

/-- A write by the host through the context commands; one that must wait for a line is held. -/
def State.hostWriteReg (s : State) (me : Instr) (ctx : BitVec 32) (num : BitVec 11) (i : Nat) (v : W64) : State :=
  match s.hostCtx? ctx with
  | none => s.unhold me
  | some c =>
    if s.regBehind ctx num i (s.waiting.takeWhile (· != me)) then s.hold me
    else match s.writeReg c num i v with
      | some s1 => s1.unhold me
      | none => s.hold me

/-- R347. -/
def execTrapqWrite (ctx : BitVec 32) (val : BitVec 64) (s : State) : Host.Outcome State Fault Refusal :=
  .next (s.hostWriteReg (.trapqWrite ctx val) ctx 0x101 0 val)
/-- R347, R378: room for waiting records. -/
def execTrapqheadWrite (ctx : BitVec 32) (val : BitVec 64) (s : State) : Host.Outcome State Fault Refusal :=
  .next (s.hostWriteReg (.trapqheadWrite ctx val) ctx 0x102 0 val)
/-- R348-R350: the value is taken with V = 1. -/
def execRregionCreate (ctx : BitVec 32) (r : Nat) (val : BitVec 64) (s : State) : Host.Outcome State Fault Refusal :=
  .next (s.hostWriteReg (.rregionCreate ctx r val) ctx 0x106 r (val ||| 1))
/-- R348, R349: the value is taken with V = 0. -/
def execRregionDestroy (ctx : BitVec 32) (r : Nat) (val : BitVec 64) (s : State) : Host.Outcome State Fault Refusal :=
  .next (s.hostWriteReg (.rregionDestroy ctx r val) ctx 0x106 r (val >>> 1 <<< 1))
/-- R190, R348, R349. -/
def execNoderegRegister (ctx : BitVec 32) (n : Nat) (val : BitVec 64) (s : State) : Host.Outcome State Fault Refusal :=
  .next (s.hostWriteReg (.noderegRegister ctx n val) ctx 0x107 n (val ||| 1))
/-- R348. -/
def execNoderegDestroy (ctx : BitVec 32) (n : Nat) (val : BitVec 64) (s : State) : Host.Outcome State Fault Refusal :=
  .next (s.hostWriteReg (.noderegDestroy ctx n val) ctx 0x107 n (val >>> 1 <<< 1))
/-- R347: CTXCTL, SLICE and WATCHDOG. -/
def execSysregWrite (ctx : BitVec 32) (num : BitVec 11) (val : BitVec 64) (s : State) : Host.Outcome State Fault Refusal :=
  .next (if num = 0x100 ∨ num = 0x104 ∨ num = 0x105 then s.hostWriteReg (.sysregWrite ctx num val) ctx num 0 val else s)

end Sys2Proof.Machine
end

