-- ==== Sys2Proof/Machine/System.lean ====
section
/-! DEFINITION. sysop (R322-R325): resuming and killing threads, killing cells, and the range functions. -/

namespace Sys2Proof.Machine

/-! ## Threads and cells named by a designator (R323) -/

/-- A designator with a reserved bit set. -/
def badDesig (a : W64) : Bool := a.extractLsb' 56 8 != 0

/-- A tid range with a reserved bit set, or whose last is below its first. -/
def badRange (b : W64) : Bool :=
  b.getLsbD 7 || b.extractLsb' 15 49 != 0 || decide ((b.extractLsb' 8 7).toNat < (b.extractLsb' 0 7).toNat)

/-- The cell of a context that a designator names. -/
def State.namedCell (s : State) (ctx : BitVec 32) (a : W64) : Option Cell :=
  s.cells.find? (fun c => c.ctx == ctx && c.tag == a.extractLsb' 40 16 && c.index == a.extractLsb' 0 32)

/-- Unit and threads that a designator and a range name in a cell. -/
def namedThreads (c : Cell) (a b : W64) : Nat × List Nat :=
  if a.getLsbD 39 then (0, [0])
  else
    let u := (a.extractLsb' 32 7).toNat + 1
    let lo := (b.extractLsb' 0 7).toNat
    let hi := (b.extractLsb' 8 7).toNat
    (u, if c.units.length ≤ u then [] else (List.range (c.unit u).threads.length).filter (fun t => decide (lo ≤ t) && decide (t ≤ hi)))

/-- What functions 0, 1 and 2 do to a thread. -/
def Thread.act (f clk : Nat) (t : Thread) : Thread :=
  match f with
  | 0 => t.resume false clk
  | 1 => t.resume true clk
  | _ => t.kill

/-- Rings with waiters in a cell show the waiters that are left (R181, R314). -/
def State.recountRings (s : State) (cell : Nat) (hs : List Nat) : State := hs.foldl (fun s h => s.countWaiters cell h) s

/-- Restart, skip or kill of named threads (R323); on an evicted cell it waits for the restore (R385). -/
def State.actOn (s : State) (c : Cell) (f : Nat) (u : Nat) (tids : List Nat) : State :=
  if c.evicted then s.updCell c.uid (fun x => { x with deferred := x.deferred ++ tids.map (fun t => (u, t, f)) })
  else
    let hs := ((tids.map (fun t => (c.unit u).thread t)).filter (fun t => t.st == .blocked && (t.wkind == 6 || t.wkind == 7))).map
      (fun t => t.wobj.toNat)
    let s1 := s.updThreads c.uid u tids (Thread.act f s.clk)
    if f = 2 then (s1.recountRings c.uid hs.dedup).dropExited c.uid else s1

/-- A cell is gone from the items that would restore it; an item that names no cell is removed. -/
def State.dropRestore (s : State) (uid : Nat) : State :=
  { s with sched := { s.sched with items := s.sched.items.filterMap (fun i => match i.kind with
      | .restore us =>
        let r := us.filter (· != uid)
        if r.isEmpty then none else some { i with kind := .restore r }
      | _ => some i) } }

/-- A killed cell whose record is discarded (R324, R385): nothing of it is restored. -/
def State.discardSaved (s : State) (uid : Nat) : State :=
  match s.cell? uid with
  | none => s
  | some c =>
    let s1 := c.subs.foldl (fun s x => s.unsubscribe uid x.slot) s
    let s2 := { s1 with
      home := { s1.home with msgs := s1.home.msgs.filter (fun m => m.cell != uid) }
      clu := { s1.clu with copies := s1.clu.copies.filter (fun o => o.cell != uid), mx := s1.clu.mx.filter (fun e => e.cell != uid) } }
    (s2.updCell uid (fun c => { c with subs := [], deferred := [] })).dropRestore uid

/-- The end of every thread of a cell (R324); its closes are the clk's (R128). -/
def State.kill (s : State) (uid : Nat) : State :=
  match s.cell? uid with
  | none => s
  | some c =>
    let s1 := (s.killCell uid).poisonBuilds uid
    if c.evicted then s1.discardSaved uid else s1

/-! ## The functions on threads and cells -/

/-- The shared frame of the sysop forms: privilege comes before what the operands hold (R208, R322). -/
def sysopDesc (w : Who) (f : Nat) (a b : BitVec 7) (useB : Bool) : Desc where
  rds := if useB then [(a, 64), (b, 64)] else [(a, 64)]
  priv := if w.cell.handler then none else some (BitVec.ofNat 64 f)

/-- The trap of a lane whose designator or range is bad (R323). -/
def sysopTrap (w : Who) (bad : Bool) : Option TrapInfo :=
  if bad then some ⟨tIllegal, 0, w.word.setWidth 64⟩ else none

/-- `sysop.restart`, `.skip` and `.kill`. -/
def threadOp (f : Nat) (b a : BitVec 7) (s : State) : Host.Outcome State Fault Refusal :=
  let bad := fun (w : Who) (t : Nat) =>
    badDesig (w.src t a 64) || (!(w.src t a 64).getLsbD 39 && badRange (w.src t b 64))
  drive s (fun w => sysopDesc w f a b true) (fun w tid s =>
    match sysopTrap w (bad w tid) with
    | some i => (.trap i, s)
    | none =>
      match s.namedCell w.cell.ctx (w.src tid a 64) with
      | none => (.done, s)
      | some c =>
        let n := namedThreads c (w.src tid a 64) (w.src tid b 64)
        (.done, s.actOn c f n.1 n.2))

/-- R323, R380. -/
def execSysopRestart (b a : BitVec 7) (s : State) : Host.Outcome State Fault Refusal := threadOp 0 b a s
/-- R323, R380. -/
def execSysopSkip (b a : BitVec 7) (s : State) : Host.Outcome State Fault Refusal := threadOp 1 b a s
/-- R314, R323. -/
def execSysopKill (b a : BitVec 7) (s : State) : Host.Outcome State Fault Refusal := threadOp 2 b a s

/-- R322, R324. -/
def execSysopKillcell (a : BitVec 7) (s : State) : Host.Outcome State Fault Refusal :=
  let bad := fun (w : Who) (t : Nat) => badDesig (w.src t a 64)
  drive s (fun w => sysopDesc w 6 a a false) (fun w tid s =>
    match sysopTrap w (bad w tid) with
    | some i => (.trap i, s)
    | none => match s.namedCell w.cell.ctx (w.src tid a 64) with
      | none => (.done, s)
      | some c => (.done, s.kill c.uid))

/-! ## Spans (R325) -/

/-- One page of a span: the VAs it covers of it, and the key of the first; none in a recipe region. -/
structure Page where
  lo : Nat
  hi : Nat
  key : Option Nat
deriving DecidableEq, Repr

/-- Where a walk over a span ends. -/
inductive RangeEnd where
  | done
  | bad (va : Nat)
  | host (va : Nat)
deriving DecidableEq, Repr

/-- The pages of a span, one walk each. -/
def State.rangeWalk (s : State) (c : Context) (cl va stop : Nat) : Nat → List Page × RangeEnd × State
  | 0 => ([], .done, s)
  | fuel + 1 =>
    if stop ≤ va then ([], .done, s)
    else
      let w := BitVec.ofNat 64 va
      if 2 ^ 64 ≤ va ∨ canonical w = false then ([], .bad va, s)
      else
        match c.region? w with
        | some r =>
          let next := (r.tileBase w).toNat + r.size
          let (l, e, s1) := s.rangeWalk c cl next stop fuel
          (⟨va, min next stop, none⟩ :: l, e, s1)
        | none =>
          match findLeaf s c cl w with
          | (.leaf lvl e, s1) =>
            let next := (pageNo lvl w + 1) * pageBytes lvl
            let key := match leafXlate s1.pkg c.dev lvl (e ||| 0x1C#64) w .load with
              | .ok k _ _ _ => some k
              | _ => none
            let (l, x, s2) := s1.rangeWalk c cl next stop fuel
            (⟨va, min next stop, key⟩ :: l, x, s2)
          | (.bad, s1) => ([], .bad va, s1)
          | (.host, s1) => ([], .host va, s1)

/-- The pages that the lines of the span [a, a + b) lie in. -/
def State.pagesOf (s : State) (c : Context) (cl : Nat) (a b : W64) : List Page × RangeEnd × State :=
  if b = 0 then ([], .done, s)
  else
    let lo := a.toNat / 128 * 128
    let hi := a.toNat + b.toNat
    s.rangeWalk c cl lo hi ((hi - lo) / 16384 + 2)

/-- A line number lies in one of the pages' spans. -/
def inPages (ps : List Page) (line : Nat) : Bool :=
  ps.any (fun p => match p.key with
    | some k => decide (k / 128 ≤ line) && decide (128 * line < k + (p.hi - p.lo))
    | none => false)

def vaInPages (ps : List Page) (va : W64) : Bool := ps.any (fun p => decide (p.lo ≤ va.toNat) && decide (va.toNat < p.hi))

/-- The trap or wait that ends a range function. -/
def rangeOut (w : Who) (tid : Nat) (e : RangeEnd) (s : State) : LaneOut × State :=
  match e with
  | .done => (.done, s)
  | .bad va => (.trap ⟨tTranslation, BitVec.ofNat 64 va, 0⟩, s)
  | .host va => (.block 16 (BitVec.ofNat 64 va), s.hostStall w.cell w.u w.unit [tid] (BitVec.ofNat 64 va) 0)

/-- TLB entries of a context that overlap a span of VAs go (R325, R399). -/
def State.dropTlb (s : State) (ctx : BitVec 32) (lo hi : Nat) : State :=
  { s with clu := { s.clu with tlb := s.clu.tlb.filter (fun t =>
      !(t.ctx == ctx && decide (t.page * pageBytes t.lvl < hi) && decide (lo < (t.page + 1) * pageBytes t.lvl))) } }

/-- The spans of VAs whose translations an invalidate of [lo, hi) removes: the span, and the pages of the TLB entries that overlap it. -/
def State.tlbSpans (s : State) (ctx : BitVec 32) (lo hi : Nat) : List (Nat × Nat) :=
  (lo, hi) :: (s.clu.tlb.filter (fun t => t.ctx == ctx && decide (t.page * pageBytes t.lvl < hi)
    && decide (lo < (t.page + 1) * pageBytes t.lvl))).map (fun t => (t.page * pageBytes t.lvl, (t.page + 1) * pageBytes t.lvl))

/-- Accesses of a context on spans of VAs that have translated and are not over. -/
def State.accessesOn (s : State) (ctx : BitVec 32) (spans : List (Nat × Nat)) : Bool :=
  let on := fun (va : W64) => spans.any (fun x => decide (x.1 ≤ va.toNat) && decide (va.toNat < x.2))
  s.clu.loads.any (fun l => !l.done && !basinKey l.key && on l.va && ((s.cell? l.cell).map (·.ctx)) == some ctx)
    || s.clu.stores.any (fun e => e.ctx == ctx && on e.va && !e.isMarker && !basinKey e.key)

/-- The pages, of 64 KiB where no larger one is known, that a span of VAs overlaps. -/
def wholePages (lo hi : Nat) : Nat × Nat := (lo / 65536 * 65536, (hi + 65535) / 65536 * 65536)

/-- The invalidate of a span of VAs: TLB entries of the pages that overlap it go, and subscriptions on those pages that it finds unmapped
fail (R129, R325). -/
def State.invalidate (s : State) (c : Context) (lo hi : Nat) : State :=
  (s.dropTlb c.tag lo hi).failUnmapped c (wholePages lo hi :: s.tlbSpans c.tag lo hi)

/-- End of a walk and end of the span that a thread's `tlbinv` acts on: the page that stops the walk is among them. -/
def State.tlbinvSpan (s : State) (w : Who) (c : Context) (tid : Nat) (a b : BitVec 7) : RangeEnd × Nat × State :=
  let (_, e, s1) := s.pagesOf c w.cell.cl (w.src tid a 64) (w.src tid b 64)
  (e, match e with
    | .done => (w.src tid a 64).toNat + (w.src tid b 64).toNat
    | .bad va | .host va => va + 1, s1)

/-- A thread's `tlbinv` waits for accesses already translated (R325). -/
def State.tlbinvWaits (s : State) (w : Who) (a b : BitVec 7) (tid : Nat) : Bool :=
  match s.ctx? w.cell.ctx with
  | none => false
  | some c => decide (w.src tid b 64 ≠ 0)
    && s.accessesOn c.tag (s.tlbSpans c.tag (w.src tid a 64).toNat (s.tlbinvSpan w c tid a b).2.1)

/-- R325: accesses already translated complete first. The page that stops the walk is invalidated too. -/
def execSysopTlbinv (b a : BitVec 7) (s : State) : Host.Outcome State Fault Refusal :=
  drive s (fun w => { sysopDesc w 3 a b true with wait := w.tids.any (s.tlbinvWaits w a b) }) (fun w tid s =>
    match s.ctx? w.cell.ctx with
    | none => (.done, s)
    | some c =>
      if w.src tid b 64 = 0 then (.done, s)
      else
        let (e, hi, s1) := s.tlbinvSpan w c tid a b
        rangeOut w tid e (s1.invalidate c (w.src tid a 64).toNat hi))

/-- A key whose home is the host or another device than `dev` (R343). -/
def outKey (dev key : Nat) : Bool := farKey key || (decide (keySpace key < 16) && decide (keySpace key ≠ dev))

/-- Stores to lines of the pages that are not performed. -/
def State.dirtyOn (s : State) (ps : List Page) : List StoreEnt :=
  s.clu.stores.filter (fun e => !e.isMarker && !basinKey e.key && inPages ps (e.key / 128))

/-- The stores to lines of the pages drain now. -/
def State.urgeOn (s : State) (ps : List Page) : State :=
  { s with clu := { s.clu with stores := s.clu.stores.map (fun e =>
      if !e.isMarker && !basinKey e.key && inPages ps (e.key / 128) then { e with urged := true } else e) } }

/-- The L2's dirty lines of the pages are written to their backing memory. -/
def State.writeBack (s : State) (ps : List Page) : State :=
  (s.home.lines.filter (fun h => inPages ps h.line && h.dirty)).foldl (fun s h =>
    (s.giveBack h).setLine { h with dirty := false, mine := if h.mine = .m then .e else h.mine }) s

/-- The L2 copies of the pages' host-homed and remote-homed lines go. -/
def State.dropFar (s : State) (dev : Nat) (ps : List Page) : State :=
  (s.home.lines.filter (fun h => inPages ps h.line && outKey dev (128 * h.line) && h.present)).foldl (fun s h => s.evictLine h) s

/-- Leased lines of the pages. -/
def State.leasedOn (s : State) (ps : List Page) : List Nat :=
  (s.home.lines.filter (fun h => inPages ps h.line && decide (s.tb < h.latest))).map (fun h => 128 * h.line)

/-- Keys that a range function on some pages waits for: stores not performed, then, for an `invrange`, lines leased (R325). -/
def State.rangeKeys (s : State) (ps : List Page) (inv : Bool) : List Nat :=
  let ds := (s.dirtyOn ps).map (·.key)
  if ds.isEmpty && inv then s.leasedOn ps else ds

/-- Keys that a thread's range function waits for. -/
def State.rangeWaits (s : State) (w : Who) (a b : BitVec 7) (inv : Bool) (tid : Nat) : List Nat :=
  match s.ctx? w.cell.ctx with
  | none => []
  | some c =>
    let (ps, _, s1) := s.pagesOf c w.cell.cl (w.src tid a 64) (w.src tid b 64)
    s1.rangeKeys ps inv

/-- What the wait for some keys is: a blocking point while host or fabric lines are among them, else an interlock. -/
def Who.farWait (w : Who) (ks : List Nat) : Bool := ks.any (outKey w.cell.dev)

/-- Write-back of a span, then, for an `invrange`, the removal of its far lines (R325). -/
def rangeLane (w : Who) (tid : Nat) (a b : BitVec 7) (inv : Bool) (s : State) : LaneOut × State :=
  match s.ctx? w.cell.ctx with
  | none => (.done, s)
  | some c =>
    let (ps, e, s1) := s.pagesOf c w.cell.cl (w.src tid a 64) (w.src tid b 64)
    let ks := s1.rangeKeys ps inv
    let out := fun (s : State) => if ks.isEmpty then rangeOut w tid e s else (if w.farWait ks then .block 15 (w.src tid a 64) else .stall, s)
    if (s1.dirtyOn ps).isEmpty then
      let s2 := s1.writeBack ps
      out (if inv then s2.dropFar c.dev ps else s2)
    else out (s1.urgeOn ps)

/-- The stores that the threads' range functions wait for drain, and written lines go, while the bundle is not ready. -/
def rangeStart (a b : BitVec 7) (inv : Bool) (w : Who) (s : State) : State := w.tids.foldl (fun s t => (rangeLane w t a b inv s).2) s

/-- Every wait of the threads is an interlock, and some thread has one. -/
def State.rangeHold (s : State) (w : Who) (a b : BitVec 7) (inv : Bool) : Bool :=
  let ks := w.tids.map (s.rangeWaits w a b inv)
  ks.any (fun k => !k.isEmpty) && !ks.any w.farWait

/-- R325. -/
def execSysopWbrange (b a : BitVec 7) (s : State) : Host.Outcome State Fault Refusal :=
  drive s (fun w => { rds := [(a, 64), (b, 64)], wait := s.rangeHold w a b false }) (fun w tid s => rangeLane w tid a b false s)
    (rangeStart a b false)

/-- R325. -/
def execSysopInvrange (b a : BitVec 7) (s : State) : Host.Outcome State Fault Refusal :=
  drive s (fun w => { sysopDesc w 5 a b true with wait := s.rangeHold w a b true }) (fun w tid s => rangeLane w tid a b true s)
    (rangeStart a b true)

end Sys2Proof.Machine
end

