-- ==== Sys2Proof/Machine/Place.lean ====
section
/-! DEFINITION. The launch unit: starting cells, the pending list, placement, pre-emption requests, slices, gathering room,
and the end of a cell (R10-R19, R32, R96, R143, R194, R359-R368, R386, R426). -/

namespace Sys2Proof.Machine

/-! ## Choosing -/

/-- The first element of a list that no other precedes under `lt`. -/
def pickMin {α : Type} (lt : α → α → Bool) : List α → Option α
  | [] => none
  | a :: r => match pickMin lt r with
    | some b => if lt b a then some b else some a
    | none => some a

/-- Class of an item in the ranking (R360). -/
def ItemKind.cls : ItemKind → Nat
  | .recipe _ => 0
  | .restore _ => 1
  | .node _ => 2
  | .launch _ => 3

/-- Lexicographic order on the fourth key. -/
def subLt (a b : Nat × Nat × Nat) : Bool :=
  decide (a.1 < b.1) || (a.1 == b.1 && (decide (a.2.1 < b.2.1) || (a.2.1 == b.2.1 && decide (a.2.2 < b.2.2))))

/-- One item ranks before another (R360). -/
def PendItem.before (a b : PendItem) : Bool :=
  if a.pri ≠ b.pri then decide (b.pri.toNat < a.pri.toNat)
  else if a.kind.cls ≠ b.kind.cls then decide (a.kind.cls < b.kind.cls)
  else if a.entry ≠ b.entry then decide (a.entry < b.entry)
  else if a.sub ≠ b.sub then subLt a.sub b.sub
  else decide (a.id < b.id)

/-- Items of a device in rank order. -/
def rankItems : Nat → List PendItem → List PendItem
  | 0, _ => []
  | n + 1, l => match pickMin PendItem.before l with
    | none => []
    | some i => i :: rankItems n (l.filter (fun x => x.id != i.id))

def State.ranked (s : State) (dev : Nat) : List PendItem :=
  let l := s.sched.items.filter (fun i => i.dev == dev)
  rankItems l.length l

def State.item? (s : State) (id : Nat) : Option PendItem := s.sched.items.find? (fun i => i.id == id)

def State.updItem (s : State) (id : Nat) (f : PendItem → PendItem) : State :=
  { s with sched := { s.sched with items := s.sched.items.map (fun i => if i.id = id then f i else i) } }

def State.dropItem (s : State) (id : Nat) : State :=
  { s with sched := { s.sched with items := s.sched.items.filter (fun i => i.id != id) } }

def State.launch? (s : State) (num : Nat) : Option Launch := s.sched.launches.find? (fun l => l.num == num)

def State.updLaunch (s : State) (num : Nat) (f : Launch → Launch) : State :=
  { s with sched := { s.sched with launches := s.sched.launches.map (fun l => if l.num = num then f l else l) } }

def State.dropLaunch (s : State) (num : Nat) : State :=
  { s with sched := { s.sched with launches := s.sched.launches.filter (fun l => l.num != num) } }

/-! ## Fit on a cluster as it stands (R11, R14, R15, R102, R143) -/

/-- The part of a cluster that a cell is to take. -/
inductive Part where
  /-- ordinary capacity; with `true`, less the recipe reserve. -/
  | open (reserve : Bool)
  /-- the recipe reserve. -/
  | reserve
deriving DecidableEq, Repr

/-- Basin offset that a cell of a kernel takes beside the cells `cs` on a cluster of `e` cores, when it fits. -/
def fitIn (e : Nat) (cs : List Cell) (h : Header) (p : Part) : Option Nat :=
  if e = 0 ∨ cs.any (fun c => c.hdr.fused != h.fused) = true then none
  else match p with
    | .open r =>
      let u := (useOf e (if r then cs.filter (fun c => !c.inReserve) else cs)).add (h.use e)
      if (if r then u.add (reserveUse e) else u).fits then freeBasin cs (4096 * h.basin) (openBasin r) else none
    | .reserve =>
      let top := openBasin true
      if cs.any (fun c => c.inReserve || (c.basinSize != 0 && decide (top < c.basinOff + c.basinSize))) then none
      else if ((useOf e cs).add (reserveUse e)).fits then some top else none

/-- Clusters that a restore item leaves alone: room that another item has gathered is not taken by the cells evicted for it (R362). -/
def State.barredTo (s : State) (i : PendItem) : List Nat :=
  match i.kind with
  | .restore us => (s.sched.items.filter (fun x => x.id != i.id && us.any x.gather.contains)).flatMap (·.room)
  | _ => []

/-- The cluster is empty, or runs the context and no request stops its placement there (R14, R366, R367). A cluster under request
takes only the item that raised the request, once it is empty. -/
def State.admits (s : State) (ctx : BitVec 32) (item cl : Nat) : Bool :=
  let cs := s.cellsOn cl
  let held := s.sched.items.filter (fun i => i.reqs.any (fun r => r.1 == cl))
  if ((s.item? item).map s.barredTo).any (fun l => l.contains cl) then false
  else if cs.isEmpty then held.all (fun i => i.id == item)
  else cs.all (fun c => c.ctx == ctx) && held.isEmpty && cs.all (fun c => !s.cellRequested c)

/-- Physical clusters of a device, in logical order, on which a cell that brings `recs` subscription records fits (R11, R117), each with
the basin offset. -/
def State.hosts (s : State) (dev : Nat) (ctx : BitVec 32) (item : Nat) (h : Header) (p : Part) (recs : Nat := 0) : List (Nat × Nat) :=
  (devClusters s.pkg dev).filterMap (fun cl =>
    if s.admits ctx item cl && decide (s.recordsUsed cl + recs ≤ Config.maxSubs) then
      (fitIn (numCores s.pkg cl) (s.cellsOn cl) h p).map (fun o => (cl, o)) else none)

/-- The recipe reserve binds the cells of a launch: of those that started under it, while the context has a region (R15, R143). -/
def State.binds (s : State) (l : Launch) : Bool := l.reserve && ((s.ctx? l.ctx).map Context.reserve).getD false

/-- `n` hosts on the lowest C-die that has them (R18). -/
def gangHosts (n : Nat) (l : List (Nat × Nat)) : Option (List (Nat × Nat)) :=
  ((List.range 8).map (fun d => l.filter (fun x => x.1 / 13 == d))).findSome? (fun g => if n ≤ g.length then some (g.take n) else none)

/-! ## Starting a cell (R10, R13, R32, R96, R194) -/

/-- Role of a crew (R29). -/
def Header.roleOf (h : Header) (crew : Nat) : Nat :=
  ((h.roles.find? (fun r => decide (r.1 ≤ crew) && decide (crew ≤ r.2.1))).map (fun r => r.2.2)).getD 0

def Thread.start (pc : W64) (clk : Nat) : Thread :=
  ⟨.eligible, pc, none, 0, clk + 1, clk + 1, 0, 0, 0, 0, 0, none, none, 0, none, none, [], [], none⟩

def Cistern.empty : Cistern := ⟨0, false, .free, 0, 0, false, 0, 0, 0, 0, [], none⟩

/-- Cisterns as declared (R32, R49). -/
def Header.cisterns (h : Header) : List Cistern :=
  (List.range h.ncis).map (fun n => match h.cdecls.find? (fun d => d.1 == n) with
    | some d => Cistern.empty.configure (d.2.setWidth 64)
    | none => Cistern.empty)

/-- A unit before anything is known of it. -/
def UnitSt.fresh (ts : List Thread) (regs : Store 64) (core slot role : Nat) : UnitSt :=
  ⟨ts, regs, [], 0, 0, 0, [], 0, 0, 0, [], [], [], false, false, 0, false, core, slot, role⟩

/-- Lowest number from `i` that a list does not hold. -/
def lowestFree (l : List Nat) : Nat → Nat → Nat
  | 0, i => i
  | fuel + 1, i => if l.contains i then lowestFree l fuel (i + 1) else i

/-- Crew slots in use on a core. -/
def slotsOf (cs : List Cell) (core : Nat) : List Nat :=
  cs.flatMap (fun c => (c.units.drop 1).filterMap (fun u => if u.core = core then some u.slot else none))

/-- Core and slot of every crew: the deal of R13, lowest free slots first. -/
def dealSlots (e : Nat) (cs : List Cell) : Nat → List (Nat × Nat)
  | 0 => []
  | n + 1 =>
    let prev := dealSlots e cs n
    let core := n % max e 1
    let used := slotsOf cs core ++ prev.filterMap (fun x => if x.1 = core then some x.2 else none)
    prev ++ [(core, lowestFree used used.length 0)]

/-- Lowest free spine thread. DESIGN CHOICE (log entry 39): R11 leaves open which free one a cell takes. -/
def freeSpine (cs : List Cell) : Nat := lowestFree (cs.map (fun c => c.spineNo)) cs.length 0

/-- Entries of a sparse store within `n` keys of `k` go. -/
def clearRange {w : Nat} (m : Store w) (k n : Nat) : Store w := m.filter (fun x => !(decide (k ≤ x.1) && decide (x.1 < k + n)))

/-- Basin bytes and full/empty bits of a cluster's range become zero (R96). -/
def State.zeroBasin (s : State) (cl off n : Nat) : State :=
  { s with home := { s.home with mem := clearRange s.home.mem (keyBasin cl off) n, fe := clearRange s.home.fe (feKey cl off) (n / 16) } }

/-- The basin of a cluster that a context takes up (R96 case 1). -/
def State.takeBasin (s : State) (cl : Nat) (ctx : BitVec 32) : State :=
  if s.clu.basinCtx.contains (cl, ctx) then s
  else
    let s1 := s.zeroBasin cl 0 Config.basinBytes
    { s1 with clu := { s1.clu with basinCtx := putIn (fun x => x.1 == cl) (cl, ctx) s1.clu.basinCtx } }

/-- A slice of a context begins on a cluster (R365). -/
def State.startSlice (s : State) (cl : Nat) (cx : Context) : State :=
  let old := s.sched.slices.find? (fun x => x.cl == cl)
  let x : ClSlice := ⟨cl, cx.tag, s.tb + cx.slice.toNat, (old.map ClSlice.endSeq).getD 0⟩
  { s with sched := { s.sched with slices := putIn (fun y => y.cl == cl) x s.sched.slices } }

/-- A cell's units at its start (R32). -/
def startUnits (s : State) (l : Launch) (idx : Nat) (cl : Nat) : List UnitSt :=
  let h := l.hdr
  let base := l.kimg + BitVec.ofNat 64 h.hbytes
  let t := fun (off : Nat) => Thread.start (base + BitVec.ofNat 64 (off + 4)) s.clk
  let spine := sset (sset (sset (sset [] 1 l.param) 2 (BitVec.ofNat 64 idx)) 3 (BitVec.ofNat 64 l.count)) 4 (BitVec.ofNat 64 (4096 * h.basin))
  let cs := s.cellsOn cl
  UnitSt.fresh [t h.spineOff] spine 0 (freeSpine cs) 0
    :: (dealSlots (numCores s.pkg cl) cs h.ncrew).zipIdx.map (fun d =>
      UnitSt.fresh (List.replicate h.width (t h.crewOff)) (sset [] 23 l.param) d.1.1 d.1.2 (h.roleOf d.2))

/-- A cell starts on a cluster: state, basin, batch, slice (R32, R96, R192, R365). -/
def State.startCell (s : State) (cx : Context) (l : Launch) (idx rank uid : Nat) (peers : List Nat) (cl off : Nat) (res : Bool)
    (save : BitVec 48) : State :=
  let h := l.hdr
  let first := (s.cellsOn cl).isEmpty
  let c : Cell :=
    { uid := uid, launch := l.num, ctx := l.ctx, dev := cx.dev, tag := l.tag, index := BitVec.ofNat 32 idx
      count := BitVec.ofNat 32 l.count, kimg := l.kimg, param := l.param, hdr := h, patches := l.patches, pri := l.pri
      node := l.node, nrec := BitVec.ofNat 16 l.batch.length, handler := l.handler, tile := l.tile, gang := h.gang, rank := rank
      peers := peers, cl := cl, spineNo := freeSpine (s.cellsOn cl), basinOff := off, basinSize := 4096 * h.basin
      inReserve := res, save := save, saveLen := h.saveBytes, placeSeq := s.fresh, cis := h.cisterns
      bars := List.replicate 16 ⟨0, []⟩, units := startUnits s l idx cl, subs := [], evicting := false, evTb := 0, evSeq := 0
      evicted := false, killed := false, deferred := [] }
  let s1 := s.takeBasin cl l.ctx
  let s2 := if h.bzero then s1.zeroBasin cl off c.basinSize else s1
  let s3 := { s2 with cells := s2.cells ++ [c], fresh := s2.fresh + 1 }
  let s4 := s3.writeBasin c 0 l.batch.flatten
  let s5 := match l.tile with
    | some (b, _) => s4.updTile l.ctx b (fun t => { t with owner := some uid })
    | none => s4
  if first then s5.startSlice cl cx else s5

/-- A cell of the item has been placed: its requests and marks go (R366, R367). -/
def State.placed (s : State) (item : Nat) : State := s.updItem item (fun i => { i with reqs := [], marks := [], gather := [], room := [] })

/-! ## Placing items (R14, R18, R143, R361, R369) -/

/-- Records for `n` cells of a kernel, none when the pool has no room (R386). -/
def State.poolRooms (s : State) (cx : Context) (h : Header) : Nat → Option (List (BitVec 48))
  | 0 => some []
  | n + 1 =>
    match s.poolRoom cx h.saveBytes with
    | none => none
    | some a =>
      -- the room just found counts as taken for the next one
      match ({ cx with poolBase := BitVec.ofNat 48 (a.toNat + h.saveBytes)
                       poolSize := cx.poolBase.toNat + cx.poolSize - (a.toNat + h.saveBytes) } : Context) with
      | cx1 => (s.poolRooms cx1 h n).map (a :: ·)

/-- The next cell, or the next gang, of a launch is placed when it fits (R14, R18). -/
def State.placeNext (s : State) (i : PendItem) (cx : Context) (l : Launch) : Option State :=
  let hosts := s.hosts i.dev i.ctx i.id l.hdr (.open (s.binds l))
  let n := max l.hdr.gang 1
  match (if l.hdr.gang = 0 then (hosts.head?).map (fun h => [h]) else gangHosts n hosts), s.poolRooms cx l.hdr n with
  | some hs, some saves =>
    let uids := (List.range n).map (s.fresh + ·)
    let s0 : State := { s with fresh := s.fresh + n }
    let start := fun (s : State) (k : Nat) =>
      let x := hs.getD k (0, 0)
      s.startCell cx l (l.next + k) (if l.hdr.gang = 0 then 0 else k) (uids.getD k 0) (uids.filter (· != uids.getD k 0)) x.1 x.2 false
        (saves.getD k 0)
    some ((((List.range n).foldl start s0).updLaunch l.num (fun x => { x with next := x.next + n })).placed i.id)
  | _, _ => none

/-- A launch item places its cells in index order until one does not fit; it leaves the list with its last one. -/
def State.placeLaunch (s : State) (i : PendItem) (num : Nat) : Nat → State
  | 0 => s
  | fuel + 1 =>
    match s.launch? num, s.ctx? i.ctx with
    | some l, some cx =>
      if l.count ≤ l.next then s.dropItem i.id
      else match s.placeNext i cx l with
        | some s1 => s1.placeLaunch i num fuel
        | none => s
    | _, _ => s.dropItem i.id

/-- Place of a launch fault report among the records of its clk: after those of cells. DESIGN CHOICE (log entry 118): it belongs to no
cell, and the order of R59 names none for it. -/
def launchPlace : Nat := 2 ^ 64

/-- A launch fault report (R375, R426): KIND 2. -/
def State.launchFault (s : State) (cx : Context) (l : Launch) (entry : Nat) : State :=
  let handle := BitVec.ofNat 64 (l.ctx.toNat * 2 ^ 32 + (fabidOf s.pkg cx.dev).toNat * 2 ^ 16 + l.node.getD 0)
  s.sendTrap ⟨cx.dev, l.ctx,
    [BitVec.ofNat 64 (l.ctx.toNat * 2 ^ 32 + 2 * 2 ^ 8 + tPatch.toNat), BitVec.ofNat 64 (l.tag.toNat * 2 ^ 40), 0, handle,
     BitVec.ofNat 64 entry, BitVec.ofNat 64 l.batch.length, 0, BitVec.ofNat 64 s.tb], l.handler, s.clk, launchPlace⟩

/-- A fired cell whose patch values do not fit is not launched (R426). -/
def State.failFired (s : State) (i : PendItem) (cx : Context) (l : Launch) (entry : Nat) : State :=
  let s1 := s.launchFault cx l entry
  let s2 := match l.tile with
    | some (b, _) => s1.poisonTile l.ctx b
    | none => s1
  (s2.dropItem i.id).dropLaunch l.num

/-- The cell of a fired bin, or a recipe cell, starts on a cluster. -/
def State.startFired (s : State) (i : PendItem) (cx : Context) (l : Launch) (cl off : Nat) (res : Bool) (save : BitVec 48) : State :=
  match s.patchValues cx (l.kimg + BitVec.ofNat 64 l.hdr.hbytes) l.param 0 l.hdr.patches with
  | (.wait, _) => s
  | (.ok ps, s1) =>
    let l1 := { l with patches := ps }
    let s2 := (s1.updLaunch l.num (fun _ => { l1 with next := 1 })).dropItem i.id
    ({ s2 with fresh := s2.fresh + 1 }).startCell cx l1 0 0 s2.fresh [] cl off res save
  | (.range k, s1) => s1.failFired i cx l k
  | (.fault, s1) => s1.failFired i cx l 0

/-- Where a recipe cell goes: ordinary capacity of the lowest cluster that has room, or else the lowest free reserve (R143). -/
def State.recipeHost (s : State) (i : PendItem) (h : Header) (recs : Nat := 0) : Option (Nat × Nat × Bool) :=
  match s.hosts i.dev i.ctx i.id h (.open true) recs with
  | x :: _ => some (x.1, x.2, false)
  | [] => match s.hosts i.dev i.ctx i.id h .reserve recs with
    | x :: _ => some (x.1, x.2, true)
    | [] => none

/-- A node or recipe item (R143, R194). -/
def State.placeFired (s : State) (i : PendItem) (num : Nat) : State :=
  match s.launch? num, s.ctx? i.ctx with
  | some l, some cx =>
    let host := if l.tile.isSome then s.recipeHost i l.hdr
      else ((s.hosts i.dev i.ctx i.id l.hdr (.open (s.binds l))).head?).map (fun x => (x.1, x.2, false))
    match host, s.poolRoom cx l.hdr.saveBytes with
    | some (cl, off, res), some save => s.startFired i cx l cl off res save
    | _, _ => s
  | _, _ => s.dropItem i.id

/-- The saved cells of a restore item, in gang rank; none when some are not there to be restored. -/
def State.restoreCells (s : State) (us : List Nat) : List Cell :=
  let cs := (us.filterMap s.cell?).filter (fun c => c.evicted && !c.killed)
  let order := (List.range 8).filterMap (fun r => cs.find? (fun c => c.rank == r))
  if order.length = us.length then order else []

/-- Subscription records that a cell brings to a cluster (R117). -/
def Cell.records (c : Cell) : Nat := (c.subs.filter (fun x => x.st.live)).length

/-- One of the places for each of the cells, no place twice; the first that allows the rest. -/
def assign (ok : Cell → Nat × Nat → Bool) : List Cell → List (Nat × Nat) → Option (List (Nat × Nat))
  | [], _ => some []
  | c :: r, hs => hs.findSome? (fun h => if ok c h then (assign ok r (hs.filter (· != h))).map (h :: ·) else none)

/-- Clusters for the cells of a restore item, in gang rank: cluster, basin offset, recipe reserve (R117, R143, R369). DESIGN CHOICE (log
entry 40): R369 allows any on which they fit; the model takes the lowest, for a gang of the lowest C-die. -/
def State.restoreHosts (s : State) (i : PendItem) : List Cell → Option (List (Nat × Nat × Bool))
  | [] => none
  | c :: r =>
    if c.tile.isSome then (s.recipeHost i c.hdr c.records).map (fun h => [h])
    else
      let hosts := s.hosts i.dev i.ctx i.id c.hdr (.open (((s.launch? c.launch).map s.binds).getD false))
      let ok := fun (c : Cell) (h : Nat × Nat) => decide (s.recordsUsed h.1 + c.records ≤ Config.maxSubs)
      let l := if c.hdr.gang = 0 then assign ok [c] hosts
        else (List.range 8).findSome? (fun d => assign ok (c :: r) (hosts.filter (fun h => h.1 / 13 == d)))
      l.map (fun l => l.map (fun h => (h.1, h.2, false)))

/-- A restore item whose cells fit. -/
def State.restoreFits (s : State) (i : PendItem) : Bool :=
  match i.kind with
  | .restore us => (s.restoreHosts i (s.restoreCells us)).isSome
  | _ => false

/-- One visit of the launch unit to an item; a restore is its own step (R361, R369). -/
def State.visit (s : State) (i : PendItem) : State :=
  match i.kind with
  | .launch n => s.placeLaunch i n 512
  | .node n | .recipe n => s.placeFired i n
  | .restore _ => s

/-- The visits in rank order; nothing below an item that stopped backfilling is placed while it waits (R361). A restore that
fits comes before everything below it: its own step follows, and then the visits again. -/
def State.visitAll (s : State) : List Nat → State
  | [] => s
  | id :: r =>
    match s.item? id with
    | none => s.visitAll r
    | some i =>
      let s1 := s.visit i
      if s1.restoreFits i then s1
      else if i.stop && (s1.item? id).isSome then s1 else s1.visitAll r

/-- R361: every item whose cell fits is placed, in rank order. -/
def execCellPlace (dev : Nat) (s : State) : Host.Outcome State Fault Refusal :=
  .next (s.visitAll ((s.ranked dev).map (·.id)))

/-- R361: an item that has waited SLICE.LEN stops backfilling. -/
def execBackfillStop (item : Nat) (s : State) : Host.Outcome State Fault Refusal :=
  match s.item? item with
  | none => .next s
  | some i => match s.ctx? i.ctx with
    | some cx => .next (if i.since + cx.slice.toNat ≤ s.tb then s.updItem item (fun x => { x with stop := true }) else s)
    | none => .next s

/-! ## What an item would need (R16, R366) -/

/-- Header, reserve, and number of clusters of the next cell or gang of an item. -/
def State.wants (s : State) (i : PendItem) : Option (Header × Bool × Nat) :=
  match i.kind with
  | .launch n | .node n => (s.launch? n).map (fun l => (l.hdr, s.binds l, max l.hdr.gang 1))
  | .recipe n => (s.launch? n).map (fun l => (l.hdr, false, 1))
  | .restore us => ((us.head?).bind s.cell?).map (fun c => (c.hdr, (((s.launch? c.launch).map s.binds).getD false) && c.tile.isNone,
      us.length))

/-- The item's records fit the pool, or it has them already (R386). -/
def State.hasPool (s : State) (i : PendItem) (h : Header) (n : Nat) : Bool :=
  match i.kind with
  | .restore _ => true
  | _ => match s.ctx? i.ctx with
    | some cx => (s.poolRooms cx h n).isSome
    | none => false

/-- Highest priority among the cells on a cluster. -/
def State.topOn (s : State) (cl : Nat) : Nat := ((s.cellsOn cl).map (fun c => c.pri.toNat)).foldl max 0

/-- A cluster of another context that the item could take, under no request yet (R366). -/
def State.target (s : State) (i : PendItem) (h : Header) (reserve : Bool) (cl : Nat) : Bool :=
  let cs := s.cellsOn cl
  !cs.isEmpty && cs.all (fun c => c.ctx != i.ctx) && !s.requested cl && h.fitsEmpty (numCores s.pkg cl) reserve

/-- Watchdog's end for a request raised now (R368). -/
def State.deadline (s : State) (cl : Nat) : Nat :=
  match ((s.cellsOn cl).head?).bind (fun c => s.ctx? c.ctx) with
  | some cx => s.tb + cx.watchdog.toNat
  | none => s.tb

/-- The item raises requests on clusters. -/
def State.raiseOn (s : State) (item : Nat) (cls : List Nat) : State :=
  s.updItem item (fun i => { i with reqs := cls.map (fun c => (c, s.tb, s.deadline c)) })

/-- Order of clusters for the priority case: lower highest priority, then lower logical number. -/
def State.byTop (s : State) (a b : Nat) : Bool := decide (s.topOn a < s.topOn b) || (s.topOn a == s.topOn b && decide (a < b))

/-- The `n` first clusters under an order. -/
def firstN (lt : Nat → Nat → Bool) : Nat → List Nat → List Nat
  | 0, _ => []
  | n + 1, l => match pickMin lt l with
    | none => []
    | some a => a :: firstN lt n (l.filter (· != a))

/-- `n` clusters of the lowest C-die that has them, first under an order. -/
def firstOnDie (lt : Nat → Nat → Bool) (n : Nat) (l : List Nat) : Option (List Nat) :=
  ((List.range 8).map (fun d => l.filter (fun x => x / 13 == d))).findSome? (fun g =>
    if n ≤ g.length then some (firstN lt n g) else none)

/-- R366, the priority case. -/
def execPreemptRequestRaise (item : Nat) (s : State) : Host.Outcome State Fault Refusal :=
  match s.item? item with
  | none => .next s
  | some i =>
    match s.wants i with
    | none => .next s
    | some (h, res, n) =>
      if !i.reqs.isEmpty || !s.hasPool i h n then .next s
      else
        let cls := (devClusters s.pkg i.dev).filter (fun cl => s.target i h res cl && decide (s.topOn cl < i.pri.toNat))
        if n = 1 then
          match pickMin s.byTop cls with
          | some cl => .next (s.raiseOn item [cl])
          | none => .next s
        else match firstOnDie s.byTop n cls with
          | some l => .next (s.raiseOn item l)
          | none => .next s

/-! ## Slices (R365, R366) -/

/-- Order in which marked clusters' slices ended. -/
def markLt (m : List (Nat × Nat)) (a b : Nat) : Bool :=
  let o : Nat → Nat := fun c => ((m.find? (fun x => x.1 == c)).map (·.2)).getD 0
  decide (o a < o b) || (o a == o b && decide (a < b))

/-- A slice end as a waiting item meets it: a request on the cluster, or for a gang a mark and, when enough are marked, requests. -/
def State.offerEnd (s : State) (cl : Nat) (i : PendItem) : State :=
  match s.wants i with
  | none => s
  | some (h, res, n) =>
    if !i.reqs.isEmpty || !s.hasPool i h n || !s.target i h res cl || decide (i.pri.toNat < s.topOn cl) then s
    else if n = 1 then s.raiseOn i.id [cl]
    else
      let m := (i.marks.filter (fun x => x.1 != cl)) ++ [(cl, s.fresh)]
      let s1 := s.updItem i.id (fun x => { x with marks := m })
      match firstOnDie (markLt m) n ((m.map (·.1)).filter (fun c => s1.target i h res c)) with
      | some l => s1.raiseOn i.id l
      | none => s1

/-- R365, R366: a cluster's slice ends; items in rank order may raise a request; else a new slice begins. -/
def execSliceEnd (cl : Nat) (s : State) : Host.Outcome State Fault Refusal :=
  match s.sched.slices.find? (fun x => x.cl == cl) with
  | none => .next s
  | some x =>
    if s.tb < x.ends ∨ s.requested cl = true then .next s
    else if (s.cellsOn cl).isEmpty then
      .next { s with sched := { s.sched with slices := s.sched.slices.filter (fun y => y.cl != cl) } }
    else
      let dev := devOfDie s.pkg.mode (cl / 13)
      let s1 := (s.ranked dev).foldl (fun s i => s.offerEnd cl i) s
      let len := ((s.ctx? x.ctx).map (fun c => c.slice.toNat)).getD 0
      let y : ClSlice := { x with endSeq := s.fresh, ends := if s1.requested cl then x.ends else s.tb + max len 1 }
      .next { s1 with sched := { s1.sched with slices := putIn (fun z => z.cl == cl) y s1.sched.slices } }.tick1

/-! ## The watchdog (R368) -/

/-- Requests that act on a cell: on its cluster or on a cluster of its gang. -/
def State.requestsOn (s : State) (c : Cell) : List (Nat × Nat × Nat) :=
  (s.sched.items.flatMap (fun i => i.reqs)).filter (fun r => r.1 == c.cl
    || s.cells.any (fun x => c.peers.contains x.uid && !x.evicted && x.cl == r.1))

/-- Cells that a request on a cluster acts on and that are still resident. -/
def State.actedOn (s : State) (cl : Nat) : List Cell :=
  s.cells.filter (fun c => !c.evicted && !c.evicting
    && (c.cl == cl || s.cells.any (fun x => c.peers.contains x.uid && !x.evicted && x.cl == cl)))

/-- A change made in turn to each of the cells, as it then is. -/
def State.onCells (s : State) (l : List Cell) (f : State → Cell → State) : State :=
  l.foldl (fun s x => match s.cell? x.uid with
    | some c => f s c
    | none => s) s

/-- The unit's core is stalled on a fault that the host serves (R381). -/
def State.stalledUnit (s : State) (c : Cell) (u : Nat) : Bool :=
  s.clu.stalls.any (fun x => x.cl == c.cl && x.core == coreNo u (c.unit u))

/-- R368: a stalled thread never traps (R382); the eligible threads of each cell still there trap with SLICE_OVERRUN, those of a bundle in its passes once they are over. -/
def execWatchdogExpiry (cl : Nat) (s : State) : Host.Outcome State Fault Refusal :=
  match (s.sched.items.flatMap (fun i => i.reqs)).find? (fun r => r.1 == cl && decide (r.2.2 ≤ s.tb)) with
  | none => .next s
  | some r =>
    .next (s.onCells (s.actedOn cl) (fun s c =>
      let s1 := (List.range c.units.length).foldl (fun s u =>
        s.parkByPc c.uid u (fun i t => t.st == .eligible && !s.inPass c.uid u i && !s.stalledUnit c u) ⟨tSlice, 0, BitVec.ofNat 64 r.2.1⟩) s
      if s1.sched.traps.length == s.sched.traps.length then s1 else s1.poisonBuilds c.uid))

/-! ## Eviction points and gathering (R19, R143, R362, R384) -/

/-- Every thread is blocked, held, parked or exited, or stalled on a fault that the host serves (R382). An `lwait` is a blocking point while a batch contains a fabric or host access (R110). -/
def State.atPoint (s : State) (c : Cell) : Bool :=
  c.units.zipIdx.all (fun u => u.1.threads.all (fun t =>
    (t.st != .eligible || s.stalledUnit c u.2) && !(t.st == .blocked && t.wkind == 9 && !s.farBatch c.uid u.2)))

/-- The cells of a gang that are placed, or the cell alone. -/
def State.gangOf (s : State) (c : Cell) : List Cell := c :: s.cells.filter (fun x => c.peers.contains x.uid && !x.evicted)

/-- A cell may pass its eviction point now, its whole gang with it. -/
def State.evictable (s : State) (c : Cell) : Bool := (s.gangOf c).all (fun x => s.atPoint x && !x.evicting && !x.evicted)

/-- Victims are taken lowest priority first, then latest placement (R143, R362). -/
def victimLt (a b : Cell) : Bool :=
  decide (a.pri.toNat < b.pri.toNat) || (a.pri == b.pri && decide (b.placeSeq < a.placeSeq))

/-- A recipe cell waits on a build (R143). -/
def Cell.waitsOnBuild (c : Cell) : Bool := c.units.any (fun u => u.threads.any (fun t => t.st == .blocked && t.wkind == 8))

/-- Recipe cells are taken shallowest tile first. -/
def shallowLt (a b : Cell) : Bool :=
  let d := fun (c : Cell) => (c.tile.map (·.2)).getD 0
  decide (d a < d b) || (d a == d b && victimLt a b)

/-- The uids to evict from a cluster so that a cell of a kernel fits one of the parts; none when evicting all is not enough. -/
def State.roomBy (s : State) (e : Nat) (cs : List Cell) (h : Header) (parts : List Part) (pick : List Cell → Option Cell) :
    Nat → Option (List Nat)
  | 0 => none
  | fuel + 1 =>
    if parts.any (fun p => (fitIn e cs h p).isSome) then some []
    else match pick cs with
      | none => none
      | some v =>
        let gone := (s.gangOf v).map (·.uid)
        (s.roomBy e (cs.filter (fun c => !gone.contains c.uid)) h parts pick fuel).map (gone ++ ·)

/-- A thread of a stalled core is saved blocked: it issues again at its PC after the restore (R382). DEDUCED (log entry 115): also one
that waits only because its core is stalled has the stall's wake kind, with its own PC as the object. -/
def Thread.stalledWait (t : Thread) (clk seq : Nat) : Thread :=
  if t.st = .eligible then { t with st := .blocked, bun := 0, wkind := 16, wobj := t.pc, wclk := clk, wseq := seq, word := none } else t

/-- The cells pass their eviction point. -/
def State.beginEvict (s : State) (uids : List Nat) : State :=
  uids.foldl (fun s u => s.updCell u (fun c => { c with evicting := true, evTb := s.tb, evSeq := s.fresh
                                                        units := c.units.zipIdx.map (fun x =>
    if s.stalledUnit c x.2 then { x.1 with threads := x.1.threads.map (fun t => t.stalledWait s.clk s.fresh) } else x.1) })) s

/-- Cells that an item gathers from have not all been saved. -/
def State.gathering (s : State) (i : PendItem) : Bool := i.gather.any (fun u => (s.cell? u).any (fun c => c.evicting))

/-- Clusters of its own context that no request concerns, and empty ones (R143, R362). -/
def State.ownOrEmpty (s : State) (i : PendItem) : List Nat :=
  (devClusters s.pkg i.dev).filter (fun cl => s.admits i.ctx i.id cl)

/-- One list of victims comes before another: it is shorter, or the first victim that differs is to be taken before (R362). -/
def planLt : List Cell → List Cell → Bool
  | [], [] => false
  | [], _ :: _ => true
  | _ :: _, [] => false
  | a :: r, b :: t => decide (r.length < t.length) || (r.length == t.length && (victimLt a b || (!victimLt b a && planLt r t)))

/-- Cells that a gang evicts to fit, and the clusters it then takes: of its own context and of equal or lower priority, on the C-die that
needs the fewest (R362). -/
def State.gangPlan (s : State) (i : PendItem) (h : Header) (res : Bool) (n : Nat) : Option (List Nat × List Nat) :=
  let pick := fun (cs : List Cell) => pickMin victimLt (cs.filter (fun c => s.evictable c && decide (c.pri.toNat ≤ i.pri.toNat)))
  let room := (s.ownOrEmpty i).filterMap (fun cl =>
    (s.roomBy (numCores s.pkg cl) (s.cellsOn cl) h [.open res] pick 8).map (fun v => (cl, v)))
  let perDie := (List.range 8).filterMap (fun d =>
    let l := room.filter (fun x => x.1 / 13 == d)
    let cls := firstN (fun a b =>
      let k : Nat → List Cell := fun c => ((l.find? (fun x => x.1 == c)).map (fun x => x.2.filterMap s.cell?)).getD []
      planLt (k a) (k b) || (!planLt (k b) (k a) && decide (a < b))) n (l.map (·.1))
    if cls.length < n then none
    else some (((l.filter (fun x => cls.contains x.1)).flatMap (·.2)).dedup, cls))
  pickMin (fun a b => decide (a.1.length < b.1.length)) perDie

/-- The cells pass their eviction point for an item, which gathers room on the clusters. -/
def State.gatherFor (s : State) (item : Nat) (plan : Option (List Nat × List Nat)) : State :=
  match plan with
  | none => s
  | some (vs, cls) => (s.beginEvict vs).updItem item (fun x => { x with gather := vs, room := cls })

/-- R362: a gang that has waited 10 µs and fits nowhere evicts the cells of its plan. -/
def execGangGatherRoom (item : Nat) (s : State) : Host.Outcome State Fault Refusal :=
  match s.item? item with
  | none => .next s
  | some i =>
    match s.wants i with
    | none => .next s
    | some (h, res, n) =>
      let free := gangHosts n (s.hosts i.dev i.ctx i.id h (.open res))
      if n = 1 ∨ free.isSome = true ∨ s.tb < i.since + 10000 ∨ s.gathering i = true ∨ s.hasPool i h n = false then .next s
      else .next (s.gatherFor item (s.gangPlan i h res n))

/-- Cells that a recipe item evicts to fit, and where: of its own context, on the lowest cluster where that makes room (R143). -/
def State.recipePlan (s : State) (i : PendItem) (h : Header) : Option (List Nat × List Nat) :=
  let pick := fun (cs : List Cell) =>
    match pickMin victimLt (cs.filter (fun c => s.evictable c && c.tile.isNone)) with
    | some v => some v
    | none => pickMin shallowLt (cs.filter (fun c => s.evictable c && c.tile.isSome && c.waitsOnBuild))
  (s.ownOrEmpty i).findSome? (fun cl => (s.roomBy (numCores s.pkg cl) (s.cellsOn cl) h [.open true, .reserve] pick 8).map
    (fun v => (v, [cl])))

/-- R143: a recipe item with no room evicts the cells of its plan. -/
def execRecipeGatherRoom (item : Nat) (s : State) : Host.Outcome State Fault Refusal :=
  match s.item? item with
  | none => .next s
  | some i =>
    match i.kind, s.wants i with
    | .recipe _, some (h, _, _) =>
      if (s.recipeHost i h).isSome ∨ s.gathering i = true ∨ s.hasPool i h 1 = false then .next s
      else .next (s.gatherFor item (s.recipePlan i h))
    | _, _ => .next s

/-! ## The end of a cell (R17) -/

/-- Every condition of R17 holds. -/
def State.mayEnd (s : State) (c : Cell) : Bool :=
  c.units.all (fun u => u.threads.all (fun t => t.st == .exited)) && c.subs.all (fun x => !x.st.live)
    && s.clu.copies.all (fun o => o.cell != c.uid) && s.clu.mx.all (fun e => e.cell != c.uid)
    && s.clu.stores.all (fun e => e.cell != c.uid) && !c.evicting

/-- Planes that queues of a cell loaded lose their owner (R189). -/
def State.disown (s : State) (uid : Nat) : State :=
  let f := fun (p : Plane) => if (p.owner.map (·.1)) == some uid then { p with owner := none } else p
  { s with clu := { s.clu with arrays := s.clu.arrays.map (fun a => { a with shadow := f a.shadow, active := f a.active }) } }

/-- A cell of a launch is over; a fired launch is over with it, a command's work is over with its last cell. -/
def State.endOfLaunch (s : State) (num : Nat) : State :=
  match s.launch? num with
  | none => s
  | some l =>
    let s1 := s.updLaunch num (fun x => { x with ended := x.ended + 1 })
    if l.ended + 1 < l.count then s1
    else
      let s2 := s1.dropLaunch num
      match l.queue with
      | none => s2
      | some q => { s2 with sched := { s2.sched with queues := modNth (fun h => { h with running := h.running.map (fun c =>
          if c.opc = 1 ∧ c.prog = num then { c with finished := true } else c) }) q s2.sched.queues } }

/-- A destroyed context with no cell left goes, with its tiles, translations and waiting records (R371). -/
def State.sweepContext (s : State) (tag : BitVec 32) : State :=
  match s.ctx? tag with
  | none => s
  | some cx =>
    if cx.dying = false ∨ s.cells.any (fun c => c.ctx == tag) = true then s
    else
      let s1 := (s.home.tiles.filter (fun t => t.ctx == tag)).foldl (fun s t => s.dropTile t) s
      { s1 with
        sched := { s1.sched with ctxs := s1.sched.ctxs.filter (fun c => c.tag != tag), traps := s1.sched.traps.filter (fun t => t.ctx != tag)
                                 remotes := s1.sched.remotes.filter (fun r => r.src != tag) }
        home := { s1.home with tiles := s1.home.tiles.filter (fun t => t.ctx != tag) }
        clu := { s1.clu with tlb := s1.clu.tlb.filter (fun t => t.ctx != tag), stalls := s1.clu.stalls.filter (fun t => t.ctx != tag) } }

/-- R17, R144, R189: the cell's resources are free, a tile it was building is poisoned, its launch may be over. -/
def execCellEnd (cell : Nat) (s : State) : Host.Outcome State Fault Refusal :=
  match s.cell? cell with
  | none => .next s
  | some c =>
    if s.mayEnd c = false ∨ (c.evicted = true ∧ c.killed = false) then .next s
    else
      let s1 := ((s.poisonBuilds cell).disown cell).dropDraws (fun d => d.cell == cell)
      let s2 : State := { s1 with
        cells := s1.cells.filter (fun x => x.uid != cell)
        clu := { s1.clu with loads := s1.clu.loads.filter (fun l => l.cell != cell)
                             feOps := s1.clu.feOps.filter (fun o => o.cell != cell) }
        home := { s1.home with msgs := s1.home.msgs.filter (fun m => m.cell != cell) } }
      .next (((s2.dropRestore cell).endOfLaunch c.launch).sweepContext c.ctx)

end Sys2Proof.Machine
end

