-- ==== Sys2Proof/Machine/Context.lean ====
section
/-! DEFINITION. The host's context commands (R339-R341, R371, R394, R395, R399), firmware commands (R341, R402, R417, R419,
R422, R424), and the host's accesses, bias flips and poison clears (R408-R410). -/

namespace Sys2Proof.Machine

/-! ## Contexts -/

/-- Device of a hardware queue (R342, R354). -/
def devOfQueue (m : Mode) (q : Nat) : Nat :=
  match m with
  | .one => 0
  | .two => q / 32
  | .eight => q / 8

/-- A crew watch limit that R394 admits. -/
def lwOk (lw : Nat) : Bool := lw == 0 || (decide (2 ^ 16 ≤ lw) && decide (lw ≤ 2 ^ 40))

/-- A context creation that can be done: the device exists, the queues are its own, distinct and unbound, and the save pool lies in no
block that is in host bias or on its way there (R339, R342, R408). -/
def State.mayCreate (s : State) (p : CtxParams) : Bool :=
  let meets := fun (dev block : Nat) => dev == p.dev && decide (p.poolBase.toNat < 65536 * (block + 1))
    && decide (65536 * block < p.poolBase.toNat + p.poolSize)
  s.pkg.booted && s.home.bias.all (fun b => !meets b.1 b.2) && s.home.flips.all (fun f => !(f.toHost && meets f.dev f.block)) && decide (p.dev < numDevs s.pkg.mode) && !p.queues.isEmpty && decide p.queues.Nodup && lwOk p.lw
    && p.queues.all (fun q => decide (q < Config.queues) && devOfQueue s.pkg.mode q == p.dev && (s.sched.queues.getD q {}).bound.isNone)

/-- R190: handle of a node. -/
def nodeHandle (tag : BitVec 32) (fab : BitVec 16) (idx : BitVec 16) : W64 := tag ++ fab ++ idx

/-- The context of a creation command (R347 reset values). -/
def State.newContext (s : State) (p : CtxParams) (tag : BitVec 32) : Context :=
  { tag := tag, dev := p.dev, root := p.root, keyIds := p.keyIds, queues := p.queues, topPri := p.topPri, trapHost := false, chk := false
    trapq := 0, tqHead := 0, tqTail := 0, slice := 2000000, watchdog := 10000000
    handler := (p.handler.map (nodeHandle tag (fabidOf s.pkg p.dev))).getD 0, regions := List.replicate 16 {}, nodeRegs := []
    reserve := false, drawWait := 0, cycles := 0, lw := p.lw, poolBase := p.poolBase, poolSize := p.poolSize, dying := false }

/-- R339: tags are given in turn, and none comes again before 2^32 others. -/
def execContextCreate (p : CtxParams) (s : State) : Host.Outcome State Fault Refusal :=
  if s.mayCreate p = false then .next s
  else
    let tag := s.sched.nextTag
    let bind := fun (x : HwQueue × Nat) => if p.queues.contains x.2 then { x.1 with bound := some tag } else x.1
    .next { s with sched := { s.sched with
      ctxs := s.sched.ctxs ++ [s.newContext p tag], nextTag := tag + 1, queues := s.sched.queues.zipIdx.map bind } }

/-- A queue of a destroyed context: its first incomplete command is reported, and the window is unbound (R358, R371). -/
def HwQueue.abort (h : HwQueue) : HwQueue :=
  let idx := match h.running with
    | c :: _ => some c.idx
    | [] => if h.head ≠ h.tail then some h.head else none
  let h1 := match idx with
    | some i => { h with err := true, errIndex := i, errCode := 0x07 }
    | none => h
  { h1 with bound := none, running := [], qbase := 0, tail := 0, head := 0 }

/-- R371: cells are killed, items removed, incomplete commands aborted; the context goes with its last cell. The steps of an eviction
under way finish, and the record is then discarded (R385). -/
def execContextDestroy (ctx : BitVec 32) (s : State) : Host.Outcome State Fault Refusal :=
  match s.hostCtx? ctx with
  | none => .next s
  | some cx =>
    let s1 := (s.cells.filter (fun c => c.ctx == ctx)).foldl (fun s c => s.kill c.uid) s
    let s2 : State := { s1 with
      sched := { s1.sched with
        items := s1.sched.items.filter (fun i => i.ctx != ctx), launches := s1.sched.launches.filter (fun l => l.ctx != ctx)
        nodes := s1.sched.nodes.filter (fun n => n.ctx != ctx)
        queues := s1.sched.queues.map (fun h => if h.bound = some ctx then h.abort else h) } }
    .next ((s2.updCtx cx.tag (fun c => { c with dying := true })).sweepContext ctx)

/-- R395: the new root takes effect as a TLB invalidate over the whole address space. -/
def execPageTableRootReplace (ctx : BitVec 32) (root : BitVec 48) (s : State) : Host.Outcome State Fault Refusal :=
  match s.hostCtx? ctx with
  | none => .next s
  | some _ =>
    let s1 := s.updCtx ctx (fun c => { c with root := root })
    .next (match s1.ctx? ctx with
      | some c => s1.invalidate c 0 (2 ^ 64)
      | none => s1)

/-- R394. -/
def execCrewWatchLimitSet (ctx : BitVec 32) (lw : Nat) (s : State) : Host.Outcome State Fault Refusal :=
  .next (if lwOk lw && (s.hostCtx? ctx).isSome then s.updCtx ctx (fun c => { c with lw := lw }) else s)

/-- R399: accesses that have translated keep their translations. -/
def execHostTlbInvalidate (ctx : BitVec 32) (va len : BitVec 64) (s : State) : Host.Outcome State Fault Refusal :=
  match s.hostCtx? ctx with
  | none => .next s
  | some c => .next (if len = 0 then s else s.invalidate c va.toNat (va.toNat + len.toNat))

/-! ## Firmware commands (R417) -/

/-- A command for another major version fails with status 0x01; the status of the others is left open by R417. -/
def firmware (major : BitVec 8) (s : State) (f : State → State) : Host.Outcome State Fault Refusal :=
  let st : BitVec 8 := if major = 1 then BitVec.ofNat 8 (Config.freeNat s.fresh 30) else 1
  if s.pkg.booted = false then .next s
  else
    let s1 := if major = 1 then f s else s
    .next { s1 with pkg := { s1.pkg with fwStatus := st :: s1.pkg.fwStatus } }

def modeOfCode (m : BitVec 2) : Option Mode :=
  match m.toNat with
  | 0 => some .one
  | 1 => some .two
  | 2 => some .eight
  | _ => none

/-- Writes that wait at their homes are performed. -/
def State.flushWrites (s : State) : State :=
  let s1 := s.home.writes.foldl (fun s h =>
    (if h.clear then s.updLine (h.key / 128) (fun l => { l with poison := false }) else s).perform h.dev h.key h.kid h.bytes) s
  { s1 with home := { s1.home with writes := [] } }

/-- The steps of a change of mode (R341): only host and remote memory, and poison (R410), survive. DESIGN CHOICE (log entry 122): R341 names
no step for bias bits, flips under way and the holders of device lines; the model clears them with the memory that they describe. -/
def State.wipe (s : State) (m : Mode) : State :=
  let s := s.flushWrites
  { s with
    pkg := { s.pkg with mode := m }
    clu := { s.clu with lines := [], fetches := [], owned := [], tlb := [], basinCtx := [], bulk := [], flits := [] }
    home := { s.home with
      mem := s.home.mem.filter (fun x => farKey x.1), fe := [], bias := [], flips := []
      lines := (s.home.lines.filter (fun h => h.poison)).map (fun h => { HLine.fresh h.line with poison := true }) } }

/-- R341, R344: refused while a context exists; with a die excluded only mode ONE can be set. -/
def execPartitionModeSet (major : BitVec 8) (mode : BitVec 2) (s : State) : Host.Outcome State Fault Refusal :=
  firmware major s (fun s =>
    match modeOfCode mode with
    | none => s
    | some m =>
      if !s.sched.ctxs.isEmpty || (!s.pkg.failed.isEmpty && m != .one) || m == s.pkg.mode then s else s.wipe m)

/-- L2 lines that hold a key id are written back and dropped (R402). -/
def State.dropKeyed (s : State) (slot : BitVec 8) : State :=
  { s with home := { s.home with lines := s.home.lines.map (fun h =>
      if h.kid = slot ∧ keySpace (128 * h.line) < 16 then { h with present := false, dirty := false } else h) } }

/-- R402. -/
def execKeySlotLoad (major : BitVec 8) (slot : BitVec 8) (wrapped : BitVec 512) (s : State) : Host.Outcome State Fault Refusal :=
  firmware major s (fun s =>
    if slot = 0 then s
    else
      let s1 := s.dropKeyed slot
      { s1 with pkg := { s1.pkg with keys := putIn (fun k => k.1 == slot.toNat) (slot.toNat, Config.unwrapKey wrapped) s1.pkg.keys } })

/-- R402. -/
def execKeySlotUnload (major : BitVec 8) (slot : BitVec 8) (s : State) : Host.Outcome State Fault Refusal :=
  firmware major s (fun s =>
    if slot = 0 then s
    else
      let s1 := s.dropKeyed slot
      { s1 with pkg := { s1.pkg with keys := s1.pkg.keys.filter (fun k => k.1 != slot.toNat) } })

/-- The report without its signature (R422). -/
def reportBody (p : Package) (nonce : BitVec 256) : List Byte :=
  let up := fun (d : Nat) => !p.failed.contains d
  let mask := (List.range 13).foldl (fun a d => if up d then a + 2 ^ d else a) 0
  bytesOfNat 4 0x41545637 ++ bytesOfNat 4 1 ++ bytesOfNat 32 nonce.toNat ++ bytesOfNat 4 mask ++ bytesOfNat 4 (stacksUp p)
    ++ (List.range 8).flatMap (fun d => bytesOfNat 8 (hmapCl p d).toNat) ++ (List.range 8).flatMap (fun d => bytesOfNat 8 (hmapSc p d).toNat)
    ++ (List.range 13).flatMap (fun d => bytesOfNat 64 (if up d then (p.fwHash.getD d 0).toNat else 0))
    ++ bytesOfNat 4 firmwareAbi ++ List.replicate 12 0

/-- R422. -/
def execAttestationReport (major : BitVec 8) (nonce : BitVec 256) (s : State) : Host.Outcome State Fault Refusal :=
  firmware major s (fun s =>
    let b := reportBody s.pkg nonce
    { s with pkg := { s.pkg with reports := ⟨b, Config.sign b⟩ :: s.pkg.reports } })

/-- R424: 3,200 W, or lower, and not below 1,000 W. -/
def execPowerCapSet (major : BitVec 8) (watts : Nat) (s : State) : Host.Outcome State Fault Refusal :=
  firmware major s (fun s =>
    if 1000 ≤ watts ∧ watts ≤ 3200 then { s with pkg := { s.pkg with cap := watts } } else s)

/-- R419. -/
def execEthernetConfig (major : BitVec 8) (reg : Nat) (val : BitVec 64) (s : State) : Host.Outcome State Fault Refusal :=
  firmware major s (fun s => { s with pkg := { s.pkg with ethCfg := putIn (fun x => x.1 == reg) (reg, val) s.pkg.ethCfg } })

/-! ## The host's accesses (R408) -/

/-- Number of the host among the holders of a line. -/
def hostHolder : Nat := 65536

/-- The host's reads and writes reach the device's memory. -/
def State.hostReaches (s : State) (dev : Nat) : Bool := s.pkg.booted && hostReachable s.pkg && decide (dev < numDevs s.pkg.mode)

/-- The host holds the line (R405). -/
def HLine.hostHolds (h : HLine) : Bool := h.holders.any (fun x => x.who == hostHolder && x.st != .i)

/-- The state in which the host takes a line: E where no other copy exists, when the home grants it (R405, R406). -/
def State.hostTakesIn (s : State) (line : Nat) : Mesi :=
  let h := s.line line
  if h.holders.all (fun x => x.st == .i) && decide (h.latest ≤ s.tb) && Config.freeBit s.fresh 37 then .e else .s

/-- A line that the host may read: it becomes a holder of it under host bias (R405). -/
def State.hostTakes (s : State) (line : Nat) : State :=
  if s.hostBias (128 * line) && !(s.line line).hostHolds then
    s.updLine line (fun h => { h with holders := putIn (fun x => x.who == hostHolder) ⟨hostHolder, s.hostTakesIn line, false⟩ h.holders })
  else s

/-- A line's bytes are not the home's to give: it is poisoned, or the host's own copy may be newer (R405). -/
def State.hostOwn (s : State) (line : Nat) : Bool :=
  (s.line line).poison || (s.line line).holders.any (fun x => x.who == hostHolder && (x.st == .m || x.st == .e))

/-- Bytes that the host reads, where `own` says of a line that its bytes are not the home's: a poisoned line's have no value that R408
gives, and its own newer ones are its own. -/
def State.hostBytes (s : State) (own : Nat → Bool) (key n : Nat) : List Byte :=
  (List.range n).map (fun i => if own ((key + i) / 128) then Config.freeByte s.fresh (key + i) else sget s.home.mem (key + i))

/-- Another holder than the host may have the line newer than its home. -/
def HLine.dirtyOutside (h : HLine) : Bool := h.holders.any (fun x => x.who != hostHolder && (x.st == .m || x.st == .e))

/-- R408: a performed read at the home. -/
def execHostCxlRead (dev : Nat) (addr : BitVec 48) (len : Nat) (s : State) : Host.Outcome State Fault Refusal :=
  let key := keyDev dev addr.toNat
  let me : Instr := .hostCxlRead dev addr len
  let ls := linesOf key len
  if s.hostReaches dev = false ∨ len = 0 then .next (s.unhold me)
  else if ls.any (fun l => s.flipping (128 * l) dev) then .next (s.hold me)
  else if ls.any (fun l => (s.line l).dirtyOutside) then .next ((s.askHolders key len).hold me)
  else if ls.any (fun l => s.hostBias (128 * l) && !(s.line l).listed && s.dirFull l) then .next (s.hold me)
  else
    let s1 := ls.foldl (fun s l => (s.underKey l 0).hostTakes l) ((s.recall key len).unhold me)
    .next { s1 with pkg := { s1.pkg with hostReads := s1.hostBytes s.hostOwn key len :: s1.pkg.hostReads } }

/-- R408: the write is performed at the home once the leases there have passed. -/
def execHostCxlWrite (dev : Nat) (addr : BitVec 48) (bytes : List Byte) (s : State) : Host.Outcome State Fault Refusal :=
  if s.hostReaches dev = false ∨ bytes = [] then .next s
  else .next (s.queueWrite dev (keyDev dev addr.toNat) 0 bytes)

/-- R410: zeros to all 128 bytes of the line, performed at its home under the key that the line holds. -/
def execPoisonClear (line : Nat) (s : State) : Host.Outcome State Fault Refusal :=
  if s.pkg.booted = false then .next s
  else .next { s with fresh := s.fresh + 1, home := { s.home with
    writes := s.home.writes ++ [⟨s.fresh, homeDev (128 * line) 0, 128 * line, (s.line line).kid, true, List.replicate 128 0⟩] } }

/-! ## Bias (R408, R409) -/

def inBlock (dev block key : Nat) : Bool := keySpace key == dev && keyAddr key / 65536 == block

/-- A save pool of the device lies in the block. -/
def State.poolIn (s : State) (dev block : Nat) : Bool :=
  s.sched.ctxs.any (fun c => c.dev == dev && decide (c.poolBase.toNat < 65536 * (block + 1))
    && decide (65536 * block < c.poolBase.toNat + c.poolSize))

def State.isFlip (s : State) (f : Flip) : Bool := s.home.flips.contains f

def State.dropFlip (s : State) (f : Flip) : State := { s with home := { s.home with flips := s.home.flips.filter (· != f) } }

/-- Leases on the block have passed, and no dirty L1 word of it is still to be performed (R409 step 3). A store that its thread's
own order holds back is in no L1 yet: it waits, and goes on after the flip. -/
def State.blockQuiet (s : State) (dev block : Nat) : Bool :=
  s.home.lines.all (fun h => !inBlock dev block (128 * h.line) || decide (h.latest ≤ s.tb))
    && s.clu.stores.all (fun e => e.isMarker || e.ph == .held || !inBlock dev block e.key)
    && s.home.writes.all (fun h => !inBlock dev block h.key) && s.clu.owned.all (fun o => !inBlock dev block (4 * o.2.2))

/-- R409: the flip begins, or, its waits over, ends. -/
def execBiasFlipToHost (dev block : Nat) (s : State) : Host.Outcome State Fault Refusal :=
  let f : Flip := ⟨dev, block, true⟩
  if s.isFlip f then
    if s.blockQuiet dev block then
      let s1 := s.dropFlip f
      .next { s1 with home := { s1.home with
        bias := (dev, block) :: s1.home.bias
        lines := s1.home.lines.map (fun h => if inBlock dev block (128 * h.line) then { h with present := false, dirty := false, devs := [] } else h) } }
    else .next s
  else if s.hostReaches dev = false ∨ s.home.bias.contains (dev, block) = true ∨ s.poolIn dev block = true
      ∨ s.home.flips.any (fun x => x.dev == dev && x.block == block) = true then .next s
  else .next { s with home := { s.home with flips := f :: s.home.flips } }

/-- The host holds no line of the block. -/
def State.hostHasNone (s : State) (dev block : Nat) : Bool :=
  s.home.lines.all (fun h => !inBlock dev block (128 * h.line) || h.holders.all (fun x => x.who != hostHolder || x.st == .i))

/-- R409: the flip begins, or, the lines released, ends. -/
def execBiasFlipToDevice (dev block : Nat) (s : State) : Host.Outcome State Fault Refusal :=
  let f : Flip := ⟨dev, block, false⟩
  if s.isFlip f then
    if s.hostHasNone dev block then
      let s1 := s.dropFlip f
      .next { s1 with home := { s1.home with bias := s1.home.bias.filter (· != (dev, block)) } }
    else .next s
  else if s.home.bias.contains (dev, block) = false ∨ s.home.flips.any (fun x => x.dev == dev && x.block == block) = true then .next s
  else .next { s with home := { s.home with flips := f :: s.home.flips } }

/-- R409: the host gives a line up. -/
def execHostLineRelease (line : Nat) (s : State) : Host.Outcome State Fault Refusal :=
  .next (if (s.line line).holders.any (fun x => x.who == hostHolder) then
      s.updLine line (fun h => { h with holders := h.holders.filter (fun x => x.who != hostHolder) }) else s)

end Sys2Proof.Machine
end

