-- ==== Sys2Proof/Machine/Coherence.lean ====
section
/-! DEFINITION. Page walks (R398, R399), snoops between homes (R405, R406), and the power states of slices and H-dies (R407). -/

namespace Sys2Proof.Machine

/-! ## Walks -/

/-- R398, R399: a walk fills the TLBs; a translation that they held may have been replaced, and is walked again. -/
def execPageWalk (cl : Nat) (ctx : BitVec 32) (va : BitVec 64) (s : State) : Host.Outcome State Fault Refusal :=
  match s.ctx? ctx with
  | none => .next s
  | some c =>
    if canonical va = false ∨ (c.region? va).isSome = true ∨ 104 ≤ cl then .next s
    else
      let h := 1000 + tlbDie s.pkg (cl / 13)
      let mine := fun (t : TlbEnt) => (t.unit == cl || t.unit == h) && t.ctx == ctx && t.page == pageNo t.lvl va
      let s1 : State := { s with clu := { s.clu with tlb := s.clu.tlb.filter (fun t => !mine t) } }
      let s2 := (findLeaf s1 c cl va).2
      .next (if (s2.clu.tlb.filter mine).all (fun t => s.clu.tlb.contains t) && (s.clu.tlb.filter mine).all (fun t => s2.clu.tlb.contains t)
        then s else s2)

/-! ## Snoops -/

/-- Bytes that another agent leaves in its own line once it has taken it back (log entry 8). -/
def State.othersBytes (s : State) (line : Nat) : List Byte := (List.range 128).map (fun i => Config.freeByte s.fresh (128 * line + i))

/-- Granules of a line that other agents write while they have it, each its own: which ones is open (R120, R132). -/
def State.othersGrans (s : State) : List Nat := (List.range 8).filter (fun i => Config.freeBit s.fresh (1000 + i))

/-- Other agents write some granules of a line of another home, and the home counts and pushes each write (R120, R132). -/
def State.othersWrite (s : State) (line : Nat) : State :=
  let new := s.othersBytes line
  s.othersGrans.foldl (fun s i => (s.poke (128 * line + 16 * i) ((new.drop (16 * i)).take 16)).countWrite (8 * line + i)) s

/-- R405, R406: the slice stops granting leases on a line homed elsewhere, answers once its leases have passed, with its dirty data, and
drops the line; then other agents may write it at its home, as they may when this device holds none of it (R132). For a line homed
here, a full directory frees the line's entry: every holder is asked, and devices of the package give it up once their leases are over. -/
def execInvalidatingSnoop (line : Nat) (s : State) : Host.Outcome State Fault Refusal :=
  let h := s.line line
  if farKey (128 * line) then
    if s.tb < h.latest then .next (if h.snoop then s else s.setLine { h with snoop := true })
    else .next ((s.evictLine { h with snoop := false }).othersWrite line |>.sendTo (1000 + h.devs.headD 0) (128 * line) 16 false (.directory line))
  else if s.dirFull line then
    let s1 := s.askHolders (128 * line) 128
    .next (if h.devs.isEmpty || decide (s.tb < h.latest) then s1 else s1.updLine line (fun h => { h with devs := [] }))
  else .next s

/-- Dirty data that a holder returns (R405, R409): the home writes all of the line and counts it (R120). -/
def State.takeBack (s : State) (line : Nat) (bs : List Byte) : State :=
  ((s.underKey line 0).poke (128 * line) bs).countWrites (128 * line) 128

/-- R406: a holder has answered its invalidation. -/
def execSnoopAnswer (line who : Nat) (data : Option (BitVec 1024)) (s : State) : Host.Outcome State Fault Refusal :=
  match (s.line line).holders.find? (fun x => x.who == who) with
  | none => .next s
  | some x =>
    if x.asked = false then .next s
    else
      let s1 := match data with
        | some d => if x.st == Mesi.m || x.st == Mesi.e then s.takeBack line (bytesOfNat 128 d.toNat) else s
        | none => s
      .next (s1.updLine line (fun h => { h with holders := h.holders.filter (fun y => y.who != who) }))

/-! ## Power states (R407) -/

/-- R407: M lines homed elsewhere are written back, and their M and E become S. -/
def execPowerGateEntry (slice : Nat) (s : State) : Host.Outcome State Fault Refusal :=
  if 128 ≤ slice ∨ s.home.gated.contains slice = true then .next s
  else
    let mine := fun (h : HLine) => farKey (128 * h.line) && h.devs.any (fun d => keySlice s.pkg (128 * h.line) d == slice)
      && (h.mine == .m || h.mine == .e)
    let s1 := (s.home.lines.filter mine).foldl (fun s h => (s.giveBack h).setLine { h with dirty := false, mine := .s }) s
    .next { s1 with home := { s1.home with gated := slice :: s1.home.gated } }

/-- R407. -/
def execPowerGateExit (slice : Nat) (s : State) : Host.Outcome State Fault Refusal :=
  .next { s with home := { s.home with gated := s.home.gated.filter (· != slice) } }

/-- R407: every line that others hold is recalled first; then host-homed and remote-homed lines are written back and released. -/
def execHdieReset (die : Nat) (s : State) : Host.Outcome State Fault Refusal :=
  let far := fun (h : HLine) => farKey (128 * h.line) && h.devs.any (fun d => keySlice s.pkg (128 * h.line) d / 32 == die)
  let mine := fun (h : HLine) => decide (keySpace (128 * h.line) < 16) && s.dirDie h.line == die
  if 4 ≤ die ∨ s.home.hreset.contains die = true then .next s
  else if s.home.lines.any (fun h => mine h && h.heldElsewhere) then
    .next (((s.home.lines.filter (fun h => mine h)).foldl (fun s h => s.askHolders (128 * h.line) 128) s).hold (.hdieReset die))
  else if s.home.lines.any (fun h => (far h || (mine h && !h.devs.isEmpty)) && decide (s.tb < h.latest)) then .next (s.hold (.hdieReset die))
  else
    let s1 := (s.home.lines.filter far).foldl (fun s h => s.evictLine h) s
    let s1 := (s1.home.lines.filter (fun h => mine h && !h.devs.isEmpty)).foldl (fun s h => s.setLine { h with devs := [] }) s1
    .next (State.unhold { s1 with home := { s1.home with hreset := die :: s1.home.hreset } } (.hdieReset die))

end Sys2Proof.Machine
end

