-- ==== Sys2Proof/Machine/Evict.lean ====
section
/-! DEFINITION. Eviction, the save record, and restore (R62, R113, R130, R131, R168, R177, R189, R369, R384-R393). -/

namespace Sys2Proof.Machine

/-! ## Engines at the eviction point (R177, R189, R384) -/

/-- A copy's next piece waits on a build, or the copy has ended and its slot waits behind a stopped copy's (R177, R180). -/
def State.copyStops (s : State) (c : Cell) (o : CopyOp) : Bool :=
  if o.voided || decide (o.total c ≤ o.bytes) then
    s.clu.copies.any (fun x => x.stopped && x.cell == o.cell && x.comp == 2 && x.handle == o.handle && decide (x.num < o.num))
  else s.awaitsBuild o.num

/-- Copies and tile loads that wait on builds stop, and a job that still waits for a ring slot goes back to its queue. -/
def State.stopEngines (s : State) (c : Cell) : State :=
  let s1 := (s.clu.copies.filter (fun o => o.cell == c.uid && !o.stopped)).foldl (fun s o =>
    if s.copyStops c o then (s.endWait o.num).updCopy o.num (fun x => { x with stopped := true, granted := false }) else s) s
  (s1.clu.mx.filter (fun e => e.cell == c.uid && e.running)).foldl (fun s e =>
    if e.isRun && e.toRing && e.claim.isNone then s.updMx e.num (fun x => { x with running := false, granted := false })
    else if s.awaitsBuild e.num then (s.endWait e.num).updMx e.num (fun x => { x with running := false, granted := false })
    else s) s1

/-- The copy writes the cell's basin: its own, or a gang peer's multicast or slice (R173). -/
def CopyOp.reaches (o : CopyOp) (c : Cell) : Bool := o.cell == c.uid || (o.kind != 0 && c.peers.contains o.cell)

/-- Step 1 of R384 is over. -/
def State.enginesQuiet (s : State) (c : Cell) : Bool :=
  s.clu.mx.all (fun e => e.cell != c.uid || !e.running) && s.clu.copies.all (fun o => !o.reaches c || o.stopped)
    && s.clu.loads.all (fun l => l.cell != c.uid || l.done) && s.clu.feOps.all (fun o => o.cell != c.uid) && c.cis.all (fun x => x.pending.isNone && !x.complete)

/-- A freeze of the slot is under way. -/
def State.freezing (s : State) (cell : Nat) (slot : BitVec 32) : Bool :=
  s.home.msgs.any (fun m => m.cell == cell && m.slot == slot && (m.kind == .freezeReq || m.kind == .freezePush))

/-- Open subscriptions that have not been sent a freeze are sent one (R130). -/
def State.sendFreezes (s : State) (c : Cell) : State :=
  (c.subs.filter (fun x => x.st == .open && !s.freezing c.uid x.slot)).foldl (fun s x =>
    s.sendHome c x .freezeReq) s

/-- Steps 2 and 3 of R384 are over: every slot is frozen, closed or failed, and every dirty word is performed, also those of other cells
that its threads may have read in their L1s (R168). -/
def State.quiet (s : State) (c : Cell) : Bool :=
  c.subs.all (fun x => x.st != .open && x.st != .closing) && s.clu.stores.all (fun e => e.cell != c.uid)
    && c.evictReleases.all (fun r => !s.clu.stores.any r.waits)

/-! ## The record (R387-R390) -/

def TState.code : TState → Nat
  | .eligible => 0
  | .held => 1
  | .blocked => 2
  | .parked => 3
  | .exited => 4

/-- A thread entry (R389). -/
def Thread.entry (t : Thread) : List Byte :=
  bytesOfNat 8 t.pc.toNat ++ bytesOfNat 8 (t.mr.getD (BitVec.allOnes 64)).toNat
    ++ bytesOfNat 8 (t.st.code + 2 ^ 8 * t.wkind + 2 ^ 16 * t.tcode.toNat + 2 ^ 24 * t.ppois.isSome.toNat + 2 ^ 25 * t.prw.isSome.toNat)
    ++ bytesOfNat 8 t.wobj.toNat

def CMode.code : CMode → Nat
  | .free => 0
  | .bcast => 1
  | .gather => 2

/-- A cistern entry (R390). -/
def Cistern.entry (x : Cistern) : List Byte :=
  bytesOfNat 8 x.value.toNat
    ++ bytesOfNat 8 (x.full.toNat + 2 * x.mode.code + 2 ^ 8 * x.rc.toNat + 2 ^ 16 * x.remaining.toNat + 2 ^ 24 * x.override.toNat
      + 2 ^ 32 * x.g.toNat + 2 ^ 40 * x.op.toNat + 2 ^ 44 * x.cls.toNat)
    ++ bytesOfNat 16 x.mask.toNat

def Cistern.partialBytes (x : Cistern) : List Byte := (List.range 128).flatMap (fun i => bytesOfNat 8 (sget x.partials i).toNat)

/-- Queue number of a unit in a record. -/
def queueNo (u : Nat) : Nat := if u = 0 then 0xFF else u - 1

/-- A saved plane: its owner and the block of the load that filled it (R189). -/
structure PlaneRec where
  u : Nat
  p : List W64
deriving DecidableEq, Repr

/-- A plane that a queue of the cell owns. -/
def State.planeOwned (s : State) (c : Cell) (shadow : Bool) : Option PlaneRec :=
  let a := s.array c.cl
  let p := if shadow then a.shadow else a.active
  match p.owner with
  | some (cell, u) => if cell = c.uid ∧ p.valid = true then some ⟨u, p.p⟩ else none
  | none => none

/-- Plane of a cell: loaded by one of its queues, or about to be loaded again after an earlier restore. -/
def State.planeRec (s : State) (c : Cell) (shadow : Bool) : Option PlaneRec :=
  match s.planeOwned c shadow with
  | some r => some r
  | none => (s.clu.mx.find? (fun e => e.cell == c.uid && e.reload == (if shadow then 2 else 1))).map (fun e => ⟨e.unit, e.p⟩)

/-- An entry of the cell's queues that stands in no plane's record: a repeated load too, when another queue has meanwhile loaded the
plane. -/
def State.queuedEntry (s : State) (c : Cell) (e : MxEnt) : Bool :=
  e.cell == c.uid && (e.reload == 0 || (s.planeOwned c (e.reload == 2)).isSome)

def PlaneRec.bytes (r : Option PlaneRec) : List Byte :=
  match r with
  | none => List.replicate 48 0
  | some x => bytesOfNat 8 (1 + 2 ^ 8 * queueNo x.u) ++ List.replicate 8 0 ++ (x.p.flatMap (fun w => bytesOfNat 8 w.toNat))

/-- A queued matrix entry. DEDUCED (log entry 114): its three activation flags are AC8, SP24 and the one after them of R183's flags. -/
def MxEnt.bytes (e : MxEnt) : List Byte :=
  bytesOfNat 8 (queueNo e.unit + 2 ^ 8 * e.isRun.toNat + 2 ^ 16 * (e.act.toNat / 4 % 8)) ++ List.replicate 8 0 ++ e.p.flatMap (fun w => bytesOfNat 8 w.toNat)

/-- A stopped copy. -/
def CopyOp.bytesOf (o : CopyOp) : List Byte :=
  bytesOfNat 8 (o.f.toNat + 2 ^ 8 * queueNo o.unit + 2 ^ 16 * ((o.claim.map (·.1)).getD 0x1FF)) ++ bytesOfNat 8 o.bytes
    ++ o.p.flatMap (fun w => bytesOfNat 8 w.toNat)

/-- A subscription. -/
def Slot.bytes (x : Slot) : List Byte :=
  bytesOfNat 8 (x.slot.toNat + 2 ^ 32 * x.md.toNat + 2 ^ 40 * x.st.code) ++ bytesOfNat 8 x.va.toNat ++ List.replicate 16 0

/-- What the record lists of the engines and slots of a cell. -/
structure SaveLists where
  mq : List MxEnt
  cpy : List CopyOp
  sub : List Slot

def State.saveLists (s : State) (c : Cell) : SaveLists where
  mq := (List.range c.units.length).flatMap (fun u => (s.mxQueue c.uid u).filter (s.queuedEntry c))
  cpy := s.clu.copies.filter (fun o => o.cell == c.uid && !o.voided)
  sub := c.subs.filter (fun x => x.st == .frozen || x.st == .failed)

/-- Physical registers of a kernel, ascending. -/
def Header.physRegs (h : Header) : List Nat := List.range h.fast ++ (List.range h.slow).map (192 + ·)

/-- The record's header (R388). -/
def Cell.saveHeader (c : Cell) (l : SaveLayout) (x : SaveLists) : List Byte :=
  let h := c.hdr
  bytesOfNat 4 0x53564B37 ++ bytesOfNat 2 (1 + 2 ^ 8 * c.pri.toNat) ++ bytesOfNat 2 c.tag.toNat ++ bytesOfNat 4 c.ctx.toNat
    ++ bytesOfNat 4 c.index.toNat ++ bytesOfNat 8 c.kimg.toNat ++ bytesOfNat 8 c.param.toNat
    ++ bytesOfNat 8 ((h.width / 32 - 1) + 4 * h.fused.toNat + 2 ^ 8 * (h.ncrew - 1) + 2 ^ 16 * (h.fast / 8) + 2 ^ 24 * (h.slow / 8)
      + 2 ^ 32 * h.ncis + 2 ^ 40 * h.gang + 2 ^ 48 * c.rank)
    ++ bytesOfNat 8 (c.basinSize + 2 ^ 32 * c.nrec.toNat) ++ bytesOfNat 8 c.evTb
    ++ bytesOfNat 4 (x.mq.length + 2 ^ 16 * x.sub.length) ++ bytesOfNat 4 0
    ++ bytesOfNat 4 l.mq ++ bytesOfNat 4 l.sub ++ bytesOfNat 4 l.crew ++ bytesOfNat 4 h.crewStride ++ bytesOfNat 4 l.fe
    ++ bytesOfNat 4 l.basin ++ bytesOfNat 4 l.total ++ bytesOfNat 4 l.cpy ++ bytesOfNat 4 x.cpy.length

/-- Sticky flags with everything that is still to land (R71, R257). -/
def UnitSt.allFlags (u : UnitSt) : BitVec 5 := u.flagPend.foldl (fun a p => a ||| p.2.2) u.flags

/-- Entries of a code book by its code; LIN8 is R77's and held nowhere (R275). -/
def bookLen (code : BitVec 2) : Nat :=
  match code.toNat with
  | 0 => 0
  | 1 => 16
  | 2 => 64
  | _ => 256

/-- A crew's section, as offsets in it and bytes. -/
def UnitSt.section (u : UnitSt) (h : Header) : List (Nat × List Byte) :=
  [(0, (List.range 24).flatMap (fun n => bytesOfNat 8 (sget u.regs n).toNat)),
   (0xC0, bytesOfNat 8 (u.wb + 2 ^ 8 * u.cvb)), (0xC8, bytesOfNat 8 u.allFlags.toNat), (0xD0, bytesOfNat 8 u.timer.toNat),
   (0xD8, bytesOfNat 8 (u.drawHeld.toNat + 2 * u.drawPend.toNat + 4 * u.book.toNat)),
   (0x100, u.entries.flatMap (fun b => bytesOfNat 2 b.toNat)), (0x300, u.threads.flatMap Thread.entry),
   (0x1300, h.physRegs.flatMap (fun p => (List.range 128).flatMap (fun i => bytesOfNat 4 (sget u.v (regV p i)).toNat)))]

/-- Bytes of `n` full/empty bits from a basin address. -/
def State.feBytes (s : State) (c : Cell) (n : Nat) : List Byte :=
  (List.range n).map (fun j => BitVec.ofNat 8 ((List.range 8).foldl (fun a i => a + (s.fe c (16 * (8 * j + i))).toNat * 2 ^ i) 0))

/-- The whole record, as offsets and bytes; every other byte is zero. -/
def State.saveParts (s : State) (c : Cell) (l : SaveLayout) (x : SaveLists) : List (Nat × List Byte) :=
  let sp := c.unit 0
  [(0, c.saveHeader l x), (0x100, (sp.thread 0).entry), (0x120, bytesOfNat 8 sp.allFlags.toNat), (0x128, bytesOfNat 8 sp.timer.toNat),
   (0x130, bytesOfNat 8 (sp.drawHeld.toNat + 2 * sp.drawPend.toNat)),
   (0x200, (List.range 64).flatMap (fun n => bytesOfNat 8 (sget sp.regs n).toNat)), (0x400, c.cis.flatMap Cistern.entry),
   (0xC00, (c.cis.filter (fun g => g.mode == .gather)).flatMap Cistern.partialBytes),
   (0x2C00, c.bars.flatMap (fun b => bytesOfNat 8 b.instances.toNat)),
   (0x2C80, PlaneRec.bytes (s.planeRec c true) ++ PlaneRec.bytes (s.planeRec c false)),
   (l.mq, x.mq.flatMap MxEnt.bytes), (l.cpy, x.cpy.flatMap CopyOp.bytesOf), (l.sub, x.sub.flatMap Slot.bytes)]
  ++ ((c.units.drop 1).zipIdx.flatMap (fun u => (u.1.section c.hdr).map (fun p => (l.crew + u.2 * c.hdr.crewStride + p.1, p.2))))
  ++ [(l.fe, s.feBytes c (c.basinSize / 128)), (l.basin, s.readBasin c 0 c.basinSize)]

/-- Step 5: the record is written and performed at its home, in plaintext (R402). -/
def State.writeSave (s : State) (c : Cell) : State :=
  let x := s.saveLists c
  let l := c.hdr.layout x.mq.length x.cpy.length x.sub.length
  let parts := s.saveParts c l x
  let bytes := parts.foldl (fun m p => writeBytes m p.1 p.2) []
  let lines := (List.range (l.total / 128)).map (fun i => (keyDev c.dev (c.save.toNat + 128 * i), (0 : BitVec 8), 128))
  s.performSpan c.dev lines (readBytes bytes 0 l.total)

/-! ## The end of an eviction (R384 steps 4 to 6, R385) -/

/-- Recorded plane loads stand at the heads of their queues, for the restore (R189). -/
def State.keepPlanes (s : State) (c : Cell) : State :=
  let ent := fun (k : Nat) (r : PlaneRec) =>
    (⟨0, c.uid, r.u, c.cl, false, k, r.p, 0, 0, false, false, 0, 0, none, true⟩ : MxEnt)
  let recs := ((s.planeRec c false).map (ent 1)).toList ++ ((s.planeRec c true).map (ent 2)).toList
  let recs := recs.zipIdx.map (fun e => { e.1 with num := s.fresh + e.2, seq := s.fresh })
  let s := s.dropDraws (fun d => d.cell == c.uid)
  { s with
    fresh := s.fresh + 2
    clu := { s.clu with
      mx := recs ++ (s.clu.mx.filter (fun e => e.cell != c.uid || s.queuedEntry c e)).map (fun e =>
        if e.cell = c.uid then { e with stopped := true, granted := false } else e)
      loads := s.clu.loads.filter (fun l => l.cell != c.uid) } }

/-- A blocked `draw.req` counts only the time its cell is resident (R319): while it is away `wclk` holds the clk it has waited. -/
def Thread.away (t : Thread) (clk : Nat) : Thread :=
  { t with wclk := if t.st = .blocked ∧ t.wkind = 14 then clk - t.wclk else t.wclk, bun := 0
           answer := if t.st = .blocked ∧ t.wkind = 14 then none else t.answer }

def UnitSt.away (u : UnitSt) (clk : Nat) : UnitSt :=
  { u with threads := u.threads.map (fun t => t.away clk), flags := u.allFlags, flagPend := [], pend := [], batches := [] }

/-- The cell leaves its cluster. -/
def State.leave (s : State) (c : Cell) : State :=
  let s1 := ((s.writeSave c).keepPlanes c).disown c.uid
  s1.updCell c.uid (fun x => { x with evicted := true, evicting := false, units := x.units.map (fun u => u.away s.clk) })

/-- The cells of a gang still to be restored with this one, itself first. -/
def State.family (s : State) (c : Cell) : List Cell :=
  (s.cells.filter (fun x => x.uid == c.uid || c.peers.contains x.uid)).filter (fun x => !x.killed)

/-- Fourth key of a restore item: the queue number and node index of the cell's launch, and the lowest cell index of the gang. DEDUCED
(log entry 117): a launch that has none of the first two counts as 0 there. -/
def State.restoreSub (s : State) (c : Cell) (fam : List Cell) : Nat × Nat × Nat :=
  let l := s.launch? c.launch
  ((l.bind (·.queue)).getD 0, c.node.getD 0, (fam.map (fun x => x.index.toNat)).foldl min c.index.toNat)

/-- With the last cell of the gang saved, the restore item enters the list (R360). -/
def State.addRestore (s : State) (c : Cell) : State :=
  let fam := s.family c
  if fam.isEmpty || fam.any (fun x => !x.evicted) then s
  else s.addItem c.dev c.ctx (.restore (fam.map (·.uid))) c.pri (s.restoreSub (fam.headD c) fam)

/-- One step of an eviction under way. -/
def State.evictStep (s : State) (c : Cell) : State :=
  let s1 := s.stopEngines c
  if !s1.enginesQuiet c then s1
  else
    let s2 := s1.sendFreezes c
    if !s2.quiet c then s2
    else
      let s3 := s2.leave c
      if c.killed then (s3.discardSaved c.uid).addRestore c else s3.addRestore c

/-- R384: a requested cell passes its eviction point with its whole gang; an eviction under way goes on. -/
def execEviction (cell : Nat) (s : State) : Host.Outcome State Fault Refusal :=
  match s.cell? cell with
  | none => .next s
  | some c =>
    if c.evicted then .next s
    else if c.evicting then .next (s.evictStep c)
    else if s.cellRequested c && s.evictable c then .next (s.beginEvict ((s.gangOf c).map (·.uid)))
    else .next s

/-! ## Reading the record back (R391, R392) -/

/-- Little-endian number at an offset of a record. -/
def State.saved (s : State) (c : Cell) (off n : Nat) : Nat := readNat s.home.mem (keyDev c.dev (c.save.toNat + off)) n

def TState.ofCode (n : Nat) : TState :=
  match n with
  | 0 => .eligible
  | 1 => .held
  | 2 => .blocked
  | 3 => .parked
  | _ => .exited

/-- A thread entry as the record holds it; what the launch unit or trap service keeps of the thread itself is in `t`. -/
def State.loadThread (s : State) (c : Cell) (off : Nat) (t : Thread) : Thread :=
  let w := s.saved c (off + 16) 8
  let mr := BitVec.ofNat 64 (s.saved c (off + 8) 8)
  { t with pc := BitVec.ofNat 64 (s.saved c off 8), mr := if mr = BitVec.allOnes 64 then none else some mr
           st := TState.ofCode (bitsOf w 7 0), wkind := bitsOf w 15 8, tcode := BitVec.ofNat 8 (bitsOf w 23 16)
           ppois := if bitsOf w 24 24 = 1 then some (t.ppois.getD ⟨0, 0, []⟩) else none
           prw := if bitsOf w 25 25 = 1 then some (t.prw.getD ⟨0, 0, []⟩) else none
           wobj := BitVec.ofNat 64 (s.saved c (off + 24) 8), word := none, stage := 0, answer := none, vals := [], kept := []
           ready := s.clk + 1, age := s.clk + 1
           wclk := if t.wkind = 14 then s.clk - t.wclk else t.wclk }

/-- A cistern entry as the record holds it; `po` is the offset of its partial buffer. -/
def State.loadCistern (s : State) (c : Cell) (off po : Nat) : Cistern :=
  let w := s.saved c (off + 8) 8
  { value := BitVec.ofNat 64 (s.saved c off 8), full := bitsOf w 0 0 == 1
    mode := match bitsOf w 2 1 with
      | 1 => .bcast
      | 2 => .gather
      | _ => .free
    rc := BitVec.ofNat 8 (bitsOf w 15 8), remaining := BitVec.ofNat 8 (bitsOf w 23 16), override := bitsOf w 24 24 == 1
    g := BitVec.ofNat 8 (bitsOf w 39 32), op := BitVec.ofNat 4 (bitsOf w 43 40), cls := BitVec.ofNat 2 (bitsOf w 45 44)
    mask := BitVec.ofNat 128 (s.saved c (off + 16) 16)
    partials := (List.range 128).foldl (fun p i => sset p i (BitVec.ofNat 64 (s.saved c (po + 8 * i) 8))) [], pending := none }

/-- The cisterns; partial buffers stand in ascending number of the saved GATHER cisterns. -/
def State.loadCisterns (s : State) (c : Cell) : List Cistern :=
  c.cis.zipIdx.map (fun x =>
    let k := ((c.cis.take x.2).filter (fun g => g.mode == .gather)).length
    let r := s.loadCistern c (0x400 + 32 * x.2) (0xC00 + 1024 * k)
    if x.1.mode = .gather then r else { r with partials := [] })

/-- The spine from its part of the record; its grants are asked for again. -/
def State.loadSpine (s : State) (c : Cell) (n : Nat) (u : UnitSt) : UnitSt :=
  let d := s.saved c 0x130 8
  { u with threads := [s.loadThread c 0x100 (u.thread 0)]
           regs := (List.range 63).foldl (fun r i => sset r (i + 1) (BitVec.ofNat 64 (s.saved c (0x208 + 8 * i) 8))) []
           flags := BitVec.ofNat 5 (s.saved c 0x120 8), timer := BitVec.ofNat 64 (s.saved c 0x128 8)
           drawHeld := bitsOf d 0 0 == 1, drawPend := bitsOf d 1 0 != 0, core := 0, slot := n }

/-- A crew from its section at `o`, on a core and slot. -/
def State.loadCrew (s : State) (c : Cell) (o core slot : Nat) (u : UnitSt) : UnitSt :=
  let w := s.saved c (o + 0xC0) 8
  let d := s.saved c (o + 0xD8) 8
  let put := fun (v : Store 32) (p : Nat × Nat) => (List.range 128).foldl (fun v i =>
    sset v (regV p.1 i) (BitVec.ofNat 32 (s.saved c (o + 0x1300 + 512 * p.2 + 4 * i) 4))) v
  { u with threads := u.threads.zipIdx.map (fun t => s.loadThread c (o + 0x300 + 32 * t.2) t.1)
           regs := (List.range 24).foldl (fun r i => sset r i (BitVec.ofNat 64 (s.saved c (o + 8 * i) 8))) []
           v := c.hdr.physRegs.zipIdx.foldl put [], wb := bitsOf w 7 0, cvb := bitsOf w 15 8
           flags := BitVec.ofNat 5 (s.saved c (o + 0xC8) 8), timer := BitVec.ofNat 64 (s.saved c (o + 0xD0) 8)
           book := BitVec.ofNat 2 (bitsOf d 4 2)
           bookData := (List.range (bookLen (BitVec.ofNat 2 (bitsOf d 4 2)))).map (fun i => BitVec.ofNat 16 (s.saved c (o + 0x100 + 2 * i) 2))
           drawHeld := bitsOf d 0 0 == 1, drawPend := bitsOf d 1 0 != 0, core := core, slot := slot }

/-- Basin bytes and full/empty bits from the record. -/
def State.loadBasin (s : State) (c : Cell) (l : SaveLayout) : State :=
  let bits := (List.range (c.basinSize / 16)).filter (fun j => (s.saved c (l.fe + j / 8) 1) / 2 ^ (j % 8) % 2 == 1)
  let s1 := (s.zeroBasin c.cl c.basinOff c.basinSize).writeBasin c 0 (readBytes s.home.mem (keyDev c.dev (c.save.toNat + l.basin)) c.basinSize)
  bits.foldl (fun s j => s.setFe c (16 * j) true) s1

/-- Grants and requests at the eviction point are asked for again (R319). -/
def State.askAgain (s : State) (uid : Nat) : State :=
  match s.cell? uid with
  | none => s
  | some c =>
    let s1 := c.units.zipIdx.foldl (fun s u => if u.1.drawPend then s.askGrant (c.cl / 13) 0 uid u.2 c.pri else s) s
    (s1.clu.copies.filter (fun o => o.cell == uid && o.big && !o.granted && !o.voided)).foldl (fun s o =>
      s.askGrant (c.cl / 13) 1 uid o.num c.pri) s1

/-- What was done to the cell's threads while it was saved takes effect (R323, R385). -/
def State.applyDeferred (s : State) (uid : Nat) : State :=
  match s.cell? uid with
  | none => s
  | some c =>
    let s1 := s.updCell uid (fun x => { x with deferred := [] })
    let s2 := c.deferred.foldl (fun s a => s.updThread uid a.1 a.2.1 (Thread.act a.2.2 s.clk)) s1
    let hs := (c.units.flatMap (fun u => (u.threads.filter (fun t => t.st == .blocked && (t.wkind == 6 || t.wkind == 7))).map
      (fun t => t.wobj.toNat))).dedup
    if c.deferred.isEmpty then s2 else (s2.recountRings uid hs).dropExited uid

/-- Slots that failed while the cell was saved show it now (R133). -/
def State.showFailures (s : State) (uid : Nat) : State :=
  match s.cell? uid with
  | none => s
  | some c => (c.subs.filter (fun x => x.late)).foldl (fun s x => s.moveSlot uid x.slot true (fun y => { y with late := false })) s

/-- Frozen slots open, and their homes learn their place (R131; log entry 37). -/
def State.openFrozen (s : State) (uid : Nat) : State :=
  match s.cell? uid with
  | none => s
  | some c => (c.subs.filter (fun x => x.st == .frozen)).foldl (fun s x =>
      (s.moveSlot uid x.slot false (fun y => { y with st := .open })).sendHome c x .relocate) s

/-- One cell comes back on a cluster (R392). DESIGN CHOICE (log entry 126): its stopped copies go on at once, also where the cluster's
engine then holds more than 16 (R176), of which R392 does not speak. -/
def State.comeBack (s : State) (cx : Context) (uid cl off : Nat) (res : Bool) : State :=
  match s.cell? uid with
  | none => s
  | some old =>
    let cs := s.cellsOn cl
    let x := s.saveLists old
    let l := old.hdr.layout x.mq.length x.cpy.length x.sub.length
    let c := { old with cl := cl, basinOff := off, inReserve := res, spineNo := freeSpine cs, placeSeq := s.fresh, evicted := false }
    let cores := dealSlots (numCores s.pkg cl) cs c.hdr.ncrew
    let units := c.units.zipIdx.map (fun u =>
      if u.2 = 0 then s.loadSpine c c.spineNo u.1
      else
        let d := cores.getD (u.2 - 1) (0, 0)
        s.loadCrew c (l.crew + (u.2 - 1) * c.hdr.crewStride) d.1 d.2 u.1)
    let c1 := { c with units := units, cis := s.loadCisterns c }
    let s1 := (s.takeBasin cl c.ctx).loadBasin c1 l
    let s2 : State := { s1 with
      fresh := s1.fresh + 1
      cells := s1.cells.map (fun y => if y.uid = uid then c1 else y)
      clu := { s1.clu with
        -- its loads hit only under leases granted after the restore (R393)
        lines := s1.clu.lines.map (fun x => if x.cl = cl then { x with expiry := 0 } else x)
        copies := s1.clu.copies.map (fun o => if o.cell = uid then { o with cl := cl, stopped := false } else o)
        mx := s1.clu.mx.map (fun e => if e.cell = uid then { e with cl := cl, stopped := false } else e) } }
    let s4 := (((s2.openFrozen uid).showFailures uid).askAgain uid).applyDeferred uid
    if cs.isEmpty then s4.startSlice cl cx else s4

/-- R361, R369, R392: a restore item whose cells fit is placed, when no item before it in the list stopped backfilling and none of
those is a restore that fits. -/
def execRestore (item : Nat) (s : State) : Host.Outcome State Fault Refusal :=
  match s.item? item with
  | none => .next s
  | some i =>
    match i.kind, s.ctx? i.ctx with
    | .restore us, some cx =>
      let cs := s.restoreCells us
      if ((s.ranked i.dev).takeWhile (fun x => x.id != item)).any (fun x => x.stop || s.restoreFits x) then .next s
      else match s.restoreHosts i cs with
        | none => .next s
        | some hs => .next (((cs.zip hs).foldl (fun s x => s.comeBack cx x.1.uid x.2.1 x.2.2.1 x.2.2.2) s).dropItem item)
    | _, _ => .next s

end Sys2Proof.Machine
end

