-- ==== Sys2Proof/Machine/Queues.lean ====
section
/-! DEFINITION. Hardware queues and their commands (R16, R213, R217, R354-R358). -/

namespace Sys2Proof.Machine

/-! ## Queue windows -/

def State.queue (s : State) (q : Nat) : HwQueue := s.sched.queues.getD q {}

def State.updQueue (s : State) (q : Nat) (f : HwQueue → HwQueue) : State :=
  { s with sched := { s.sched with queues := modNth f q s.sched.queues } }

/-- LOG2N of a queue. -/
def HwQueue.log (h : HwQueue) : Nat := (h.qbase.extractLsb' 0 5).toNat

/-- VA of the next command (R354). -/
def HwQueue.nextVa (h : HwQueue) : W64 := ((h.qbase >>> 12) <<< 12) + BitVec.ofNat 64 (64 * (h.head.toNat % 2 ^ h.log))

/-- A write to QTAIL (R354). -/
def State.writeQtail (s : State) (q : Nat) (val : BitVec 64) : State :=
  let h := s.queue q
  let v : BitVec 32 := val.setWidth 32
  if h.bound.isNone = true ∨ 2 ^ h.log < (v - h.head).toNat then s else s.updQueue q (fun h => { h with tail := v })

/-- A write to QBASE (R354). -/
def State.writeQbase (s : State) (q : Nat) (val : BitVec 64) : State :=
  let h := s.queue q
  if h.bound.isNone = true ∨ h.tail ≠ h.head then s else s.updQueue q (fun h => { h with qbase := ringWord val, tail := 0, head := 0 })

/-- The two fields of QCTL that the host writes (R354, R358). -/
def State.clearErr (s : State) (q : Nat) : State := s.updQueue q (fun h => { h with err := false })
def State.setHalt (s : State) (q : Nat) (on : Bool) : State := s.updQueue q (fun h => { h with halt := on })

/-- R354. -/
def execQtailWrite (q : Nat) (val : BitVec 64) (s : State) : Host.Outcome State Fault Refusal := .next (s.writeQtail q val)
/-- R354. -/
def execQbaseWrite (q : Nat) (val : BitVec 64) (s : State) : Host.Outcome State Fault Refusal := .next (s.writeQbase q val)
/-- R354, R358. -/
def execQctlErrClear (q : Nat) (s : State) : Host.Outcome State Fault Refusal := .next (s.clearErr q)
/-- R354. -/
def execQctlHalt (q : Nat) (on : Bool) (s : State) : Host.Outcome State Fault Refusal := .next (s.setHalt q on)

/-! ## Commands (R355) -/

/-- A command as its bytes give it. -/
def cmdOf (idx : BitVec 32) (b : List Byte) : Command :=
  { idx := idx, opc := BitVec.ofNat 8 (fieldAt b 0 1), cva := BitVec.ofNat 64 (fieldAt b 8 8), cval := BitVec.ofNat 64 (fieldAt b 16 8)
    arg0 := BitVec.ofNat 64 (fieldAt b 24 8), arg1 := BitVec.ofNat 64 (fieldAt b 32 8), arg2 := BitVec.ofNat 64 (fieldAt b 40 8)
    prog := 0, finished := false }

def cmdFence (b : List Byte) : Bool := bitsOf (fieldAt b 0 8) 8 8 == 1
def cmdPri (b : List Byte) : Nat := bitsOf (fieldAt b 0 8) 11 9

/-- BADCMD (R358). DESIGN CHOICE (log entry 124): a COPY of more than 2^40 bytes, which R355 excludes and R358 does not list, is one. -/
def cmdBad (b : List Byte) : Bool :=
  let opc := fieldAt b 0 1
  bitsOf (fieldAt b 0 8) 63 12 != 0 || fieldAt b 48 16 != 0 || opc == 0 || decide (4 < opc) || (opc != 1 && cmdPri b != 0)
    || fieldAt b 8 8 % 8 != 0 || (opc == 1 && decide (2 ^ 32 ≤ fieldAt b 40 8)) || (opc == 2 && decide (2 ^ 40 < fieldAt b 40 8))
    || (opc == 3 && fieldAt b 24 8 % 8 != 0)

/-- The queue may start its next command, as far as the command itself does not say (R356). -/
def HwQueue.mayStart (h : HwQueue) : Bool :=
  h.bound.isSome && !h.err && !h.halt && h.head != h.tail && h.log != 0 && h.running.all (fun c => c.opc != 3)

/-- What the command processor finds at the head of a queue. -/
inductive CmdRead where
  /-- nothing starts now. -/
  | idle
  /-- the command cannot be read yet. -/
  | wait (s : State)
  | fault (s : State)
  | ok (cx : Context) (b : List Byte) (s : State)

def State.readCmd (s : State) (q : Nat) : CmdRead :=
  let h := s.queue q
  if h.mayStart = false then .idle
  else match h.bound.bind s.ctx? with
    | none => .idle
    | some cx =>
      match s.fBytes cx h.nextVa 64 with
      | (.ok b, s1) => if cmdFence b && !h.running.isEmpty then .idle else .ok cx b s1
      | (.wait _, s1) => .wait s1
      | (_, s1) => .fault s1

/-- A command of a queue fails (R358). -/
def State.failCmd (s : State) (q : Nat) (idx : BitVec 32) (code : BitVec 8) : State :=
  s.updQueue q (fun h => { h with err := true, errIndex := idx, errCode := code, running := h.running.filter (fun c => c.idx != idx) })

/-- The command at the head fails as it starts. -/
def State.failStart (s : State) (q : Nat) (code : BitVec 8) : State :=
  (s.failCmd q (s.queue q).head code).updQueue q (fun h => { h with head := h.head + 1 })

/-- The command at the head starts. -/
def State.startCmd (s : State) (q : Nat) (c : Command) : State :=
  s.updQueue q (fun h => { h with head := h.head + 1, running := h.running ++ [c] })

def State.updCmd (s : State) (q : Nat) (idx : BitVec 32) (f : Command → Command) : State :=
  s.updQueue q (fun h => { h with running := h.running.map (fun c => if c.idx = idx then f c else c) })

/-- A running command of a queue, with its context. -/
def State.cmd? (s : State) (q : Nat) (idx : BitVec 32) : Option (Context × Command) :=
  let h := s.queue q
  match h.bound.bind s.ctx?, h.running.find? (fun c => c.idx == idx) with
  | some cx, some c => some (cx, c)
  | _, _ => none

/-! ## LAUNCH -/

/-- The launch's cells enter the pending list (R359, R360, R374). -/
def State.enterLaunch (s : State) (q : Nat) (cx : Context) (c : Command) (pri : Nat) (h : Header)
    (ps : List (BitVec 64 × Nat × BitVec 32)) : State :=
  let (tag, s1) := s.takeTag cx.dev
  let p := BitVec.ofNat 3 (min pri cx.topPri.toNat)
  let l : Launch := ⟨s1.fresh, tag, cx.tag, c.arg0, c.arg1, c.arg2.toNat % 2 ^ 32, h, ps, p, cx.reserve, 0, 0, some q, none, [], false, none⟩
  let s2 := { s1 with sched := { s1.sched with launches := s1.sched.launches ++ [l] } }
  (s2.addItem cx.dev cx.tag (.launch l.num) p (q, 0, 0)).startCmd q { c with prog := l.num }

/-- The checks of a LAUNCH in the order of R358. -/
def State.checkLaunch (s : State) (q : Nat) (cx : Context) (c : Command) (pri : Nat) : State :=
  match s.readHeader cx c.arg0 with
  | (.wait, s1) => s1
  | (.fault, s1) => s1.failStart q 0x06
  | (.bad, s1) => s1.failStart q 0x02
  | (.ok h, s1) =>
    let n := c.arg2.toNat % 2 ^ 32
    if n = 0 ∨ (h.gang ≠ 0 ∧ n % h.gang ≠ 0) then s1.failStart q 0x04
    else if s1.fitsDevice h cx.dev cx.reserve = false ∨ cx.poolTooSmall h = true then s1.failStart q 0x03
    else match s1.patchValues cx (c.arg0 + BitVec.ofNat 64 h.hbytes) c.arg1 0 h.patches with
      | (.wait, s2) => s2
      | (.fault, s2) => s2.failStart q 0x06
      | (.range _, s2) => s2.failStart q 0x05
      | (.ok ps, s2) => s2.enterLaunch q cx c pri h ps

/-- R356: a LAUNCH starts; a command that cannot be read or is no command fails here. -/
def execLaunch (q : Nat) (s : State) : Host.Outcome State Fault Refusal :=
  match s.readCmd q with
  | .idle => .next s
  | .wait s1 => .next s1
  | .fault s1 => .next (s1.failStart q 0x06)
  | .ok cx b s1 =>
    if cmdBad b then .next (s1.failStart q 0x01)
    else if fieldAt b 0 1 = 1 then .next (s1.checkLaunch q cx (cmdOf (s.queue q).head b) (cmdPri b))
    else .next s

/-! ## COPY -/

/-- Bytes that one step of a COPY moves: within one line on either side, and none that it has yet to write (R356). -/
def copyStep (src dst : W64) (left : Nat) : Nat :=
  let n := min (lineRest src left) (lineRest dst left)
  if src.toNat < dst.toNat then min n (dst.toNat - src.toNat) else n

/-- The next bytes of a COPY. -/
def State.copyMore (s : State) (q : Nat) (cx : Context) (c : Command) : State :=
  let src := c.arg0 + BitVec.ofNat 64 c.prog
  let dst := c.arg1 + BitVec.ofNat 64 c.prog
  let n := copyStep src dst (c.arg2.toNat - c.prog)
  match s.fPiece cx src n with
  | (.wait _, s1) => s1
  | (.ok bs, s1) =>
    match s1.fTarget cx dst .store with
    | none => s1.failCmd q c.idx 0x06
    | some (key, kid) =>
      let s2 := s1.recall key n
      if s2.partReady (queueNum q) cx.dev key n then
        (((s2.forget (queueNum q) key n).perform cx.dev key kid bs).sendTo (1000 + cx.dev) key n true (.command q)).updCmd q c.idx
          (fun x => { x with prog := c.prog + n, finished := decide (c.arg2.toNat ≤ c.prog + n) })
      else s2.announce (queueNum q) (1000 + cx.dev) 0 key n
  | (_, s1) => s1.failCmd q c.idx 0x06

/-- R356: a COPY starts, or moves its next bytes. -/
def execCopy (q : Nat) (cmd : Option (BitVec 32)) (s : State) : Host.Outcome State Fault Refusal :=
  match cmd with
  | none =>
    match s.readCmd q with
    | .ok _ b s1 =>
      if cmdBad b = false ∧ fieldAt b 0 1 = 2 then
        let c := cmdOf (s.queue q).head b
        .next (s1.startCmd q { c with finished := c.arg2 == 0 })
      else .next s
    | _ => .next s
  | some idx =>
    match s.cmd? q idx with
    | some (cx, c) => .next (if c.opc = 2 ∧ c.finished = false then s.copyMore q cx c else s)
    | none => .next s

/-! ## WAIT and SIGNAL -/

/-- The counter's value, read under its mapping's key (R402). -/
def State.counterValue (s : State) (cx : Context) (va : W64) (key : Nat) : Nat :=
  natOfBytes (s.bytesUnder key 8 (match translateF s cx va .load with
    | .ok _ kid _ _ => kid
    | _ => 0))

/-- Where a counter lies; none when it faults. -/
def State.counterKey (s : State) (cx : Context) (va : W64) : Option Nat :=
  match translateF s cx va .load with
  | .ok key _ _ _ | .region key => some key
  | _ => none

/-- R356, R357: a WAIT starts with its first read of the counter, or looks at it again. -/
def execWait (q : Nat) (cmd : Option (BitVec 32)) (s : State) : Host.Outcome State Fault Refusal :=
  match cmd with
  | none =>
    match s.readCmd q with
    | .ok cx b s1 =>
      if cmdBad b = false ∧ fieldAt b 0 1 = 3 then
        let c := cmdOf (s.queue q).head b
        match s1.fBytes cx c.arg0 8, s1.counterKey cx c.arg0 with
        | (.wait _, s2), _ => .next s2
        | (.ok v, s2), some key => .next (s2.startCmd q { c with prog := key, finished := decide (c.arg1.toNat ≤ natOfBytes v) })
        | (_, s2), _ => .next (s2.failStart q 0x06)
      else .next s
    | _ => .next s
  | some idx =>
    match s.cmd? q idx with
    | some (cx, c) =>
      if c.opc ≠ 3 ∨ c.finished = true then .next s
      else if (s.line (c.prog / 128)).maybeDirty then .next (s.askHolders c.prog 8)
      else if c.arg1.toNat ≤ s.counterValue cx c.arg0 c.prog ∧ (s.line (c.prog / 128)).poison = false then
        .next (s.updCmd q idx (fun x => { x with finished := true }))
      else .next s
    | none => .next s

/-- R356. -/
def execSignal (q : Nat) (s : State) : Host.Outcome State Fault Refusal :=
  match s.readCmd q with
  | .ok _ b s1 =>
    if cmdBad b = false ∧ fieldAt b 0 1 = 4 then .next (s1.startCmd q { cmdOf (s.queue q).head b with finished := true }) else .next s
  | _ => .next s

/-! ## Completion (R357) -/

/-- The command is over and its counter, if any, written. -/
def State.endCmd (s : State) (q : Nat) (idx : BitVec 32) : State :=
  s.updQueue q (fun h => { h with running := h.running.filter (fun c => c.idx != idx) })

/-- R357: the unsigned maximum of the counter and CVAL at the counter's home. -/
def execCommandComplete (q : Nat) (cmd : BitVec 32) (s : State) : Host.Outcome State Fault Refusal :=
  match s.cmd? q cmd with
  | none => .next s
  | some (cx, c) =>
    if c.finished = false then .next s
    else if c.cva = 0 then .next (s.endCmd q cmd)
    else match s.fTarget cx c.cva .atomic with
      | none => .next (s.failCmd q cmd 0x06)
      | some (key, kid) =>
        let s1 := s.recallAtomic key 8
        if s1.partReady (queueNum q) cx.dev key 8 then
          let s2 := (s1.forget (queueNum q) key 8).underKey (key / 128) kid
          .next ((s2.perform cx.dev key kid (bytesOfNat 8 (max (readNat s2.home.mem key 8) c.cval.toNat))).endCmd q cmd)
        else .next (s1.announce (queueNum q) (1000 + cx.dev) 0 key 8)

end Sys2Proof.Machine
end

