-- ==== Sys2Proof/Machine/Fabric.lean ====
section
/-! DEFINITION. Fabric and Ethernet ports (R410-R419), host groups (R418), bring-up, boot and exclusion (R346, R420, R421). -/

namespace Sys2Proof.Machine

/-! ## Flits -/

/-- R413: a plane fence is acknowledged once it has arrived and every bulk flit sent before it on its port has been delivered. -/
def execPlaneFenceAck (cl port : Nat) (s : State) : Host.Outcome State Fault Refusal :=
  match s.clu.fences.find? (fun f => f.1 == cl && f.2.1 == port) with
  | none => .next s
  | some f =>
    .next (if s.inFlight (.fence f.2.2) || s.clu.flits.any (fun x => x.port == port && x.bulk && x.src != 2000 && decide (x.num < f.2.2)) then s
      else { s with clu := { s.clu with fences := s.clu.fences.filter (· != f) } })

/-- A line is poisoned where it is held; an acknowledgement that was lost is waited for no longer. -/
def State.poisonLine (s : State) (line : Nat) : State :=
  s.updLine line (fun h => { h with poison := true, holders := h.holders.filter (fun x => !x.asked) })

/-- What an uncorrectable flit does to what it carried (R410). -/
def State.flitLost (s : State) (l : FlitLoad) : State :=
  match l with
  | .directory line => s.poisonLine line
  | .lineData n =>
    match s.clu.loads.find? (fun x => x.num == n), s.clu.fetches.find? (fun x => x.num == n) with
    | some x, _ => s.poisonLine (x.key / 128)
    | none, some p => s.poisonLine p.line
    | none, none => match s.clu.stores.find? (fun x => x.seq == n && x.isAtomic) with
      | some e => s.poisonLine (e.key / 128)
      | none => s
  | .instrData cell unit =>
    match s.cell? cell, (s.cell? cell).bind (fun c => s.ctx? c.ctx) with
    | some c, some cx => match (translate s cx c.cl ((c.unit unit).thread 0).pc .fetch).1 with
      | .ok key _ _ _ => s.poisonLine (key / 128)
      | _ => s
    | _, _ => s
  | .copyData n =>
    match s.copy? n with
    | none => s
    | some o => match s.copyCell o with
      | none => s
      | some c => s.copyFault c o tPoison (lineVa (o.nextVa c))
  | .standpipe n =>
    match s.home.msgs.find? (fun m => m.num == n) with
    | none => s
    | some m => s.failSub m.cell m.slot true
  | .remoteEmit n =>
    match s.sched.remotes.find? (fun r => r.id == n) with
    | none => s
    | some r =>
      let s1 : State := { s with sched := { s.sched with remotes := s.sched.remotes.filter (fun x => x.id != n) } }
      match s.cell? r.cell with
      | none => s1
      | some c =>
        let wait := r.tids.filter (fun t => ((c.unit r.unit).thread t).st == .blocked && ((c.unit r.unit).thread t).wkind == 13)
        let pc := ((c.unit r.unit).thread (wait.headD 0)).pc
        if wait.isEmpty || c.evicted || c.evicting then s1 else s1.park r.cell r.unit wait ⟨tPoison, r.va, pc⟩ pc
  | .request _ | .writeBack _ | .command _ | .fence _ | .other => s

/-- R410 names an effect of losing what the flit carried. DESIGN CHOICE (log entry 119): of a request, a drained word, a write-back, COPY
data and a plane fence it names none; they are sent again. -/
def losesFlit (l : FlitLoad) : Bool :=
  match l with
  | .request _ | .writeBack _ | .command _ | .fence _ => false
  | _ => true

def State.updPort (s : State) (p : Nat) (f : Port → Port) : State := { s with pkg := { s.pkg with ports := modNth f p s.pkg.ports } }

/-- A count of R415, which saturates. -/
def satCount (c : BitVec 16) : BitVec 16 := if c = 0xFFFF then c else c + 1

/-- The port after one more uncorrectable flit, which it counts: 64 within a second take it down for training (R414). -/
def Port.lose (p : Port) (tb : Nat) : Port :=
  let times := (tb :: p.recent).filter (fun t => decide (tb < t + 1000000000))
  let q := { p with uncor := satCount p.uncor, recent := times }
  if 64 ≤ times.length then { q with st := 1, lanes := 0, vmin := 0, vmaj := 0, peer := 0, recent := [], credit := 0, beats := 0, narrow := 0 } else q

/-- A flit that a peer sends stands in the state once its CRC has failed: until it arrives or is lost. -/
def Flit.fromPeer (n port : Nat) (load : FlitLoad) (tb : Nat) : Flit :=
  let bulk := match load with
    | .lineData _ | .instrData .. | .copyData _ | .writeBack _ | .command _ => true
    | _ => false
  ⟨n, port, 2000, 0, bulk, none, load, flitBeats bulk, 0, tb⟩

/-- One more failure of a flit: it is sent again, or is uncorrectable (R410, R414). -/
def State.failFlit (s : State) (f : Flit) : State :=
  let put := fun (s : State) (x : Flit) => { s with clu := { s.clu with flits := s.clu.flits.map (fun y => if y = f then x else y) } }
  let again := { f with left := flitBeats f.bulk, row := f.row + 1 }
  if f.row < 8 then (put s again).updPort f.port (fun p => if f.row = 0 then { p with retry := satCount p.retry } else p)
  else
    let peer := (s.pkg.ports.getD f.port {}).peer
    let s1 := if losesFlit f.load then { s with clu := { s.clu with flits := s.clu.flits.filter (· != f) } } else put s { again with row := 0 }
    let s2 := s1.updPort f.port (fun p => p.lose s.tb)
    (if (s2.pkg.ports.getD f.port {}).st = 2 then s2 else s2.reroute f.port peer).flitLost f.load

/-- R414: a flit that fails its CRC is retried on its link; the ninth failure in a row, its eighth failed retry, makes it uncorrectable. -/
def execFlitCrcFail (port : Nat) (load : FlitLoad) (s : State) : Host.Outcome State Fault Refusal :=
  if 64 ≤ port ∨ (s.pkg.ports.getD port {}).st ≠ 2 then .next s
  else match s.clu.flits.find? (fun f => f.port == port && f.load == load) with
    | some f => .next (s.failFlit f)
    | none =>
      let f := Flit.fromPeer s.fresh port load s.tb
      .next (({ s with fresh := s.fresh + 1, clu := { s.clu with flits := s.clu.flits ++ [f] } } : State).failFlit f)

/-! ## Ports -/

/-- Highest common link version of a partner's offer and 1.0 and 1.1 (R416). -/
def bestVersion (vers : List (BitVec 8)) : Option (BitVec 8) :=
  if vers.contains 0x11 then some 0x11 else if vers.contains 0x10 then some 0x10 else none

/-- A port after training: the counts are cleared, and a partner with no common version leaves it failed. -/
def Port.train (lanes : BitVec 4) (vers : List (BitVec 8)) (peer : BitVec 16) : Port :=
  match bestVersion vers with
  | some v => { st := 2, lanes := lanes, vmaj := v.extractLsb' 4 4, vmin := v.extractLsb' 0 4, peer := peer }
  | none => { st := 3 }

/-- Training of an Ethernet port with a peer: the other peers keep what was agreed with them (R419). DESIGN CHOICE (log entry 127): the
status register shows the peer trained last. -/
def Port.trainEth (p : Port) (lanes : BitVec 4) (vers : List (BitVec 8)) (peer : BitVec 16) : Port :=
  let q := Port.train lanes vers peer
  let rest := p.peers.filter (fun x => x.1 != peer)
  match bestVersion vers with
  | some v => { q with peers := (peer, v) :: rest }
  | none => if rest.isEmpty then q else { p with peers := rest }

/-- R415, R416, R419: ports 0-63 are Ableax, 64-71 Ethernet. The ports of an excluded H-die are not there (R421). -/
def execPortTrain (port : Nat) (lanes : BitVec 4) (vers : List (BitVec 8)) (peer : BitVec 16) (s : State) :
    Host.Outcome State Fault Refusal :=
  let old := (s.pkg.port port).peer
  if (lanes ≠ 1 ∧ lanes ≠ 2 ∧ lanes ≠ 4) ∨ 72 ≤ port ∨ (port < 64 ∧ hdieUp s.pkg (port / 16) = false) then .next s
  else .next ((s.updAnyPort port (fun p => if port < 64 then Port.train lanes vers peer else p.trainEth lanes vers peer)).reroute port old)

/-- R419: a flit that has waited 100 µs for its acknowledgement is sent again. -/
def execEthernetRetransmitTimeout (port : Nat) (s : State) : Host.Outcome State Fault Refusal :=
  match s.clu.flits.find? (fun f => f.port == 64 + port && f.left == 0 && decide (f.sent + 100000 ≤ s.tb)) with
  | none => .next s
  | some f =>
    .next ({ s with clu := { s.clu with flits := s.clu.flits.map (fun x =>
      if x = f then { x with left := flitBeats x.bulk, sent := s.tb } else x) } }.updAnyPort (64 + port) (fun p => { p with retry := satCount p.retry }))

/-! ## Host groups and bring-up -/

/-- R418. -/
def execHostGroupBridge (bridge : HostGroup) (s : State) : Host.Outcome State Fault Refusal :=
  if 15 < bridge.members.length then .next s
  else .next { s with pkg := { s.pkg with bridge := some bridge.bridge, members := bridge.members, bridgeUp := true } }

/-- R418. -/
def execBridgeFail (s : State) : Host.Outcome State Fault Refusal :=
  .next { s with pkg := { s.pkg with bridgeUp := if s.pkg.bridge.isSome then false else s.pkg.bridgeUp } }

/-- R346: one FABID for each device of the mode. -/
def execFabricBringUp (ids : List (BitVec 16)) (s : State) : Host.Outcome State Fault Refusal :=
  if ids.length ≠ numDevs s.pkg.mode then .next s
  else .next { s with pkg := { s.pkg with fabids := ids ++ List.replicate (8 - ids.length) 0 } }

/-! ## Boot -/

/-- A die leaves the map, an H-die with its ports; 13 and up name the HBM stacks, each of which takes its H-die with it; without the
F-die the package does not boot (R421). -/
def Package.exclude (p : Package) (die : Nat) : Package :=
  let d := if 13 ≤ die then 8 + (die - 13) / 2 else die
  if 21 ≤ die ∨ p.failed.contains d = true then p
  else { p with failed := d :: p.failed, booted := p.booted && d != 12, booting := p.booting && d != 12
                ports := if 8 ≤ d ∧ d < 12 then p.ports.zipIdx.map (fun x => if x.2 / 16 = d - 8 then {} else x.1) else p.ports }

/-- R420: nothing survives but the fuses, the firmware and memory that is not the package's. With the checks of steps 1 and 2 over, the
security processor waits for the dies that have not answered. -/
def execPowerOnReset (fwOk : Bool) (bad : List Nat) (s : State) : Host.Outcome State Fault Refusal :=
  let p := { Package.reset with fuseCl := s.pkg.fuseCl, fuseSc := s.pkg.fuseSc, fwHash := s.pkg.fwHash, booting := fwOk }
  .next { State.reset with
    fresh := s.fresh, agenda := s.agenda
    home := { Home.reset with mem := s.home.mem.filter (fun x => farKey x.1) }
    pkg := bad.foldl Package.exclude p }

/-- Time that a die has for its answer (R420). -/
def answerLimit : Nat := 100000000

/-- R344, R351, R420: a die that has not answered within 100 ms is excluded, while the package boots. -/
def execDieChallengeTimeout (die : Nat) (s : State) : Host.Outcome State Fault Refusal :=
  .next (if s.pkg.booting && decide (answerLimit ≤ s.tb) then { s with pkg := s.pkg.exclude die } else s)

/-- Key slots that boot loads (R420, R402): which, and their keys, the spec leaves open. -/
def bootKeys : List (Nat × BitVec 512) := (List.range 255).filterMap (fun i => (Config.bootKey (i + 1)).map (i + 1, ·))

/-- Steps 4 and 5 of R420 follow when every die has answered, in a clk that the part chooses, or has had its time: the map stands, key
slots are loaded and the host port opens. -/
def State.bootStep (s : State) : State :=
  if s.pkg.booting && (decide (answerLimit < s.tb) || Config.freeBit s.fresh 39) then
    { s with pkg := { s.pkg with booting := false, booted := true, keys := bootKeys } }
  else s

/-! ## BAR0 of the host port -/

/-- The status register of a port (R415). -/
def Port.word (p : Port) : W64 :=
  p.peer ++ p.uncor ++ p.retry ++ p.vmaj ++ p.vmin ++ p.lanes ++ (0#2) ++ p.st

/-- The words of a queue's window (R354): QBASE, QTAIL, QHEAD, QCTL, QERR, and zeros. -/
def HwQueue.word (h : HwQueue) (i : Nat) : W64 :=
  match i with
  | 0 => h.qbase
  | 1 => h.tail.setWidth 64
  | 2 => h.head.setWidth 64
  | 3 => BitVec.ofNat 64 ((h.bound.getD 0).toNat * 2 ^ 32 + 4 * h.err.toNat + 2 * h.halt.toNat + h.bound.isSome.toNat)
  | 4 => BitVec.ofNat 64 (h.errIndex.toNat * 2 ^ 32 + h.errCode.toNat)
  | _ => 0

/-- Where the package's BAR0 window starts above the bridge's own (R418). -/
def Package.window (p : Package) : Nat :=
  match p.bridge with
  | none => 0
  | some b => if p.fabids.contains b then 0 else 0x1000000 * (p.members.findIdx p.fabids.contains + 2)

/-- The doubleword that the host reads in BAR0, at an address above the bridge's window; none where the spec places no register
(R354, R415, R417, R418). -/
def State.bar0Read (s : State) (addr : Nat) : Option W64 :=
  let off := addr - s.pkg.window
  if addr < s.pkg.window ∨ off % 8 ≠ 0 ∨ hostReachable s.pkg = false then none
  else if off = 8 then some (BitVec.ofNat 64 firmwareAbi)
  else if 0x10000 ≤ off ∧ off < 0x11000 then some (((s.sched.queues.getD ((off - 0x10000) / 64) {}).word ((off - 0x10000) % 64 / 8)))
  else if 0x20000 ≤ off ∧ off < 0x20240 then some (s.pkg.port ((off - 0x20000) / 8)).word
  else none

/-- A doubleword that the host writes in BAR0, at an address above the bridge's window: the registers of a queue's window take it (R354,
R418). -/
def State.bar0Write (s : State) (addr : Nat) (v : W64) : State :=
  let off := addr - s.pkg.window - 0x10000
  let q := off / 64
  if addr < s.pkg.window + 0x10000 ∨ 0x1000 ≤ off ∨ hostReachable s.pkg = false then s
  else match off % 64 with
    | 0 => s.writeQbase q v
    | 8 => s.writeQtail q v
    | 0x18 => (if v.getLsbD 2 then s.clearErr q else s).setHalt q (v.getLsbD 1)
    | _ => s

end Sys2Proof.Machine
end

