-- ==== Sys2Proof/Machine/Traps.lean ====
section
/-! DEFINITION. Delivery of trap records (R376-R379), the crew watch limit (R394), and the host's answers to the faults it
serves (R381, R382). -/

namespace Sys2Proof.Machine

/-! ## Delivery -/

/-- The context's trap queue can take a record (R376). -/
def Context.tqRoom (c : Context) : Bool :=
  c.trapq.extractLsb' 0 5 != 0 && decide ((c.tqTail - c.tqHead).toNat < c.tqSize)

/-- The handler node that is to receive the notice of a record, if a node is (R377, R379). -/
def State.noticeNode (s : State) (c : Context) (fromHandler : Bool) : Option LNode :=
  if c.handler = 0 ∨ c.trapHost = true ∨ fromHandler = true ∨ handleFab c.handler ≠ fabidOf s.pkg c.dev then none
  else (s.ownNode c.dev c.tag c.handler).filter (fun n => !n.keyed)

/-- The notice of record number `k` (R377). -/
def State.notify (s : State) (c : Context) (fromHandler : Bool) (k : BitVec 32) : State :=
  match s.noticeNode c fromHandler with
  | some n => s.binInsert n (bytesOfNat 8 k.toNat ++ List.replicate (n.z - 8) 0)
  | none => s.interrupt c

/-- Address of the next record of a context's trap queue (R376). -/
def Context.recordVa (c : Context) : W64 := ((c.trapq >>> 12) <<< 12) + BitVec.ofNat 64 (64 * (c.tqTail.toNat % c.tqSize))

/-- A record can be written: its queue has room and a page, and its notice a place in the spill area (R376-R378). -/
def State.mayRecord (s : State) (r : TrapRec) (c : Context) : Bool :=
  c.tqRoom && (s.fTarget c c.recordVa .store).isSome && !((s.noticeNode c r.fromHandler).isSome && s.spillFull r.dev)

/-- The first record of the device that can be written, of those that none of its context precedes (R378); the records of a clk are
in their order when it is over (R376). -/
def State.nextRecord (s : State) (dev : Nat) : Option (TrapRec × Context) :=
  s.sched.traps.findSome? (fun r =>
    if r.dev = dev ∧ r.clk < s.clk ∧ s.sched.traps.find? (fun x => x.ctx == r.ctx) = some r then
      (s.ctx? r.ctx).bind (fun c => if s.mayRecord r c then some (r, c) else none)
    else none)

/-- The first element that equals `r` goes. -/
def dropFirst (r : TrapRec) : List TrapRec → List TrapRec
  | [] => []
  | a :: l => if a = r then l else a :: dropFirst r l

/-- R376, R378: a record is written at its home, TAIL increments, and the handler or the host is told. -/
def execTrapRecordWrite (dev : Nat) (s : State) : Host.Outcome State Fault Refusal :=
  match s.nextRecord dev with
  | none => .next s
  | some (r, c) =>
    match s.fTarget c c.recordVa .store with
    | none => .next s
    | some (key, kid) =>
      let s1 := s.recall key 64
      if s1.partReady (trapNum dev) dev key 64 then
        let s2 := (s1.forget (trapNum dev) key 64).perform dev key kid (r.words.flatMap (fun w => bytesOfNat 8 w.toNat))
        let s3 : State := { s2 with sched := { s2.sched with traps := dropFirst r s2.sched.traps } }
        .next ((s3.updCtx c.tag (fun x => { x with tqTail := x.tqTail + 1 })).notify c r.fromHandler c.tqTail)
      else .next (s1.announce (trapNum dev) (1000 + dev) 0 key 64)

/-! ## WATCH -/

/-- The unit's TIMER stands at a multiple of the watch limit, and has not trapped there (R394). -/
def State.watchDue (s : State) (c : Cell) (u : Nat) : Bool :=
  match s.ctx? c.ctx with
  | none => false
  | some cx => !c.evicted && !c.evicting && cx.lw != 0 && (c.unit u).timer != 0 && (c.unit u).timer.toNat % cx.lw == 0
      && (c.unit u).watched != (c.unit u).timer

/-- A thread of the cell has trapped with WATCH in this clk. -/
def State.watchTrapped (s : State) (c : Cell) : Bool :=
  s.sched.traps.any (fun r => r.clk == s.clk && r.ctx == c.ctx && (r.words.headD 0).extractLsb' 0 16 == tWatch.setWidth 16
    && (List.range c.units.length).any (fun u => r.words.getD 1 0 == designator c u))

/-- R372, R394: every eligible or held thread of the unit parks at its PC; those of a bundle in its passes when they are over. A build
of the cell fails when the last of its units that trap in this clk has (R379). -/
def execWatchLimit (cell unit : Nat) (s : State) : Host.Outcome State Fault Refusal :=
  match s.cell? cell with
  | none => .next s
  | some c =>
    if s.watchDue c unit then
      let t := (c.unit unit).timer
      let s1 := (s.updUnit cell unit (fun x => { x with watched := t })).parkByPc cell unit (fun i x => (x.st == .eligible || x.st == .held) && !s.inPass cell unit i) ⟨tWatch, 0, t⟩
      let more := (List.range c.units.length).any (fun u => u != unit && s.watchDue c u)
      let s1 := if !more && s1.watchTrapped c then s1.poisonBuilds cell else s1
      .next { s1 with clu := { s1.clu with ports := s1.clu.ports.map (fun p =>
        if p.cell = cell ∧ p.unit = unit then { p with watch := some t } else p) } }
    else .next s

/-! ## Faults that the host serves (R381) -/

/-- Requests of a cluster for a page. -/
def stallOn (x : CoreStall) (ctx : BitVec 32) (page : W64) (cl : Nat) : Bool := x.cl == cl && x.ctx == ctx && x.page == page

/-- The cluster waits for an answer on the page. -/
def State.asked (s : State) (ctx : BitVec 32) (page : W64) (cl : Nat) : Bool :=
  s.clu.stalls.any (fun x => stallOn x ctx page cl && x.answer == 0)

/-- R381: the waiting accesses translate again. -/
def execHostFaultRetry (ctx : BitVec 32) (page : BitVec 64) (cl : Nat) (s : State) : Host.Outcome State Fault Refusal :=
  .next { s with clu := { s.clu with stalls := (s.clu.stalls.filter (fun x => !(stallOn x ctx page cl && x.core == 101))).map (fun x =>
    if stallOn x ctx page cl then { x with answer := 1 } else x) } }

/-- A thread that waits for the page of the stall: unit, order of blocking, PC. -/
def Cell.faultWaits (c : Cell) (x : CoreStall) : List (Nat × Nat × W64) :=
  (c.units.zipIdx.flatMap (fun u => u.1.threads.filterMap (fun t =>
    if t.st = .blocked ∧ t.wkind = 16 ∧ coreNo u.2 u.1 = x.core ∧ x.holds t.wobj = true then some (u.2, t.wseq, t.pc) else none))).dedup

/-- The waiting threads of a cell trap; AUX bit 2 says that the host answered fail (R373). -/
def State.failThreads (s : State) (c : Cell) (x : CoreStall) (code : BitVec 8) : State :=
  (c.faultWaits x).foldl (fun s g =>
    let u := c.unit g.1
    let tids := (List.range u.threads.length).filter (fun i =>
      let t := u.thread i
      t.st == .blocked && t.wkind == 16 && x.holds t.wobj && t.wseq == g.2.1 && t.pc == g.2.2)
    let t := u.thread (tids.headD 0)
    s.park c.uid g.1 tids ⟨code, t.wobj, (t.answer.getD 0) ||| 4⟩ g.2.2) s

/-- Copies and tile loads of the cluster that wait for the stall's page end with fault reports, and the threads of a remote emit whose
record lies there trap. -/
def State.failEngines (s : State) (x : CoreStall) (code : BitVec 8) : State :=
  let ctx := x.ctx
  let cells := s.cells.filter (fun c => c.ctx == ctx && c.cl == x.cl && !c.evicted)
  cells.foldl (fun s c =>
    match s.ctx? ctx with
    | none => s
    | some cx =>
      let s1 := (s.clu.copies.filter (fun o => o.cell == c.uid && !o.stopped && o.dir != 2 && s.copyReady c o
          && x.holds (o.nextVa c))).foldl (fun s o => s.copyFault c o code (o.nextVa c)) s
      let s2 := (s1.clu.mx.filter (fun e => e.cell == c.uid && !e.isRun && e.running)).foldl (fun s e =>
        match (s.readCols c cx e 128).1 with
        | .host a => if x.holds a then s.mxFault c e code a else s
        | _ => s) s1
      (s2.sched.remotes.filter (fun r => r.cell == c.uid && !c.evicting)).foldl (fun s r =>
        match (s.pullRecord c cx r.va (s.pullSize r)).1 with
        | .host a => if x.holds a then s.remoteFault c r (fun _ => ⟨code, a, 4⟩) else s
        | _ => s) s2) s

/-- R381: the waiting threads trap with TRANSLATION or PROTECTION. -/
def execHostFaultFail (ctx : BitVec 32) (page : BitVec 64) (cl : Nat) (prot : Bool) (s : State) : Host.Outcome State Fault Refusal :=
  if s.asked ctx page cl then
    let code := if prot then tProtection else tTranslation
    let mine := s.clu.stalls.filter (fun x => stallOn x ctx page cl)
    let s1 : State := { s with clu := { s.clu with stalls := s.clu.stalls.filter (fun x => !stallOn x ctx page cl) } }
    .next (mine.foldl (fun s x =>
      if x.core = 101 then s.failEngines x code
      else s.onCells (s.cells.filter (fun c => c.ctx == ctx && c.cl == cl && !c.evicted && !c.evicting)) (fun s c => s.failThreads c x code)) s1)
  else .next s

end Sys2Proof.Machine
end

