-- ==== Sys2Proof/Machine/Dispatch.lean ====
section
/-! DEFINITION. One arm per constructor of `Instr`: the meaning of each instruction, operation and event. -/

namespace Sys2Proof.Machine

def exec (i : Instr) (s : State) : Host.Outcome State Fault Refusal :=
  match i with
  | .add f b a d => Sys2Proof.Machine.execAdd f b a d s
  | .sub f b a d => Sys2Proof.Machine.execSub f b a d s
  | .mul f b a d => Sys2Proof.Machine.execMul f b a d s
  | .mad f b a d => Sys2Proof.Machine.execMad f b a d s
  | .div f b a d => Sys2Proof.Machine.execDiv f b a d s
  | .rem f b a d => Sys2Proof.Machine.execRem f b a d s
  | .min w s1 b a d => Sys2Proof.Machine.execMin w s1 b a d s
  | .max w s1 b a d => Sys2Proof.Machine.execMax w s1 b a d s
  | .and b a d => Sys2Proof.Machine.execAnd b a d s
  | .or b a d => Sys2Proof.Machine.execOr b a d s
  | .xor b a d => Sys2Proof.Machine.execXor b a d s
  | .andn b a d => Sys2Proof.Machine.execAndn b a d s
  | .orn b a d => Sys2Proof.Machine.execOrn b a d s
  | .xnor b a d => Sys2Proof.Machine.execXnor b a d s
  | .not a d => Sys2Proof.Machine.execNot a d s
  | .shl w b a d => Sys2Proof.Machine.execShl w b a d s
  | .shr w b a d => Sys2Proof.Machine.execShr w b a d s
  | .sar w b a d => Sys2Proof.Machine.execSar w b a d s
  | .rol w b a d => Sys2Proof.Machine.execRol w b a d s
  | .popc w a d => Sys2Proof.Machine.execPopc w a d s
  | .clz w a d => Sys2Proof.Machine.execClz w a d s
  | .ctz w a d => Sys2Proof.Machine.execCtz w a d s
  | .brev w a d => Sys2Proof.Machine.execBrev w a d s
  | .bfxS b a d => Sys2Proof.Machine.execBfxS b a d s
  | .bfxN b a d => Sys2Proof.Machine.execBfxN b a d s
  | .bfi b a d => Sys2Proof.Machine.execBfi b a d s
  | .bsel b a d => Sys2Proof.Machine.execBsel b a d s
  | .cmp c b a d => Sys2Proof.Machine.execCmp c b a d s
  | .sel b a d => Sys2Proof.Machine.execSel b a d s
  | .mov a d => Sys2Proof.Machine.execMov a d s
  | .movPair a d => Sys2Proof.Machine.execMovPair a d s
  | .sxb a d => Sys2Proof.Machine.execSxb a d s
  | .sxh a d => Sys2Proof.Machine.execSxh a d s
  | .zxb a d => Sys2Proof.Machine.execZxb a d s
  | .zxh a d => Sys2Proof.Machine.execZxh a d s
  | .sxw a d => Sys2Proof.Machine.execSxw a d s
  | .zxw a d => Sys2Proof.Machine.execZxw a d s
  | .lea s1 b a d => Sys2Proof.Machine.execLea s1 b a d s
  | .addi i1 a d => Sys2Proof.Machine.execAddi i1 a d s
  | .andi i1 a d => Sys2Proof.Machine.execAndi i1 a d s
  | .ori i1 a d => Sys2Proof.Machine.execOri i1 a d s
  | .xori i1 a d => Sys2Proof.Machine.execXori i1 a d s
  | .shli i1 a d => Sys2Proof.Machine.execShli i1 a d s
  | .shri i1 a d => Sys2Proof.Machine.execShri i1 a d s
  | .sari i1 a d => Sys2Proof.Machine.execSari i1 a d s
  | .cmpi c i1 a d => Sys2Proof.Machine.execCmpi c i1 a d s
  | .mvl i1 d => Sys2Proof.Machine.execMvl i1 d s
  | .mvh i1 d => Sys2Proof.Machine.execMvh i1 d s
  | .muli i1 a d => Sys2Proof.Machine.execMuli i1 a d s
  | .fadd m t b a d => Sys2Proof.Machine.execFadd m t b a d s
  | .fsub m t b a d => Sys2Proof.Machine.execFsub m t b a d s
  | .fmul m t b a d => Sys2Proof.Machine.execFmul m t b a d s
  | .ffma m t b a d => Sys2Proof.Machine.execFfma m t b a d s
  | .fmin n t b a d => Sys2Proof.Machine.execFmin n t b a d s
  | .fmax n t b a d => Sys2Proof.Machine.execFmax n t b a d s
  | .fcmp w c b a d => Sys2Proof.Machine.execFcmp w c b a d s
  | .fabs t a d => Sys2Proof.Machine.execFabs t a d s
  | .fneg t a d => Sys2Proof.Machine.execFneg t a d s
  | .fcpys t b a d => Sys2Proof.Machine.execFcpys t b a d s
  | .fdiv m t b a d => Sys2Proof.Machine.execFdiv m t b a d s
  | .fsqrt m t a d => Sys2Proof.Machine.execFsqrt m t a d s
  | .rcp a d => Sys2Proof.Machine.execRcp a d s
  | .rsqrt a d => Sys2Proof.Machine.execRsqrt a d s
  | .exp2 a d => Sys2Proof.Machine.execExp2 a d s
  | .log2 a d => Sys2Proof.Machine.execLog2 a d s
  | .sin a d => Sys2Proof.Machine.execSin a d s
  | .cos a d => Sys2Proof.Machine.execCos a d s
  | .tanh a d => Sys2Proof.Machine.execTanh a d s
  | .fdot2 m f b a d => Sys2Proof.Machine.execFdot2 m f b a d s
  | .fscale m t b a d => Sys2Proof.Machine.execFscale m t b a d s
  | .fclass t a d => Sys2Proof.Machine.execFclass t a d s
  | .cvtF16 m b a d => Sys2Proof.Machine.execCvtF16 m b a d s
  | .cvtBf16 m b a d => Sys2Proof.Machine.execCvtBf16 m b a d s
  | .cvtF32 m a d => Sys2Proof.Machine.execCvtF32 m a d s
  | .cvtwF16 e a d => Sys2Proof.Machine.execCvtwF16 e a d s
  | .cvtwBf16 e a d => Sys2Proof.Machine.execCvtwBf16 e a d s
  | .cvtwF64 a d => Sys2Proof.Machine.execCvtwF64 a d s
  | .cvti m t a d => Sys2Proof.Machine.execCvti m t a d s
  | .cvtid m t a d => Sys2Proof.Machine.execCvtid m t a d s
  | .cvtf m t a d => Sys2Proof.Machine.execCvtf m t a d s
  | .cvtfd m t a d => Sys2Proof.Machine.execCvtfd m t a d s
  | .qscl a d => Sys2Proof.Machine.execQscl a d s
  | .qenc a d => Sys2Proof.Machine.execQenc a d s
  | .qdec b a d => Sys2Proof.Machine.execQdec b a d s
  | .qcbLin8 => Sys2Proof.Machine.execQcbLin8 s
  | .qcb f a => Sys2Proof.Machine.execQcb f a s
  | .rng w b a d => Sys2Proof.Machine.execRng w b a d s
  | .dot4 f b a d => Sys2Proof.Machine.execDot4 f b a d s
  | .ld p f b a d => Sys2Proof.Machine.execLd p f b a d s
  | .ldi p f i1 a d => Sys2Proof.Machine.execLdi p f i1 a d s
  | .st p f b a d => Sys2Proof.Machine.execSt p f b a d s
  | .sti p f i1 a d => Sys2Proof.Machine.execSti p f i1 a d s
  | .lda z s1 b a d => Sys2Proof.Machine.execLda z s1 b a d s
  | .stl z s1 b a d => Sys2Proof.Machine.execStl z s1 b a d s
  | .atom f b a d => Sys2Proof.Machine.execAtom f b a d s
  | .atomb f b a d => Sys2Proof.Machine.execAtomb f b a d s
  | .lwait n => Sys2Proof.Machine.execLwait n s
  | .lclose => Sys2Proof.Machine.execLclose s
  | .fence g o s1 => Sys2Proof.Machine.execFence g o s1 s
  | .pf l b a => Sys2Proof.Machine.execPf l b a s
  | .ldf z c b a d => Sys2Proof.Machine.execLdf z c b a d s
  | .stf z b a d => Sys2Proof.Machine.execStf z b a d s
  | .feQuery b a d => Sys2Proof.Machine.execFeQuery b a d s
  | .feSet b a => Sys2Proof.Machine.execFeSet b a s
  | .feClr b a => Sys2Proof.Machine.execFeClr b a s
  | .cwr f a d => Sys2Proof.Machine.execCwr f a d s
  | .cwrt f b a d => Sys2Proof.Machine.execCwrt f b a d s
  | .cgath a d => Sys2Proof.Machine.execCgath a d s
  | .ccfg a d => Sys2Proof.Machine.execCcfg a d s
  | .cpeek b a d => Sys2Proof.Machine.execCpeek b a d s
  | .cdrn d => Sys2Proof.Machine.execCdrn d s
  | .cview i1 a => Sys2Proof.Machine.execCview i1 a s
  | .stand b a d => Sys2Proof.Machine.execStand b a d s
  | .unstand a => Sys2Proof.Machine.execUnstand a s
  | .unstandWait a => Sys2Proof.Machine.execUnstandWait a s
  | .rseal a => Sys2Proof.Machine.execRseal a s
  | .rdropShed a => Sys2Proof.Machine.execRdropShed a s
  | .rdropRetire a => Sys2Proof.Machine.execRdropRetire a s
  | .rpin a => Sys2Proof.Machine.execRpin a s
  | .rpinUnpin a => Sys2Proof.Machine.execRpinUnpin a s
  | .rsta a d => Sys2Proof.Machine.execRsta a d s
  | .br o c => Sys2Proof.Machine.execBr o c s
  | .brz o c => Sys2Proof.Machine.execBrz o c s
  | .jmp o => Sys2Proof.Machine.execJmp o s
  | .call o c => Sys2Proof.Machine.execCall o c s
  | .jr a => Sys2Proof.Machine.execJr a s
  | .ret a => Sys2Proof.Machine.execRet a s
  | .meet o => Sys2Proof.Machine.execMeet o s
  | .meetrSet a => Sys2Proof.Machine.execMeetrSet a s
  | .meetrClr => Sys2Proof.Machine.execMeetrClr s
  | .meetrRd d => Sys2Proof.Machine.execMeetrRd d s
  | .poll f a d => Sys2Proof.Machine.execPoll f a d s
  | .lanex s1 p b a d => Sys2Proof.Machine.execLanex s1 p b a d s
  | .crdu f a d => Sys2Proof.Machine.execCrdu f a d s
  | .scan e f a d => Sys2Proof.Machine.execScan e f a d s
  | .bar i1 => Sys2Proof.Machine.execBar i1 s
  | .wbase i1 a => Sys2Proof.Machine.execWbase i1 a s
  | .nop => Sys2Proof.Machine.execNop s
  | .exit => Sys2Proof.Machine.execExit s
  | .yield => Sys2Proof.Machine.execYield s
  | .brk => Sys2Proof.Machine.execBrk s
  | .trap a => Sys2Proof.Machine.execTrap a s
  | .rfirst a d => Sys2Proof.Machine.execRfirst a d s
  | .rdlane b a d => Sys2Proof.Machine.execRdlane b a d s
  | .rdsp p s1 a d => Sys2Proof.Machine.execRdsp p s1 a d s
  | .cpy c k a => Sys2Proof.Machine.execCpy c k a s
  | .rginit b a => Sys2Proof.Machine.execRginit b a s
  | .rgwait a d => Sys2Proof.Machine.execRgwait a d s
  | .rgrel a => Sys2Proof.Machine.execRgrel a s
  | .rgadvClaim a d => Sys2Proof.Machine.execRgadvClaim a d s
  | .rgadvPub a => Sys2Proof.Machine.execRgadvPub a s
  | .mxld a => Sys2Proof.Machine.execMxld a s
  | .mxrun a => Sys2Proof.Machine.execMxrun a s
  | .mxq d => Sys2Proof.Machine.execMxq d s
  | .emitPlain b a => Sys2Proof.Machine.execEmitPlain b a s
  | .emitKeyed b a => Sys2Proof.Machine.execEmitKeyed b a s
  | .emitRemote b a => Sys2Proof.Machine.execEmitRemote b a s
  | .tbinFlush a => Sys2Proof.Machine.execTbinFlush a s
  | .tbinQuery a d => Sys2Proof.Machine.execTbinQuery a d s
  | .rdsys i1 a d => Sys2Proof.Machine.execRdsys i1 a d s
  | .wrsys i1 a d => Sys2Proof.Machine.execWrsys i1 a d s
  | .sysopRestart b a => Sys2Proof.Machine.execSysopRestart b a s
  | .sysopSkip b a => Sys2Proof.Machine.execSysopSkip b a s
  | .sysopKill b a => Sys2Proof.Machine.execSysopKill b a s
  | .sysopTlbinv b a => Sys2Proof.Machine.execSysopTlbinv b a s
  | .sysopWbrange b a => Sys2Proof.Machine.execSysopWbrange b a s
  | .sysopInvrange b a => Sys2Proof.Machine.execSysopInvrange b a s
  | .sysopKillcell a => Sys2Proof.Machine.execSysopKillcell a s
  | .drawReq d => Sys2Proof.Machine.execDrawReq d s
  | .drawRel => Sys2Proof.Machine.execDrawRel s
  | .launch q => Sys2Proof.Machine.execLaunch q s
  | .copy q cmd => Sys2Proof.Machine.execCopy q cmd s
  | .wait q cmd => Sys2Proof.Machine.execWait q cmd s
  | .signal q => Sys2Proof.Machine.execSignal q s
  | .commandComplete q cmd => Sys2Proof.Machine.execCommandComplete q cmd s
  | .qtailWrite q val => Sys2Proof.Machine.execQtailWrite q val s
  | .qbaseWrite q val => Sys2Proof.Machine.execQbaseWrite q val s
  | .contextCreate p => Sys2Proof.Machine.execContextCreate p s
  | .hdieReset die => Sys2Proof.Machine.execHdieReset die s
  | .hostCxlRead dev addr len => Sys2Proof.Machine.execHostCxlRead dev addr len s
  | .hostCxlWrite dev addr bytes => Sys2Proof.Machine.execHostCxlWrite dev addr bytes s
  | .biasFlipToHost dev block => Sys2Proof.Machine.execBiasFlipToHost dev block s
  | .biasFlipToDevice dev block => Sys2Proof.Machine.execBiasFlipToDevice dev block s
  | .trapqWrite ctx val => Sys2Proof.Machine.execTrapqWrite ctx val s
  | .trapqheadWrite ctx val => Sys2Proof.Machine.execTrapqheadWrite ctx val s
  | .rregionCreate ctx r val => Sys2Proof.Machine.execRregionCreate ctx r val s
  | .rregionDestroy ctx r val => Sys2Proof.Machine.execRregionDestroy ctx r val s
  | .noderegRegister ctx n val => Sys2Proof.Machine.execNoderegRegister ctx n val s
  | .noderegDestroy ctx n val => Sys2Proof.Machine.execNoderegDestroy ctx n val s
  | .sysregWrite ctx num val => Sys2Proof.Machine.execSysregWrite ctx num val s
  | .cellPlace dev => Sys2Proof.Machine.execCellPlace dev s
  | .backfillStop item => Sys2Proof.Machine.execBackfillStop item s
  | .gangGatherRoom item => Sys2Proof.Machine.execGangGatherRoom item s
  | .recipeGatherRoom item => Sys2Proof.Machine.execRecipeGatherRoom item s
  | .preemptRequestRaise item => Sys2Proof.Machine.execPreemptRequestRaise item s
  | .sliceEnd cl => Sys2Proof.Machine.execSliceEnd cl s
  | .watchdogExpiry cl => Sys2Proof.Machine.execWatchdogExpiry cl s
  | .eviction cell => Sys2Proof.Machine.execEviction cell s
  | .restore item => Sys2Proof.Machine.execRestore item s
  | .cellEnd cell => Sys2Proof.Machine.execCellEnd cell s
  | .bundleRegroup cl core => Sys2Proof.Machine.execBundleRegroup cl core s
  | .meetRelease cell unit m => Sys2Proof.Machine.execMeetRelease cell unit m s
  | .barrierRelease cell id => Sys2Proof.Machine.execBarrierRelease cell id s
  | .cisternOrphanTrap cell unit tid => Sys2Proof.Machine.execCisternOrphanTrap cell unit tid s
  | .ringFltTrap cell ring => Sys2Proof.Machine.execRingFltTrap cell ring s
  | .cisternWriteLand cell n => Sys2Proof.Machine.execCisternWriteLand cell n s
  | .gatherCombine cell n => Sys2Proof.Machine.execGatherCombine cell n s
  | .storeDrain num => Sys2Proof.Machine.execStoreDrain num s
  | .dirtyWordTimeout num => Sys2Proof.Machine.execDirtyWordTimeout num s
  | .writePerformed num => Sys2Proof.Machine.execWritePerformed num s
  | .releaseComplete num => Sys2Proof.Machine.execReleaseComplete num s
  | .l1FillReturn num => Sys2Proof.Machine.execL1FillReturn num s
  | .leaseExpiry line => Sys2Proof.Machine.execLeaseExpiry line s
  | .ownershipRecall cl l1 word => Sys2Proof.Machine.execOwnershipRecall cl l1 word s
  | .l2Eviction line => Sys2Proof.Machine.execL2Eviction line s
  | .standpipeRegister msg => Sys2Proof.Machine.execStandpipeRegister msg s
  | .latestPushLand msg => Sys2Proof.Machine.execLatestPushLand msg s
  | .ringPushLand msg => Sys2Proof.Machine.execRingPushLand msg s
  | .standpipeCloseAtHome msg => Sys2Proof.Machine.execStandpipeCloseAtHome msg s
  | .closePushLand msg => Sys2Proof.Machine.execClosePushLand msg s
  | .standpipeFreezeAtHome msg => Sys2Proof.Machine.execStandpipeFreezeAtHome msg s
  | .freezePushLand msg => Sys2Proof.Machine.execFreezePushLand msg s
  | .standpipeRelocate msg => Sys2Proof.Machine.execStandpipeRelocate msg s
  | .catchUpPushLand msg => Sys2Proof.Machine.execCatchUpPushLand msg s
  | .subscriptionFail cell slot poison => Sys2Proof.Machine.execSubscriptionFail cell slot poison s
  | .rsealComplete cell unit tid => Sys2Proof.Machine.execRsealComplete cell unit tid s
  | .copyRingClaim copy => Sys2Proof.Machine.execCopyRingClaim copy s
  | .copyPiece copy => Sys2Proof.Machine.execCopyPiece copy s
  | .copyComplete copy => Sys2Proof.Machine.execCopyComplete copy s
  | .mxldStart ent => Sys2Proof.Machine.execMxldStart ent s
  | .mxldComplete ent => Sys2Proof.Machine.execMxldComplete ent s
  | .jobStart ent => Sys2Proof.Machine.execJobStart ent s
  | .jobEnd ent => Sys2Proof.Machine.execJobEnd ent s
  | .drawGrant die => Sys2Proof.Machine.execDrawGrant die s
  | .powerBudgetPeriod watts => Sys2Proof.Machine.execPowerBudgetPeriod watts s
  | .binTimerExpiry dev node key => Sys2Proof.Machine.execBinTimerExpiry dev node key s
  | .remoteEmitPull num => Sys2Proof.Machine.execRemoteEmitPull num s
  | .trapRecordWrite dev => Sys2Proof.Machine.execTrapRecordWrite dev s
  | .watchLimit cell unit => Sys2Proof.Machine.execWatchLimit cell unit s
  | .pageWalk cl ctx va => Sys2Proof.Machine.execPageWalk cl ctx va s
  | .invalidatingSnoop line => Sys2Proof.Machine.execInvalidatingSnoop line s
  | .planeFenceAck cl port => Sys2Proof.Machine.execPlaneFenceAck cl port s
  | .ethernetRetransmitTimeout port => Sys2Proof.Machine.execEthernetRetransmitTimeout port s
  | .powerOnReset fwOk bad => Sys2Proof.Machine.execPowerOnReset fwOk bad s
  | .keySlotUnload major slot => Sys2Proof.Machine.execKeySlotUnload major slot s
  | .ethernetConfig major reg val => Sys2Proof.Machine.execEthernetConfig major reg val s
  | .attestationReport major nonce => Sys2Proof.Machine.execAttestationReport major nonce s
  | .powerCapSet major watts => Sys2Proof.Machine.execPowerCapSet major watts s
  | .keySlotLoad major slot wrapped => Sys2Proof.Machine.execKeySlotLoad major slot wrapped s
  | .flitCrcFail port load => Sys2Proof.Machine.execFlitCrcFail port load s
  | .portTrain port lanes vers peer => Sys2Proof.Machine.execPortTrain port lanes vers peer s
  | .hostGroupBridge bridge => Sys2Proof.Machine.execHostGroupBridge bridge s
  | .bridgeFail => Sys2Proof.Machine.execBridgeFail s
  | .fabricBringUp ids => Sys2Proof.Machine.execFabricBringUp ids s
  | .dieChallengeTimeout die => Sys2Proof.Machine.execDieChallengeTimeout die s
  | .temperatureFall die => Sys2Proof.Machine.execTemperatureFall die s
  | .thermalLimit die => Sys2Proof.Machine.execThermalLimit die s
  | .thermalTrip => Sys2Proof.Machine.execThermalTrip s
  | .powerGateEntry slice => Sys2Proof.Machine.execPowerGateEntry slice s
  | .powerGateExit slice => Sys2Proof.Machine.execPowerGateExit slice s
  | .snoopAnswer line who data => Sys2Proof.Machine.execSnoopAnswer line who data s
  | .softError line => Sys2Proof.Machine.execSoftError line s
  | .hostLineRelease line => Sys2Proof.Machine.execHostLineRelease line s
  | .hostFaultRetry ctx page cl => Sys2Proof.Machine.execHostFaultRetry ctx page cl s
  | .hostFaultFail ctx page cl prot => Sys2Proof.Machine.execHostFaultFail ctx page cl prot s
  | .qctlErrClear q => Sys2Proof.Machine.execQctlErrClear q s
  | .qctlHalt q on => Sys2Proof.Machine.execQctlHalt q on s
  | .crewWatchLimitSet ctx lw => Sys2Proof.Machine.execCrewWatchLimitSet ctx lw s
  | .pageTableRootReplace ctx root => Sys2Proof.Machine.execPageTableRootReplace ctx root s
  | .hostTlbInvalidate ctx va len => Sys2Proof.Machine.execHostTlbInvalidate ctx va len s
  | .contextDestroy ctx => Sys2Proof.Machine.execContextDestroy ctx s
  | .partitionModeSet major mode => Sys2Proof.Machine.execPartitionModeSet major mode s
  | .poisonClear line => Sys2Proof.Machine.execPoisonClear line s

end Sys2Proof.Machine
end

