-- ==== Sys2Proof/Machine/Issue.lean ====
section
/-! DEFINITION. Fetching an instruction (R196-R198, R213, R398), which threads wake, and which bundles and spine threads are ready to
issue (R20, R23-R28, R52, R58, R59, R100, R101, R181, R199, R370, R383). -/

namespace Sys2Proof.Machine

/-! ## Fetch -/

/-- First byte of the block that holds a word (R196). -/
def blockOf (pc : W64) : W64 := (pc >>> 5) <<< 5

/-- A code word with the cell's patches on it (R213). -/
def Cell.patched (c : Cell) (pc : W64) (w : BitVec 32) : BitVec 32 :=
  c.patches.foldl (fun w p => if p.1 = pc then patchWord w p.2.1 p.2.2 else w) w

/-- What a fetch comes to. -/
inductive Fetched where
  | word (ctrl w : BitVec 32)
  | trap (i : TrapInfo)
  /-- the host serves the fault (R381). -/
  | host
  | wait
deriving DecidableEq, Repr

/-- The control word and the instruction word at a PC, from the block's line. -/
def State.fetchWords (s : State) (c : Cell) (cx : Context) (pc : W64) : Fetched × State :=
  match translate s cx c.cl pc .fetch with
  | (.trap code, s1) => (.trap ⟨code, pc, 2⟩, s1)
  | (.host, s1) => (.host, s1)
  | (.region _, s1) => (.trap ⟨tProtection, pc, 2⟩, s1)
  | (.ok key kid _ _, s1) =>
    if unreachable s1.pkg key then (.trap ⟨tPoison, pc, pc⟩, s1)
    else if (s1.line (key / 128)).poison then (.trap ⟨tPoison, lineVa pc, pc⟩, s1)
    else if s1.flipping key cx.dev then (.wait, s1)
    else if (s1.line (key / 128)).maybeDirty then (.wait, s1.askHolders key 4)
    else
      let s2 := s1.underKey (key / 128) kid
      let ctrl := BitVec.ofNat 32 (readNat s2.home.mem (key - (pc - blockOf pc).toNat) 4)
      let w := c.patched pc (BitVec.ofNat 32 (readNat s2.home.mem key 4))
      (.word ctrl w, s2)

/-- The issuing threads wait for the host's answer on the page of their code. -/
def State.blockFetch (s : State) (c : Cell) : State :=
  let i := s.issue
  let s1 := s.hostStall c i.unit (c.unit i.unit) i.tids i.pc 2
  s1.updThreads c.uid i.unit i.tids (fun t =>
    { t with st := .blocked, bun := 0, wkind := 16, wobj := i.pc, ready := s.clk + 1, wclk := s.clk, wseq := s.fresh, word := none })

/-- A thread that comes to a block from another one fetches it, and the context's CHK of that time governs it (R347). DEDUCED (log entry
108): a jump inside the block fetches nothing. -/
def Thread.enter (blk : W64) (chk : Bool) (t : Thread) : Thread :=
  match t.blk with
  | some b => if b.1 = blk then t else { t with blk := some (blk, chk) }
  | none => { t with blk := some (blk, chk) }

/-- The issue with the word and the control word at its PC, or what its fetch leaves instead: a trap, a wait. -/
def State.fetch (s : State) : Bool × State :=
  let i := s.issue
  match s.cell? i.cell, (s.cell? i.cell).bind (fun c => s.ctx? c.ctx) with
  | some c, some cx =>
    match s.fetchWords c cx i.pc with
    | (.trap t, s1) => (false, s1.park i.cell i.unit i.tids t i.pc)
    | (.host, s1) => (false, s1.blockFetch c)
    | (.wait, s1) => (false, s1.updThreads i.cell i.unit i.tids (fun t => { t with ready := s.clk + 1 }))
    | (.word ctrl w, s1) =>
      if ctrl.extractLsb' 29 3 ≠ 0 then (false, s1.park i.cell i.unit i.tids ⟨tControl, 0, ctrl.setWidth 64⟩ i.pc)
      else (true, ({ s1 with issue := { i with word := w, ctrl := ctrl } } : State).updThreads i.cell i.unit i.tids
        (Thread.enter (blockOf i.pc) cx.chk))
  | _, _ => (false, s)

/-- The issued word encodes no instruction (R208): the trap takes the port and the passes of an issue. -/
def State.illegalWord (s : State) : State :=
  match s.who with
  | none => s
  | some w =>
    match w.run with
    | some r => s.onward w {} r (fun _ s => (.done, s))
    | none => s.opening w {} w.tids (w.tids.map (fun t => (t, .trap ⟨tIllegal, 0, w.word.setWidth 64⟩)))

/-! ## Wakes (R383) -/

/-- The wait of a blocked thread is over. -/
def State.wakeOk (s : State) (c : Cell) (u tid : Nat) : Bool :=
  let t := (c.unit u).thread tid
  let n := t.wobj.toNat
  match t.wkind with
  | 2 | 3 | 4 => c.cisWake u t.wkind n
  | 5 => s.fe c n || (c.failedSlot n).isSome
  | 6 | 7 => s.ringWakes c t.wkind n
  | 8 => match (s.ctx? c.ctx).bind (·.region? t.wobj) with
    | some r => (s.tile c.ctx (r.tileBase t.wobj)).st != .building
    | none => true
  | 9 => decide (s.outstanding c.uid u ≤ n) || !s.farBatch c.uid u
  | 10 => match c.slot? (t.wobj.setWidth 32) with
    | some x => !x.st.live
    | none => true
  | 11 => !s.cellRequested c || t.word.isNone
  | 12 => !s.spillFull c.dev
  | 13 => !s.remotePending c.uid u tid
  | 14 => t.answer.isSome
  | 15 => true
  | 16 => s.clu.stalls.all (fun x => !(x.cl == c.cl && x.core == coreNo u (c.unit u) && x.ctx == c.ctx && x.holds t.wobj && x.answer == 0))
  | _ => false

/-- Threads that issue or wake together. -/
structure Group where
  cell : Nat
  unit : Nat
  tids : List Nat
  pc : W64
  /-- the kind of the wait, 0 for an issue. -/
  kind : Nat
  word : Option W32
  /-- order: clk, then rank, then thread. -/
  clk : Nat
  rank : Nat
deriving DecidableEq, Repr

/-- Two threads of a unit blocked in one issue of one instruction. -/
def sameWait (a b : Thread) : Bool := a.wseq == b.wseq && a.pc == b.pc && a.wkind == b.wkind

/-- The threads whose waits are over, of those blocked with thread `tid`: since an earlier clk, or, when the end of a build serves
them, in this one (R138). -/
def State.wakeGroup (s : State) (c : Cell) (u tid : Nat) (now : Bool) : Option Group :=
  let us := c.unit u
  let t := us.thread tid
  let past := fun (i : Nat) =>
    let x := us.thread i
    x.st == .blocked && (now || decide (x.wclk < s.clk)) && s.wakeOk c u i
  if past tid then
    some ⟨c.uid, u, (List.range us.threads.length).filter (fun i => sameWait (us.thread i) t && past i), t.pc, t.wkind, t.word, t.wclk,
      unitRank c u⟩
  else none

/-- Order of blocking, then of arbitration, then lowest thread (R59, R181). -/
def Group.before (a b : Group) : Bool :=
  decide (a.clk < b.clk) || (a.clk == b.clk && (decide (a.rank < b.rank)
    || (a.rank == b.rank && decide (a.tids.headD 0 < b.tids.headD 0))))

/-- Put a group in its place (R59). -/
def Group.insert (g : Group) : List Group → List Group
  | [] => [g]
  | h :: r => if g.before h then g :: h :: r else h :: g.insert r

/-- The groups of threads whose waits are over, in the order in which they blocked. -/
def State.overNow (s : State) : List Group :=
  (s.running.flatMap (fun c => c.units.zipIdx.flatMap (fun u =>
    (List.range u.1.threads.length).filterMap (fun t => (s.wakeGroup c u.2 t false).filter (fun g => g.tids.headD 0 == t))))).foldr
      Group.insert []

/-- Waits that need no second issue: `unstand.wait`, a `yield`, and `emit.remote` (R383). -/
def plainWake (kind : Nat) : Bool := kind == 10 || kind == 11 || kind == 13

/-- The threads complete their instruction. -/
def State.wakePlain (s : State) (g : Group) : State :=
  s.updThreads g.cell g.unit g.tids (fun t => t.goOn (nextPc t.pc) s.clk (max (s.clk + 1) t.ready) 0)

/-- The threads are about to complete their blocking instruction. -/
def State.setWake (s : State) (g : Group) : State :=
  { s with issue := ⟨g.cell, g.unit, g.tids, g.pc, g.word.getD 0, 0, true, 0, none⟩ }

/-- The issue of a waking group: of the word it blocked in, or, after a restore, of the word at its PC. -/
def State.wakeIssue (s : State) (g : Group) : Bool × State :=
  match g.word with
  | some _ => (true, s.setWake g)
  | none => (s.setWake g).fetch

/-- The wait of kind 5 that a woken `ldf` on a granule stands for: the one of that granule that blocked first (R370). DESIGN CHOICE
(log entry 42): the `ldf` that wake in one clk take the places that R101 gives their threads, and those of one granule take their
places in the order in which they blocked. -/
def State.eldest (s : State) (g : Group) : Group :=
  let gran := fun (c : Cell) (u tid : Nat) => ((c.unit u).thread tid).wobj.toNat / 16
  match s.cell? g.cell with
  | none => g
  | some c => (s.overNow.find? (fun x => x.cell == g.cell && x.kind == 5
      && gran c x.unit (x.tids.headD 0) == gran c g.unit (g.tids.headD 0))).getD g

/-! ## What is ready to issue (R24-R28) -/

/-- The core is stalled by a fault that the host serves (R381). -/
def State.coreStalled (s : State) (cl core : Nat) : Bool := s.clu.stalls.any (fun x => x.cl == cl && x.core == core)

/-- The unit issues nothing until its held grant has been granted again (R319). -/
def UnitSt.gated (u : UnitSt) : Bool := u.drawHeld && u.drawPend

/-- A change of full/empty bits that the thread began goes on: its next instruction waits for it (R201, R295). -/
def State.feBusy (s : State) (cell u tid : Nat) : Bool := s.clu.feOps.any (fun o => o.cell == cell && o.unit == u && o.tid == tid)

/-- The spine thread of a cell, when it can issue. -/
def State.spineGroup (s : State) (c : Cell) : Option Group :=
  let us := c.unit 0
  let t := us.thread 0
  if t.st = .eligible ∧ t.ready ≤ s.clk ∧ us.gated = false ∧ s.coreStalled c.cl 100 = false ∧ s.feBusy c.uid 0 0 = false then
    some ⟨c.uid, 0, [0], t.pc, 0, none, 0, unitRank c 0⟩
  else none

/-- The bundles of a crew that are ready, each by its lowest thread. -/
def State.crewGroups (s : State) (c : Cell) (u : Nat) : List Group :=
  let us := c.unit u
  if us.gated || s.coreStalled c.cl us.core then []
  else (List.range us.threads.length).filterMap (fun i =>
    let t := us.thread i
    if t.st ≠ .eligible ∨ t.bun = 0 then none
    else
      let mates := (List.range us.threads.length).filter (fun j => (us.thread j).st == .eligible && (us.thread j).bun == t.bun)
      if mates.headD 0 ≠ i ∨ mates.any (fun j => decide (s.clk < (us.thread j).ready) || s.inPass c.uid u j || s.feBusy c.uid u j) = true
      then none
      else some ⟨c.uid, u, mates, t.pc, 0, none, (mates.map (fun j => (us.thread j).age)).foldl max 0, us.slot⟩)

/-- The cores on which crews are placed, in order. -/
def State.coresUsed (s : State) : List (Nat × Nat) :=
  (List.range 104).flatMap (fun cl => if s.running.any (fun c => c.cl == cl) then (List.range 4).map (fun k => (cl, k)) else [])

/-- The ready bundles of a core, oldest first; ties go to the lower crew slot, then to the lowest thread (R26). -/
def State.coreReady (s : State) (cl core : Nat) : List Group :=
  ((s.running.filter (fun c => c.cl == cl)).flatMap (fun c =>
    (c.units.zipIdx.filter (fun u => u.2 != 0 && u.1.core == core)).flatMap (fun u => s.crewGroups c u.2))).foldr Group.insert []

/-- The bundle on a port of a core. -/
def State.runAt (s : State) (cl core port : Nat) : Option IssuePort :=
  s.clu.ports.find? (fun p => p.cl == cl && p.core == core && p.port == port)

/-- Two bundles conflict (R27). -/
def PortUse.clash (a b : PortUse) : Bool := a.banks.any b.banks.contains || (a.special && b.special) || (a.basin && b.basin)

/-- The group is about to issue. -/
def State.setIssue (s : State) (g : Group) (port : Nat) : State :=
  { s with issue := ⟨g.cell, g.unit, g.tids, g.pc, 0, 0, false, port, none⟩ }

/-- The bundle on a port is about to go on with its passes. -/
def State.setPass (s : State) (r : IssuePort) : State :=
  { s with issue := ⟨r.cell, r.unit, r.tids, r.pc, r.word, r.ctrl, false, r.port, none⟩ }

end Sys2Proof.Machine
end

