-- ==== Sys2Proof/Machine/Clock.lean ====
section
/-! DEFINITION. What happens in one clk, and when the next begins (R20-R28, R58, R59, R101, R393): inputs, events of the device,
wakes and releases, the turns of bundles and spine threads, and what a rule puts at the end of the clk. -/

namespace Sys2Proof.Machine

/-! ## Inputs -/

/-- What the host and the world outside the part do: the operations that the agenda may name. -/
def isInput : Instr → Bool
  | .qtailWrite .. | .qbaseWrite .. | .qctlErrClear .. | .qctlHalt .. | .contextCreate .. | .contextDestroy ..
  | .pageTableRootReplace .. | .crewWatchLimitSet .. | .hostTlbInvalidate .. | .poisonClear .. | .partitionModeSet ..
  | .keySlotLoad .. | .keySlotUnload .. | .attestationReport .. | .powerCapSet .. | .ethernetConfig .. | .hostCxlRead ..
  | .hostCxlWrite .. | .biasFlipToHost .. | .biasFlipToDevice .. | .hostLineRelease .. | .trapqWrite .. | .trapqheadWrite ..
  | .rregionCreate .. | .rregionDestroy .. | .noderegRegister .. | .noderegDestroy .. | .sysregWrite .. | .hostFaultRetry ..
  | .hostFaultFail .. | .softError .. | .thermalLimit .. | .temperatureFall .. | .thermalTrip | .invalidatingSnoop ..
  | .snoopAnswer .. | .powerGateEntry .. | .powerGateExit .. | .hdieReset .. | .flitCrcFail .. | .portTrain ..
  | .hostGroupBridge .. | .bridgeFail | .fabricBringUp .. | .powerOnReset .. | .dieChallengeTimeout .. => true
  | _ => false

/-- What reaches the part only through its host port (R339, R354, R408, R417, R418). -/
def fromHost : Instr → Bool
  | .qtailWrite .. | .qbaseWrite .. | .qctlErrClear .. | .qctlHalt .. | .contextCreate .. | .contextDestroy ..
  | .pageTableRootReplace .. | .crewWatchLimitSet .. | .hostTlbInvalidate .. | .poisonClear .. | .partitionModeSet ..
  | .keySlotLoad .. | .keySlotUnload .. | .attestationReport .. | .powerCapSet .. | .ethernetConfig .. | .hostCxlRead ..
  | .hostCxlWrite .. | .biasFlipToHost .. | .biasFlipToDevice .. | .hostLineRelease .. | .trapqWrite .. | .trapqheadWrite ..
  | .rregionCreate .. | .rregionDestroy .. | .noderegRegister .. | .noderegDestroy .. | .sysregWrite .. | .hostFaultRetry ..
  | .hostFaultFail .. => true
  | _ => false

/-- The power-on reset, which the package takes without power. -/
def isPowerOn : Instr → Bool
  | .powerOnReset .. => true
  | _ => false

/-! ## Issue -/

/-- The word of the issue runs. -/
def State.runWord (s : State) : Host.Outcome State Fault Refusal :=
  match decodeWord s.issue.word with
  | .ok i => exec i s
  | .error _ => .next s.illegalWord

/-- A bundle or spine thread issues: its word is fetched, and runs (R26, R196-R198). -/
def State.start (s : State) (g : Group) (port : Nat) : Host.Outcome State Fault Refusal :=
  match (s.setIssue g port).fetch with
  | (true, s1) => s1.runWord
  | (false, s1) => .next s1

/-- What a ready bundle would use on a port, when its instruction would be accepted (R25-R27). -/
def State.wouldTake (s : State) (g : Group) : Option PortUse :=
  match s.start g 0 with
  | .next t => t.issue.took
  | _ => none

/-- The first bundle, ready by its stall count, that takes no port: its word traps at fetch or its instruction cannot be accepted.
It traps or goes on waiting in this clk (R25, R26). -/
def State.turnedAway (s : State) : Option Group :=
  s.coresUsed.findSome? (fun x => (s.coreReady x.1 x.2).find? (fun g => (s.wouldTake g).isNone))

/-- The bundles that a core gives its free ports, with what each uses, and whether the passes on port 1 go on (R26, R27). -/
def State.picks (s : State) (cl core : Nat) : Option (Group × PortUse) × Option (Group × PortUse) × Bool :=
  let gs := (s.coreReady cl core).filterMap (fun g => (s.wouldTake g).map (fun u => (g, u)))
  let r0 := s.runAt cl core 0
  let r1 := s.runAt cl core 1
  let p0 := if r0.isNone then gs.head? else none
  let use0 := (r0.map (·.use)).or (p0.map (·.2))
  let clear := fun (u : PortUse) => use0.all (fun x => !x.clash u)
  let left := if r0.isNone then gs.drop 1 else gs
  (p0, if r1.isNone then left.find? (fun g => clear g.2) else none, r1.any (fun r => clear r.use))

/-- Place of a thread in the order of R59 and R101. -/
def State.place (s : State) (cell unit tid : Nat) : Nat :=
  match s.cell? cell with
  | some c => lanePlace c unit tid
  | none => 0

def Turn.place (s : State) : Turn → Nat
  | .basin n => match s.clu.stores.find? (fun e => e.seq == n) with
    | some e => s.place e.cell e.unit e.tid
    | none => ((s.clu.loads.find? (fun l => l.num == n)).map (fun l => s.place l.cell l.unit l.tid)).getD 0
  | .wake c u t => s.place c u t
  | .fe n => ((s.clu.feOps.find? (fun o => o.num == n)).map (fun o => s.place o.cell o.unit o.tid)).getD 0
  | .start c u ts _ _ => s.place c u (ts.headD 0)
  | .pass cl core p => ((s.runAt cl core p).map (fun r => s.place r.cell r.unit (r.tids.headD 0))).getD 0

/-- What issues or goes on at a core in this clk. -/
def State.coreTurns (s : State) (cl core : Nat) : List Turn :=
  let (p0, p1, go1) := s.picks cl core
  let start := fun (p : Nat) (g : Group × PortUse) => Turn.start g.1.cell g.1.unit g.1.tids g.1.pc p
  (p0.map (start 0)).toList ++ (p1.map (start 1)).toList
    ++ (if (s.runAt cl core 0).isSome then [.pass cl core 0] else []) ++ (if go1 then [.pass cl core 1] else [])

/-- The changes of full/empty bits that go on: the oldest of each core (R295). -/
def State.feTurns (s : State) : List Turn :=
  (s.clu.feOps.filter (fun o => s.clu.feOps.all (fun x => decide (o.num ≤ x.num) || s.feCore x != s.feCore o))).map (fun o => .fe o.num)

/-- Everything that takes its turn in this clk, in the order of R59 and R101: with the `ldf` that wake, which the end of the clk
before has noted. -/
def State.newTurns (s : State) : List Turn :=
  sortBy (Turn.place s) (s.basinDue.map .basin ++ s.turns ++ s.feTurns
    ++ (s.running.filterMap (fun c => s.spineGroup c)).map (fun g => .start g.cell g.unit g.tids g.pc 0)
    ++ s.coresUsed.flatMap (fun x => s.coreTurns x.1 x.2))

/-! ## Wakes -/

/-- A group of woken threads completes its instruction, without a port (R20, R383). -/
def State.wakeUp (s : State) (g : Group) : Host.Outcome State Fault Refusal :=
  if plainWake g.kind then .next (s.wakePlain g)
  else match s.wakeIssue g with
    | (true, s1) => s1.runWord
    | (false, s1) => .next s1

/-- The group of a blocked thread whose wait is over. -/
def State.groupOf (s : State) (cell unit tid : Nat) (now : Bool) : Option Group :=
  (s.running.find? (fun c => c.uid == cell)).bind (fun c => s.wakeGroup c unit tid now)

/-- A wait that is over is served: a thread's, or an event's. -/
def State.serve (s : State) (d : Due) (now : Bool) : Host.Outcome State Fault Refusal :=
  match d with
  | .event i => exec i s
  | .thread c u t => match s.groupOf c u t now with
    | some g => s.wakeUp g
    | none => .next s

/-- A turn is taken. -/
def State.take (s : State) (t : Turn) : Host.Outcome State Fault Refusal :=
  match t with
  | .basin n => .next (s.basinTurn n)
  | .wake c u t => match s.groupOf c u t false with
    | some g => s.wakeUp (s.eldest g)
    | none => .next s
  | .fe n => match s.clu.feOps.find? (fun o => o.num == n) with
    | some o => .next (s.feStep o)
    | none => .next s
  | .start c u ts pc p => s.start ⟨c, u, ts, pc, 0, none, 0, 0⟩ p
  | .pass cl core p => match s.runAt cl core p with
    | some r => (s.setPass r).runWord
    | none => .next s

/-! ## The next clk -/

/-- A resident thread of the stalled core still waits for the page (R381). -/
def State.stallStays (s : State) (x : CoreStall) : Bool :=
  x.core == 101 || s.running.any (fun c => c.cl == x.cl && c.ctx == x.ctx && c.units.zipIdx.any (fun u =>
    coreNo u.2 u.1 == x.core && u.1.threads.any (fun t => t.st == .blocked && t.wkind == 16 && x.holds t.wobj)))

/-- The TIMERs of the units of a placed cell run (R393). -/
def Cell.runTimers (c : Cell) : Cell :=
  if c.evicted || c.evicting then c else { c with units := c.units.map (fun u => { u with timer := u.timer + 1 }) }

/-- CYCLES runs while the context has a cell placed (R393). -/
def State.runCycles (s : State) (c : Context) : Context :=
  if s.running.any (fun x => x.ctx == c.tag) then { c with cycles := c.cycles + 1 } else c

/-- The agenda's first entry comes one clk nearer. -/
def agendaNearer : List (Nat × Instr) → List (Nat × Instr)
  | (n, i) :: r => (n - 1, i) :: r
  | [] => []

/-- Releases and traps that belong to the clk after what brings them (R21, R61, R180, R251). -/
def State.lettings (s : State) : List Instr :=
  s.running.flatMap (fun c =>
    (c.units.zipIdx.flatMap (fun u => ((u.1.threads.filter (fun t => t.st == .held)).filterMap (·.mr)).dedup.map
      (fun m => Instr.meetRelease c.uid u.2 m)))
    ++ (List.range c.bars.length).map (fun b => Instr.barrierRelease c.uid b)
    ++ c.units.zipIdx.flatMap (fun u => (List.range u.1.threads.length).filterMap (fun t =>
        if (u.1.thread t).st == .blocked && [2, 3, 4].contains (u.1.thread t).wkind then some (Instr.cisternOrphanTrap c.uid u.2 t) else none))
    ++ (c.units.flatMap (fun u => (u.threads.filter (fun t => t.st == .blocked && [6, 7].contains t.wkind)).map (·.wobj))).dedup.map
        (fun h => Instr.ringFltTrap c.uid (h.setWidth 32)))

/-- The event would change something. -/
def State.wouldAct (s : State) (i : Instr) : Bool :=
  match exec i s with
  | .next t => decide (t ≠ s)
  | _ => false

/-- What is over at the end of a clk is noted for the next one: the waits and the releases, and the `ldf` that wake (R20, R58, R101). -/
def State.noteDue (s : State) : State :=
  let gs := s.overNow
  let lead := fun (g : Group) => g.tids.headD 0
  { s with due := (gs.filter (fun g => g.kind != 5)).map (fun g => .thread g.cell g.unit (lead g))
                    ++ (s.lettings.filter s.wouldAct).map .event
           turns := (gs.filter (fun g => g.kind == 5)).map (fun g => .wake g.cell g.unit (lead g)) }

/-- The clk is over: counters run, answered stalls end, the links carry their beats, boot goes on, the subscriptions of cells whose threads
are all gone close, and what is over is noted (R58, R128, R381, R393, R411, R420). -/
def State.nextClk (s : State) : State :=
  let s0 := s.closeEnded.runLinks.bootStep
  ({ s0 with
    clk := s0.clk + 1
    agenda := agendaNearer s0.agenda
    phase := .device
    cells := s0.cells.map Cell.runTimers
    sched := { s0.sched with ctxs := s0.sched.ctxs.map s0.runCycles }
    clu := { s0.clu with stalls := s0.clu.stalls.filter s0.stallStays, moved := [] } } : State).noteDue

/-! ## Events -/

/-- Units of the cells on clusters: cell, unit. -/
def State.unitsUp (s : State) : List (Nat × Nat) :=
  s.running.flatMap (fun c => (List.range c.units.length).map (fun u => (c.uid, u)))

/-- Devices of the package. -/
def State.devs (s : State) : List Nat := List.range (numDevs s.pkg.mode)

/-- Regrouping, every 4 clk (R23). -/
def State.regroups (s : State) : List Instr := if s.clk % 4 = 0 then s.coresUsed.map (fun x => .bundleRegroup x.1 x.2) else []

/-- Jobs whose next row is due: row m is written by clk 140 + m after the start (R187). -/
def State.jobsDue (s : State) : List Instr :=
  (s.clu.mx.filter (fun e => e.isRun && e.running && decide (e.started + 140 + e.rows ≤ s.clk))).map (fun e => .jobEnd e.num)

/-- Threads whose `rseal` awaits its release (R138). -/
def State.sealing (s : State) : List Instr :=
  s.running.flatMap (fun c => c.units.zipIdx.flatMap (fun u => (List.range u.1.threads.length).filterMap (fun t =>
    if (u.1.thread t).stage ≠ 0 ∧ (u.1.thread t).answer.isSome = true then some (Instr.rsealComplete c.uid u.2 t) else none)))

/-- Events of the store path, the homes, the ports, and the engines whose time a rule gives (R105, R106, R129, R138, R153, R187, R403,
R419, R423). -/
def State.timedEvents (s : State) : List Instr :=
  List.flatten [
    s.home.lines.map (fun h => .leaseExpiry h.line),
    (s.clu.stores.filter s.markerOver).map (fun e => .releaseComplete e.seq),
    (s.drainsDue.filter s.nextDrain).map (fun e =>
      if e.born + Config.dirtyLimit ≤ s.tb then .dirtyWordTimeout e.seq else .storeDrain e.seq),
    s.writesDue.map .writePerformed,
    s.sealing,
    s.jobsDue,
    s.cells.flatMap (fun c => c.subs.flatMap (fun x => [.subscriptionFail c.uid x.slot true, .subscriptionFail c.uid x.slot false])),
    (List.range s.pkg.eports.length).map .ethernetRetransmitTimeout,
    (if s.pkg.booted then [.powerBudgetPeriod (Config.freeNat s.fresh 21)] else [])]

/-- Pending items of every device in rank order (R360). -/
def State.rankedIds (s : State) : List Nat := s.devs.flatMap (fun d => (s.ranked d).map (·.id))

/-- Events of cells and of the launch unit, in the clk in which their condition holds (R17, R51, R55, R143, R192, R361-R369, R384,
R394): items in rank order, slices that end in one clk by cluster (R366). -/
def State.lastEvents (s : State) : List Instr :=
  List.flatten [
    (s.cells.filter (fun c => !c.evicted)).flatMap (fun c => (List.range c.cis.length).flatMap (fun n =>
      [.cisternWriteLand c.uid n, .gatherCombine c.uid n])),
    s.unitsUp.map (fun u => .watchLimit u.1 u.2),
    s.cells.flatMap (fun c => [.cellEnd c.uid, .eviction c.uid]),
    s.sched.nodes.flatMap (fun n => n.bins.map (fun b => .binTimerExpiry n.dev n.idx b.key)),
    s.sched.items.map (fun i => .backfillStop i.id),
    s.devs.map .cellPlace,
    s.rankedIds.map .restore,
    s.rankedIds.flatMap (fun i => [.gangGatherRoom i, .recipeGatherRoom i]),
    s.rankedIds.map .preemptRequestRaise,
    (sortBy ClSlice.cl s.sched.slices).map (fun x => .sliceEnd x.cl),
    (sortBy ClSlice.cl s.sched.slices).map (fun x => .watchdogExpiry x.cl)]

/-- The event that takes a standpipe message on. -/
def Msg.event (m : Msg) : List Instr :=
  match m.kind with
  | .register => [.standpipeRegister m.num]
  | .data => [.latestPushLand m.num, .ringPushLand m.num]
  | .closeReq => [.standpipeCloseAtHome m.num]
  | .closePush => [.closePushLand m.num]
  | .freezeReq => [.standpipeFreezeAtHome m.num]
  | .freezePush => [.freezePushLand m.num]
  | .relocate => [.standpipeRelocate m.num]
  | .catchUp _ => [.catchUpPushLand m.num]
  | .fail poison => [.subscriptionFail m.cell m.slot poison]

/-- Steps of hardware queues that may be taken (R354-R358). -/
def State.queueEvents (s : State) : List Instr :=
  s.sched.queues.zipIdx.flatMap (fun x =>
    if x.1.bound.isNone then []
    else [.launch x.2, .copy x.2 none, .wait x.2 none, .signal x.2]
      ++ x.1.running.flatMap (fun c => [.copy x.2 (some c.idx), .wait x.2 (some c.idx), .commandComplete x.2 c.idx]))

/-- Steps of the memory system whose clk the device chooses (R92, R103, R105-R107, R399, R406, R409). -/
def State.memoryEvents (s : State) : List Instr :=
  List.flatten [
    (s.clu.stores.filter (fun e => e.ph == .dirty)).map (fun e => .storeDrain e.seq),
    (s.clu.stores.filter (fun e => e.ph == .sent)).map (fun e => .writePerformed e.seq),
    (s.clu.loads.filter (fun l => !l.done && !l.isAtom && !basinKey l.key)).map (fun l => .l1FillReturn l.num),
    s.clu.fetches.map (fun f => .l1FillReturn f.num),
    s.clu.owned.map (fun o => .ownershipRecall o.1 o.2.1 o.2.2),
    (s.home.lines.filter (fun h => h.present)).map (fun h => .l2Eviction h.line),
    s.home.tiles.flatMap (fun t => t.present.map (fun i => .l2Eviction (keyRec t.ctx (t.base.toNat + 128 * i) / 128))),
    (s.home.lines.filter (fun h => h.snoop || (h.listed && s.dirFull h.line))).map (fun h => .invalidatingSnoop h.line),
    (s.clu.tlb.filter (fun t => decide (t.unit < 104))).map (fun t =>
        .pageWalk t.unit t.ctx (BitVec.ofNat 64 (t.page * pageBytes t.lvl))),
    s.home.flips.map (fun f => if f.toHost then .biasFlipToHost f.dev f.block else .biasFlipToDevice f.dev f.block)]

/-- Steps of engines, messages and services whose clk the device chooses (R174-R191, R195, R376, R413). -/
def State.engineEvents (s : State) : List Instr :=
  List.flatten [
    (s.home.msgs.filter (fun m => !s.inFlight (.standpipe m.num))).flatMap Msg.event,
    s.clu.copies.flatMap (fun o => [.copyRingClaim o.num, .copyPiece o.num, .copyComplete o.num]),
    s.clu.mx.flatMap (fun e => if e.isRun then [.jobStart e.num, .jobEnd e.num] else [.mxldStart e.num, .mxldComplete e.num]),
    (List.range 8).map .drawGrant,
    s.sched.remotes.map (fun r => .remoteEmitPull r.id),
    s.devs.map .trapRecordWrite,
    s.clu.fences.map (fun f => .planeFenceAck f.1 f.2.1)]

/-- Everything whose clk the device chooses, and host commands that wait for a line. -/
def State.optional (s : State) : List Instr := s.memoryEvents ++ s.engineEvents ++ s.queueEvents ++ s.waiting

/-! ## The step -/

/-- The device takes a step of its own that it chooses, or none any more in this clk (log entry 4). -/
def State.choose (s : State) : Host.Outcome State Fault Refusal :=
  let l := s.optional.filter s.wouldAct
  match l[Config.freeNat s.fresh 0 % (l.length + 1)]? with
  | some i => exec i s
  | none => .next { s with phase := .waits }

/-- The first of some events that would do something, or else `next`. -/
def State.first (s : State) (is : List Instr) (next : Host.Outcome State Fault Refusal) : Host.Outcome State Fault Refusal :=
  match is.find? s.wouldAct with
  | some i => exec i s
  | none => next

/-- The waits that are over, then the regrouping, then the bundles that take no port, then the turns of the clk. -/
def State.runWaits (s : State) : Host.Outcome State Fault Refusal :=
  match s.due with
  | d :: r => ({ s with due := r } : State).serve d false
  | [] => s.first s.regroups (match s.turnedAway with
    | some g => s.start g 0
    | none => .next { s with phase := .turns, turns := s.newTurns })

/-- The phases of a clk. -/
def State.runClk (s : State) : Host.Outcome State Fault Refusal :=
  match s.phase with
  | .device => s.first s.timedEvents s.choose
  | .waits => s.runWaits
  | .turns => match s.turns with
    | t :: r => ({ s with turns := r } : State).take t
    | [] => .next { s with phase := .rest }
  | .rest => s.first s.lastEvents (.next s.nextClk)

/-- An input whose time has come. What the host sends while its port is closed, or its bridge has failed, does not arrive (R418, R420). A
command that equals one which still waits waits behind it (R340). -/
def State.input (s : State) (i : Instr) : Host.Outcome State Fault Refusal :=
  if isInput i = false ∨ (fromHost i = true ∧ hostReachable s.pkg = false) then .next s
  else if s.waiting.contains i then .next { s with waiting := s.waiting ++ [i] }
  else exec i s

/-- The inputs whose time has come, then the accesses that the end of a build serves, then the rest of the clk. -/
def State.work (s : State) : Host.Outcome State Fault Refusal :=
  match s.agenda, s.served with
  | (0, i) :: r, _ => ({ s with agenda := r } : State).input i
  | _, d :: r => ({ s with served := r } : State).serve d true
  | _, [] => s.runClk

/-- One step. A package without power does nothing but start again (R420, R424). -/
def State.act (s : State) : Host.Outcome State Fault Refusal :=
  if s.pkg.powered then s.tick1.work
  else match s.agenda with
    | (_, i) :: r => if isPowerOn i then exec i { s.tick1 with agenda := r } else .fault .noPower
    | [] => .fault .noPower

/-! ## A program's first instruction (log entry 3) -/

/-- Words that only a crew may issue (R209-R212). -/
def crewWord : Instr → Bool
  | .cgath .. | .meet .. | .meetrSet .. | .meetrClr | .meetrRd .. | .wbase .. | .cview .. | .crdu .. | .scan .. | .poll ..
  | .lanex .. | .fdot2 .. | .qscl .. | .qenc .. | .qdec .. | .qcbLin8 | .qcb .. => true
  | _ => false

/-- Address of the word that the placed program runs first: word 1 of a block (R196). -/
def firstPc : W64 := 0x40004

/-- Header of the placed program: one crew of 32 threads, 192 fast registers, 16 pages of basin, 64 cisterns. -/
def placedHeader : Header where
  width := 32
  ncrew := 1
  fast := 192
  slow := 0
  basin := 16
  bzero := true
  fused := false
  gang := 0
  ncis := 64
  cdecls := []
  roles := []
  patches := []
  spineOff := 0
  crewOff := 0
  hbytes := 128
  node := false
  nkeyed := false
  ncount := 0
  nsize := 0
  ntimer := 0

/-- A thread that stands at the first word. -/
def placedThread (clk : Nat) : Thread := { Thread.start firstPc clk with bun := 1, ready := 0, age := 0 }

/-- The placed cell: its spine stands at the word, or, for a word that only crews issue, one thread of its crew does. -/
def placedCell (crew : Bool) (clk : Nat) : Cell where
  uid := 1
  launch := 1
  ctx := 1
  dev := 0
  tag := 0
  index := 0
  count := 1
  kimg := 0x3FF80
  param := 0
  hdr := placedHeader
  patches := []
  pri := 0
  node := none
  nrec := 0
  handler := false
  tile := none
  gang := 0
  rank := 0
  peers := []
  cl := 0
  spineNo := 0
  basinOff := 0
  basinSize := 65536
  inReserve := false
  save := 0
  saveLen := 0
  placeSeq := 0
  cis := List.replicate 64 Cistern.empty
  bars := List.replicate 16 ⟨0, []⟩
  units := [UnitSt.fresh [if crew then Thread.absent else placedThread clk] [] 0 0 0,
            UnitSt.fresh ((if crew then placedThread clk else Thread.absent) :: List.replicate 31 Thread.absent) [] 0 0 0]
  subs := []
  evicting := false
  evTb := 0
  evSeq := 0
  evicted := false
  killed := false
  deferred := []

/-- The context of the placed cell: tables at 0x10000 and 0x20000 map the first GiB to itself (R395-R397). -/
def placedCtx : Context where
  tag := 1
  dev := 0
  root := 0x10000
  keyIds := []
  queues := []
  topPri := 0
  trapHost := true
  chk := false
  trapq := 0
  tqHead := 0
  tqTail := 0
  slice := 0
  watchdog := 0
  handler := 0
  regions := List.replicate 16 {}
  nodeRegs := []
  reserve := false
  drawWait := 0
  cycles := 0
  lw := 0
  poolBase := 0
  poolSize := 0
  dying := false

/-- Memory with the two table entries, the block's control word 0 and the word. -/
def placedMem (m : Memory) (w : Nat) : Memory :=
  writeBytes (writeBytes (writeBytes m (keyDev 0 0x10000) (bytesOfNat 8 0x20001)) (keyDev 0 0x20000) (bytesOfNat 8 0x1F))
    (keyDev 0 0x40000) (bytesOfNat 4 0 ++ bytesOfNat 4 w)

end Sys2Proof.Machine
end

