-- ==== Sys2Proof/Machine/Step.lean ====
section
/-! DEFINITION. One step of the machine, and the state in which a given word is the next to run. -/

namespace Sys2Proof.Machine

/-- One step: an input, a wake, a release, the turn of one bundle or spine thread, one event, or the end of a phase or of a clk. -/
def step (s : State) : Host.Outcome State Fault Refusal := s.act

/-- The state in which the next step fetches and runs the word `w` (log entry 3): the part has booted, one context has one
cell, and the thread that may issue the word stands at it. -/
def State.withFetchWord (s : State) (nbits w : Nat) : State :=
  let v := w % 2 ^ nbits
  let crew := match decodeTableWord nbits v with
    | some i => crewWord i
    | none => false
  { s with
    agenda := []
    served := []
    due := []
    phase := .turns
    turns := [.start 1 (if crew then 1 else 0) [0] firstPc 0]
    pkg := { s.pkg with powered := true, booted := true }
    sched := { s.sched with ctxs := [placedCtx] }
    cells := [placedCell crew s.clk]
    clu := Clusters.reset
    home := { Home.reset with mem := placedMem s.home.mem v } }

end Sys2Proof.Machine
end

