-- ==== Sys2Proof/Safety.lean ====
section
/-! DEFINITION. What counts as a safe run, and the terms the claims are stated in: registers and threads of a state by name,
an issue that passes every test before an instruction's own work, and the state an instruction leaves when all its threads
go on. -/

namespace Sys2Proof.Machine

/-! ## Safe runs -/

/-- The next `n` steps stop nowhere: the package keeps its power and nothing is refused. -/
def State.safeFor : Nat → State → Bool
  | 0, _ => true
  | n + 1, s => match step s with
    | .next t => t.safeFor n
    | _ => false

/-- Memory and the full/empty bits are in canonical form. -/
def State.wf (s : State) : Bool := s.home.mem.wf && swf s.home.fe

/-! ## Registers of a state -/

/-- The unit `u` of a cell: 0 its spine, c + 1 its crew c. -/
def State.unit (s : State) (uid u : Nat) : UnitSt :=
  match s.cell? uid with
  | some c => c.unit u
  | none => UnitSt.absent

/-- x register `n` of a spine thread, k register `n` of a crew. -/
def State.rreg (s : State) (uid u n : Nat) : W64 := sget (s.unit uid u).regs n

/-- Physical v register `p` of lane `tid` of a crew. -/
def State.vreg (s : State) (uid u p tid : Nat) : W32 := sget (s.unit uid u).v (regV p tid)

/-- A register of a unit by the numbers of `Who.regsOf`. -/
def UnitSt.reg (u : UnitSt) (r : Nat) : W64 := if r < 32768 then (sget u.v r).setWidth 64 else sget u.regs (r - 32768)

/-- A destination field of a thread holds a result (R37-R44): a v pair at width 64, one v register at less, the whole of a k or
x register. A field that names no register (`zero`, x0) holds nothing. -/
def State.holds (s : State) (w : Who) (tid : Nat) (f : BitVec 7) (width : Nat) (val : W64) : Prop :=
  match w.op f with
  | .x n => s.rreg w.cell.uid w.u n = val
  | .k n => s.rreg w.cell.uid w.u n = val
  | .v p => s.vreg w.cell.uid w.u p tid = val.setWidth 32
      ∧ (width = 64 → s.vreg w.cell.uid w.u (p + 1) tid = (val >>> 32).setWidth 32)
  | _ => True

/-- No result in flight and no load outstanding on a destination: what is written there stays (R111, R202). -/
def Who.quiet (w : Who) (tid : Nat) (f : BitVec 7) (width : Nat) : Bool :=
  (w.regsOf tid [(f, width)]).all (fun r => (w.flying r).isEmpty && !w.loadOn tid r)

/-! ## The issue of an instruction -/

/-- Clk after which a result of the issue may be read, when its passes take one clk: in place at once, or the class latency later
(R200, R203). -/
def Who.lands (w : Who) (d : Desc) : Nat := if w.atOnce (w.when d) then w.clk else w.clk + d.lat + 4 * w.slow d

/-- The spine has one thread (R10), the issuing threads rise in tid (R24), the header keeps to its limits (R214), and no result carries the order number of the issue, which
is a new one (`State.tick1`). -/
def Who.sound (w : Who) : Bool :=
  (w.u != 0 || w.tids == [0]) && decide (w.cell.hdr.fast ≤ 192) && decide (w.cell.hdr.slow ≤ 64)
    && decide (w.tids.Pairwise (· < ·)) && w.iss != 0 && w.unit.pend.all (fun p => p.iss != w.iss) && w.unit.flagPend.all (fun p => p.1 != w.iss)

/-- The issuing threads `w` get past every test that comes before the instruction's own waits and work, in its first pass: every test
of R208 passes, no hazard is found under checking, no pending trap is due, the instruction can be accepted, and neither an interlocked
register nor an empty or unreadable cistern keeps them. -/
def tested (s : State) (w : Who) (d : Desc) : Bool :=
  decide (s.who = some w) && w.sound && w.run.isNone && (uniformTrap w d).isNone && !w.interlocked d && !d.hold
    && w.tids.all (fun t => !checking w t || (threadTrap w d (w.lastPass d) t).isNone)
    && (!(d.settles || !(w.cisSrcs d).isEmpty) || w.tids.all (fun t => (pendingTrap w t).isNone))
    && (!w.vals.isEmpty || ((w.cisTrap d).isNone && (w.cisEmpty d).isNone))

/-- The issuing threads get to the instruction's own work: they pass its tests, and it waits for no release and no access of its own. -/
def ready (s : State) (w : Who) (d : Desc) : Bool := tested s w d && !d.wait

/-- Cisterns that the issue reads: those of its sources, unless its instruction has read them in an earlier clk (R52). -/
def Who.newCis (w : Who) (d : Desc) : List Nat := if w.vals.isEmpty then w.cisSrcs d else []

/-- The issue with the values of its cisterns read. -/
def Who.reads (w : Who) (d : Desc) : Who :=
  { w with vals := if w.vals.isEmpty then (w.newCis d).map (fun n => (n, w.readOp 0 (.cis n) 64)) else w.vals }

/-- Threads that have their pass in the issue clk: up to 32, or all where one execution serves them all (R24). -/
def Who.firstPass (w : Who) (d : Desc) : List Nat :=
  if w.spine || w.wake || w.atOncePass d then w.tids else w.tids.filter (fun t => (w.tids.take 32).contains t)

/-- The passes of the issue take one clk (R24, R27, R98). -/
def Who.oneClk (w : Who) (d : Desc) : Bool :=
  w.spine || w.wake || ((w.tids.drop 32).isEmpty && w.passClks d (w.tids.take 32) - 1 == 0)

/-- The issue clk is over for an instruction whose threads end it as `o` says: its cisterns are read if a thread completes, and the
threads end it, or its passes go on at its port (R24, R52). -/
def State.ends (s : State) (w : Who) (d : Desc) (o : Nat → LaneOut) : State :=
  ((if w.tids.any (fun t => (o t).code?.isNone) then s.countCis w (w.newCis d) else s).opening (w.reads d) d w.tids
    ((w.firstPass d).map (fun t => (t, o t))))

/-- All threads of the issue end the instruction alike. -/
def State.all (s : State) (w : Who) (d : Desc) (o : LaneOut) : State := s.ends w d (fun _ => o)

/-- The threads that act in the issue clk: one for the bundle on the scalar pipe, else each thread that has its pass (R24, R31, R170). -/
def Who.actors (w : Who) (d : Desc) : List Nat := if w.single d then w.tids.take 1 else w.firstPass d

/-- The results of a register instruction, written for each acting thread, and its flags. -/
def State.results (s : State) (w : Who) (d : Desc) (f : Nat → W64 × BitVec 5) : State :=
  (w.actors d).foldl (fun s t =>
    w.raise (w.when d) (f t).2 (match d.wr with
      | some (r, n) => w.write (w.when d) t r n (f t).1 s
      | none => s)) s

/-- The threads `l` act one after the other from `s` to `u`: thread k finds the state `at_ k` and leaves `aft k`. -/
def Turns (at_ aft : Nat → State) : List Nat → State → State → Prop
  | [], s, u => u = s
  | k :: r, s, u => at_ k = s ∧ Turns at_ aft r (aft k) u

/-- The acting threads of an issue take their turns in ascending tid, from `s` to `u`, and each sees what those before it left; `P` says
what thread k comes to, `o k`, in the state it finds, and what state it leaves (R24, R281, R282). Where one execution serves the
bundle, all its threads come to the same. -/
def Acts (s : State) (w : Who) (d : Desc) (o : Nat → LaneOut) (u : State) (P : Nat → State → LaneOut → State → Prop) : Prop :=
  (∃ at_ aft, Turns at_ aft (w.actors d) s u ∧ ∀ k ∈ w.actors d, P k (at_ k) (o k) (aft k))
    ∧ (w.single d = true → ∀ k ∈ w.tids, o k = o w.lead)

/-- What each acting thread does in turn, in ascending `tid` (R24). -/
def State.each (s : State) (w : Who) (d : Desc) (f : Nat → State → State) : State := (w.actors d).foldl (fun s i => f i s) s

/-- Every thread of the issue traps alike before its instruction's own work: the passes of an issue, and one record (R20, R26, R374). -/
def State.trapAll (s : State) (w : Who) (d : Desc) (i : TrapInfo) : State :=
  s.opening w d w.tids (w.tids.map (fun t => (t, .trap i)))

/-- No input is due, no end of a build has accesses to serve, and the turn of threads `tids` of unit `u` of cell `c`, which issue the
word at `pc` on port `p`, has come (R23, R26, R58, R59, R101). -/
def State.issues (s : State) (c : Cell) (cx : Context) (u : Nat) (tids : List Nat) (pc : W64) (p : Nat) : Prop :=
  s.pkg.powered = true ∧ (∀ i r, s.agenda ≠ (0, i) :: r) ∧ s.served = [] ∧ s.phase = .turns
    ∧ s.turns.head? = some (.start c.uid u tids pc p) ∧ s.cell? c.uid = some c ∧ s.ctx? c.ctx = some cx

/-- The clk's turn is taken: the threads issue. -/
def State.atTurn (s : State) (c : Cell) (u : Nat) (tids : List Nat) (pc : W64) (p : Nat) : State :=
  ({ s.tick1 with turns := s.turns.tail } : State).setIssue ⟨c.uid, u, tids, pc, 0, none, 0, 0⟩ p

/-- The issue with its words fetched, and its threads in the block of `pc` (R196, R347). -/
def State.fetched (s : State) (c : Cell) (cx : Context) (u : Nat) (tids : List Nat) (pc : W64) (word ctrl : BitVec 32) : State :=
  ({ s with issue := { s.issue with word := word, ctrl := ctrl } } : State).updThreads c.uid u tids (Thread.enter (blockOf pc) cx.chk)

/-- The block's line is at hand: key `key` of the word at `pc`, in state `t` (R196, R398). -/
def State.codeAt (s : State) (c : Cell) (cx : Context) (pc : W64) (key : Nat) (t : State) : Prop :=
  ∃ kid page far u, translate s cx c.cl pc .fetch = (.ok key kid page far, u) ∧ unreachable u.pkg key = false
    ∧ (u.line (key / 128)).poison = false ∧ u.flipping key cx.dev = false ∧ (u.line (key / 128)).maybeDirty = false
    ∧ t = u.underKey (key / 128) kid

/-- The control word of the block of `pc`, whose word is at `key` (R196). -/
def State.ctrlWord (s : State) (pc : W64) (key : Nat) : BitVec 32 :=
  BitVec.ofNat 32 (readNat s.home.mem (key - (pc - blockOf pc).toNat) 4)

/-- The instruction word at `pc`, with the cell's patches (R196, R213). -/
def State.codeWord (s : State) (c : Cell) (pc : W64) (key : Nat) : BitVec 32 :=
  c.patched pc (BitVec.ofNat 32 (readNat s.home.mem key 4))

/-- What `rdsp` waits for and writes (R255). -/
def rdspDesc (w : Who) (p : BitVec 1) (sel : BitVec 6) (a d : BitVec 7) : Desc :=
  { rds := if sel = 19 then [(a, match w.op a with | .v _ => 32 | _ => 64)] else []
    wr := some (d, if p = 1 then 64 else w.dstWidth d), lat := 4, whole := sel == 1 || sel == 10 }

/-- The way a thread goes on at a target, or traps at the branch (R198). -/
def toTarget (t : W64) : LaneOut :=
  if t.toNat % 4 = 0 ∧ t.toNat / 4 % 8 ≠ 0 then .jump t else .trap ⟨tTarget, t, 0⟩

/-! ## What an instruction leaves behind -/

/-- Each issuing thread goes on at `pc`, eligible, or held when that is the target in its meeting register (R20); no other thread of the unit
changes, and nothing else of a thread but what scheduling needs. -/
structure GoesOn (s t : State) (w : Who) (pc : Nat → W64) : Prop where
  /-- the issuing threads -/
  moved : ∀ i ∈ w.tids, (t.thread w.cell.uid w.u i).pc = pc i
    ∧ (t.thread w.cell.uid w.u i).st = (if (s.thread w.cell.uid w.u i).mr = some (pc i) then TState.held else TState.eligible)
    ∧ (t.thread w.cell.uid w.u i).mr = (s.thread w.cell.uid w.u i).mr
    ∧ (t.thread w.cell.uid w.u i).ppois = (s.thread w.cell.uid w.u i).ppois
    ∧ (t.thread w.cell.uid w.u i).prw = (s.thread w.cell.uid w.u i).prw
  /-- the others -/
  others : ∀ i, i ∉ w.tids → t.thread w.cell.uid w.u i = s.thread w.cell.uid w.u i

/-- What the port keeps of a bundle whose first pass is made, when its threads come to `o` (R24, R26). -/
def Who.portRec (w : Who) (port : Nat) (d : Desc) (o : Nat → LaneOut) : IssuePort :=
  ⟨w.cell.cl, w.unit.core, port, w.cell.uid, w.u, w.pc, w.word, w.ctrl, w.tids, w.tids.drop 32,
    w.passClks d (w.tids.take 32) - 1, w.iss, w.wb, w.cvb, (w.reads d).vals, w.unit.book, w.unit.bookData, w.portUse d, (w.firstPass d).map (fun t => (t, o t)), none⟩

/-- The bundle's passes go on: its threads stand where they are, and its port keeps what those that have had their pass come to and
which are still to have it (R24, R26). -/
structure Passing (s t : State) (w : Who) (d : Desc) (o : Nat → LaneOut) : Prop where
  /-- threads -/
  stay : ∀ i, t.thread w.cell.uid w.u i = s.thread w.cell.uid w.u i
  /-- the port -/
  port : w.portRec s.issue.port d o ∈ t.clu.ports

/-- The threads that complete go on at `pc`: in the issue clk, or, of a bundle whose passes take more, when those are over (R24). -/
def Completes (s t : State) (w : Who) (d : Desc) (pc : Nat → W64) (o : Nat → LaneOut) : Prop :=
  if w.oneClk d then GoesOn s t w pc else Passing s t w d o

/-- The threads complete, and go on at the next word. -/
def Goes (s t : State) (w : Who) (d : Desc) : Prop := Completes s t w d (fun _ => nextPc w.pc) (fun _ => .done)

/-- What an instruction that works on registers alone leaves unchanged outside its own unit: the package, scheduling, memory and
homes, the clock, every other cell and every other unit. It takes an issue port, and marks loads it overtakes (R111). -/
structure Frame (s t : State) (uid u : Nat) : Prop where
  /-- everything but cells, the clusters' memory side and the issue's mark of its port -/
  rest : { t with cells := s.cells, clu := s.clu, issue := s.issue } = s
  /-- the clusters' memory side -/
  clu : { t.clu with ports := s.clu.ports, loads := s.clu.loads } = s.clu
  /-- loads, but for what later writes of their registers leave (R111) -/
  loads : t.clu.loads.map (fun l => { l with written := [], old := [] }) = s.clu.loads.map (fun l => { l with written := [], old := [] })
  /-- other cells -/
  cells : ∀ k, k ≠ uid → t.cell? k = s.cell? k
  /-- the cell, but for its units and cisterns -/
  cell : (t.cell? uid).map (fun c => { c with units := [], cis := [] }) = (s.cell? uid).map (fun c => { c with units := [], cis := [] })
  /-- other units of the cell -/
  units : ∀ v, v ≠ u → t.unit uid v = s.unit uid v

/-- Every register of the unit but the listed ones keeps its value. -/
def keepsRegs (s t : State) (uid u : Nat) (but : List Nat) : Prop :=
  ∀ r, r ∉ but → (t.unit uid u).reg r = (s.unit uid u).reg r

/-- Nothing of the unit changes but its threads, registers, results in flight and flags. -/
def keepsUnit (s t : State) (uid u : Nat) : Prop :=
  { t.unit uid u with threads := (s.unit uid u).threads, regs := (s.unit uid u).regs, v := (s.unit uid u).v,
                      pend := (s.unit uid u).pend, flags := (s.unit uid u).flags, flagPend := (s.unit uid u).flagPend }
    = s.unit uid u

/-- Nothing of the unit changes but its threads. -/
def keepsAllRegs (s t : State) (uid u : Nat) : Prop := { t.unit uid u with threads := (s.unit uid u).threads } = s.unit uid u

/-- Each cistern that the instruction reads is read once, and no other changes (R52). -/
def readsCisterns (s t : State) (w : Who) (d : Desc) : Prop :=
  (t.cell? w.cell.uid).map (fun c => c.cis)
    = (s.cell? w.cell.uid).map (fun c => (w.newCis d).foldl (fun l n => modNth Cistern.read n l) c.cis)

/-- A register instruction completes from `s` to `t` in the issue clk, or has its first pass there: its threads go on at the next word,
the destination of each that acts holds its result, its flags are raised, and nothing else changes. -/
structure RegResult (s : State) (w : Who) (d : Desc) (t : State) (f : Nat → W64 × BitVec 5) : Prop where
  /-- PC and thread state -/
  goes : Completes s t w d (fun _ => nextPc w.pc) (fun _ => .done)
  /-- the results -/
  value : ∀ r n, d.wr = some (r, n) → ∀ i ∈ w.actors d, w.quiet i r n = true → t.holds w i r n (f i).1
  /-- the sticky flags, from the clk in which the results have landed (R71, R257) -/
  flags : w.oneClk d = true → ∀ c, w.lands d < c → (t.unit w.cell.uid w.u).landed c
    = (s.unit w.cell.uid w.u).landed c ||| (w.actors d).foldl (fun a i => a ||| (f i).2) 0
  /-- other registers -/
  regs : keepsRegs s t w.cell.uid w.u ((w.actors d).flatMap (fun i => w.regsOf i d.wr.toList))
  /-- the rest of the unit -/
  unit : keepsUnit s t w.cell.uid w.u
  /-- cistern sources -/
  cis : readsCisterns s t w d
  /-- the rest of the machine -/
  frame : Frame s t w.cell.uid w.u

/-! ## Memory instructions -/

/-- What a memory instruction leaves unchanged outside its own unit, the loads and stores under way and the homes: the package,
scheduling, the clock, every other cell and every other unit. -/
structure MemFrame (s t : State) (uid u : Nat) : Prop where
  /-- everything but cells, the clusters' memory side, the homes and the issue's mark of its port -/
  rest : { t with cells := s.cells, clu := s.clu, home := s.home, fresh := s.fresh, issue := s.issue } = s
  /-- the clusters' memory side but for loads and stores under way, issue ports, L1 lines, translations, faults that the host serves,
  fences, flits and changes of full/empty bits -/
  clu : { t.clu with ports := s.clu.ports, loads := s.clu.loads, stores := s.clu.stores, lines := s.clu.lines, tlb := s.clu.tlb,
                     stalls := s.clu.stalls, fetches := s.clu.fetches, feOps := s.clu.feOps, fences := s.clu.fences, bulk := s.clu.bulk,
                     flits := s.clu.flits } = s.clu
  /-- other cells -/
  cells : ∀ k, k ≠ uid → t.cell? k = s.cell? k
  /-- the cell, but for its units and cisterns -/
  cell : (t.cell? uid).map (fun c => { c with units := [], cis := [] }) = (s.cell? uid).map (fun c => { c with units := [], cis := [] })
  /-- other units of the cell -/
  units : ∀ v, v ≠ u → t.unit uid v = s.unit uid v

/-- Registers that a load of `n` bytes into field `d` writes. -/
def Who.loadRegs (w : Who) (tid : Nat) (d : BitVec 7) (n : Nat) : List Nat :=
  match w.loadDst d n with
  | .none => []
  | .v p => (List.range (w.dstBytes d n / 4)).map (fun i => regV (p + i) tid)
  | .r r => (List.range (w.dstBytes d n / 8)).map (fun i => regK (r + i))

/-- A load of `n` bytes has put bytes into its destination, extended to its registers (R280, R284); x0 and `zero` hold nothing. -/
def State.loaded (s : State) (w : Who) (tid : Nat) (d : BitVec 7) (n : Nat) (sgn : Bool) (bs : List Byte) : Prop :=
  w.op d ≠ .zero → (s.unit w.cell.uid w.u).dstBytesNow (w.loadDst d n) tid (w.dstBytes d n) = extendTo sgn (w.dstBytes d n) bs

/-- Nothing of the unit is under way on the store path, and none of its loads waits for a value: no access of the issue has to wait
behind another (R149, R150, R153). -/
def State.unitIdle (s : State) (w : Who) : Bool :=
  s.clu.loads.all (fun l => !l.on w.cell.uid w.u || l.done)
    && s.clu.stores.all (fun e => !(e.cell == w.cell.uid && e.unit == w.u) && e.iss != w.iss)

/-- The same for one thread, or for a scalar-pipe access, which stands in every thread's order: nothing of it is under way on the store
path, and none of its loads waits (R149, R281). -/
def State.threadIdle (s : State) (w : Who) (k : Nat) (scal : Bool) : Bool :=
  s.clu.loads.all (fun l => !(l.on w.cell.uid w.u && sameThread l.tid l.scal k scal) || l.done)
    && s.clu.stores.all (fun e => !(e.cell == w.cell.uid && e.unit == w.u && sameThread e.tid e.scal k scal))

/-- No load is outstanding on the registers that `n` bytes into field `d` write (R111). -/
def Who.clear (w : Who) (tid : Nat) (d : BitVec 7) (n : Nat) : Bool :=
  (match w.loadDst d n with
  | .none => []
  | .v p => (List.range (w.dstBytes d n / 4)).map (fun i => regV (p + i) tid)
  | .r r => (List.range (w.dstBytes d n / 8)).map (fun i => regK (r + i))).all (fun r => !w.loadOn tid r)

/-- Nothing is held back: no entry of the store path, no basin load (R150, R153). -/
def State.nothingHeld (s : State) : Bool :=
  s.clu.stores.all (fun e => e.ph != .held || e.isMarker) && s.clu.loads.all (fun l => l.done || !basinKey l.key)

/-- Basin bytes `ea` to `ea + n - 1` lie in the allocation, aligned (R89, R95). -/
def Who.inBasin (w : Who) (ea : W64) (n : Nat) : Bool := decide (ea.toNat % n = 0) && decide (ea.toNat + n ≤ w.cell.basinSize) && !ea.msb

/-- Memory after threads in turn have stored bytes at basin addresses. -/
def Who.basinMem (w : Who) (ea : Nat → W64) (bs : Nat → List Byte) (m : Memory) (l : List Nat) : Memory :=
  l.foldl (fun m i => writeBytes m (keyBasin w.cell.cl (w.cell.basinOff + (ea i).toNat)) (bs i)) m

/-- Every byte of memory outside the stored ranges reads as before. -/
def keepsMem (s t : State) (but : List (Nat × Nat)) : Prop :=
  ∀ a, (∀ r ∈ but, a < r.1 ∨ r.1 + r.2 ≤ a) → sget t.home.mem a = sget s.home.mem a

end Sys2Proof.Machine
end

