-- ==== Sys2Proof/Safety/Rows.lean ====
section
/-! DEFINITION. The register instructions as the tables of chapters 9 and 10 give them, one row each: sources and their widths,
destination and width, latency class (R200), and the result of a thread with the flags it raises. Claims about the meanings
are stated against these rows. -/

namespace Sys2Proof.Machine

/-! ## Numbers -/

/-- A w-bit operand read as unsigned. -/
def un (w : Nat) (x : W64) : Int := ((x.toNat % 2 ^ w : Nat) : Int)
/-- A w-bit operand read as signed. -/
def sg (w : Nat) (x : W64) : Int := (x.setWidth w).toInt
/-- A number modulo 2^w, zero-extended. -/
def zext (w : Nat) (i : Int) : W64 := (BitVec.ofInt w i).setWidth 64
/-- A number modulo 2^w, sign-extended. -/
def sext (w : Nat) (i : Int) : W64 := (BitVec.ofInt w i).signExtend 64
/-- A number clamped to a range. -/
def clamp (lo hi i : Int) : Int := max lo (min hi i)
/-- 64 or 32 bits. -/
def wide (b : Bool) : Nat := if b then 64 else 32

/-- A row: the fields and widths, and what each thread computes. -/
abbrev Row := Desc × (Nat → W64 × BitVec 5)

/-- D := g(a, b), D at width `wd`, the sources at width `ws`. -/
def row2 (w : Who) (ws wd lat : Nat) (d a b : BitVec 7) (g : W64 → W64 → W64) : Row :=
  ({ rds := [(a, ws), (b, ws)], wr := some (d, wd), lat := lat }, fun i => (g (w.src i a ws) (w.src i b ws), 0))

/-- D := g(a). -/
def row1 (w : Who) (ws wd lat : Nat) (d a : BitVec 7) (g : W64 → W64) : Row :=
  ({ rds := [(a, ws)], wr := some (d, wd), lat := lat }, fun i => (g (w.src i a ws), 0))

/-- D := g(a, b, D). -/
def row3 (w : Who) (ws wd lat : Nat) (d a b : BitVec 7) (g : W64 → W64 → W64 → W64) : Row :=
  ({ rds := [(a, ws), (b, ws), (d, wd)], wr := some (d, wd), lat := lat },
   fun i => (g (w.src i a ws) (w.src i b ws) (w.src i d wd), 0))

/-- D := g(a, b) at D's width (R44). -/
def rowD2 (w : Who) (d a b : BitVec 7) (g : Nat → W64 → W64 → W64) : Row :=
  row2 w (w.dstWidth d) (w.dstWidth d) 4 d a b (g (w.dstWidth d))

/-- D := g(a) at D's width (R44). -/
def rowD1 (w : Who) (d a : BitVec 7) (g : Nat → W64 → W64) : Row :=
  row1 w (w.dstWidth d) (w.dstWidth d) 4 d a (g (w.dstWidth d))

/-! ## Chapter 9: integers -/

/-- R225: `sub` for a negative sign. -/
def sumValue (sign : Int) (f : BitVec 2) (a b : W64) : W64 :=
  match f.toNat with
  | 0 => zext 32 (un 32 a + sign * un 32 b)
  | 1 => zext 64 (un 64 a + sign * un 64 b)
  | 2 => sext 32 (clamp (-2 ^ 31) (2 ^ 31 - 1) (sg 32 a + sign * sg 32 b))
  | _ => zext 32 (clamp 0 (2 ^ 32 - 1) (un 32 a + sign * un 32 b))

/-- R226. -/
def mulValue (f : BitVec 4) (a b : W64) : W64 :=
  match f.toNat with
  | 0 => zext 32 (un 32 a * un 32 b)
  | 1 => sext 32 (sg 32 a * sg 32 b / 2 ^ 32)
  | 2 => zext 32 (un 32 a * un 32 b / 2 ^ 32)
  | 3 => zext 64 (un 64 a * un 64 b)
  | 4 => zext 64 (sg 32 a * sg 32 b)
  | _ => zext 64 (un 32 a * un 32 b)

/-- R226. -/
def madValue (f : BitVec 2) (a b d : W64) : W64 :=
  match f.toNat with
  | 0 => zext 32 (un 32 d + un 32 a * un 32 b)
  | 1 => zext 64 (un 64 d + sg 32 a * sg 32 b)
  | 2 => zext 64 (un 64 d + un 32 a * un 32 b)
  | _ => zext 64 (un 64 d + un 64 a * un 64 b)

/-- R65, R227: f 0 s32, 1 n32, 2 s64, 3 n64. -/
def divValue (f : BitVec 2) (a b : W64) : W64 :=
  match f.toNat with
  | 0 => sext 32 (if sg 32 b = 0 then -1 else Int.tdiv (sg 32 a) (sg 32 b))
  | 1 => zext 32 (if un 32 b = 0 then -1 else un 32 a / un 32 b)
  | 2 => sext 64 (if sg 64 b = 0 then -1 else Int.tdiv (sg 64 a) (sg 64 b))
  | _ => zext 64 (if un 64 b = 0 then -1 else un 64 a / un 64 b)

/-- R65, R227: dividend - quotient * divisor. -/
def remValue (f : BitVec 2) (a b : W64) : W64 :=
  match f.toNat with
  | 0 => sext 32 (if sg 32 b = 0 then sg 32 a else sg 32 a - Int.tdiv (sg 32 a) (sg 32 b) * sg 32 b)
  | 1 => zext 32 (if un 32 b = 0 then un 32 a else un 32 a - un 32 a / un 32 b * un 32 b)
  | 2 => sext 64 (if sg 64 b = 0 then sg 64 a else sg 64 a - Int.tdiv (sg 64 a) (sg 64 b) * sg 64 b)
  | _ => zext 64 (if un 64 b = 0 then un 64 a else un 64 a - un 64 a / un 64 b * un 64 b)

/-- R228: `w` 64 bits, `u` unsigned; `pick` is `min` or `max`. -/
def lesserValue (pick : Int → Int → Int) (w u : BitVec 1) (a b : W64) : W64 :=
  let n := wide (w == 1)
  if u = 1 then zext n (pick (un n a) (un n b)) else sext n (pick (sg n a) (sg n b))

/-- R230: the count is b read as unsigned at the width; `sar` fills with the sign. -/
def shlValue (n : Nat) (a : W64) (c : Nat) : W64 := if n ≤ c then 0 else zext n (un n a * 2 ^ c)
def shrValue (n : Nat) (a : W64) (c : Nat) : W64 := if n ≤ c then 0 else zext n (un n a / 2 ^ c)
def sarValue (n : Nat) (a : W64) (c : Nat) : W64 :=
  if n ≤ c then (if sg n a < 0 then zext n (-1) else 0) else zext n (sg n a / 2 ^ c)
def rolValue (n : Nat) (a : W64) (c : Nat) : W64 := zext n (un n a * 2 ^ (c % n) + un n a / 2 ^ (n - c % n))

/-- R231: the number of 1 bits among the low n, and of the zeros above the highest and below the lowest of them. -/
def popcValue (n : Nat) (a : W64) : W64 := BitVec.ofNat 64 ((List.range n).countP (fun i => a.getLsbD i))
def clzValue (n : Nat) (a : W64) : W64 := BitVec.ofNat 64 (((List.range n).find? (fun k => a.getLsbD (n - 1 - k))).getD n)
def ctzValue (n : Nat) (a : W64) : W64 := BitVec.ofNat 64 (((List.range n).find? (fun k => a.getLsbD k)).getD n)

/-- R232: conditions 0-9 at width n. -/
def condHolds (c : BitVec 4) (n : Nat) (a b : W64) : Bool :=
  match c.toNat with
  | 0 => decide (un n a = un n b)
  | 1 => decide (un n a ≠ un n b)
  | 2 => decide (sg n a < sg n b)
  | 3 => decide (sg n a ≤ sg n b)
  | 4 => decide (sg n a > sg n b)
  | 5 => decide (sg n a ≥ sg n b)
  | 6 => decide (un n a < un n b)
  | 7 => decide (un n a ≤ un n b)
  | 8 => decide (un n a > un n b)
  | _ => decide (un n a ≥ un n b)

def ones (p : Bool) : W64 := if p then BitVec.allOnes 64 else 0

/-- R235: b of a v register is sign-extended from 32 bits when D is 64 bits wide. -/
def Who.leaB (w : Who) (b d : BitVec 7) (i : Nat) : W64 :=
  match w.op b with
  | .v _ => (w.src i b 32).setWidth 32 |>.signExtend 64
  | _ => w.src i b (w.dstWidth d)

/-- The rows of the integer chapter (R225-R238); bit fields, byte selects, byte dot products and random numbers take their values
from the functions whose own claims are stated apart. -/
def intRow (w : Who) : Instr → Option Row
  | .add f b a d => some (row2 w (wide (f == 1)) (wide (f == 1)) 4 d a b (sumValue 1 f))
  | .sub f b a d => some (row2 w (wide (f == 1)) (wide (f == 1)) 4 d a b (sumValue (-1) f))
  | .mul f b a d => some (row2 w (wide (f == 3)) (wide (decide (3 ≤ f.toNat))) 4 d a b (mulValue f))
  | .mad f b a d => some (row3 w (wide (f == 3)) (wide (f != 0)) 4 d a b (madValue f))
  | .div f b a d => some (row2 w (wide (decide (2 ≤ f.toNat))) (wide (decide (2 ≤ f.toNat))) (if 2 ≤ f.toNat then 16 else 12) d a b (divValue f))
  | .rem f b a d => some (row2 w (wide (decide (2 ≤ f.toNat))) (wide (decide (2 ≤ f.toNat))) (if 2 ≤ f.toNat then 16 else 12) d a b (remValue f))
  | .min n u b a d => some (row2 w (wide (n == 1)) (wide (n == 1)) 4 d a b (lesserValue min n u))
  | .max n u b a d => some (row2 w (wide (n == 1)) (wide (n == 1)) 4 d a b (lesserValue max n u))
  | .and b a d => some (rowD2 w d a b (fun _ x y => x &&& y))
  | .or b a d => some (rowD2 w d a b (fun _ x y => x ||| y))
  | .xor b a d => some (rowD2 w d a b (fun _ x y => x ^^^ y))
  | .andn b a d => some (rowD2 w d a b (fun _ x y => x &&& ~~~y))
  | .orn b a d => some (rowD2 w d a b (fun _ x y => x ||| ~~~y))
  | .xnor b a d => some (rowD2 w d a b (fun _ x y => ~~~(x ^^^ y)))
  | .not a d => some (rowD1 w d a (fun _ x => ~~~x))
  | .shl n b a d => some (row2 w (wide (n == 1)) (wide (n == 1)) 4 d a b (fun x c => shlValue (wide (n == 1)) x c.toNat))
  | .shr n b a d => some (row2 w (wide (n == 1)) (wide (n == 1)) 4 d a b (fun x c => shrValue (wide (n == 1)) x c.toNat))
  | .sar n b a d => some (row2 w (wide (n == 1)) (wide (n == 1)) 4 d a b (fun x c => sarValue (wide (n == 1)) x c.toNat))
  | .rol n b a d => some (row2 w (wide (n == 1)) (wide (n == 1)) 4 d a b (fun x c => rolValue (wide (n == 1)) x c.toNat))
  | .popc n a d => some (row1 w (wide (n == 1)) (wide (n == 1)) 4 d a (popcValue (wide (n == 1))))
  | .clz n a d => some (row1 w (wide (n == 1)) (wide (n == 1)) 4 d a (clzValue (wide (n == 1))))
  | .ctz n a d => some (row1 w (wide (n == 1)) (wide (n == 1)) 4 d a (ctzValue (wide (n == 1))))
  | .brev n a d => some (row1 w (wide (n == 1)) (wide (n == 1)) 4 d a (bitResult 3 (wide (n == 1))))
  | .bfxS b a d => some (row2 w 32 32 4 d a b (bfxResult true))
  | .bfxN b a d => some (row2 w 32 32 4 d a b (bfxResult false))
  | .bfi b a d => some ({ rds := [(a, 32), (b, 32), (d, 32)], wr := some (d, 32), lat := 4 }, fun i =>
      (if fieldEmpty (w.src i b 32) then w.src i d (w.dstWidth d) else bfiResult (w.src i a 32) (w.src i b 32) (w.src i d 32), 0))
  | .bsel b a d => some ({ rds := [(a, 64), (b, 32)], wr := some (d, 32), lat := 4 }, fun i => (bselResult (w.src i a 64) (w.src i b 32), 0))
  | .cmp c b a d => some (rowD2 w d a b (fun n x y => ones (condHolds c n x y)))
  | .cmpi c k a d => some (rowD1 w d a (fun n x => ones (condHolds c n x (k.signExtend 64))))
  | .sel b a d => some (row3 w (w.dstWidth d) (w.dstWidth d) 4 d a b (fun x y z => if z ≠ 0 then x else y))
  | .mov a d => some (rowD1 w d a (fun _ x => x))
  | .movPair a d => some (row1 w 64 64 4 d a (fun x => x))
  | .sxb a d => some (rowD1 w d a (fun _ x => sext 8 (un 8 x)))
  | .sxh a d => some (rowD1 w d a (fun _ x => sext 16 (un 16 x)))
  | .zxb a d => some (rowD1 w d a (fun _ x => zext 8 (un 8 x)))
  | .zxh a d => some (rowD1 w d a (fun _ x => zext 16 (un 16 x)))
  | .sxw a d => some (row1 w 32 64 4 d a (fun x => sext 32 (un 32 x)))
  | .zxw a d => some (row1 w 32 64 4 d a (fun x => zext 32 (un 32 x)))
  | .lea k b a d => some ({ rds := [(a, w.dstWidth d), (b, match w.op b with | .v _ => 32 | _ => w.dstWidth d)]
                            wr := some (d, w.dstWidth d), lat := 4 },
      fun i => (w.src i a (w.dstWidth d) + (w.leaB b d i <<< k.toNat), 0))
  | .addi k a d => some (rowD1 w d a (fun _ x => x + k.signExtend 64))
  | .andi k a d => some (rowD1 w d a (fun _ x => x &&& k.signExtend 64))
  | .ori k a d => some (rowD1 w d a (fun _ x => x ||| k.signExtend 64))
  | .xori k a d => some (rowD1 w d a (fun _ x => x ^^^ k.signExtend 64))
  | .shli k a d => some (rowD1 w d a (fun n x => shlValue n x k.toNat))
  | .shri k a d => some (rowD1 w d a (fun n x => shrValue n x k.toNat))
  | .sari k a d => some (rowD1 w d a (fun n x => sarValue n x k.toNat))
  | .muli k a d => some (rowD1 w d a (fun _ x => x * k.signExtend 64))
  | .mvl k d => some ({ wr := some (d, w.dstWidth d), lat := 4 }, fun _ => (k.signExtend 64, 0))
  | .mvh k d => some ({ rds := [(d, w.dstWidth d)], wr := some (d, w.dstWidth d), lat := 4 },
      fun i => (sext 32 ((k.toNat * 2 ^ 14 : Nat) + un 14 (w.src i d (w.dstWidth d))), 0))
  | .dot4 f b a d => some ({ rds := [(a, 32), (b, 32), (d, 32)], wr := some (d, 32), lat := 4 },
      fun i => (dot4Result f (w.src i a 32) (w.src i b 32) (w.src i d 32), 0))
  | _ => none

/-! ## Chapter 10: floating point and conversion -/

/-- An operation on elements of a type's format (R67, R258): f32 0, f64 1, and the packed f16 2 and bf16 3. -/
abbrev Elem := Fmt → Nat → Nat → Nat → Nat × BitVec 5

/-- A value rounded to its format. -/
def bin (g : Fmt → Rm → Fv → Fv → Nat × BitVec 5) (m : BitVec 2) : Elem := fun f x y _ => g f (rmOf m) (unpack f x) (unpack f y)

/-- D := g(a, b) at type `t`. -/
def rowF2 (w : Who) (t : BitVec 2) (lat : Nat) (d a b : BitVec 7) (g : Elem) : Row :=
  ({ rds := [(a, wide (t == 1)), (b, wide (t == 1))], wr := some (d, wide (t == 1)), lat := lat },
   fun i => perElem t g (w.src i a (wide (t == 1))) (w.src i b (wide (t == 1))) 0)

/-- D := g(a) at type `t`. -/
def rowF1 (w : Who) (t : BitVec 2) (lat : Nat) (d a : BitVec 7) (g : Elem) : Row :=
  ({ rds := [(a, wide (t == 1))], wr := some (d, wide (t == 1)), lat := lat },
   fun i => perElem t g (w.src i a (wide (t == 1))) 0 0)

/-- F6, or D16 for f64 (R200). -/
def latF (t : BitVec 2) : Nat := if t = 1 then 16 else 6

/-- The sign bits of a type (R264). -/
def signMask (t : BitVec 2) : W64 :=
  match t.toNat with
  | 0 => 1 <<< 31
  | 1 => 1 <<< 63
  | _ => 1 <<< 31 ||| 1 <<< 15

/-- A number with its flags as a result. -/
def num (r : Nat × BitVec 5) : W64 × BitVec 5 := (BitVec.ofNat 64 r.1, r.2)

/-- The two halves of a pair of results (R67, R270). -/
def pair (lo hi : Nat × BitVec 5) : W64 × BitVec 5 := (BitVec.ofNat 64 (lo.1 + 2 ^ 16 * hi.1), lo.2 ||| hi.2)

/-- The least and greatest number of an integer type: 0 s32, 1 n32, 2 s64, 3 n64 (R272). -/
def typeMin (t : BitVec 2) : Int := match t.toNat with | 0 => -2 ^ 31 | 1 => 0 | 2 => -2 ^ 63 | _ => 0
def typeMax (t : BitVec 2) : Int := match t.toNat with | 0 => 2 ^ 31 - 1 | 1 => 2 ^ 32 - 1 | 2 => 2 ^ 63 - 1 | _ => 2 ^ 64 - 1

/-- An integer operand of a type (R273). -/
def typeVal (t : BitVec 2) (x : W64) : Int :=
  match t.toNat with | 0 => sg 32 x | 1 => un 32 x | 2 => sg 64 x | _ => un 64 x

/-- The rows of the float chapter (R260-R273). -/
def floatRow (w : Who) : Instr → Option Row
  | .fadd m t b a d => some (rowF2 w t (latF t) d a b (bin fAdd m))
  | .fsub m t b a d => some (rowF2 w t (latF t) d a b (bin (fun f rm x y => fAdd f rm x y.neg) m))
  | .fmul m t b a d => some (rowF2 w t (latF t) d a b (bin fMul m))
  | .ffma m t b a d => some ({ rds := [(a, wide (t == 1)), (b, wide (t == 1)), (d, wide (t == 1))], wr := some (d, wide (t == 1)), lat := latF t },
      fun i => perElem t (fun f x y z => fFma f (rmOf m) (unpack f x) (unpack f y) (unpack f z))
        (w.src i a (wide (t == 1))) (w.src i b (wide (t == 1))) (w.src i d (wide (t == 1))))
  | .fmin n t b a d => some (rowF2 w t (latF t) d a b (fun f x y _ => fMin f (n == 1) false x y))
  | .fmax n t b a d => some (rowF2 w t (latF t) d a b (fun f x y _ => fMin f (n == 1) true x y))
  | .fcmp n c b a d => some ({ rds := [(a, wide (n == 1)), (b, wide (n == 1))], wr := some (d, w.dstWidth d), lat := if n = 1 then 16 else 6 },
      fun i =>
        let r := fcmpResult c (if n = 1 then f64 else f32) (w.src i a (wide (n == 1))).toNat (w.src i b (wide (n == 1))).toNat
        (ones r.1, r.2))
  | .fabs t a d => some (row1 w (wide (t == 1)) (wide (t == 1)) 4 d a (fun x => x &&& ~~~signMask t))
  | .fneg t a d => some (row1 w (wide (t == 1)) (wide (t == 1)) 4 d a (fun x => x ^^^ signMask t))
  | .fcpys t b a d => some (row2 w (wide (t == 1)) (wide (t == 1)) 4 d a b (fun x y => (x &&& ~~~signMask t) ||| (y &&& signMask t)))
  | .fdiv m t b a d => some (rowF2 w (type1 t) (if t = 1 then 16 else 12) d a b (bin fDiv m))
  | .fsqrt m t a d => some (rowF1 w (type1 t) (if t = 1 then 16 else 12) d a (fun f x _ _ => fSqrt f (rmOf m) (unpack f x)))
  | .fdot2 m f b a d => some ({ side := .crew, rds := [(a, 32), (b, 32), (d, 32)], wr := some (d, 32), lat := 6 }, fun i =>
      num (fdot2Result (if f = 1 then bf16 else f16) (rmOf m) (w.src i a 32).toNat (w.src i b 32).toNat (w.src i d 32).toNat))
  | .fscale m t b a d => some ({ rds := [(a, wide (t == 1)), (b, 32)], wr := some (d, wide (t == 1)), lat := latF t }, fun i =>
      perElem t (fun f x _ _ => fScale f (rmOf m) (sg 32 (w.src i b 32)) (unpack f x)) (w.src i a (wide (t == 1))) 0 0)
  | .fclass t a d => some ({ rds := [(a, wide (t == 1))], wr := some (d, 32), lat := 4 }, fun i =>
      perElem t (fun f x _ _ => (fClass f x, 0)) (w.src i a (wide (t == 1))) 0 0)
  | .cvtF16 m b a d => some ({ rds := [(a, 32), (b, 32)], wr := some (d, 32), lat := 6 }, fun i =>
      pair (packRound f16 (rmOf m) (unpack f32 (w.src i a 32).toNat)) (packRound f16 (rmOf m) (unpack f32 (w.src i b 32).toNat)))
  | .cvtBf16 m b a d => some ({ rds := [(a, 32), (b, 32)], wr := some (d, 32), lat := 6 }, fun i =>
      pair (packRound bf16 (rmOf m) (unpack f32 (w.src i a 32).toNat)) (packRound bf16 (rmOf m) (unpack f32 (w.src i b 32).toNat)))
  | .cvtF32 m a d => some ({ rds := [(a, 64)], wr := some (d, 32), lat := 16 }, fun i =>
      num (packRound f32 (rmOf m) (unpack f64 (w.src i a 64).toNat)))
  | .cvtwF16 e a d => some ({ rds := [(a, 32)], wr := some (d, 32), lat := 6 }, fun i =>
      num (packRound f32 .rne (unpack f16 ((w.src i a 32).toNat / 2 ^ (16 * e.toNat) % 2 ^ 16))))
  | .cvtwBf16 e a d => some ({ rds := [(a, 32)], wr := some (d, 32), lat := 6 }, fun i =>
      num (packRound f32 .rne (unpack bf16 ((w.src i a 32).toNat / 2 ^ (16 * e.toNat) % 2 ^ 16))))
  | .cvtwF64 a d => some ({ rds := [(a, 32)], wr := some (d, 64), lat := 16 }, fun i =>
      num (packRound f64 .rne (unpack f32 (w.src i a 32).toNat)))
  | .cvti m t a d => some ({ rds := [(a, 32)], wr := some (d, wide (decide (2 ≤ t.toNat))), lat := 6 }, fun i =>
      let r := toInt (rmOf m) (typeMin t) (typeMax t) (unpack f32 (w.src i a 32).toNat)
      (BitVec.ofInt 64 r.1, r.2))
  | .cvtid m t a d => some ({ rds := [(a, 64)], wr := some (d, wide (decide (2 ≤ t.toNat))), lat := 16 }, fun i =>
      let r := toInt (rmOf m) (typeMin t) (typeMax t) (unpack f64 (w.src i a 64).toNat)
      (BitVec.ofInt 64 r.1, r.2))
  | .cvtf m t a d => some ({ rds := [(a, wide (decide (2 ≤ t.toNat)))], wr := some (d, 32), lat := 6 }, fun i =>
      num (ofInt f32 (rmOf m) (typeVal t (w.src i a (wide (decide (2 ≤ t.toNat)))))))
  | .cvtfd m t a d => some ({ rds := [(a, wide (decide (2 ≤ t.toNat)))], wr := some (d, 64), lat := 16 }, fun i =>
      num (ofInt f64 (rmOf m) (typeVal t (w.src i a (wide (decide (2 ≤ t.toNat)))))))
  | _ => none

/-- The operation code of a special function (R266). -/
def specialRow (w : Who) : Instr → Option Row
  | .rcp a d => some (sfu 0 a d)
  | .rsqrt a d => some (sfu 1 a d)
  | .exp2 a d => some (sfu 2 a d)
  | .log2 a d => some (sfu 3 a d)
  | .sin a d => some (sfu 4 a d)
  | .cos a d => some (sfu 5 a d)
  | .tanh a d => some (sfu 6 a d)
  | _ => none
where
  sfu (op : Nat) (a d : BitVec 7) : Row :=
    ({ rds := [(a, 32)], wr := some (d, 32), lat := 12, special := true }, fun i => num (specialFn op ((w.src i a 32).setWidth 32)))

/-! ## Quantisation, and operations over the bundle -/

/-- Threads of the bundle in the 32-lane group of thread `i` (R276). -/
def Who.group (w : Who) (i : Nat) : List Nat := w.tids.filter (fun t => t / 32 == i / 32)

/-- The rows of quantisation (R276-R278), random numbers (R239), votes, exchange, reduction, scan and broadcast (R244-R248). -/
def crewRow (w : Who) : Instr → Option Row
  | .qscl a d => some ({ side := .crew, rds := [(a, 32)], wr := some (d, 32), lat := 12, bad := w.notV d, whole := true }, fun i =>
      let r := scaleByte w.unit.entries ((w.group i).map (fun t => (w.src t a 32).toNat))
      (BitVec.ofNat 64 r.1, if r.2 then flOF else 0))
  | .qenc a d => some ({ side := .crew, rds := [(a, 32), (d, 32)], wr := some (d, 32), lat := 6, bad := w.notV d }, fun i =>
      (BitVec.ofNat 64 (encCode w.unit.entries (w.src i a 32).toNat ((w.src i d 32).setWidth 8)), 0))
  | .qdec b a d => some ({ side := .crew, rds := [(a, 32), (b, 32)], wr := some (d, 32), lat := 6, bad := w.notV d }, fun i =>
      num (decCode ((w.unit.entries.getD ((w.src i a 32).toNat % 2 ^ codeBits w.unit.book) 0).toNat) ((w.src i b 32).setWidth 8)))
  | .rng n b a d => (rngCounter w b).map (fun c =>
      ({ rds := [(a, 64), (b, 128)], wr := some (d, 32), lat := 12 },
       fun i => (rngResult n.toNat (w.src i a 64) (w.src i c.1 64) (w.src i c.2 64), 0)))
  | .poll f a d => if f = 2 then none else some ({ side := .crew, rds := [(a, w.predWidth a)], wr := some (d, w.dstWidth d), lat := 6, whole := true },
      fun _ => (pollValue w f a, 0))
  | .lanex sg p b a d => some ({ side := .crew, rds := if p = 2 then [(a, 32)] else [(a, 32), (b, 32)], wr := some (d, w.dstWidth d), lat := 6, whole := true },
      fun i =>
        let src := lanexSrc (16 * 2 ^ sg.toNat) p i (w.src i b 32).toNat
        (if w.tids.contains src then w.src src a 32 else 0, 0))
  | .crdu f a d => some ({ side := .crew, rds := [(a, wide (gatherWide f.toNat))]
                           wr := some (d, if gatherWide f.toNat then 64 else w.dstWidth d), lat := 12, whole := true },
      fun _ => w.reduce f.toNat a (fun _ => true))
  | .scan e f a d => some ({ side := .crew, rds := [(a, wide (gatherWide (scanOp f)))]
                             wr := some (d, if gatherWide (scanOp f) then 64 else w.dstWidth d), bad := w.isK d, lat := 12, whole := true },
      fun i => w.reduce (scanOp f) a (fun j => if e = 1 then decide (j < i) else decide (j ≤ i)))
  | .rfirst a d => some ({ rds := [(a, w.dstWidth d)], wr := some (d, w.dstWidth d), lat := 6, whole := true },
      fun _ => (w.src w.lead a (w.dstWidth d), 0))
  | .rdlane b a d => some ({ rds := [(a, w.dstWidth d), (b, w.dstWidth d)], wr := some (d, w.dstWidth d), lat := 6, whole := true }, fun i =>
      (if w.spine then w.src i a (w.dstWidth d)
       else if w.tids.contains (w.src w.lead b (w.dstWidth d)).toNat then w.src (w.src w.lead b (w.dstWidth d)).toNat a (w.dstWidth d) else 0, 0))
  | .meetrRd d => some ({ side := .crew, wr := some (d, 64), lat := 4 }, fun i => (((w.unit.thread i).mr).getD (BitVec.allOnes 64), 0))
  | _ => none

/-- The row of a register instruction. -/
def rowOf (w : Who) (i : Instr) : Option Row := (((intRow w i).or (floatRow w i)).or (specialRow w i)).or (crewRow w i)

end Sys2Proof.Machine
end

