-- ==== Sys2Proof/Certificates/Slice0/Obligations.lean ====
section
/-! DEFINITION. The statements of this row, one definition each. A statement about an instruction word is about threads that are `ready`:
every test before the instruction's own work passes; a statement about an operation or event has its own conditions. -/

open Sys2Proof Sys2Proof.Machine

/-! ## Encoding -/

/-- The worked encodings of chapters 8 to 14 decode to the instructions they stand for.
R207: the OP codes that no table assigns are refused, whatever the other fields hold. -/
def Obligations.SpecWordsDecode : Prop :=
  (decodeWord 0x20404181 = .ok (.add 2 2 1 3) ∧ decodeWord 0x221E4117 = .ok (.cmpi 2 16 121 2)
    ∧ decodeWord 0xFFFFEE18 = .ok (.mvl 0x3FFFF 92) ∧ decodeWord 0x502102E8 = .ok (.lanex 1 1 1 4 5)
    ∧ decodeWord 0x90C10120 = .ok (.fadd 2 1 6 4 2) ∧ decodeWord 0x704041A5 = .ok (.fmax 1 3 2 1 3)
    ∧ decodeWord 0xB03681C0 = .ok (.ld 1 3 1 90 3) ∧ decodeWord 0xB0A08346 = .ok (.atom 11 5 2 6)
    ∧ decodeWord 0x00013AD5 = .ok (.cgath 4 117) ∧ decodeWord 0x0BD7055A = .ok (.stand 94 92 10)
    ∧ decodeWord 0x80170070 = .ok (.cpy 2 0 92) ∧ decodeWord 0 = .error .opcode
    ∧ decodeWord 0x1C988078 = .ok (.emitKeyed 100 98) ∧ decodeWord 0x008001FA = .ok (.rdsys 4 0 3)
    ∧ decodeWord 0x20E1807C = .ok (.sysopKill 7 6) ∧ decodeWord 0x0060006B = .ok (.bar 3))
  ∧ (∀ x : BitVec 32, (x.extractLsb' 0 7).toNat ∈ [0x00, 0x0E, 0x0F, 0x1B, 0x1C, 0x1D, 0x1E, 0x1F, 0x2E, 0x2F, 0x3C, 0x3D, 0x3E, 0x3F,
        0x4C, 0x4D, 0x4E, 0x4F, 0x6F, 0x7E, 0x7F] → decodeWord x = .error .opcode)

/-- The bytes of a well-formed instruction's word decode to that instruction, with every field as it was. -/
def Obligations.DecodeInvertsEncode : Prop :=
  ∀ (i : Instr) (x : BitVec 32) (rest : List Byte), wellFormed i = true → encode i = some x →
    decode (wordBytes x ++ rest) = .ok (i, rest)

/-- A word that decodes is the one word of a well-formed instruction: no unused bit is ignored. -/
def Obligations.EncodeInvertsDecode : Prop :=
  ∀ (x : BitVec 32) (i : Instr), decodeWord x = .ok i → wellFormed i = true ∧ encode i = some x

/-! ## The machine -/

/-- R354, R415, R420, R339: after power-on reset the host port is closed, every port is down with its counts 0, every queue window
reads 0 and is unbound, no context, cell, launch or node exists, and no line is held in any cache.
That the clk counts from 0 is the model's choice (log entry 9): no rule gives a power-on clk. -/
def Obligations.ResetState : Prop :=
  State.reset.pkg.booted = false ∧ State.reset.pkg.booting = false ∧ State.reset.clk = 0 ∧ State.reset.sched.ctxs = [] ∧ State.reset.cells = []
  ∧ State.reset.sched.launches = [] ∧ State.reset.sched.nodes = [] ∧ State.reset.sched.traps = []
  ∧ State.reset.sched.queues.length = 64 ∧ State.reset.pkg.ports.length = 64 ∧ State.reset.pkg.eports.length = 8
  ∧ (∀ q ∈ State.reset.sched.queues, q.qbase = 0 ∧ q.tail = 0 ∧ q.head = 0 ∧ q.bound = none ∧ q.err = false ∧ q.halt = false
      ∧ q.errIndex = 0 ∧ q.errCode = 0 ∧ q.running = [])
  ∧ (∀ p ∈ State.reset.pkg.ports ++ State.reset.pkg.eports, p.st = 0 ∧ p.lanes = 0 ∧ p.vmin = 0 ∧ p.vmaj = 0 ∧ p.retry = 0
      ∧ p.uncor = 0 ∧ p.peer = 0)
  ∧ State.reset.home.lines = [] ∧ State.reset.clu.lines = [] ∧ State.reset.clu.tlb = []

/-- Reset memory and full/empty bits are in canonical form (the model's form; log entry 2). -/
def Obligations.ResetWf : Prop := State.reset.wf = true

/-- Every step keeps memory and the full/empty bits in canonical form: addresses rising, and no byte listed that reads as an
unlisted one does. -/
def Obligations.StepKeepsMemoryWf : Prop :=
  ∀ s t : State, s.wf = true → Machine.step s = .next t → t.wf = true

/-- A STEP RUNS THE DECODED INSTRUCTION (R196-R198, R213): when the bytes at the program counter of the bundle or spine thread whose
turn it is decode to an instruction, the step is that instruction's meaning, with the issue recorded and its threads in the block of
that PC (R347; the model's reading of when CHK is taken: log entry 108). Issuing moves no PC by itself: the instruction's own end does. -/
def Obligations.StepRunsDecoded : Prop :=
  ∀ (s t : State) (c : Cell) (cx : Context) (u : Nat) (tids : List Nat) (pc : W64) (p key : Nat) (i : Instr),
    s.issues c cx u tids pc p → (s.atTurn c u tids pc p).codeAt c cx pc key t →
    (t.ctrlWord pc key).extractLsb' 29 3 = 0 → decodeWord (t.codeWord c pc key) = .ok i →
    Machine.step s = exec i (({ t with issue := ⟨c.uid, u, tids, pc, t.codeWord c pc key, t.ctrlWord pc key, false, p, none⟩ } : State).updThreads
      c.uid u tids (Thread.enter (blockOf pc) cx.chk))

/-- What the host and the world outside do is taken first, when its time has come: R418, R420: what the host sends while its port is closed
or its bridge has failed does not arrive; R340: a command that equals one which still waits waits behind it. Of the rest of a clk, the device's own steps come
first; then the waits that were over and the regrouping; then the turns of spine threads and bundles in the order of R59; then what a
rule puts at the end of the clk; and when nothing is left the next clk begins, one clk later, with the TIMER of every unit of a placed
cell one higher (R393). The order of the phases is the model's (log entry 4).
A package without power does nothing but take a power-on reset (R420, R424).
R20, R383: a wait that is over completes the instruction it began in, with the word it blocked in; `unstand.wait`, `yield` and
`emit.remote` are over at once, and their threads go on.
R24: a bundle whose passes go on has its next pass. -/
def Obligations.StepOrder : Prop :=
  ((∀ (s : State) (i : Instr) (r : List (Nat × Instr)), s.pkg.powered = true → s.agenda = (0, i) :: r → isInput i = true →
      (fromHost i = true → hostReachable s.pkg = true) →
      Machine.step s = (if s.waiting.contains i then .next { s.tick1 with agenda := r, waiting := s.waiting ++ [i] }
        else exec i { s.tick1 with agenda := r }))
    ∧ (∀ (s : State) (i : Instr) (r : List (Nat × Instr)), s.pkg.powered = true → s.agenda = (0, i) :: r →
      isInput i = false ∨ (fromHost i = true ∧ hostReachable s.pkg = false) → Machine.step s = .next { s.tick1 with agenda := r })
    ∧ (∀ s : State, s.pkg.powered = true → (∀ j r, s.agenda ≠ (0, j) :: r) → s.served = [] →
      (∀ i, s.phase = .device → s.tick1.timedEvents.find? s.tick1.wouldAct = some i → Machine.step s = exec i s.tick1)
      ∧ (s.phase = .device → s.tick1.timedEvents.find? s.tick1.wouldAct = none →
          (∃ i ∈ s.tick1.optional, s.tick1.wouldAct i = true ∧ Machine.step s = exec i s.tick1)
          ∨ Machine.step s = .next { s.tick1 with phase := .waits })
      ∧ (∀ i, s.phase = .waits → s.due = [] → s.tick1.regroups.find? s.tick1.wouldAct = some i → Machine.step s = exec i s.tick1)
      ∧ (s.phase = .waits → s.due = [] → s.tick1.regroups.find? s.tick1.wouldAct = none → s.tick1.turnedAway = none →
          Machine.step s = .next { s.tick1 with phase := .turns, turns := s.tick1.newTurns })
      ∧ (s.phase = .turns → s.turns = [] → Machine.step s = .next { s.tick1 with phase := .rest })
      ∧ (∀ i, s.phase = .rest → s.tick1.lastEvents.find? s.tick1.wouldAct = some i → Machine.step s = exec i s.tick1)
      ∧ (s.phase = .rest → s.tick1.lastEvents.find? s.tick1.wouldAct = none →
          ∃ t, Machine.step s = .next t ∧ t.clk = s.clk + 1 ∧ t.phase = .device
            ∧ ∀ c ∈ s.cells, c.evicted = false → c.evicting = false → ∃ d ∈ t.cells, d.uid = c.uid
              ∧ d.units.map (·.timer) = c.units.map (fun u => u.timer + 1))))
  ∧ (∀ s : State, s.pkg.powered = false →
      (Machine.step s = .fault .noPower
        ∨ ∃ n i r, s.agenda = (n, i) :: r ∧ isPowerOn i = true ∧ Machine.step s = exec i { s.tick1 with agenda := r })
      ∧ ((∀ n i r, s.agenda = (n, i) :: r → isPowerOn i = false) → Machine.step s = .fault .noPower))
  ∧ (∀ (s : State) (uid u tid : Nat) (r : List Due) (c : Cell) (g : Group),
      s.pkg.powered = true → (∀ i l, s.agenda ≠ (0, i) :: l) → s.served = [] → s.phase = .waits → s.due = .thread uid u tid :: r →
      s.running.find? (fun x => x.uid == uid) = some c → ({ s.tick1 with due := r } : State).wakeGroup c u tid false = some g →
      (plainWake g.kind = true → Machine.step s = .next (({ s.tick1 with due := r } : State).wakePlain g))
      ∧ (plainWake g.kind = false → ∀ x i, g.word = some x → decodeWord x = .ok i →
          Machine.step s = exec i (({ s.tick1 with due := r } : State).setWake g)))
  ∧ (∀ (s : State) (cl core p : Nat) (r : List Turn) (x : IssuePort) (i : Instr),
      s.pkg.powered = true → (∀ i l, s.agenda ≠ (0, i) :: l) → s.served = [] → s.phase = .turns → s.turns = .pass cl core p :: r →
      s.runAt cl core p = some x → decodeWord x.word = .ok i →
      Machine.step s = exec i (({ s.tick1 with turns := r } : State).setPass x))

/-! ## Traps, and the end of an instruction -/

/-- R197, R207: a control word with a bit of [31:29] set traps with ILLEGAL_CONTROL and AUX the control word, a word that decodes to
nothing with ILLEGAL_INSTRUCTION and AUX the word, and a fetch that is refused with the fault of its translation.
R208, R373: the tests that hold for a whole bundle, in their order, each with its AUX: ILLEGAL_INSTRUCTION (the word), PRIVILEGE (the
register's number), ROLE (the crew's role), WINDOW (the first v register that is not allocated), CISTERN_CONFIG (the first cistern
that is not declared), KDIV.
R20, R26, R208, R372: the general tests come before any effect of a register instruction, and the threads of its bundle take its passes
and park with the first that applies. -/
def Obligations.GeneralTraps : Prop :=
  (∀ (s t : State) (c : Cell) (cx : Context) (u : Nat) (tids : List Nat) (pc : W64) (p key : Nat), s.issues c cx u tids pc p →
      ((s.atTurn c u tids pc p).codeAt c cx pc key t → (t.ctrlWord pc key).extractLsb' 29 3 ≠ 0 →
        Machine.step s = .next (t.park c.uid u tids ⟨tControl, 0, (t.ctrlWord pc key).setWidth 64⟩ pc))
      ∧ ((s.atTurn c u tids pc p).codeAt c cx pc key t → (t.ctrlWord pc key).extractLsb' 29 3 = 0 →
        ∀ e w, decodeWord (t.codeWord c pc key) = .error e →
        (t.fetched c cx u tids pc (t.codeWord c pc key) (t.ctrlWord pc key)).who = some w → w.run = none →
        Machine.step s = .next ((t.fetched c cx u tids pc (t.codeWord c pc key) (t.ctrlWord pc key)).trapAll w {}
          ⟨tIllegal, 0, (t.codeWord c pc key).setWidth 64⟩))
      ∧ (∀ code, translate (s.atTurn c u tids pc p) cx c.cl pc .fetch = (.trap code, t) →
        Machine.step s = .next (t.park c.uid u tids ⟨code, pc, 2⟩ pc)))
  ∧ (∀ (w : Who) (d : Desc),
      (d.bad = true ∨ (d.side = .spine ∧ w.spine = false) ∨ (d.side = .crew ∧ w.spine = true)
          ∨ (∃ r ∈ d.rds, badSrc w.spine r.1 r.2 = true) ∨ (∃ r ∈ d.dsts, badDst w.spine r.1 r.2 = true) →
        uniformTrap w d = some ⟨tIllegal, 0, w.word.setWidth 64⟩)
      ∧ ((uniformTrap w d).all (fun i => i.code != tIllegal) = true → ∀ x, d.priv = some x → uniformTrap w d = some ⟨tPrivilege, 0, x⟩)
      ∧ ((uniformTrap w d).all (fun i => i.code != tIllegal) = true → d.priv = none → w.u ≠ 0 →
          ((d.role = .copy ∧ (w.unit.role = 2 ∨ w.unit.role = 3)) ∨ (d.role = .matrix ∧ (w.unit.role = 1 ∨ w.unit.role = 3))) →
          uniformTrap w d = some ⟨tRole, 0, BitVec.ofNat 64 w.unit.role⟩)
      ∧ (let regs := (d.rds ++ d.dsts).flatMap (fun r => physOf (w.op r.1) r.2)
         let cis := w.cisSrcs d ++ d.cis.toList.filterMap (fun f => match w.op f with | .cis n => some n | _ => none)
         let past := fun (l : List (BitVec 8)) => (uniformTrap w d).all (fun i => !l.contains i.code) = true
         (past [tIllegal, tPrivilege, tRole] → ∀ l p r, regs = l ++ p :: r → (∀ q ∈ l, allocated w.cell.hdr q = true) →
            allocated w.cell.hdr p = false → uniformTrap w d = some ⟨tWindow, 0, BitVec.ofNat 64 p⟩)
         ∧ (past [tIllegal, tPrivilege, tRole, tWindow] → ∀ l n r, cis = l ++ n :: r → (∀ q ∈ l, q < w.cell.hdr.ncis) →
            w.cell.hdr.ncis ≤ n → uniformTrap w d = some ⟨tCistern, 0, BitVec.ofNat 64 n⟩)
         ∧ (past [tIllegal, tPrivilege, tRole, tWindow, tCistern] → w.kDst d = true ∨ d.scalar = true → w.converged = false →
            uniformTrap w d = some ⟨tKdiv, 0, 0⟩))
      ∧ (uniformTrap w d = none → (∀ r ∈ d.rds ++ d.dsts, ∀ p ∈ physOf (w.op r.1) r.2, allocated w.cell.hdr p = true)
          ∧ (∀ n ∈ w.cisSrcs d, n < w.cell.hdr.ncis) ∧ (w.kDst d = true → w.converged = true)))
  ∧ (∀ (i : Instr) (s : State) (w : Who) (r : Row) (x : TrapInfo), s.who = some w → w.run = none → rowOf w i = some r →
      uniformTrap w r.1 = some x → exec i s = .next (s.trapAll w r.1 x))

/-- R111, R204, R208: under checking, a register with a load outstanding traps with STALE_READ before a source whose result has not
landed traps with STALL_SHORT, and that before a destination whose result in flight would land later, each with the register as AUX.
One execution for the bundle reads its lowest thread's sources. A register instruction whose threads all meet one of the two takes its
passes and parks them without effect; where only some meet one, those park and the others complete (R281, R282).
That every thread of one execution meets the lowest one's hazard, and that a class without a fixed latency counts 0, is the model's
choice (log entries 105, 106).
R52, R57, R208: a cistern source that is empty blocks the bundle (wait kind 2), and one in mode FREE, or of mode GATHER read by a
crew, traps with CISTERN_CONFIG; no cistern is read and no register written. -/
def Obligations.HazardTraps : Prop :=
  ((∀ (w : Who) (d : Desc) (last i : Nat),
      let j := if w.single d then w.lead else i
      let clear := (∀ q ∈ w.regsOf j d.rds, w.loadOn j q = false) ∧ ∀ q ∈ w.regsOf i d.dsts, w.loadOn i q = false
      let own := fun (r : Nat) => if d.lat = 0 then 0 else last + (if 32768 ≤ r then 2 else d.lat) + 4 * w.slow d
      (∀ r ∈ w.regsOf j d.rds, w.loadOn j r = true →
        ∃ q ∈ w.regsOf j d.rds, w.loadOn j q = true ∧ threadTrap w d last i = some ⟨tStale, 0, auxReg q⟩)
      ∧ (∀ r ∈ w.regsOf i d.dsts, w.loadOn i r = true →
        ∃ q ∈ w.regsOf j d.rds ++ w.regsOf i d.dsts, threadTrap w d last i = some ⟨tStale, 0, auxReg q⟩)
      ∧ (clear → ∀ r ∈ w.regsOf j d.rds, w.flying r ≠ [] →
        ∃ q ∈ w.regsOf j d.rds, w.flying q ≠ [] ∧ threadTrap w d last i = some ⟨tStallShort, 0, auxReg q⟩)
      ∧ (clear → (∀ r ∈ w.regsOf j d.rds, w.flying r = []) → ∀ r ∈ w.regsOf i d.dsts, ∀ p ∈ w.flying r, own r < p.lands w.clk →
        ∃ q ∈ w.regsOf i d.dsts, threadTrap w d last i = some ⟨tStallShort, 0, auxReg q⟩))
    ∧ (∀ (i : Instr) (s : State) (w : Who) (r : Row) (f : Nat → TrapInfo), s.who = some w → w.run = none → rowOf w i = some r →
      uniformTrap w r.1 = none → w.interlocked r.1 = false →
      (∀ t ∈ w.tids, checking w t = true ∧ threadTrap w r.1 (w.lastPass r.1) t = some (f t)) →
      ∃ ids vals, exec i s = .next (s.opening { w with tids := ids, vals := vals } r.1 w.tids (w.tids.map (fun t => (t, .trap (f t))))))
    ∧ (∀ (i : Instr) (s : State) (w : Who) (r : Row), wellFormed i = true → s.who = some w → w.sound = true → w.run = none →
      intRow w i = some r ∨ floatRow w i = some r → uniformTrap w r.1 = none → w.interlocked r.1 = false → w.single r.1 = false →
      w.cisSrcs r.1 = [] →
      let bad := fun (t : Nat) => if checking w t then threadTrap w r.1 (w.lastPass r.1) t else none
      let ok := (w.firstPass r.1).filter (fun t => (bad t).isNone)
      ∃ t, exec i s = .next t
        ∧ (∀ f n, r.1.wr = some (f, n) → ∀ k ∈ ok, w.quiet k f n = true → t.holds w k f n (r.2 k).1)
        ∧ keepsRegs s t w.cell.uid w.u (ok.flatMap (fun k => w.regsOf k r.1.wr.toList))
        ∧ (w.oneClk r.1 = true → s.buildsOf w.cell.uid = [] → ∀ k ∈ w.tids,
            (∀ x, bad k = some x → (t.thread w.cell.uid w.u k).st = .parked ∧ (t.thread w.cell.uid w.u k).tcode = x.code
              ∧ (t.thread w.cell.uid w.u k).pc = w.pc)
            ∧ (bad k = none → (t.thread w.cell.uid w.u k).pc = nextPc w.pc))))
  ∧ (∀ (i : Instr) (s : State) (w : Who) (r : Row), s.who = some w → w.run = none → rowOf w i = some r → uniformTrap w r.1 = none →
      (∀ t ∈ w.tids, checking w t = false) → (∀ t ∈ w.tids, pendingTrap w t = none) → w.interlocked r.1 = false → w.vals = [] →
      (∀ n, w.cisTrap r.1 = some n → exec i s = .next (s.trapAll w r.1 ⟨tCistern, 0, BitVec.ofNat 64 n⟩))
      ∧ (∀ n, w.cisTrap r.1 = none → w.cisEmpty r.1 = some n →
          exec i s = .next (s.opening w r.1 w.tids (w.tids.map (fun t => (t, .block 2 (BitVec.ofNat 64 n)))))))

/-- TAKING A TRAP (R20, R372, R374): the threads park at the PC given, with the code; nothing else of them that a handler sees
changes, nor any other thread, register, cell, memory or engine; and one record with the context, cluster, count, designator, PC,
ADDR, AUX, thread mask and time base joins the trap service, or none when the context is gone.
R376: a record of a clk stands behind those of the clk and of earlier ones that the arbitration order does not put behind it.
R144: a trap of a cell that is building a tile fails the build: the tile is POISONED and no cell builds it any more.
RETURN FROM A TRAP (R20, R21, R323, R380): a parked thread resumes at its PC (restart) or at the next word in execution order
(skip), held when that is its MR; a thread that is not parked is unchanged. A kill ends a held, blocked or parked thread and
leaves an eligible one. -/
def Obligations.TrapEntryAndReturn : Prop :=
  (∀ (s : State) (uid u : Nat) (tids : List Nat) (i : TrapInfo) (pc : W64) (c : Cell),
      s.cell? uid = some c → u < c.units.length → (∀ t ∈ tids, t < (c.unit u).threads.length ∧ ((c.unit u).thread t).st ≠ .exited) →
      s.buildsOf uid = [] →
      let t := s.park uid u tids i pc
      (∀ k ∈ tids, (t.thread uid u k).st = .parked ∧ (t.thread uid u k).pc = pc ∧ (t.thread uid u k).tcode = i.code
        ∧ (t.thread uid u k).mr = (s.thread uid u k).mr ∧ (t.thread uid u k).ppois = (s.thread uid u k).ppois
        ∧ (t.thread uid u k).prw = (s.thread uid u k).prw)
      ∧ (∀ k, k ∉ tids → t.thread uid u k = s.thread uid u k)
      ∧ keepsAllRegs s t uid u ∧ (∀ v, v ≠ u → t.unit uid v = s.unit uid v) ∧ (∀ k, k ≠ uid → t.cell? k = s.cell? k)
      ∧ t.home = s.home ∧ t.clu = s.clu ∧ t.clk = s.clk
      ∧ { t.sched with traps := s.sched.traps } = s.sched
      ∧ (s.ctx? c.ctx = none → t.sched.traps = s.sched.traps)
      ∧ ((s.ctx? c.ctx).isSome = true → t.sched.traps = insertTrap ⟨c.dev, c.ctx,
          [BitVec.ofNat 64 (c.ctx.toNat * 2 ^ 32 + logicalCl s.pkg c.dev c.cl % 128 * 2 ^ 24 + tids.length * 2 ^ 16 + i.code.toNat),
           designator c u, pc, i.addr, i.aux, BitVec.ofNat 64 (tidMask tids), BitVec.ofNat 64 (tidMask tids / 2 ^ 64),
           BitVec.ofNat 64 (s.clk * 5 / 8)], c.handler, s.clk, lanePlace c u (tids.headD 0)⟩ s.sched.traps))
  ∧ (∀ (r : TrapRec) (l : List TrapRec), (∀ a ∈ l, a.clk ≤ r.clk) → ∃ x y, l = x ++ y ∧ insertTrap r l = x ++ r :: y
      ∧ (∀ a ∈ y.head?, a.clk = r.clk ∧ r.rank < a.rank) ∧ ∀ a ∈ x, ¬(a.clk = r.clk ∧ r.rank < a.rank))
  ∧ (∀ (s : State) (uid u : Nat) (tids : List Nat) (i : TrapInfo) (pc : W64) (c : Cell) (x : Tile),
      s.cell? uid = some c → s.buildsOf uid = [x] → x.srcs = [] → x.launch = none →
      (∀ y ∈ s.home.tiles, y.ctx = x.ctx → y.base = x.base → y = x) →
      ((s.park uid u tids i pc).tile x.ctx x.base).st = .poisoned ∧ (s.park uid u tids i pc).buildsOf uid = [])
  ∧ ((∀ (t : Thread) (skip : Bool) (clk : Nat), t.st ≠ .parked → t.resume skip clk = t)
    ∧ (∀ (t : Thread) (clk : Nat), t.st = .parked → (t.resume false clk).pc = t.pc ∧ (t.resume true clk).pc = nextPc t.pc
        ∧ (t.resume false clk).st = (if t.mr = some t.pc then .held else .eligible)
        ∧ (t.resume true clk).st = (if t.mr = some (nextPc t.pc) then .held else .eligible)
        ∧ (t.resume false clk).mr = t.mr ∧ (t.resume true clk).ppois = t.ppois)
    ∧ (∀ t : Thread, t.st = .held ∨ t.st = .blocked ∨ t.st = .parked → t.kill.st = .exited ∧ t.kill.ppois = none ∧ t.kill.prw = none)
    ∧ (∀ t : Thread, t.st = .eligible ∨ t.st = .exited → t.kill = t))

/-- R20, R52, R199, R372: threads that end an instruction by going on stand at their next words, and otherwise only the cisterns read as
sources change: no register, memory, or other cell.
R20, R52: threads that block keep their PC and record what they wait for and the values of the cisterns they have read; threads that
wait for an interlock stand at their word and try again a clk later; threads that exit are exited. No register or memory changes.
R281, R282, R372: where the threads of a bundle come to different ends, each ends as it came: those that trap park at the instruction
with their codes, and the others go on, block, try again or exit; no register or memory changes, nor another thread.
R24, R26: in a later clk of a bundle's passes the pass under way goes on, or up to 32 more threads have theirs, each acting thread's
destination holding its result; the threads go on when the last is over. -/
def Obligations.InstructionEnds : Prop :=
  (∀ (s : State) (w : Who) (d : Desc) (o : Nat → LaneOut) (p : Nat → W64), ready s w d = true →
      (∀ i ∈ w.tids, (o i).next? w.pc = some (p i)) →
      Completes s (s.ends w d o) w d p o ∧ keepsAllRegs s (s.ends w d o) w.cell.uid w.u ∧ readsCisterns s (s.ends w d o) w d
        ∧ Frame s (s.ends w d o) w.cell.uid w.u)
  ∧ (∀ (s : State) (w : Who) (d : Desc) (o : LaneOut), ready s w d = true → (o = .stall ∨ o = .exit ∨ ∃ k x, o = .block k x) →
      let t := s.all w d o
      (w.oneClk d = true → ∀ i ∈ w.tids, (t.thread w.cell.uid w.u i).pc = (s.thread w.cell.uid w.u i).pc
        ∧ (t.thread w.cell.uid w.u i).mr = (s.thread w.cell.uid w.u i).mr
        ∧ (o = .stall → (t.thread w.cell.uid w.u i).st = .eligible ∧ (t.thread w.cell.uid w.u i).ready = s.clk + 1)
        ∧ (o = .exit → (t.thread w.cell.uid w.u i).st = .exited)
        ∧ (∀ k x, o = .block k x → (t.thread w.cell.uid w.u i).st = .blocked ∧ (t.thread w.cell.uid w.u i).wkind = k
            ∧ (t.thread w.cell.uid w.u i).wobj = x ∧ (t.thread w.cell.uid w.u i).word = some w.word
            ∧ (t.thread w.cell.uid w.u i).vals = (w.reads d).vals))
      ∧ (w.oneClk d = false → Passing s t w d (fun _ => o))
      ∧ (∀ i, i ∉ w.tids → t.thread w.cell.uid w.u i = s.thread w.cell.uid w.u i)
      ∧ keepsAllRegs s t w.cell.uid w.u ∧ readsCisterns s t w d ∧ Frame s t w.cell.uid w.u)
  ∧ (∀ (s : State) (w : Who) (d : Desc) (o : Nat → LaneOut), ready s w d = true →
      let t := s.ends w d o
      (w.oneClk d = false → Passing s t w d o)
      ∧ (w.oneClk d = true → s.buildsOf w.cell.uid = [] →
        (∀ i ∈ w.tids, let x := t.thread w.cell.uid w.u i
          (∀ p, (o i).next? w.pc = some p → x.pc = p ∧ x.st = (if x.mr = some p then .held else .eligible))
          ∧ ((o i).next? w.pc = none → x.pc = w.pc)
          ∧ (o i = .stall → x.st = .eligible ∧ x.ready = s.clk + 1 ∧ x.vals = (w.reads d).vals)
          ∧ (o i = .exit → x.st = .exited)
          ∧ (∀ k y, o i = .block k y → x.st = .blocked ∧ x.wkind = k ∧ x.wobj = y ∧ x.word = some w.word ∧ x.vals = (w.reads d).vals)
          ∧ (∀ c, (o i).code? = some c → x.st = .parked ∧ x.tcode = c))
        ∧ (∀ i, i ∉ w.tids → t.thread w.cell.uid w.u i = s.thread w.cell.uid w.u i)
        ∧ keepsAllRegs s t w.cell.uid w.u ∧ (∀ k, k ≠ w.cell.uid → t.cell? k = s.cell? k) ∧ t.home = s.home
        ∧ { t.sched with traps := s.sched.traps } = s.sched))
  ∧ (∀ (i : Instr) (s : State) (w : Who) (r : Row) (p : IssuePort), s.who = some w → w.run = some p → rowOf w i = some r →
      wellFormed i = true → uniformTrap w r.1 = none → w.cell.hdr.fast ≤ 192 → w.cell.hdr.slow ≤ 64 →
      let now := if p.left ≠ 0 ∨ w.atOncePass r.1 = true then [] else
        (p.rest.take 32).filter (fun k => w.tids.contains k && p.outs.all (fun o => o.1 != k))
      let rest := if p.left ≠ 0 then p.rest else p.rest.drop 32
      let left := if p.left ≠ 0 then p.left - 1 else w.passClks r.1 (p.rest.take 32) - 1
      let outs := p.outs ++ now.map (fun k => (k, LaneOut.done))
      ∃ t, exec i s = .next t
        ∧ (∀ f n, r.1.wr = some (f, n) → ∀ k ∈ now, w.quiet k f n = true → t.holds w k f n (r.2 k).1)
        ∧ keepsRegs s t w.cell.uid w.u (now.flatMap (fun k => w.regsOf k r.1.wr.toList))
        ∧ (rest ≠ [] ∨ left ≠ 0 → Frame s t w.cell.uid w.u ∧ (∀ k, t.thread w.cell.uid w.u k = s.thread w.cell.uid w.u k)
            ∧ ({ p with rest := rest, left := left, outs := outs } : IssuePort) ∈ t.clu.ports)
        ∧ (rest = [] → left = 0 → p.watch = none → (∀ o ∈ p.outs, o.2 = .done) → (∀ k, k ∈ w.tids ↔ k ∈ outs.map (·.1)) →
            GoesOn s t w (fun _ => nextPc w.pc) ∧ Frame s t w.cell.uid w.u))

/-! ## Register instructions -/

/-- R225-R238: the integer, logic, shift, bit, compare, select, move, address, immediate and byte dot product instructions complete: each
acting thread's destination holds its row's result, the threads go on, and nothing else changes. -/
def Obligations.IntegerResults : Prop :=
  ∀ (i : Instr) (s : State) (w : Who) (r : Row), wellFormed i = true → intRow w i = some r → ready s w r.1 = true →
    ∃ t, exec i s = .next t ∧ RegResult s w r.1 t r.2

/-- R260-R273: the float and conversion instructions complete with their row's result and raise its flags. -/
def Obligations.FloatResults : Prop :=
  ∀ (i : Instr) (s : State) (w : Who) (r : Row), wellFormed i = true → floatRow w i = some r → ready s w r.1 = true →
    ∃ t, exec i s = .next t ∧ RegResult s w r.1 t r.2

/-- R74, R266: the special functions complete: the result and flags are a function of the 32 bits of the operand alone.
R239, R243-R248, R276-R278: random numbers, votes (but the mask), exchange, reduction, scan, broadcast, the read of MR and
quantisation complete with their row's result and flags. -/
def Obligations.SpecialAndCrewResults : Prop :=
  (∀ (i : Instr) (s : State) (w : Who) (r : Row), specialRow w i = some r → ready s w r.1 = true →
      (∃ t, exec i s = .next t ∧ RegResult s w r.1 t r.2)
      ∧ ∀ a b, i = .rcp a b ∨ i = .rsqrt a b ∨ i = .exp2 a b ∨ i = .log2 a b ∨ i = .sin a b ∨ i = .cos a b ∨ i = .tanh a b →
          ∀ j k, (w.src j a 32).setWidth 32 = (w.src k a 32).setWidth 32 → r.2 j = r.2 k)
  ∧ (∀ (i : Instr) (s : State) (w : Who) (r : Row), wellFormed i = true → crewRow w i = some r → ready s w r.1 = true →
      ∃ t, exec i s = .next t ∧ RegResult s w r.1 t r.2)

/-- R233: `sel` is OP 0x0B with F 0, reads D, a and b at the destination's width, and chooses a where D is not 0, else b. -/
def Obligations.SelectChooses : Prop :=
  (∀ b a d : BitVec 7, decodeWord ((0 : BitVec 4) ++ b ++ a ++ d ++ (0x0B : BitVec 7)) = .ok (.sel b a d))
  ∧ ∀ (b a d : BitVec 7) (s : State) (w : Who),
      let n := w.dstWidth d
      let desc : Desc := { rds := [(a, n), (b, n), (d, n)], wr := some (d, n), lat := 4 }
      ready s w desc = true → ∃ t, exec (.sel b a d) s = .next t
        ∧ (∀ i ∈ w.actors desc, w.quiet i d n = true → w.src i d n ≠ 0 → t.holds w i d n (w.src i a n))
        ∧ (∀ i ∈ w.actors desc, w.quiet i d n = true → w.src i d n = 0 → t.holds w i d n (w.src i b n))
        ∧ keepsRegs s t w.cell.uid w.u ((w.actors desc).flatMap (fun i => w.regsOf i [(d, n)])) ∧ Frame s t w.cell.uid w.u

/-- R65: division truncates toward zero, the remainder has the dividend's sign and dividend = quotient * divisor + remainder; a divisor of 0
gives all ones at the operation width and the dividend; the minimum divided by -1 gives the minimum and remainder 0; division never traps. -/
def Obligations.DivisionValues : Prop :=
  (∀ (f : BitVec 2) (a b : W64), f.toNat < 2 → b.setWidth 32 = (0 : W32) →
    (divResult false f a b).setWidth 32 = BitVec.allOnes 32 ∧ (divResult true f a b).setWidth 32 = a.setWidth 32)
  ∧ (∀ (f : BitVec 2) (a : W64), 2 ≤ f.toNat → divResult false f a 0 = BitVec.allOnes 64 ∧ divResult true f a 0 = a)
  ∧ (∀ a b : W64, b ≠ 0 → ¬(a = BitVec.intMin 64 ∧ b = BitVec.allOnes 64) →
      let q := (divResult false 2 a b).toInt
      let r := (divResult true 2 a b).toInt
      q * b.toInt + r = a.toInt ∧ r.natAbs < b.toInt.natAbs ∧ (0 ≤ a.toInt → 0 ≤ r) ∧ (a.toInt ≤ 0 → r ≤ 0))
  ∧ (∀ a b : W64, b.setWidth 32 ≠ (0 : W32) → ¬(a.setWidth 32 = BitVec.intMin 32 ∧ b.setWidth 32 = BitVec.allOnes 32) →
      let q := ((divResult false 0 a b).setWidth 32).toInt
      let r := ((divResult true 0 a b).setWidth 32).toInt
      let x := (a.setWidth 32).toInt
      let y := (b.setWidth 32).toInt
      q * y + r = x ∧ r.natAbs < y.natAbs ∧ (0 ≤ x → 0 ≤ r) ∧ (x ≤ 0 → r ≤ 0))
  ∧ (divResult false 2 (BitVec.intMin 64) (BitVec.allOnes 64) = BitVec.intMin 64 ∧ divResult true 2 (BitVec.intMin 64) (BitVec.allOnes 64) = 0)
  ∧ (∀ a b : W64, a.setWidth 32 = BitVec.intMin 32 → b.setWidth 32 = BitVec.allOnes 32 →
      (divResult false 0 a b).setWidth 32 = BitVec.intMin 32 ∧ (divResult true 0 a b).setWidth 32 = (0 : W32))
  ∧ (∀ a b : W64, b ≠ 0 → (divResult false 3 a b).toNat * b.toNat + (divResult true 3 a b).toNat = a.toNat
      ∧ (divResult true 3 a b).toNat < b.toNat)
  ∧ (∀ a b : W64, b.setWidth 32 ≠ (0 : W32) →
      (divResult false 1 a b).toNat * (b.toNat % 2 ^ 32) + (divResult true 1 a b).toNat = a.toNat % 2 ^ 32
      ∧ (divResult true 1 a b).toNat < b.toNat % 2 ^ 32)
  ∧ (∀ (f : BitVec 2) (b a d : BitVec 7) (s : State) (w : Who),
      let n := if 2 ≤ f.toNat then 64 else 32
      let desc : Desc := { rds := [(a, n), (b, n)], wr := some (d, n), lat := if 2 ≤ f.toNat then 16 else 12 }
      ready s w desc = true →
      (∃ t, exec (.div f b a d) s = .next t ∧ Goes s t w desc
        ∧ ∀ i ∈ w.actors desc, w.quiet i d n = true → t.holds w i d n (divResult false f (w.src i a n) (w.src i b n)))
      ∧ ∃ t, exec (.rem f b a d) s = .next t ∧ Goes s t w desc
        ∧ ∀ i ∈ w.actors desc, w.quiet i d n = true → t.holds w i d n (divResult true f (w.src i a n) (w.src i b n)))

/-- R231, R238: the bits of a reversal, of a field taken out (sign- or zero-extended) or put in, the bytes of a select, and the exact sum of
a byte dot product.
R54, R82: the tree over 128 lanes gives the sum, the bitwise combination, or the least or greatest of the lanes' operands, whatever
the tree's shape, for the operations on integers; it raises no flag. -/
def Obligations.IntegerValues : Prop :=
  ((∀ (n : Nat) (a : W64) (i : Nat), n = 32 ∨ n = 64 → (bitResult 3 n a).getLsbD i = (decide (i < n) && a.getLsbD (n - 1 - i)))
    ∧ (∀ (a b : W64) (i : Nat),
        let p := b.toNat % 256
        let e := min (p + b.toNat / 256 % 256) 32
        let full := decide (p < e)
        (bfxResult false a b).getLsbD i = (full && decide (i < e - p) && a.getLsbD (p + i))
        ∧ (bfxResult true a b).getLsbD i = (full && decide (i < 64) && a.getLsbD (if i < e - p then p + i else e - 1)))
    ∧ (∀ (a b d : W64) (i : Nat),
        let p := b.toNat % 256
        let e := min (p + b.toNat / 256 % 256) 32
        p < e → (bfiResult a b d).getLsbD i = (decide (i < 32) && (if p ≤ i ∧ i < e then a.getLsbD (i - p) else d.getLsbD i)))
    ∧ (∀ (a b : W64) (i : Nat), i < 4 →
        let sel := b.toNat / 256 ^ i % 256
        let byte := a.toNat / 256 ^ (sel % 8) % 256
        (bselResult a b).toNat / 256 ^ i % 256 = (match sel / 64 with | 0 => byte | 1 => 0 | 2 => 255 - byte | _ => 255))
    ∧ (∀ (f : BitVec 2) (a b d : W64),
        let rd := fun (signed : Bool) (x : W64) (j : Nat) => if signed then (x.extractLsb' (8 * j) 8).toInt else ((x.extractLsb' (8 * j) 8).toNat : Int)
        let sa := f == 0 || f == 2
        let sb := f == 0 || f == 3
        let sum := un 32 d + rd sa a 0 * rd sb b 0 + rd sa a 1 * rd sb b 1 + rd sa a 2 * rd sb b 2 + rd sa a 3 * rd sb b 3
        dot4Result f a b d = if f = 1 then zext 32 sum else sext 32 sum))
  ∧ (∀ l : List W64, l.length = 128 →
      (∀ op, op = 0 ∨ op = 1 ∨ op = 2 → tree op 7 l = (l.foldl (· + ·) 0, 0))
      ∧ tree 11 7 l = (l.foldl (· &&& ·) (BitVec.allOnes 64), 0) ∧ tree 12 7 l = (l.foldl (· ||| ·) 0, 0)
      ∧ tree 13 7 l = (l.foldl (· ^^^ ·) 0, 0)
      ∧ ((tree 5 7 l).1 ∈ l ∧ ∀ x ∈ l, (tree 5 7 l).1.toInt ≤ x.toInt) ∧ ((tree 6 7 l).1 ∈ l ∧ ∀ x ∈ l, x.toInt ≤ (tree 6 7 l).1.toInt)
      ∧ ((tree 7 7 l).1 ∈ l ∧ ∀ x ∈ l, (tree 7 7 l).1.toNat ≤ x.toNat) ∧ ((tree 8 7 l).1 ∈ l ∧ ∀ x ∈ l, x.toNat ≤ (tree 8 7 l).1.toNat))

/-! ## Numbers -/

/-- R68: the rounded quotient of each mode: nearest with ties to even, toward zero, toward -infinity, toward +infinity; and whether it
is inexact. -/
def Obligations.RoundingIsCorrect : Prop :=
  ∀ (rm : Rm) (neg : Bool) (m : Nat) (e qe : Int), e < qe →
    let q := (toQuantum rm neg m e qe).1
    let u := 2 ^ (qe - e).toNat
    ((toQuantum rm neg m e qe).2 = decide (q * u ≠ m))
    ∧ m < (q + 1) * u ∧ q * u < m + u
    ∧ (rm = .rne → 2 * m ≤ (2 * q + 1) * u ∧ 2 * q * u ≤ 2 * m + u ∧ ((2 * m = (2 * q + 1) * u ∨ 2 * q * u = 2 * m + u) → q % 2 = 0))
    ∧ (rm = .rtz → q * u ≤ m) ∧ (rm = .rdn → if neg then m ≤ q * u else q * u ≤ m) ∧ (rm = .rup → if neg then q * u ≤ m else m ≤ q * u)

/-- R66, R68, R70: rounding the exact value of an encoding to its own format gives the encoding again and raises no flag; a NaN gives
the canonical NaN. -/
def Obligations.ExactValuesKept : Prop :=
  ∀ (f : Fmt) (rm : Rm) (b : Nat), f = f16 ∨ f = bf16 ∨ f = f32 ∨ f = f64 → b < 2 ^ f.width →
    (isNan (unpack f b) = false → packRound f rm (unpack f b) = (b, 0))
    ∧ (isNan (unpack f b) = true → packRound f rm (unpack f b) = (f.nan, if isSnan (unpack f b) then flNV else 0))

/-- R70, R73: an operation with a NaN operand gives the canonical NaN, with NV for a signalling one; opposite infinities added, 0 times
infinity, 0 / 0 and infinity / infinity give NaN with NV; a number over 0 gives infinity with DZ; the root of a number below 0 gives NaN
with NV, and of -0 gives -0.
R272: a conversion to an integer saturates with NV, gives 0 with NV for a NaN, and otherwise the rounded value, inexact with NX. -/
def Obligations.SpecialOperands : Prop :=
  (∀ (f : Fmt) (rm : Rm) (a b : Fv),
      (isNan a = true ∨ isNan b = true → ∀ r, r = fAdd f rm a b ∨ r = fMul f rm a b ∨ r = fDiv f rm a b →
        r.1 = f.nan ∧ r.2 = (if isSnan a || isSnan b then flNV else 0))
      ∧ (∀ n, fAdd f rm (.inf n) (.inf !n) = (f.nan, flNV))
      ∧ (∀ n k e, fMul f rm (.inf n) (.fin k 0 e) = (f.nan, flNV) ∧ fMul f rm (.fin k 0 e) (.inf n) = (f.nan, flNV))
      ∧ (∀ n k e g, fDiv f rm (.fin n 0 e) (.fin k 0 g) = (f.nan, flNV)) ∧ (∀ n k, fDiv f rm (.inf n) (.inf k) = (f.nan, flNV))
      ∧ (∀ n m e k g, m ≠ 0 → fDiv f rm (.fin n m e) (.fin k 0 g) = (f.signBit (n != k) + f.infBits, flDZ))
      ∧ (∀ m e, m ≠ 0 → fSqrt f rm (.fin true m e) = (f.nan, flNV)) ∧ (∀ e, fSqrt f rm (.fin true 0 e) = (f.signBit true, 0)))
  ∧ (∀ (rm : Rm) (t : BitVec 2) (s n : Bool) (m : Nat) (e : Int),
      let lo := typeMin t
      let hi := typeMax t
      let q := toQuantum rm n m e 0
      let i := if n then -(q.1 : Int) else q.1
      toInt rm lo hi (.nan s) = (0, flNV) ∧ toInt rm lo hi (.inf false) = (hi, flNV) ∧ toInt rm lo hi (.inf true) = (lo, flNV)
      ∧ (hi < i → toInt rm lo hi (.fin n m e) = (hi, flNV)) ∧ (i < lo → toInt rm lo hi (.fin n m e) = (lo, flNV))
      ∧ (lo ≤ i → i ≤ hi → toInt rm lo hi (.fin n m e) = (i, if q.2 then flNX else 0)))

/-! ## Bundles, windows, control -/

/-- R244: the mask of `poll.mask` goes to an even k register and the next: bit i is 1 for a thread i of the bundle with a nonzero
predicate. Nothing else changes.
R41, R249: `wbase` and `cview` set WB and CVB to a + Sext(IMM11) when it is a multiple of 8 in range, and it governs 2 clk (4 more for a
slow source) after the last pass; else they trap with WINDOW and the bases stay. The other base, registers and cell stay.
R275: `qcb` takes the 16, 64 or 256 two-byte entries at the basin address of the lowest thread as the crew's book; `qcb.lin8` makes LIN8
the book; a misaligned address, or one whose entries leave the allocation, traps and the book stays. -/
def Obligations.CrewState : Prop :=
  (∀ (a d : BitVec 7) (s : State) (w : Who),
      let desc : Desc := { side := .crew, rds := [(a, w.predWidth a)], wr := some (d, 128), bad := !w.isK d, lat := 6 }
      ready s w desc = true → ∃ t x y, exec (.poll 2 a d) s = .next t
        ∧ (∀ i, x.getLsbD i = (decide (i < 64) && w.tids.contains i && w.src i a (w.predWidth a) != 0))
        ∧ (∀ i, y.getLsbD i = (decide (i < 64) && w.tids.contains (64 + i) && w.src (64 + i) a (w.predWidth a) != 0))
        ∧ (w.quiet w.lead d 128 = true → t.holds w w.lead d 64 x ∧ t.holds w w.lead (d + 1) 64 y)
        ∧ Goes s t w desc ∧ keepsRegs s t w.cell.uid w.u (w.regsOf w.lead [(d, 128)])
        ∧ keepsUnit s t w.cell.uid w.u ∧ readsCisterns s t w desc ∧ Frame s t w.cell.uid w.u)
  ∧ (∀ (i : BitVec 11) (a : BitVec 7) (s : State) (w : Who),
      let desc : Desc := { side := .crew, rds := [(a, 64)], scalar := true, lat := 2 }
      let v := w.src w.lead a 64 + i.signExtend 64
      ready s w desc = true →
      (v.toNat % 8 = 0 → v.toNat ≤ 168 → ∃ t, exec (.wbase i a) s = .next t ∧ Goes s t w desc
        ∧ (t.unit w.cell.uid w.u).wb = v.toNat ∧ (t.unit w.cell.uid w.u).cvb = w.unit.cvb
        ∧ (w.oneClk desc = true → w.wake = false →
            ∃ q ∈ (t.unit w.cell.uid w.u).pend, q.reg = regWb ∧ q.iss = 0 ∧ q.land = w.clk + 2 + 4 * w.slow desc)
        ∧ keepsRegs s t w.cell.uid w.u [] ∧ Frame s t w.cell.uid w.u)
      ∧ (v.toNat % 8 = 0 → v.toNat ≤ 56 → ∃ t, exec (.cview i a) s = .next t ∧ Goes s t w desc
        ∧ (t.unit w.cell.uid w.u).cvb = v.toNat ∧ (t.unit w.cell.uid w.u).wb = w.unit.wb
        ∧ (w.oneClk desc = true → w.wake = false →
            ∃ q ∈ (t.unit w.cell.uid w.u).pend, q.reg = regCvb ∧ q.iss = 0 ∧ q.land = w.clk + 2 + 4 * w.slow desc)
        ∧ keepsRegs s t w.cell.uid w.u [] ∧ Frame s t w.cell.uid w.u)
      ∧ (v.toNat % 8 ≠ 0 ∨ 168 < v.toNat → exec (.wbase i a) s = .next (s.all w desc (.trap ⟨tWindow, 0, v⟩)))
      ∧ (v.toNat % 8 ≠ 0 ∨ 56 < v.toNat → exec (.cview i a) s = .next (s.all w desc (.trap ⟨tWindow, 0, v⟩))))
  ∧ (∀ (f : BitVec 2) (a : BitVec 7) (s : State) (w : Who),
      (let desc : Desc := { side := .crew, once := true }
       ready s w desc = true → ∃ t, exec .qcbLin8 s = .next t ∧ Goes s t w desc ∧ (t.unit w.cell.uid w.u).book = 0
        ∧ keepsRegs s t w.cell.uid w.u [] ∧ Frame s t w.cell.uid w.u)
      ∧ (let desc : Desc := { side := .crew, rds := [(a, 32)], once := true, basin := true }
         let ea := w.src w.lead a 32
         let n := match f.toNat with | 1 => 16 | 2 => 64 | _ => 256
         f ≠ 0 → ready s w desc = true →
         (ea.toNat % 16 = 0 → ea.toNat + 2 * n ≤ w.cell.basinSize → ∃ t, exec (.qcb f a) s = .next t ∧ Goes s t w desc
            ∧ (t.unit w.cell.uid w.u).book = f ∧ (t.unit w.cell.uid w.u).bookData.length = n
            ∧ (∀ k, k < n → (t.unit w.cell.uid w.u).bookData.getD k 0
                = BitVec.ofNat 16 (natOfBytes (s.readBasin w.cell (ea.toNat + 2 * k) 2)))
            ∧ keepsRegs s t w.cell.uid w.u [] ∧ Frame s t w.cell.uid w.u)
         ∧ (ea.toNat % 16 ≠ 0 → exec (.qcb f a) s = .next (s.all w desc (.trap ⟨tMisaligned, ea, 16⟩)))
         ∧ (ea.toNat % 16 = 0 → w.cell.basinSize < ea.toNat + 2 * n →
            exec (.qcb f a) s = .next (s.all w desc (.trap ⟨tBasin, ea, BitVec.ofNat 64 (2 * n)⟩)))))

/-- R255-R257: `rdsp` writes the value of its selector to each acting thread: the time base, the unit's and the context's run time, the
header's and the launch's numbers, the unit's place, its flags, and whether or how many cells of the launch are placed. FLAGSCLR
returns the flags of every result that landed before its issue clk and clears them and no other; no other selector changes anything else. -/
def Obligations.ReadsSpecialValues : Prop :=
  ∀ (p : BitVec 1) (sel : BitVec 6) (a d : BitVec 7) (s : State) (w : Who), sel.toNat ≤ 21 →
    let desc := rdspDesc w p sel a d
    let n := if p = 1 then 64 else w.dstWidth d
    let mine := s.cells.filter (fun x => x.launch == w.cell.launch)
    let flags := (s.unit w.cell.uid w.u).landed s.clk
    let value : Nat → W64 := fun i => match sel.toNat with
      | 0 => BitVec.ofNat 64 s.tb
      | 1 => (s.unit w.cell.uid w.u).timer
      | 2 => ((s.ctx? w.cell.ctx).map (fun x => x.cycles)).getD 0
      | 3 => BitVec.ofNat 64 w.cell.hdr.width
      | 4 => BitVec.ofNat 64 w.cell.hdr.ncrew
      | 5 => w.cell.index.setWidth 64
      | 6 => w.cell.count.setWidth 64
      | 7 => if w.u = 0 then BitVec.allOnes 64 else BitVec.ofNat 64 (w.u - 1)
      | 8 => if w.u = 0 then 4 else BitVec.ofNat 64 w.unit.role
      | 11 => (fabidOf s.pkg w.cell.dev).setWidth 64
      | 12 => match s.pkg.mode with | .one => 0 | .two => 1 | .eight => 2
      | 13 => BitVec.ofNat 64 (logicalCl s.pkg w.cell.dev w.cell.cl)
      | 14 => if w.u = 0 then BitVec.allOnes 64 else BitVec.ofNat 64 w.unit.core
      | 15 => BitVec.ofNat 64 w.unit.slot
      | 16 => w.cell.nrec.setWidth 64
      | 17 => BitVec.ofNat 64 w.cell.rank
      | 18 => BitVec.ofNat 64 (max w.cell.hdr.gang 1)
      | 19 => let k := w.src i a (match w.op a with | .v _ => 32 | _ => 64)
              if k.toNat < w.cell.count.toNat ∧ mine.any (fun x => x.index.toNat == k.toNat) = true then 1 else 0
      | 20 => BitVec.ofNat 64 mine.length
      | 21 => BitVec.ofNat 64 w.cell.basinSize
      | _ => flags.setWidth 64
    ready s w desc = true → ∃ t, exec (.rdsp p sel a d) s = .next t
      ∧ Goes s t w desc ∧ Frame s t w.cell.uid w.u ∧ keepsUnit s t w.cell.uid w.u ∧ readsCisterns s t w desc
      ∧ keepsRegs s t w.cell.uid w.u ((w.actors desc).flatMap (fun i => w.regsOf i desc.wr.toList))
      ∧ (∀ i ∈ w.actors desc, w.quiet i d n = true → t.holds w i d n (value i))
      ∧ (sel ≠ 10 → ∀ c, (t.unit w.cell.uid w.u).landed c = (s.unit w.cell.uid w.u).landed c)
      ∧ (sel = 10 → (t.unit w.cell.uid w.u).landed s.clk = 0
          ∧ ∀ q ∈ (s.unit w.cell.uid w.u).flagPend, q.1 ≠ 0 ∨ s.clk ≤ q.2.1 → q ∈ (t.unit w.cell.uid w.u).flagPend)

/-- R198, R206, R240, R241: each thread of `br` and `brz` decides by its own C, `jmp` always jumps, `jr` and `ret` go to their operand; a
target that is no word, or word 0 of a block, traps with ILLEGAL_TARGET in the threads that take it.
R198, R241: `call` writes the address of the next word in execution order to C and goes to its target; a target that breaks R198 traps
and leaves C. -/
def Obligations.Branches : Prop :=
  (∀ (o : BitVec 18) (j : BitVec 25) (c : BitVec 7) (s : State) (w : Who),
      let rel := w.pc + 4 * o.signExtend 64
      (let desc : Desc := { rds := [(c, match w.op c with | .v _ | .spec _ | .tid | .ones => 32 | _ => 64)] }
       let val := fun i => w.src i c (match w.op c with | .v _ | .spec _ | .tid | .ones => 32 | _ => 64)
       ready s w desc = true →
        exec (.br o c) s = .next (s.ends w desc (fun i => if val i ≠ 0 then toTarget rel else .done))
        ∧ exec (.brz o c) s = .next (s.ends w desc (fun i => if val i = 0 then toTarget rel else .done)))
      ∧ (let desc : Desc := {}
         ready s w desc = true → exec (.jmp j) s = .next (s.ends w desc (fun _ => toTarget (w.pc + 4 * j.signExtend 64))))
      ∧ (let desc : Desc := { rds := [(c, 64)] }
         ready s w desc = true → exec (.jr c) s = .next (s.ends w desc (fun i => toTarget (w.src i c 64)))
          ∧ exec (.ret c) s = .next (s.ends w desc (fun i => toTarget (w.src i c 64)))))
  ∧ (∀ (o : BitVec 18) (c : BitVec 7) (s : State) (w : Who),
      let rel := w.pc + 4 * o.signExtend 64
      let desc : Desc := { wr := some (c, 64), lat := 4 }
      ready s w desc = true →
      (rel.toNat % 4 = 0 ∧ rel.toNat / 4 % 8 ≠ 0 → ∃ t, exec (.call o c) s = .next t
        ∧ Completes s t w desc (fun _ => rel) (fun _ => .jump rel)
        ∧ (∀ i ∈ w.actors desc, w.quiet i c 64 = true → t.holds w i c 64 (if w.pc.toNat / 4 % 8 = 7 then w.pc + 8 else w.pc + 4))
        ∧ keepsRegs s t w.cell.uid w.u ((w.actors desc).flatMap (fun i => w.regsOf i [(c, 64)])) ∧ Frame s t w.cell.uid w.u)
      ∧ (¬(rel.toNat % 4 = 0 ∧ rel.toNat / 4 % 8 ≠ 0) → exec (.call o c) s = .next (s.all w desc (.trap ⟨tTarget, rel, 0⟩))))

/-- R21, R242, R243: `meet`, `meetr.set` and `meetr.clr` set the MR of each thread in its pass to the target, to the operand (all ones: none)
or to none, and the threads go on when the passes are over, held at once when their next word is the new MR; a target that breaks R198
traps with ILLEGAL_TARGET and MR stays. -/
def Obligations.MeetingRegisters : Prop :=
  ∀ (o : BitVec 18) (a : BitVec 7) (s : State) (w : Who),
    let rel := w.pc + 4 * o.signExtend 64
    let ok := fun (t : W64) => t.toNat % 4 = 0 ∧ t.toNat / 4 % 8 ≠ 0
    let sets := fun (d : Desc) (t : State) (m : Nat → Option W64) => keepsAllRegs s t w.cell.uid w.u ∧ Frame s t w.cell.uid w.u
      ∧ (∀ i, i ∉ w.tids → t.thread w.cell.uid w.u i = s.thread w.cell.uid w.u i)
      ∧ (∀ i ∈ w.firstPass d, (t.thread w.cell.uid w.u i).mr = m i)
      ∧ (w.oneClk d = true → ∀ i ∈ w.tids, i ∈ w.firstPass d ∧ (t.thread w.cell.uid w.u i).pc = nextPc w.pc
          ∧ (t.thread w.cell.uid w.u i).st = (if m i = some (nextPc w.pc) then .held else .eligible))
      ∧ (w.oneClk d = false → w.portRec s.issue.port d (fun _ => .done) ∈ t.clu.ports
          ∧ ∀ i ∈ w.tids, (i ∉ w.firstPass d → t.thread w.cell.uid w.u i = s.thread w.cell.uid w.u i)
            ∧ (t.thread w.cell.uid w.u i).pc = (s.thread w.cell.uid w.u i).pc ∧ (t.thread w.cell.uid w.u i).st = (s.thread w.cell.uid w.u i).st)
    (let desc : Desc := { side := .crew }
     ready s w desc = true →
      (ok rel → ∃ t, exec (.meet o) s = .next t ∧ sets desc t (fun _ => some rel))
      ∧ (¬ok rel → exec (.meet o) s = .next (s.all w desc (.trap ⟨tTarget, rel, 0⟩)))
      ∧ (∃ t, exec .meetrClr s = .next t ∧ sets desc t (fun _ => none)))
    ∧ (let desc : Desc := { side := .crew, rds := [(a, 64)] }
       ready s w desc = true →
        ((∀ i ∈ w.tids, w.src i a 64 = BitVec.allOnes 64 ∨ ok (w.src i a 64)) → ∃ t, exec (.meetrSet a) s = .next t ∧ readsCisterns s t w desc
            ∧ sets desc t (fun i => if w.src i a 64 = BitVec.allOnes 64 then none else some (w.src i a 64)))
        ∧ ((∀ i ∈ w.tids, w.src i a 64 ≠ BitVec.allOnes 64 ∧ ¬ok (w.src i a 64)) →
          exec (.meetrSet a) s = .next (s.ends w desc (fun i => .trap ⟨tTarget, w.src i a 64, 0⟩))))
    ∧ decodeWord (o ++ (0 : BitVec 7) ++ (0x65 : BitVec 7)) = .ok (.meet o)
    ∧ (s.who = some w → w.u = 0 → exec (.meet o) s = .next (s.park w.cell.uid w.u w.tids ⟨tIllegal, 0, w.word.setWidth 64⟩ w.pc))

/-- R252-R254: `nop` has no effect; `yield` goes on when no pre-emption request is pending for its cell and else blocks (wait kind 11);
`brk` traps with BREAKPOINT and `trap` with USER_TRAP carrying each thread's a, one record for those that trap together.
R128, R252: `exit` moves every thread of the issue to exited; a load outstanding for one writes no register; the cell's open and frozen
subscriptions are closed with its last thread.
R160, R250: `bar` arrives at its barrier when the cell-scope release of its threads is complete, and each blocks there (wait kind 1); until
then its bundle is not ready, and the first try begins the release. It changes no register and no memory. That the wait for the release
is an interlock, before the arrival, is the model's choice (log entry 30). -/
def Obligations.ThreadControl : Prop :=
  (∀ (a : BitVec 7) (s : State) (w : Who),
      (let desc : Desc := {}
       ready s w desc = true → exec .nop s = .next (s.all w desc .done)
        ∧ (s.cellRequested w.cell = false → exec .yield s = .next (s.all w desc .done))
        ∧ (s.cellRequested w.cell = true → exec .yield s = .next (s.all w desc (.block 11 0)))
        ∧ exec .brk s = .next (s.all w desc (.trap ⟨tBreak, 0, 0⟩)))
      ∧ (let desc : Desc := { rds := [(a, 64)] }
         ready s w desc = true → exec (.trap a) s = .next (s.ends w desc (fun i => .trap ⟨tUser, 0, w.src i a 64⟩))))
  ∧ (∀ (s : State) (w : Who),
      let desc : Desc := { settles := true }
      let gone := (s.all w desc .exit).dropExited w.cell.uid
      ready s w desc = true → ∃ t, exec .exit s = .next t
        ∧ (w.oneClk desc = true → ∀ i ∈ w.tids, (t.thread w.cell.uid w.u i).st = .exited)
        ∧ (∀ i, i ∉ w.tids → t.thread w.cell.uid w.u i = s.thread w.cell.uid w.u i) ∧ keepsAllRegs s t w.cell.uid w.u
        ∧ (∀ k, k ≠ w.cell.uid → t.cell? k = s.cell? k) ∧ t.home.mem = s.home.mem
        ∧ (∀ l ∈ t.clu.loads, l.cell = w.cell.uid → l.unit = w.u → l.scal = false →
            (t.thread w.cell.uid w.u l.tid).st = .exited → l.dst = .none)
        ∧ ((gone.cell? w.cell.uid).all (fun c => c.units.any (fun u => u.threads.any (fun x => x.st != .exited))) = true → t = gone)
        ∧ (∀ c, gone.cell? w.cell.uid = some c → c.units.all (fun u => u.threads.all (fun x => x.st == .exited)) = true →
            ∀ x ∈ c.subs, x.st = .open ∨ x.st = .frozen →
              ∃ m ∈ t.home.msgs, m.cell = w.cell.uid ∧ m.slot = x.slot ∧ m.kind = .closeReq))
  ∧ (∀ (i : BitVec 4) (s : State) (w : Who),
      let desc : Desc := { bad := w.spine && decide (i.toNat < 8), settles := true, wait := !s.relsDone w 1 3 }
      (ready s w desc = true →
        ∃ u : State, exec (.bar i) s = .next (u.all w desc (.block 1 (i.setWidth 64))) ∧ u.home = s.home ∧ u.clu = s.clu
          ∧ (∀ v, u.unit w.cell.uid v = s.unit w.cell.uid v) ∧ (∀ k, k ≠ w.cell.uid → u.cell? k = s.cell? k)
          ∧ ∀ c, s.cell? w.cell.uid = some c → i.toNat < c.bars.length → ∃ d, u.cell? w.cell.uid = some d
            ∧ (d.bar i.toNat).arrived = (c.bar i.toNat).arrived ++ (w.firstPass desc).map (fun k => (w.u, k))
            ∧ (d.bar i.toNat).instances = (c.bar i.toNat).instances)
      ∧ (tested s w desc = true → s.relsDone w 1 3 = false → w.wake = false →
          exec (.bar i) s = .next ((s.relStart 1 3 w).stallAll w)))

/-- R21, R23, R250, R251: threads held at one meeting point that all live threads with that MR have reached are released with MR none; a barrier
that every live participant has reached releases those that arrived, at their next words, and ends its instance; the eligible threads of a
crew with equal PC share a bundle after a regrouping, which moves no thread. -/
def Obligations.ReleasesAndBundles : Prop :=
  (∀ (s : State) (cell u : Nat) (m : BitVec 64) (c : Cell), s.cell? cell = some c → u ≠ 0 → u < c.units.length → c.evicted = false →
    c.evicting = false → (c.unit u).meets m = true → ∃ t, exec (.meetRelease cell u m) s = .next t
      ∧ ∀ i, i < (c.unit u).threads.length → (t.thread cell u i).pc = (s.thread cell u i).pc
        ∧ ((s.thread cell u i).st = .held → (s.thread cell u i).mr = some m →
            (t.thread cell u i).st = .eligible ∧ (t.thread cell u i).mr = none)
        ∧ ((s.thread cell u i).st ≠ .held ∨ (s.thread cell u i).mr ≠ some m → t.thread cell u i = s.thread cell u i))
  ∧ (∀ (s : State) (cell id : Nat) (c : Cell), s.cell? cell = some c → c.evicted = false → c.evicting = false → c.barDone id = true →
    id < c.bars.length →
    ∃ t d, exec (.barrierRelease cell id) s = .next t ∧ t.cell? cell = some d ∧ (d.bar id).instances = (c.bar id).instances + 1
      ∧ (d.bar id).arrived = []
      ∧ ∀ u i, (u, i) ∈ (c.bar id).arrived → u < c.units.length → i < (c.unit u).threads.length → ((c.unit u).thread i).st = .blocked →
          (t.thread cell u i).pc = nextPc ((c.unit u).thread i).pc)
  ∧ (∀ (s : State) (cl core : Nat), s.clk % 4 = 0 → ∃ t, exec (.bundleRegroup cl core) s = .next t
      ∧ ∀ c ∈ s.cells, c.cl = cl → c.evicted = false → ∀ u, u ≠ 0 → u < c.units.length → (c.unit u).core = core →
        ∃ d ∈ t.cells, d.uid = c.uid ∧ ∀ i j, i < (c.unit u).threads.length → j < (c.unit u).threads.length →
          ((c.unit u).thread i).st = .eligible → ((c.unit u).thread j).st = .eligible →
          s.inPass c.uid u i = false → s.inPass c.uid u j = false →
          ((d.unit u).thread i).pc = ((c.unit u).thread i).pc ∧ ((d.unit u).thread i).st = .eligible
          ∧ (((c.unit u).thread i).pc = ((c.unit u).thread j).pc → ((d.unit u).thread i).bun = ((d.unit u).thread j).bun ∧ ((d.unit u).thread i).bun ≠ 0))

/-! ## Basin storage -/

/-- R95, R109, R280, R284: basin loads go on; each acting thread's destination takes the bytes at its address, sign- or zero-extended, when no
access of the unit is under way before it; they change no memory and no other register.
R89, R95, R282: a misaligned access traps with MISALIGNED and the access size, and one outside the allocation with BASIN_RANGE, each with the
thread's address, before any effect: for plain basin loads and stores whose threads all meet it.
R281, R282: of a bundle's threads, each in ascending tid, one whose address is refused traps without effect and the others take their
bytes from the state that those before them left. -/
def Obligations.BasinLoads : Prop :=
  (∀ (f : BitVec 3) (im b a d : BitVec 7) (s : State) (w : Who) (i : Instr) (desc : Desc) (ea : Nat → W64),
      let n := loadSize f
      (i = .ld 1 f b a d ∧ desc = loadDesc s w n a (some b) d true false ea ∧ ea = fun t => w.src t a 64 + w.offset t b)
        ∨ (i = .ldi 1 f im a d ∧ desc = loadDesc s w n a none d true false ea
            ∧ ea = fun t => w.src t a 64 + im.signExtend 64 * BitVec.ofNat 64 n) →
      ready s w desc = true →
      ((∀ t ∈ w.actors desc, w.inBasin (ea t) n = true) →
        ∃ t, exec i s = .next t ∧ Goes s t w desc ∧ MemFrame s t w.cell.uid w.u ∧ t.home = s.home
          ∧ (s.unitIdle w = true → ∀ k ∈ w.actors desc, w.clear k d n = true →
              t.loaded w k d n (f == 1 || f == 3) (s.readBasin w.cell (ea k).toNat n))
          ∧ keepsRegs s t w.cell.uid w.u ((w.actors desc).flatMap (fun k => w.loadRegs k d n)))
      ∧ (∃ o u, exec i s = .next ((u.ends w desc o).settleBatches w.cell.uid w.u) ∧ Acts s w desc o u (fun k x r y =>
          ((ea k).toNat % n ≠ 0 → r = .trap ⟨tMisaligned, ea k, BitVec.ofNat 64 n⟩ ∧ y = x)
          ∧ ((ea k).toNat % n = 0 → w.inBasin (ea k) n = false → r = .trap ⟨tBasin, ea k, BitVec.ofNat 64 n⟩ ∧ y = x)
          ∧ (w.inBasin (ea k) n = true → r = .done ∧ y.home = x.home ∧ keepsRegs x y w.cell.uid w.u (w.loadRegs k d n)
            ∧ (x.threadIdle w k (w.u != 0 && w.kDst desc) = true → w.clear k d n = true →
                y.loaded w k d n (f == 1 || f == 3) (x.readBasin w.cell (ea k).toNat n)))))
      ∧ (let traps := fun (c : BitVec 8) => (s.ends w desc (fun t => .trap
            ⟨c, ea (if w.single desc then w.lead else t), BitVec.ofNat 64 n⟩)).settleBatches w.cell.uid w.u
         ((∀ t ∈ w.tids, (ea t).toNat % n ≠ 0) → exec i s = .next (traps tMisaligned))
         ∧ ((∀ t ∈ w.tids, (ea t).toNat % n = 0 ∧ w.cell.basinSize < (ea t).toNat + n) → exec i s = .next (traps tBasin))))
  ∧ (∀ (f : BitVec 3) (im b a d : BitVec 7) (s : State) (w : Who) (i : Instr) (desc : Desc) (ea : Nat → W64),
      let n := storeBytes f
      (i = .st 1 f b a d ∧ desc = storeDesc w n a (some b) d true false ea ∧ ea = fun t => w.src t a 64 + w.offset t b)
        ∨ (i = .sti 1 f im a d ∧ desc = storeDesc w n a none d true false ea
            ∧ ea = fun t => w.src t a 64 + im.signExtend 64 * BitVec.ofNat 64 n) →
      wellFormed i = true → ready s w desc = true →
      let traps := fun (c : BitVec 8) => s.ends w desc (fun t => .trap ⟨c, ea (if w.single desc then w.lead else t), BitVec.ofNat 64 n⟩)
      ((∀ t ∈ w.tids, (ea t).toNat % n ≠ 0) → exec i s = .next (traps tMisaligned))
      ∧ ((∀ t ∈ w.tids, (ea t).toNat % n = 0 ∧ w.cell.basinSize < (ea t).toNat + n) → exec i s = .next (traps tBasin)))

/-- R95, R285, R294: basin stores and `stf` go on and change no register; when no access of the unit is under way before them they write
each acting thread's bytes at its address, in ascending tid, and nothing else of memory, and `stf` also sets the full bit of its granule.
R150, R153: a store of one acting thread that has to wait for an earlier access or release of its thread changes no memory yet, and stands
on the store path with its address and bytes.
R281, R282: of a bundle's threads, each in ascending tid, one whose address is refused traps without effect, and the others write their
bytes, or leave them on the store path. -/
def Obligations.BasinStores : Prop :=
  ∀ (f : BitVec 3) (z : BitVec 2) (im b a d : BitVec 7) (s : State) (w : Who) (i : Instr) (desc : Desc) (n : Nat) (ea : Nat → W64)
    (kind : StoreKind),
    (i = .st 1 f b a d ∧ n = storeBytes f ∧ desc = storeDesc w n a (some b) d true false ea ∧ ea = (fun t => w.src t a 64 + w.offset t b)
        ∧ kind = .plain)
      ∨ (i = .sti 1 f im a d ∧ n = storeBytes f ∧ desc = storeDesc w n a none d true false ea
          ∧ ea = (fun t => w.src t a 64 + im.signExtend 64 * BitVec.ofNat 64 n) ∧ kind = .plain)
      ∨ (i = .stf z b a d ∧ n = feSize z ∧ desc = storeDesc w n a (some b) d true true ea ∧ ea = (fun t => w.src t a 64 + w.offset t b)
          ∧ kind = .full) →
    wellFormed i = true → ready s w desc = true →
    (∃ o u, exec i s = .next (u.ends w desc o) ∧ Acts s w desc o u (fun k x r y =>
      ((ea k).toNat % n ≠ 0 → r = .trap ⟨tMisaligned, ea k, BitVec.ofNat 64 n⟩ ∧ y = x)
      ∧ ((ea k).toNat % n = 0 → w.inBasin (ea k) n = false → r = .trap ⟨tBasin, ea k, BitVec.ofNat 64 n⟩ ∧ y = x)
      ∧ (w.inBasin (ea k) n = true → r = .done ∧ y.cells = x.cells
        ∧ (x.basinWaits w k (desc.scalar && !w.spine) kind (ea k) (w.data k d n) = false →
            y.home.mem = writeBytes x.home.mem (keyBasin w.cell.cl (w.cell.basinOff + (ea k).toNat)) (w.data k d n)
            ∧ (kind = .full → y.fe w.cell (ea k).toNat = true))
        ∧ (x.basinWaits w k (desc.scalar && !w.spine) kind (ea k) (w.data k d n) = true → y.home = x.home
            ∧ ∃ e ∈ y.clu.stores, e.kind = kind ∧ e.ph = .held ∧ e.cell = w.cell.uid ∧ e.unit = w.u ∧ e.tid = k
              ∧ e.key = keyBasin w.cell.cl (w.cell.basinOff + (ea k).toNat) ∧ e.bytes = w.data k d n))))
    ∧ ((∀ t ∈ w.actors desc, w.inBasin (ea t) n = true) →
    ∃ t, exec i s = .next t ∧ Goes s t w desc ∧ MemFrame s t w.cell.uid w.u ∧ keepsAllRegs s t w.cell.uid w.u
      ∧ (s.unitIdle w = true → t.home.mem = w.basinMem ea (fun k => w.data k d n) s.home.mem (w.actors desc)
          ∧ (kind = .full → ∀ k ∈ w.actors desc, t.fe w.cell (ea k).toNat = true) ∧ (kind = .plain → t.home.fe = s.home.fe))
      ∧ keepsMem s t ((w.actors desc).map (fun k => (keyBasin w.cell.cl (w.cell.basinOff + (ea k).toNat), n)))
      ∧ (∀ k, w.actors desc = [k] → s.basinWaits w k (desc.scalar && !w.spine) kind (ea k) (w.data k d n) = true →
          t.home = s.home ∧ ∃ e ∈ t.clu.stores, e.kind = kind ∧ e.ph = .held ∧ e.cell = w.cell.uid ∧ e.unit = w.u ∧ e.tid = k
            ∧ e.key = keyBasin w.cell.cl (w.cell.basinOff + (ea k).toNat) ∧ e.bytes = w.data k d n))

/-- R108, R287-R289: a basin atomic of one acting thread goes on; when no access of its unit is under way before it, it leaves its
operation's word at the address and returns the old word; it changes nothing else of memory and no other register. R150, R153: one that
has to wait stands on the store path with its operands, and its load entry takes the old word later.
R281, R282: of several acting threads, each in ascending tid, one whose address is refused traps without effect, and the others leave
their operation's words in memory, or their operations on the store path.
R288: the word each operation leaves: sums wrap, minima and maxima by sign or magnitude, the bitwise ones, exchange, compare-and-swap writing
only on equality, and the wrapping increment that returns to 0 at its limit. -/
def Obligations.BasinAtomics : Prop :=
  (∀ (f : BitVec 4) (b a d : BitVec 7) (s : State) (w : Who),
      let n := if f = 1 ∨ f = 10 ∨ f = 12 then 8 else 4
      let desc := atomDesc s w f a b d true
      let ea := fun k => w.src k a 64
      let vb := fun k => w.src k b (8 * n)
      let vd := fun k => w.src k d (8 * n)
      ready s w desc = true →
      ∃ o u, exec (.atomb f b a d) s = .next ((u.ends w desc o).settleBatches w.cell.uid w.u) ∧ Acts s w desc o u (fun k x r y =>
        ((ea k).toNat % n ≠ 0 → r = .trap ⟨tMisaligned, ea k, BitVec.ofNat 64 n⟩ ∧ y = x)
        ∧ ((ea k).toNat % n = 0 → w.inBasin (ea k) n = false → r = .trap ⟨tBasin, ea k, BitVec.ofNat 64 n⟩ ∧ y = x)
        ∧ (w.inBasin (ea k) n = true → r = .done ∧ keepsRegs x y w.cell.uid w.u (w.loadRegs k d n)
          ∧ (x.basinWaits w k (w.u != 0 && w.kDst desc) (.atomic f (vb k) (vd k) none) (ea k) (List.replicate n 0) = true → y.home = x.home)
          ∧ (x.basinWaits w k (w.u != 0 && w.kDst desc) (.atomic f (vb k) (vd k) none) (ea k) (List.replicate n 0) = false →
              let old := x.readBasin w.cell (ea k).toNat n
              (x.threadIdle w k (w.u != 0 && w.kDst desc) = true → w.clear k d n = true → y.loaded w k d n (f == 2 || f == 3) old)
              ∧ y.home.mem = (match atomNew f (BitVec.ofNat 64 (natOfBytes old)) (vb k) (vd k) with
                | some z => writeBytes x.home.mem (keyBasin w.cell.cl (w.cell.basinOff + (ea k).toNat)) (bytesOfNat n z.toNat)
                | none => x.home.mem)))))
  ∧ (∀ (f : BitVec 4) (b a d : BitVec 7) (s : State) (w : Who) (k : Nat),
      let n := if f = 1 ∨ f = 10 ∨ f = 12 then 8 else 4
      let desc := atomDesc s w f a b d true
      let ea := w.src k a 64
      let old := s.readBasin w.cell ea.toNat n
      let vb := w.src k b (8 * n)
      let vd := w.src k d (8 * n)
      ready s w desc = true → w.actors desc = [k] → w.inBasin ea n = true →
      ∃ t, exec (.atomb f b a d) s = .next t ∧ Goes s t w desc ∧ MemFrame s t w.cell.uid w.u
        ∧ keepsRegs s t w.cell.uid w.u (w.loadRegs k d n)
        ∧ keepsMem s t [(keyBasin w.cell.cl (w.cell.basinOff + ea.toNat), n)]
        ∧ (s.unitIdle w = true → (w.clear k d n = true → t.loaded w k d n (f == 2 || f == 3) old)
          ∧ t.home.mem = (match atomNew f (BitVec.ofNat 64 (natOfBytes old)) vb vd with
            | some x => writeBytes s.home.mem (keyBasin w.cell.cl (w.cell.basinOff + ea.toNat)) (bytesOfNat n x.toNat)
            | none => s.home.mem))
        ∧ (s.basinWaits w k (w.u != 0 && w.kDst desc) (.atomic f vb vd none) ea (List.replicate n 0) = true →
            t.home = s.home ∧ ∃ e ∈ t.clu.stores, ∃ ld, e.kind = .atomic f vb vd ld ∧ e.ph = .held ∧ e.cell = w.cell.uid ∧ e.unit = w.u
              ∧ e.tid = k ∧ e.key = keyBasin w.cell.cl (w.cell.basinOff + ea.toNat) ∧ e.bytes.length = n
              ∧ (w.loadDst d n ≠ .none → ∃ l ∈ t.clu.loads, ld = some l.num ∧ l.done = false ∧ l.dst = w.loadDst d n ∧ l.tid = k)))
  ∧ (∀ o b d : W64,
      let o32 := o.toNat % 2 ^ 32
      let b32 := b.toNat % 2 ^ 32
      let n := fun (x : Nat) => some (BitVec.ofNat 64 x)
      atomNew 0 o b d = n ((o32 + b32) % 2 ^ 32) ∧ atomNew 1 o b d = some (o + b)
      ∧ atomNew 2 o b d = n (if sg 32 b < sg 32 o then b32 else o32) ∧ atomNew 3 o b d = n (if sg 32 o < sg 32 b then b32 else o32)
      ∧ atomNew 4 o b d = n (min o32 b32) ∧ atomNew 5 o b d = n (max o32 b32)
      ∧ atomNew 6 o b d = n (o32 &&& b32) ∧ atomNew 7 o b d = n (o32 ||| b32) ∧ atomNew 8 o b d = n (o32 ^^^ b32)
      ∧ atomNew 9 o b d = n b32 ∧ atomNew 10 o b d = some b
      ∧ atomNew 11 o b d = (if o32 = d.toNat % 2 ^ 32 then n b32 else none) ∧ atomNew 12 o b d = (if o = d then some b else none)
      ∧ atomNew 15 o b d = n (if b32 ≤ o32 then 0 else o32 + 1))

/-- R99-R101, R293: `ldf` of one acting thread takes the bytes of a full granule into its destination and, when asked, clears the bit; on an empty granule it
blocks (wait kind 5) and changes nothing; on an empty granule of a failed slot it traps.
R281, R282: of several acting threads, each in ascending tid, one whose address is refused traps, one that finds its granule full takes
its bytes and clears the bit when asked, and one that finds it empty blocks or traps as above.
R99, R295: `fe.set` and `fe.clr` go on, and set or clear no full bit but those of their threads' granules: of one acting thread whose core changes
no others, the first 16 in the clk of the issue, and 16 more in each later one until the last; `fe.query` reads up to 32 or 64 bits into its
destination; none of the three changes a byte of memory. -/
def Obligations.FullEmpty : Prop :=
  (∀ (z : BitVec 2) (c : BitVec 1) (b a d : BitVec 7) (s : State) (w : Who),
      let n := feSize z
      let ea := fun t => w.src t a 64 + w.offset t b
      let desc := { loadDesc s w n a (some b) d true true ea with wait := w.tids.any (fun t => s.basinBehind w t (ea t) n) }
      wellFormed (.ldf z c b a d) = true → ready s w desc = true →
      ∃ o u, exec (.ldf z c b a d) s = .next (u.ends w desc o) ∧ Acts s w desc o u (fun k x r y =>
        ((ea k).toNat % n ≠ 0 → r = .trap ⟨tMisaligned, ea k, BitVec.ofNat 64 n⟩ ∧ y = x)
        ∧ ((ea k).toNat % n = 0 → w.inBasin (ea k) n = false → r = .trap ⟨tBasin, ea k, BitVec.ofNat 64 n⟩ ∧ y = x)
        ∧ (w.inBasin (ea k) n = true →
          (x.fe w.cell (ea k).toNat = true → r = .done ∧ y.home.mem = x.home.mem ∧ y.fe w.cell (ea k).toNat = (c == 0)
            ∧ keepsRegs x y w.cell.uid w.u (w.loadRegs k d n)
            ∧ (w.clear k d n = true → y.loaded w k d n false (x.readBasin w.cell (ea k).toNat n)))
          ∧ (x.fe w.cell (ea k).toNat = false → w.cell.failedSlot (ea k).toNat = none → r = .block 5 (ea k) ∧ y = x)
          ∧ (∀ z, x.fe w.cell (ea k).toNat = false → w.cell.failedSlot (ea k).toNat = some z → y = x
            ∧ r = .trap (if z.poison then ⟨tPoison, (z.va >>> 7) <<< 7, w.pc⟩ else ⟨tStand, z.slot.setWidth 64, 0⟩)))))
  ∧ (∀ (z : BitVec 2) (c : BitVec 1) (b a d : BitVec 7) (s : State) (w : Who) (k : Nat),
      let n := feSize z
      let eas := fun t => w.src t a 64 + w.offset t b
      let desc := { loadDesc s w n a (some b) d true true eas with wait := w.tids.any (fun t => s.basinBehind w t (eas t) n) }
      let ea := eas k
      wellFormed (.ldf z c b a d) = true → ready s w desc = true → w.actors desc = [k] → w.inBasin ea n = true →
      (s.fe w.cell ea.toNat = true → ∃ t, exec (.ldf z c b a d) s = .next t ∧ Goes s t w desc ∧ MemFrame s t w.cell.uid w.u
        ∧ (w.clear k d n = true → t.loaded w k d n false (s.readBasin w.cell ea.toNat n)) ∧ keepsRegs s t w.cell.uid w.u (w.loadRegs k d n)
        ∧ t.home.mem = s.home.mem ∧ t.fe w.cell ea.toNat = (c == 0))
      ∧ (s.fe w.cell ea.toNat = false → w.cell.failedSlot ea.toNat = none →
          exec (.ldf z c b a d) s = .next (s.all w desc (.block 5 ea)))
      ∧ (∀ x, s.fe w.cell ea.toNat = false → w.cell.failedSlot ea.toNat = some x →
          exec (.ldf z c b a d) s = .next (s.all w desc (.trap
            (if x.poison then ⟨tPoison, (x.va >>> 7) <<< 7, w.pc⟩ else ⟨tStand, x.slot.setWidth 64, 0⟩)))))
  ∧ (∀ (b a d : BitVec 7) (s : State) (w : Who),
      let ea := fun k => w.src k a 64
      let c := fun k => (w.src k b 32).toNat
      let inside := fun (k m : Nat) => (ea k).toNat % 16 = 0 ∧ (ea k).msb = false ∧ (ea k).toNat + 16 * m ≤ w.cell.basinSize
      let gran := fun (k j : Nat) => feKey w.cell.cl (w.cell.basinOff + ((ea k).toNat + 16 * j))
      (let desc : Desc := { rds := [(a, 64), (b, 32)], bad := !w.baseOk a, basin := true }
       let ends := fun (t : State) (x : BitVec 1) => Goes s t w desc ∧ MemFrame s t w.cell.uid w.u ∧ keepsAllRegs s t w.cell.uid w.u
          ∧ t.home.mem = s.home.mem
          ∧ (∀ g, (∀ k ∈ w.actors desc, ∀ j, j < c k → g ≠ gran k j) → sget t.home.fe g = sget s.home.fe g)
          ∧ (∀ k, w.actors desc = [k] → s.clu.feOps.all (fun o => s.feCore o != some (w.cell.cl, coreNo w.u w.unit)) = true →
              (∀ j, j < min 16 (c k) → sget t.home.fe (gran k j) = x)
              ∧ (16 < c k → ∃ o ∈ t.clu.feOps, o.cell = w.cell.uid ∧ o.unit = w.u ∧ o.tid = k ∧ o.addr = (ea k).toNat + 256
                  ∧ o.left = c k - 16 ∧ o.v = (x == 1)))
       ready s w desc = true → (∀ k ∈ w.actors desc, inside k (c k)) →
        (∃ t, exec (.feSet b a) s = .next t ∧ ends t 1) ∧ (∃ t, exec (.feClr b a) s = .next t ∧ ends t 0))
      ∧ (let desc : Desc := { rds := [(a, 64), (b, 32)], wr := some (d, w.dstWidth d), bad := !w.baseOk a || !w.dataOk d, basin := true }
         let m := fun k => min (c k) (w.dstWidth d)
         ready s w desc = true → (∀ k ∈ w.actors desc, inside k (m k)) →
          ∃ t, exec (.feQuery b a d) s = .next t ∧ Goes s t w desc ∧ MemFrame s t w.cell.uid w.u ∧ t.home = s.home
            ∧ keepsRegs s t w.cell.uid w.u ((w.actors desc).flatMap (fun k => w.loadRegs k d 4))
            ∧ ∀ k ∈ w.actors desc, ∃ x : W64, (∀ j, x.getLsbD j = (decide (j < m k) && s.fe w.cell ((ea k).toNat + 16 * j)))
              ∧ (w.clear k d 4 = true → t.loaded w k d 4 false (bytesOfNat (w.dstBytes d 4) x.toNat))))
  ∧ (∀ (s : State) (o : FeOp) (c : Cell), s.cell? o.cell = some c → o ∈ s.clu.feOps →
      let t := s.feStep o
      t.home.mem = s.home.mem ∧ (∀ j, j < min 16 o.left → sget t.home.fe (feKey c.cl (c.basinOff + (o.addr + 16 * j))) = if o.v then 1 else 0)
        ∧ (∀ g, (∀ j, j < min 16 o.left → g ≠ feKey c.cl (c.basinOff + (o.addr + 16 * j))) → sget t.home.fe g = sget s.home.fe g)
        ∧ (16 < o.left → { o with addr := o.addr + 256, left := o.left - 16 } ∈ t.clu.feOps)
        ∧ (o.left ≤ 16 → ∀ x ∈ t.clu.feOps, x.num ≠ o.num))

/-! ## Global storage -/

/-- R103, R109, R283, R284, R286: a global load or acquire load of one acting thread that is accepted goes on: it takes a hit's bytes into its destination,
when no access of its unit is under way before it, or enters the open batch with its key, size and destination and leaves every register until its
value comes; one that performs no read changes no register, and leaves a pending POISON when its line is poisoned; one that is not accepted traps with the
code of its translation or its tile, or waits for the host (wait kind 16), or for its tile's build (wait kind 8), which it begins when its thread's
stores are performed; bytes of a BUILDING tile that its L1 holds dirty hit there (R103).
That a hit of a leased line gives its bytes although the line at the home has been poisoned is the model's choice (log entry 44).
R281, R282: of several acting threads, each in ascending tid, every one comes to its own end: one whose access is refused traps, or blocks, and the
others' loads go on. -/
def Obligations.GlobalLoads : Prop :=
  ∀ (f : BitVec 3) (z : BitVec 1) (c : BitVec 3) (im b a d : BitVec 7) (s : State) (w : Who) (i : Instr) (n : Nat) (sgn acq : Bool) (desc : Desc) (ea : Nat → W64) (k : Nat),
    (i = .ld 0 f b a d ∧ n = loadSize f ∧ sgn = (f == 1 || f == 3) ∧ acq = false ∧ desc = loadDesc s w n a (some b) d false false ea
        ∧ ea = fun t => w.src t a 64 + w.offset t b)
      ∨ (i = .ldi 0 f im a d ∧ n = loadSize f ∧ sgn = (f == 1 || f == 3) ∧ acq = false ∧ desc = loadDesc s w n a none d false false ea
          ∧ ea = fun t => w.src t a 64 + im.signExtend 64 * BitVec.ofNat 64 n)
      ∨ (i = .lda z c b a d ∧ n = (if z = 1 then 8 else 4) ∧ sgn = false ∧ acq = true ∧ desc = loadDesc s w n a (some b) d false true ea
          ∧ ea = fun t => w.src t a 64 + w.offset t b) →
    ready s w desc = true →
    (∃ o v, exec i s = .next ((v.ends w desc o).settleBatches w.cell.uid w.u) ∧ Acts s w desc o v (fun k x r y =>
      let l1 := l1Of x.pkg w.cell w.unit.core w.spine (ea k)
      let acc := x.accept w k (ea k) .load
      ((ea k).toNat % n ≠ 0 → r = .trap ⟨tMisaligned, ea k, BitVec.ofNat 64 n⟩ ∧ y = x)
      ∧ ((ea k).toNat % n = 0 →
        (∀ g u, acc = (.ok g, u) → r = .done ∧ y.home = u.home ∧ keepsRegs u y w.cell.uid w.u (w.loadRegs k d n)
          ∧ (w.loadDst d n ≠ .none →
            (∀ bs, u.l1Read w.cell.cl l1 g.key n g.kid = some bs → u.threadIdle w k (w.u != 0 && w.kDst desc) = true → w.clear k d n = true →
              y.loaded w k d n sgn bs)
            ∧ (u.l1Read w.cell.cl l1 g.key n g.kid = none → keepsRegs u y w.cell.uid w.u [] ∧ ∃ l ∈ y.clu.loads, l.cell = w.cell.uid
                ∧ l.unit = w.u ∧ l.tid = k ∧ l.key = g.key ∧ l.kid = g.kid ∧ l.n = n ∧ l.sgn = sgn ∧ l.va = ea k ∧ l.dst = w.loadDst d n
                ∧ l.acq = acq ∧ l.far = g.far ∧ l.isAtom = false ∧ l.done = false)))
        ∧ (∀ z u, acc = (.trap z, u) → r = .trap z ∧ y = u)
        ∧ (∀ u, acc = (.host, u) → r = .block 16 (ea k) ∧ y = u)
        ∧ (∀ u, acc = (.wait, u) → r = .block 8 (ea k) ∨ (r = .done ∧ x.buildingAt w.cell.ctx (ea k) = true)))))
    ∧ (w.actors desc = [k] → (ea k).toNat % n = 0 →
    let l1 := l1Of s.pkg w.cell w.unit.core w.spine (ea k)
    let own := keyRec w.cell.ctx (ea k).toNat
    let acc := s.accept w k (ea k) .load
    let dirty := s.buildingAt w.cell.ctx (ea k) = true ∧ ∀ j, j < n → s.masked w.cell.cl l1 0 (own + j) = true
    (∀ g u, acc = (.ok g, u) → w.loadDst d n ≠ .none →
      let hit := u.l1Read w.cell.cl l1 g.key n g.kid
      ∃ t, exec i s = .next t ∧ Goes s t w desc ∧ MemFrame s t w.cell.uid w.u ∧ t.home = u.home ∧ keepsRegs s t w.cell.uid w.u (w.loadRegs k d n)
        ∧ (∀ bs, hit = some bs → u.unitIdle w = true → w.clear k d n = true → t.loaded w k d n sgn bs)
        ∧ (hit = none → keepsRegs s t w.cell.uid w.u [] ∧ ∃ l ∈ t.clu.loads, l.cell = w.cell.uid ∧ l.unit = w.u ∧ l.tid = k ∧ l.key = g.key ∧ l.kid = g.kid
            ∧ l.n = n ∧ l.sgn = sgn ∧ l.va = ea k ∧ l.dst = w.loadDst d n ∧ l.acq = acq ∧ l.far = g.far ∧ l.isAtom = false ∧ l.done = false))
    ∧ (∀ g u, acc = (.ok g, u) → w.loadDst d n = .none →
      ∃ t, exec i s = .next t ∧ t.home = u.home ∧ keepsRegs s t w.cell.uid w.u [] ∧ MemFrame s t w.cell.uid w.u
        ∧ ((u.line (g.key / 128)).poison = false → Goes s t w desc)
        ∧ ((u.line (g.key / 128)).poison = true → (t.thread w.cell.uid w.u k).ppois.isSome = true
            ∧ (w.oneClk desc = true → (t.thread w.cell.uid w.u k).pc = nextPc w.pc)))
    ∧ (∀ x u, acc = (.trap x, u) → exec i s = .next ((u.all w desc (.trap x)).settleBatches w.cell.uid w.u))
    ∧ (∀ u, acc = (.host, u) → exec i s = .next ((u.all w desc (.block 16 (ea k))).settleBatches w.cell.uid w.u))
    ∧ (∀ u, acc = (.wait, u) → ¬dirty →
        (u.buildingAt w.cell.ctx (ea k) = true → exec i s = .next ((u.all w desc (.block 8 (ea k))).settleBatches w.cell.uid w.u))
        ∧ (u.buildingAt w.cell.ctx (ea k) = false → u.behindMarker w.cell.uid w.u k u.fresh = false →
          exec i s = .next (((u.beginRelease w k 2 2).all w desc (.block 8 (ea k))).settleBatches w.cell.uid w.u)))
    ∧ (∀ u bs, acc = (.wait, u) → dirty → u.l1Read w.cell.cl l1 own n 0 = some bs → w.loadDst d n ≠ .none →
        ∃ t, exec i s = .next t ∧ Goes s t w desc ∧ t.home = u.home ∧ keepsRegs s t w.cell.uid w.u (w.loadRegs k d n)
          ∧ (u.unitIdle w = true → w.clear k d n = true → t.loaded w k d n sgn bs)))

/-- R105, R106, R150, R285, R286: a global store of one acting thread that is accepted goes on and joins the store path with its key and bytes, and changes no
register and no memory yet; a release store is held behind its release, of each thread of the bundle for a scalar one (R281), unless that is complete already; one that is not accepted traps or
waits for the host.
R281, R282: of several acting threads, each in ascending tid, one whose access is refused traps or blocks, and the others' stores go on. -/
def Obligations.GlobalStores : Prop :=
  ∀ (f : BitVec 3) (z : BitVec 1) (c : BitVec 3) (im b a d : BitVec 7) (s : State) (w : Who) (i : Instr) (n : Nat) (rel : Bool) (desc : Desc) (ea : Nat → W64) (k : Nat),
    (i = .st 0 f b a d ∧ n = storeBytes f ∧ rel = false ∧ desc = storeDesc w n a (some b) d false false ea ∧ ea = fun t => w.src t a 64 + w.offset t b)
      ∨ (i = .sti 0 f im a d ∧ n = storeBytes f ∧ rel = false ∧ desc = storeDesc w n a none d false false ea
          ∧ ea = fun t => w.src t a 64 + im.signExtend 64 * BitVec.ofNat 64 n)
      ∨ (i = .stl z c b a d ∧ n = (if z = 1 then 8 else 4) ∧ rel = true ∧ desc = storeDesc w n a (some b) d false true ea
          ∧ ea = fun t => w.src t a 64 + w.offset t b) →
    ready s w desc = true →
    let joins := fun (u y : State) (k : Nat) (g : GAddr) => y.home = u.home ∧ y.clu.loads = u.clu.loads
      ∧ ∃ e ∈ y.clu.stores, e.kind = .plain ∧ e.cell = w.cell.uid ∧ e.unit = w.u ∧ e.tid = k ∧ e.va = ea k ∧ e.key = g.key ∧ e.kid = g.kid
        ∧ e.bytes = w.data k d n ∧ e.pc = w.pc ∧ e.scal = (desc.scalar && !w.spine) ∧ u.fresh ≤ e.seq ∧ (e.ph = .held ∨ e.ph = .dirty)
        ∧ (rel = true → let who := if desc.scalar && !w.spine then w.tids else [k]
            let v := who.foldl (fun s j => s.beginRelease w j c 2) u
            ∀ m ∈ v.clu.stores, m.isMarker = true → m ∈ y.clu.stores
              ∧ (m.cell = w.cell.uid → m.unit = w.u → m.tid ∈ who → m.seq < v.fresh → e.ph = .held ∧ m.seq < e.seq))
    (∃ o v, exec i s = .next (v.ends w desc o) ∧ Acts s w desc o v (fun k x r y =>
      ((ea k).toNat % n ≠ 0 → r = .trap ⟨tMisaligned, ea k, BitVec.ofNat 64 n⟩ ∧ y = x)
      ∧ ((ea k).toNat % n = 0 →
        (∀ g u, x.accept w k (ea k) .store = (.ok g, u) → r = .done ∧ y.cells = u.cells ∧ joins u y k g)
        ∧ (∀ z u, x.accept w k (ea k) .store = (.trap z, u) → r = .trap z ∧ y = u)
        ∧ (∀ u, x.accept w k (ea k) .store = (.host, u) → r = .block 16 (ea k) ∧ y = u))))
    ∧ (w.actors desc = [k] → (ea k).toNat % n = 0 →
    (∀ g u, s.accept w k (ea k) .store = (.ok g, u) →
      ∃ t, exec i s = .next t ∧ Goes s t w desc ∧ MemFrame s t w.cell.uid w.u ∧ keepsAllRegs s t w.cell.uid w.u ∧ joins u t k g)
    ∧ (∀ x u, s.accept w k (ea k) .store = (.trap x, u) → exec i s = .next (u.all w desc (.trap x)))
    ∧ (∀ u, s.accept w k (ea k) .store = (.host, u) → exec i s = .next (u.all w desc (.block 16 (ea k)))))

/-- R283, R398: what an accepted access is: an address outside the context's regions is translated, and a fault of the translation traps with its code, the
address, and 0 for a load or 1 for a store or atomic; one whose home no port reaches traps with POISON and the PC; a fault that the host serves stalls the core and asks for the page once. Which page that is, where the walk found no leaf, is the
model's reading (log entry 15). -/
def Obligations.Acceptance : Prop :=
  ∀ (s u : State) (w : Who) (k : Nat) (va : W64) (acc : Access) (cx : Context), s.ctx? w.cell.ctx = some cx → acc ≠ .fetch →
    (canonical va = false → s.accept w k va acc = (.trap ⟨tTranslation, va, if acc = .load then 0 else 1⟩, s))
    ∧ (∀ code, cx.region? va = none → translate s cx w.cell.cl va acc = (.trap code, u) →
        s.accept w k va acc = (.trap ⟨code, va, if acc = .load then 0 else 1⟩, u))
    ∧ (∀ key kid page far, cx.region? va = none → translate s cx w.cell.cl va acc = (.ok key kid page far, u) → unreachable u.pkg key = false →
        s.accept w k va acc = (.ok ⟨key, kid, far, false⟩, u))
    ∧ (∀ key kid page far, cx.region? va = none → translate s cx w.cell.cl va acc = (.ok key kid page far, u) → unreachable u.pkg key = true →
        s.accept w k va acc = (.trap ⟨tPoison, va, w.pc⟩, u))
    ∧ (translate s cx w.cell.cl va acc = (.host, u) →
        let size := u.faultSize w.cell.ctx w.cell.cl va
        let page := BitVec.ofNat 64 (va.toNat / size * size)
        ∃ t, s.accept w k va acc = (.host, t)
        ∧ ((∀ x ∈ s.clu.tlb, x.ptr = false → x.lvl ≠ 3) → size = 65536 ∨ size = 2097152 ∨ size = 1073741824)
        ∧ (∃ x ∈ t.clu.stalls, x.cl = w.cell.cl ∧ x.core = coreNo w.u w.unit ∧ x.ctx = w.cell.ctx ∧ x.page = page ∧ x.size = size ∧ x.answer = 0)
        ∧ t.pkg.hostReqs.head? = (if u.clu.stalls.any (fun x => x.cl == w.cell.cl && x.ctx == w.cell.ctx && x.page == page && x.answer == 0)
            then u.pkg.hostReqs.head? else some (w.cell.ctx, page, w.cell.cl)))

/-- R287-R289: `atom` of one acting thread that is accepted goes on: it goes to the word's home with its operation and operands, behind its thread's stores,
and its load entry, when it returns a value, waits for the old word; no register changes yet; one that is not accepted traps with the code of its
translation or its tile, or waits for the host (wait kind 16).
R281, R282: of several acting threads, each in ascending tid, one whose access is refused traps or blocks, and the others' atomics go on.
R292: `pf` goes on whatever its threads' addresses are and changes no register and no memory; where its translation succeeds, and its home can grant a lease at
once, a fetch of its line is under way, with the long lease when asked. -/
def Obligations.AtomicsAndPrefetch : Prop :=
  (∀ (f : BitVec 4) (b a d : BitVec 7) (s : State) (w : Who) (k : Nat),
    let n := if f = 1 ∨ f = 10 ∨ f = 12 then 8 else 4
    let desc := atomDesc s w f a b d false
    let ea := fun k => w.src k a 64
    let joins := fun (u y : State) (k : Nat) (g : GAddr) => y.home = u.home ∧ keepsRegs u y w.cell.uid w.u []
      ∧ ∃ e ∈ y.clu.stores, ∃ ld, e.kind = .atomic f (w.src k b (8 * n)) (w.src k d (8 * n)) ld ∧ e.cell = w.cell.uid ∧ e.unit = w.u ∧ e.tid = k
        ∧ e.va = ea k ∧ e.key = g.key ∧ e.kid = g.kid ∧ e.bytes.length = n ∧ u.fresh ≤ e.seq ∧ (w.loadDst d n = .none → ld = none)
        ∧ (w.loadDst d n ≠ .none → ∃ l ∈ y.clu.loads, ld = some l.num ∧ l.isAtom = true ∧ l.done = false ∧ l.cell = w.cell.uid ∧ l.unit = w.u
            ∧ l.tid = k ∧ l.dst = w.loadDst d n ∧ l.n = n ∧ l.sgn = (f == 2 || f == 3))
    ready s w desc = true →
    (∃ o v, exec (.atom f b a d) s = .next ((v.ends w desc o).settleBatches w.cell.uid w.u) ∧ Acts s w desc o v (fun k x r y =>
      ((ea k).toNat % n ≠ 0 → r = .trap ⟨tMisaligned, ea k, BitVec.ofNat 64 n⟩ ∧ y = x)
      ∧ ((ea k).toNat % n = 0 →
        (∀ g u, x.accept w k (ea k) .atomic = (.ok g, u) → r = .done ∧ joins u y k g)
        ∧ (∀ z u, x.accept w k (ea k) .atomic = (.trap z, u) → r = .trap z ∧ y = u)
        ∧ (∀ u, x.accept w k (ea k) .atomic = (.host, u) → r = .block 16 (ea k) ∧ y = u))))
    ∧ (w.actors desc = [k] → (ea k).toNat % n = 0 →
    (∀ g u, s.accept w k (ea k) .atomic = (.ok g, u) →
      ∃ t, exec (.atom f b a d) s = .next t ∧ Goes s t w desc ∧ MemFrame s t w.cell.uid w.u ∧ joins u t k g)
    ∧ (∀ x u, s.accept w k (ea k) .atomic = (.trap x, u) → exec (.atom f b a d) s = .next ((u.all w desc (.trap x)).settleBatches w.cell.uid w.u))
    ∧ (∀ u, s.accept w k (ea k) .atomic = (.host, u) → exec (.atom f b a d) s = .next ((u.all w desc (.block 16 (ea k))).settleBatches w.cell.uid w.u))))
  ∧ (∀ (l : BitVec 1) (b a : BitVec 7) (s : State) (w : Who),
    let desc : Desc := { rds := [(a, 64), (b, w.offWidth b)], bad := !w.baseOk a || !w.offOk b }
    ready s w desc = true →
      ∃ t, exec (.pf l b a) s = .next t ∧ Goes s t w desc ∧ MemFrame s t w.cell.uid w.u ∧ keepsAllRegs s t w.cell.uid w.u ∧ t.home = s.home
        ∧ t.clu.loads = s.clu.loads ∧ t.clu.stores = s.clu.stores
        ∧ (∀ k cx key kid page far u, w.tids = [k] → s.ctx? w.cell.ctx = some cx →
          let ea := w.src k a 64 + w.offset k b
          translate s cx w.cell.cl ea .load = (.ok key kid page far, u) → (u.line (key / 128)).poison = false →
          u.clu.owned.all (fun o => o.2.2 / 32 != key / 128) = true → unreachable u.pkg key = false →
          ∃ p ∈ t.clu.fetches, p.cl = w.cell.cl ∧ p.l1 = l1Of s.pkg w.cell w.unit.core w.spine ea ∧ p.line = key / 128 ∧ p.kid = kid
            ∧ (p ∉ s.clu.fetches → p.long = (l == 1) ∧ p.left = 15)))

/-- R110, R290, R291: `lclose` and `lwait` close the unit's open batch, `lwait` once; `lclose` never waits, and `lwait` goes on when at most n batches are outstanding,
blocks (wait kind 9) while one of them contains an access to a fabric or host address, and else is not ready yet.
R157: `fence` waits for the covered loads of its threads unless its order is rel, and for its own release when it is sc; then it goes on, and a release of each
thread begins behind which its later accesses stand, with order ar or rel. No register changes. That an instruction which waits for its own release does so as an
interlock, before it issues, is the model's choice (log entry 30).
R153: a release begins complete when its thread has nothing covered under way, and else leaves a marker; a complete one leaves no covered load of its thread
without its value, no held store and no atomic of it, at cell scope or wider in an L1 that is not fused no covered store or atomic of it, nor one that its L1 has taken
from another thread, unperformed, also where such a store has merged into a later one, and no plane fence of it on its way. -/
def Obligations.BatchesAndFences : Prop :=
  (∀ (n : BitVec 3) (s : State) (w : Who),
    let t := s.lwaitStart w
    let left := ((t.unit w.cell.uid w.u).batches.filter (·.closed)).length
    let far := t.clu.loads.any (fun l => l.on w.cell.uid w.u && l.far && (t.batches w.cell.uid w.u).any (fun b => b.num == l.batch && b.closed))
    let desc : Desc := { once := true, settles := true, wait := decide (n.toNat < t.outstanding w.cell.uid w.u) && !t.farBatch w.cell.uid w.u }
    (ready s w desc = true → keepsRegs s t w.cell.uid w.u [] ∧ t.home = s.home
      ∧ ((w.unit.thread w.lead).answer = none → ∀ b ∈ (t.unit w.cell.uid w.u).batches, b.closed = true)
      ∧ ((w.unit.thread w.lead).answer.isSome = true → t = s)
      ∧ (left ≤ n.toNat → exec (.lwait n) s = .next (t.all w desc .done))
      ∧ (n.toNat < left → far = true → exec (.lwait n) s = .next (t.all w desc (.block 9 (n.setWidth 64)))))
    ∧ (tested s w desc = true → w.wake = false → n.toNat < left → far = false → exec (.lwait n) s = .next (t.stallAll w)))
  ∧ (∀ (s : State) (w : Who),
    let desc : Desc := { once := true }
    ready s w desc = true → exec .lclose s = .next ((s.closeBatch w.cell.uid w.u).all w desc .done))
  ∧ (∀ (g : BitVec 3) (o q : BitVec 2) (s : State) (w : Who),
    let hold := (decide (o ≠ 2) && w.tids.any (fun t => s.loadsOpen w t q)) || (decide (o = 3) && !s.relsDone w g q)
    let desc : Desc := { settles := true, wait := hold }
    (ready s w desc = true → ∃ t, exec (.fence g o q) s = .next t ∧ Goes s t w desc ∧ keepsAllRegs s t w.cell.uid w.u ∧ t.home = s.home
      ∧ t = (s.each w desc (fun k s => if o = 1 ∨ o = 3 then s.shutStores w.cell.uid w.u k else s.beginRelease w k g q)).all w desc .done)
    ∧ (tested s w desc = true → hold = true → w.wake = false →
        exec (.fence g o q) s = .next ((if o = 3 then s.relStart g q w else s).stallAll w)))
  ∧ (∀ (s : State) (w : Who) (k : Nat) (g : BitVec 3) (q : BitVec 2),
    let v := (s.shutStores w.cell.uid w.u k).sendFences w.cell.cl g
    let r := w.release k g q v.fresh
    let t := s.beginRelease w k g q
    (v.released r = true → v.behindMarker w.cell.uid w.u k v.fresh = false → t = v)
    ∧ (v.released r = false ∨ v.behindMarker w.cell.uid w.u k v.fresh = true →
        ∃ m ∈ t.clu.stores, m.kind = .marker g q ∧ m.cell = w.cell.uid ∧ m.unit = w.u ∧ m.tid = k ∧ m.seq = v.fresh ∧ m.ph = .held)
    ∧ (s.released r = true →
        (∀ l ∈ s.clu.loads, l.cell = w.cell.uid → l.unit = w.u → l.tid = k → l.num < r.n → covers q l.key = true → l.done = true)
        ∧ (∀ e ∈ s.clu.stores, e.cell = w.cell.uid → e.unit = w.u → e.tid = k → e.first < r.n → covers q e.key = true → e.isMarker = false →
            e.ph ≠ .held ∧ e.isAtomic = false)
        ∧ (1 ≤ g.toNat → (2 ≤ g.toNat ∨ w.cell.hdr.fused = false) → ∀ e ∈ s.clu.stores, e.first < r.n → covers q e.key = true →
            (e.cell = w.cell.uid ∧ e.unit = w.u ∧ e.tid = k)
              ∨ (e.ph ≠ .held ∧ e.cl = w.cell.cl ∧ (w.cell.hdr.fused = true ∨ e.l1 = if w.u = 0 then 0 else w.unit.core)) → e.isMarker = true)
        ∧ (3 ≤ g.toNat → ∀ x ∈ s.clu.fences, x.1 = w.cell.cl → r.n ≤ x.2.2)))

/-! ## Events of the store path and the homes -/

/-- R106: an entry with nothing before it in its L1 that it must follow leaves for its home, by the device's choice or when it has been dirty for 2,048 tb; memory is as before.
R105: it comes to its home after those it follows, and when its flits have arrived (R413), and waits there while a lease, a holder or an owner stands in its way, with memory as before.
R93, R105, R120, R150: a write that is first at its home, with no foreign lease, holder or owner left, is performed: its bytes are in memory, with those of the stores that merged
into it under them (of a line that the L2 holds under the key of the access already); at a poisoned line the bytes stay and a live thread carries the poison. An atomic leaves its operation's word there.
R153: a release that is complete goes; one that is not stays. -/
def Obligations.StorePath : Prop :=
  (∀ (s : State) (e : StoreEnt), s.clu.stores.find? (fun x => x.seq == e.seq) = some e →
      (s.nextDrain e = true →
        (∃ t, exec (.storeDrain e.seq) s = .next t ∧ t.home = s.home ∧ t.cells = s.cells ∧ { e with ph := .sent } ∈ t.clu.stores)
        ∧ (e.born + 2048 ≤ s.tb →
          ∃ t, exec (.dirtyWordTimeout e.seq) s = .next t ∧ t.home = s.home ∧ t.cells = s.cells ∧ { e with ph := .sent } ∈ t.clu.stores))
      ∧ (s.nextDrain e = false → exec (.storeDrain e.seq) s = .next s)
      ∧ (s.tb < e.born + 2048 → exec (.dirtyWordTimeout e.seq) s = .next s)
      ∧ (e.isMarker = false → e.ph = .sent → (∀ x ∈ s.leaders e, x.ph = .drained) → (∀ f ∈ s.clu.flits, f.load ≠ .request e.seq ∧ f.load ≠ .lineData e.seq) →
          s.writeReady e.cl e.l1 e.key e.bytes.length = false →
          ∃ t, exec (.writePerformed e.seq) s = .next t ∧ t.home.mem = s.home.mem ∧ t.cells = s.cells
            ∧ { e with ph := .drained, born := s.fresh } ∈ t.clu.stores)
      ∧ (∀ scope q c, e.kind = .marker scope q → s.cell? e.cell = some c →
          let fin := s.released ⟨c, e.unit, (c.unit e.unit).core, e.tid, scope, q, e.seq⟩ = true ∧ s.behindMarker e.cell e.unit e.tid e.seq = false
          (fin → ∃ t, exec (.releaseComplete e.seq) s = .next t ∧ (∀ x ∈ t.clu.stores, x.seq ≠ e.seq) ∧ t.home = s.home)
          ∧ (¬fin → exec (.releaseComplete e.seq) s = .next s)))
  ∧ (∀ (s : State) (e : StoreEnt), s.clu.stores.find? (fun x => x.seq == e.seq) = some e → e.isMarker = false → e.bytes ≠ [] → s.firstAtHome e = true →
      s.writeReady e.cl e.l1 e.key e.bytes.length = true → unreachable s.pkg e.key = false → s.tileRefuses e.ctx e.key = none →
      ((s.line (e.key / 128)).kid = e.kid ∧ (s.line (e.key / 128)).wkey = keyOfId s.pkg e.kid) →
      ((s.line (e.key / 128)).present = true
        ∧ (foreignKey e.key (devOfCl s.pkg e.cl) = false ∨ (s.line (e.key / 128)).devs.contains (devOfCl s.pkg e.cl) = true)) →
      let merged := e.more.foldl (fun m p => writeBytes m p.1 p.2) s.home.mem
      ((s.line (e.key / 128)).poison = false → e.kind = .plain → ∃ t, exec (.writePerformed e.seq) s = .next t
          ∧ t.home.mem = writeBytes merged e.key e.bytes ∧ readBytes t.home.mem e.key e.bytes.length = e.bytes
          ∧ (e.more = [] → ∀ a, a < e.key ∨ e.key + e.bytes.length ≤ a → sget t.home.mem a = sget s.home.mem a) ∧ ∀ x ∈ t.clu.stores, x.seq ≠ e.seq)
      ∧ ((s.line (e.key / 128)).poison = false → ∀ op b d ld, e.kind = .atomic op b d ld → ∃ t, exec (.writePerformed e.seq) s = .next t
          ∧ (∀ x ∈ t.clu.stores, x.seq ≠ e.seq)
          ∧ t.home.mem = (match atomNew op (BitVec.ofNat 64 (natOfBytes (readBytes s.home.mem e.key e.bytes.length))) b d with
              | some x => writeBytes s.home.mem e.key (bytesOfNat e.bytes.length x.toNat)
              | none => s.home.mem))
      ∧ ((s.line (e.key / 128)).poison = true → ∃ t, exec (.writePerformed e.seq) s = .next t ∧ t.home.mem = s.home.mem
          ∧ (∀ x ∈ t.clu.stores, x.seq ≠ e.seq)
          ∧ ∀ c, s.cell? e.cell = some c → e.unit < c.units.length → e.tid < (c.unit e.unit).threads.length → ((c.unit e.unit).thread e.tid).st ≠ .exited →
            (t.thread e.cell e.unit e.tid).ppois.isSome = true))

/-- R103: a load that has missed takes the bytes of a hit or those promised to it, marks its thread when its line is poisoned, and else a fetch of its line is under way; a
sector of a fetch returns when the home can grant a lease, with the lease of 64 * 2^k tb, and its eight words become valid in the L1.
R92, R93, R104, R107, R403: an expiry that no write waited for raises k by one, up to 4; a recalled word is owned no more, and k is 0 when an atomic of another L1 needs
it; a line with no lease left leaves the L2 without loss; an uncorrectable error poisons its line and no other. None of them changes a byte of memory.
Which expiries a waiting write keeps from raising k, and that the far home's grants come when the outside decides, are the model's reading (log entries 11, 54 and 112). -/
def Obligations.HomeEvents : Prop :=
  (∀ (s : State) (l : LoadEnt), s.clu.loads.find? (fun x => x.num == l.num && !x.done && !x.isAtom && !basinKey x.key) = some l → s.mustWait l = false →
    (∀ f ∈ s.clu.flits, f.load ≠ .lineData l.num) →
    let hit := s.l1Read l.cl l.l1 l.key l.n l.kid
    let bad := (s.line (l.key / 128)).poison || unreachable s.pkg l.key
    ∃ t, exec (.l1FillReturn l.num) s = .next t ∧ t.home = s.home
      ∧ (l.got.isSome = true ∨ hit.isSome = true ∨ bad = true → ∀ x ∈ t.clu.loads, x.num = l.num → x.done = true)
      ∧ (l.got = none → hit = none → bad = false → ∃ f ∈ t.clu.fetches, f.cl = l.cl ∧ f.l1 = l.l1 ∧ f.line = l.key / 128 ∧ f.kid = l.kid)
      ∧ (l.got = none → hit = none → bad = true → ∀ c, s.cell? l.cell = some c → l.unit < c.units.length → l.tid < (c.unit l.unit).threads.length →
          ((c.unit l.unit).thread l.tid).st ≠ .exited → (t.thread l.cell l.unit l.tid).ppois.isSome = true))
  ∧ (∀ (s : State) (f : Fetch), s.clu.loads.find? (fun x => x.num == f.num && !x.done && !x.isAtom && !basinKey x.key) = none →
    s.clu.fetches.find? (fun x => x.num == f.num) = some f → f.left ≠ 0 → f.long = false →
    (s.line f.line).poison = false → unreachable s.pkg (128 * f.line) = false → s.lineThere f.line = true → s.leaseReady f.cl f.l1 f.line = true →
    (s.line f.line).kid = f.kid → (s.line f.line).wkey = keyOfId s.pkg f.kid → (s.line f.line).present = true →
    (foreignKey (128 * f.line) (devOfCl s.pkg f.cl) = false ∨ (s.line f.line).devs.contains (devOfCl s.pkg f.cl) = true) →
    (∀ x ∈ s.clu.flits, x.load ≠ .request f.num ∧ x.load ≠ .lineData f.num) → s.nothingHeld = true →
    ∃ t, exec (.l1FillReturn f.num) s = .next t ∧ t.home.mem = s.home.mem
      ∧ (∃ x ∈ t.clu.lines, x.cl = f.cl ∧ x.l1 = f.l1 ∧ x.line = f.line ∧ x.kid = f.kid ∧ x.expiry = s.tb + 64 * 2 ^ (s.line f.line).k
          ∧ ∃ i, i < 4 ∧ f.left.getLsbD i = true ∧ ∀ j, j < 8 → x.valid.getLsbD (8 * i + j) = true)
      ∧ (∃ x ∈ (t.line f.line).leases, x.1 = f.cl ∧ x.2.1 = f.l1 ∧ s.tb + 64 * 2 ^ (s.line f.line).k ≤ x.2.2))
  ∧ (∀ (s : State) (n : Nat), let h := s.line n
      h.present = true → h.latest ≠ 0 → h.latest ≤ s.tb → h.latest ≠ h.raised → ∃ t, exec (.leaseExpiry n) s = .next t ∧ t.home.mem = s.home.mem
        ∧ (t.line n).k = (if h.waited = false ∧ h.k < 4 then h.k + 1 else h.k) ∧ (t.line n).waited = false)
  ∧ (∀ (s : State) (cl l1 x : Nat), s.clu.owned.contains (cl, l1, x) = true → s.wantsWord cl l1 x = true →
      ∃ t, exec (.ownershipRecall cl l1 x) s = .next t ∧ t.home.mem = s.home.mem ∧ (cl, l1, x) ∉ t.clu.owned
        ∧ (s.atomicWants cl l1 x = true → (t.line (x / 32)).k = 0) ∧ (s.atomicWants cl l1 x = false → t.home = s.home))
  ∧ (∀ (s : State) (n : Nat), keySpace (128 * n) < 2 ^ 32 → s.clu.loads.any (fun l => !l.done && l.key / 128 == n) = false → s.writeWaits n = false →
      (s.line n).present = true → (s.line n).latest ≤ s.tb → ∃ t, exec (.l2Eviction n) s = .next t ∧ t.home.mem = s.home.mem ∧ (t.line n).present = false)
  ∧ (∀ (s : State) (n : Nat), ∃ t, exec (.softError n) s = .next t ∧ t.home.mem = s.home.mem ∧ (t.line n).poison = true ∧ ∀ k, k ≠ n → t.line k = s.line k)

/-! ## Cisterns -/

/-- R47-R51, R296, R297: `cwr` and `cwrt` into a BCAST cistern of their class that is empty and not reserved go on, with the value and the override reserved behind
a release of each thread, in one execution for the bundle; on a full or reserved one `cwr` blocks (wait kind 3), as it does behind writers that wait, and `cwrt` answers 0 and reserves
nothing. A `cwrt` that finds the cistern empty with `cwr` writers blocked on it is accepted: the model's choice (log entry 31).
R48, R49, R299: `ccfg` writes the fields of its word and empties the cistern; R53, R300: `cdrn` empties one that is not reserved; R300: `cpeek` reads value and F
and changes no cistern.
R54, R55, R298: `cgath` waits for the release of its threads, as an interlock (the model's choice, log entry 30), blocks (wait kind 4) where the cistern is full, its round complete or its crew's slot taken, and else goes on with the
crew's reduction in the crew's slot and its flags raised. Each traps with CISTERN_CONFIG where the mode, the class or the word forbids it. -/
def Obligations.CisternInstructions : Prop :=
  (∀ (f : BitVec 4) (b a d : BitVec 7) (s : State) (w : Who),
      let n := w.cisNo d
      let c := w.cell.cis! n
      let bad := fun (desc : Desc) => s.all w desc (.trap ⟨tCistern, 0, BitVec.ofNat 64 n⟩)
      let reserved := fun (t : State) => ∀ cell, t.cell? w.cell.uid = some cell → n < w.cell.cis.length → (cell.cis! n).full = false
        ∧ (cell.cis! n).mode = .bcast ∧ ∃ p, (cell.cis! n).pending = some p ∧ p.val = w.src w.lead a 64 ∧ p.ovr = f ∧ p.unit = w.u ∧ p.tids = w.tids
      (let desc : Desc := { rds := [(a, 64)], cis := some d, once := true, settles := true }
       ready s w desc = true →
        (c.mode = .bcast → inClass w.spine c.cls = true → c.full = false → c.pending = none →
            (w.woke 3 = true ∨ w.cell.blockedOn [3] (BitVec.ofNat 64 n) = []) →
          ∃ t, exec (.cwr f a d) s = .next t ∧ Goes s t w desc ∧ keepsAllRegs s t w.cell.uid w.u ∧ MemFrame s t w.cell.uid w.u ∧ t.home = s.home ∧ reserved t)
        ∧ (c.mode = .bcast → inClass w.spine c.cls = true → (c.full = true ∨ c.pending.isSome = true
            ∨ (w.woke 3 = false ∧ w.cell.blockedOn [3] (BitVec.ofNat 64 n) ≠ [])) → exec (.cwr f a d) s = .next (s.all w desc (.block 3 (BitVec.ofNat 64 n))))
        ∧ (c.mode ≠ .bcast ∨ inClass w.spine c.cls = false → exec (.cwr f a d) s = .next (bad desc)))
      ∧ (let desc : Desc := { rds := [(a, 64)], wr := some (b, w.dstWidth b), cis := some d, once := true, settles := true, bad := !w.statusOk b }
         ready s w desc = true →
          (c.mode = .bcast → inClass w.spine c.cls = true → ∃ t, exec (.cwrt f b a d) s = .next t ∧ Goes s t w desc ∧ MemFrame s t w.cell.uid w.u ∧ t.home = s.home
            ∧ keepsRegs s t w.cell.uid w.u (w.tids.flatMap (fun k => w.regsOf k [(b, w.dstWidth b)]))
            ∧ (c.full = false ∧ c.pending = none → reserved t ∧ ∀ k ∈ w.tids, w.quiet k b (w.dstWidth b) = true → t.holds w k b (w.dstWidth b) (BitVec.allOnes 64))
            ∧ (c.full = true ∨ c.pending.isSome = true → readsCisterns s t w desc
                ∧ ∀ k ∈ w.tids, w.quiet k b (w.dstWidth b) = true → t.holds w k b (w.dstWidth b) 0))
          ∧ (c.mode ≠ .bcast ∨ inClass w.spine c.cls = false → exec (.cwrt f b a d) s = .next (bad desc)))
      ∧ (let desc : Desc := { side := .spine, rds := [(a, 64)], cis := some d }
         let x := w.src 0 a 64
         ready s w desc = true →
          (cfgWordOk x w.cell.hdr.ncrew = true → c.full = false → c.pending = none → c.mask = 0 → (x.extractLsb' 0 2 = 2 → w.cell.gathers n < 8) →
            ∃ t, exec (.ccfg a d) s = .next t ∧ Goes s t w desc ∧ keepsAllRegs s t w.cell.uid 0 ∧ MemFrame s t w.cell.uid 0 ∧ t.home = s.home
              ∧ ∀ cell, t.cell? w.cell.uid = some cell → n < w.cell.cis.length → (cell.cis! n).rc = x.extractLsb' 8 8 ∧ (cell.cis! n).g = x.extractLsb' 16 8
                ∧ (cell.cis! n).op = x.extractLsb' 24 4 ∧ (cell.cis! n).cls = x.extractLsb' 28 2 ∧ (cell.cis! n).full = false ∧ (cell.cis! n).remaining = 0
                ∧ (cell.cis! n).mode = (if x.extractLsb' 0 2 = 1 then .bcast else if x.extractLsb' 0 2 = 2 then .gather else .free))
          ∧ (cfgWordOk x w.cell.hdr.ncrew = false ∨ c.full = true ∨ c.pending.isSome = true ∨ c.mask ≠ 0 ∨ (x.extractLsb' 0 2 = 2 ∧ 8 ≤ w.cell.gathers n) →
            exec (.ccfg a d) s = .next (bad desc)))
      ∧ (let desc : Desc := { cis := some d, once := true }
         ready s w desc = true →
          ((w.spine = true ∨ inClass false c.cls = true) → ∃ t, exec (.cdrn d) s = .next t ∧ Goes s t w desc ∧ keepsAllRegs s t w.cell.uid w.u
            ∧ MemFrame s t w.cell.uid w.u ∧ t.home = s.home
            ∧ ∀ cell, t.cell? w.cell.uid = some cell → n < w.cell.cis.length →
                cell.cis! n = (if c.pending.isSome then c else { c with full := false, remaining := 0, mask := 0, partials := [] }))
          ∧ (w.spine = false → inClass false c.cls = false → exec (.cdrn d) s = .next (bad desc)))
      ∧ (let desc : Desc := { wr := some (d, 64), wr2 := some (b, w.dstWidth b), cis := some a, settles := (w.cell.cis! (w.cisNo a)).full, bad := !w.statusOk b
                              whole := true }
         let c := w.cell.cis! (w.cisNo a)
         ready s w desc = true → ∃ t, exec (.cpeek b a d) s = .next t ∧ Goes s t w desc ∧ MemFrame s t w.cell.uid w.u ∧ t.home = s.home
          ∧ (t.cell? w.cell.uid).map (·.cis) = (s.cell? w.cell.uid).map (·.cis)
          ∧ keepsRegs s t w.cell.uid w.u (w.tids.flatMap (fun k => w.regsOf k [(d, 64), (b, w.dstWidth b)]))
          ∧ ∀ k ∈ w.tids, (w.quiet k b (w.dstWidth b) = true → t.holds w k b (w.dstWidth b) (ones c.full))
            ∧ (w.quiet k d 64 = true → (∀ r ∈ w.regsOf k [(d, 64)], r ∉ w.regsOf k [(b, w.dstWidth b)]) → t.holds w k d 64 c.value)))
  ∧ (∀ (a d : BitVec 7) (s : State) (w : Who),
      let n := w.cisNo d
      let c := w.cell.cis! n
      let me := w.u - 1
      let desc : Desc := { side := .crew, rds := [(a, if c.op = 2 ∨ c.op = 4 then 64 else 32)], cis := some d, once := true, settles := true, basin := true
                           wait := !s.relsDone w 1 3 }
      let taken := c.full = true ∨ c.mask.getLsbD me = true ∨ (List.range 128).countP (fun i => c.mask.getLsbD i) = c.g.toNat
      let sum := w.reduce c.op.toNat a (fun _ => true)
      (ready s w desc = true →
        (c.mode ≠ .gather ∨ inClass false c.cls = false → exec (.cgath a d) s = .next (s.all w desc (.trap ⟨tCistern, 0, BitVec.ofNat 64 n⟩)))
        ∧ (c.mode = .gather → inClass false c.cls = true → taken → exec (.cgath a d) s = .next (s.all w desc (.block 4 (BitVec.ofNat 64 n))))
        ∧ (c.mode = .gather → inClass false c.cls = true → ¬taken →
            ∃ t, exec (.cgath a d) s = .next t ∧ Goes s t w desc ∧ keepsRegs s t w.cell.uid w.u [] ∧ MemFrame s t w.cell.uid w.u ∧ t.home = s.home
              ∧ (∀ k, w.clk < k → (t.unit w.cell.uid w.u).landed k = (s.unit w.cell.uid w.u).landed k ||| sum.2)
              ∧ ∀ cell, t.cell? w.cell.uid = some cell → n < w.cell.cis.length → (cell.cis! n).mask = c.mask ||| (1#128 <<< me)
                  ∧ (cell.cis! n).partials = sset c.partials me sum.1))
      ∧ (tested s w desc = true → s.relsDone w 1 3 = false → w.wake = false →
          exec (.cgath a d) s = .next ((s.relStart 1 3 w).stallAll w)))

/-- R51, R55, R61: a reserved write lands when its release is complete: value and F, and remaining from the override or RC; a GATHER cistern whose round is complete takes the combination of its
slots in ascending crew index and empties them; a thread that waits on a cistern no live thread can serve traps with CISTERN_ORPHAN. -/
def Obligations.CisternEvents : Prop :=
  (∀ (s : State) (uid n : Nat) (c : Cell) (p : CisWrite), s.cell? uid = some c → n < c.cis.length → (c.cis! n).pending = some p → s.landable c p = true →
    ∃ t cell, exec (.cisternWriteLand uid n) s = .next t ∧ t.cell? uid = some cell ∧ t.home = s.home
      ∧ cell.cis! n = { c.cis! n with value := p.val, full := true, pending := none, override := decide (p.ovr ≠ 0)
                                      remaining := if p.ovr ≠ 0 then p.ovr.setWidth 8 else (c.cis! n).rc })
  ∧ (∀ (s : State) (uid n : Nat) (c : Cell), s.cell? uid = some c → n < c.cis.length → (c.cis! n).complete = true →
    ∃ t cell, exec (.gatherCombine uid n) s = .next t ∧ t.cell? uid = some cell ∧ t.home = s.home
      ∧ (cell.cis! n).full = true ∧ (cell.cis! n).mask = 0
      ∧ (cell.cis! n).value = ((List.range 128).filter (fun i => (c.cis! n).mask.getLsbD i)).foldl
          (fun acc i => (combine (c.cis! n).op.toNat acc (sget (c.cis! n).partials i)).1) (gatherId (c.cis! n).op.toNat))
  ∧ (∀ (s : State) (uid u i : Nat) (c : Cell), s.cell? uid = some c → u < c.units.length → i < (c.unit u).threads.length → c.orphan u i = true → s.buildsOf uid = [] →
    ∃ t, exec (.cisternOrphanTrap uid u i) s = .next t ∧ (t.thread uid u i).st = .parked ∧ (t.thread uid u i).tcode = tOrphan
      ∧ (t.thread uid u i).pc = ((c.unit u).thread i).pc)

/-! ## Standpipes -/

/-- R118, R121, R163, R301: `stand` is not ready until its threads' stores are performed at device scope (an interlock: the model's choice, log entry 30); then each thread, in ascending tid, traps
with the first of a bad mode byte, misalignment and range, or subscribes: its status is 3 for a slot that overlaps a live one, 4 for an unmapped address (also one whose fault the host would serve:
the model's reading, log entry 28), 2 for a region address, 1 without a free entry or record, else 0, and then the slot is open with its header at the reset values, every full bit of it is clear, and
the request is on its way; it waits, and when the home has registered it, it goes on with the status in D.
R126, R302: `unstand`, of each thread in ascending tid, closes an open or frozen subscription and sends the close to its home; `unstand.wait` also blocks until it is closed or failed (wait kind 10). A closing slot
is left, with the same wait; a closed one, or a failed one, whose record goes, needs none. An address that names no slot traps with STAND_STATE. -/
def Obligations.Subscriptions : Prop :=
  (∀ (b a d : BitVec 7) (s : State) (w : Who) (k : Nat),
      let desc : Desc := { rds := [(a, 64), (b, 64)], wr := some (d, w.dstWidth d), bad := !w.baseOk a || !w.dataOk d
                           wait := !s.relsDone w 2 3 || (w.standers d).any (s.standAwaits w) }
      let va := w.src k a 64
      let word := w.src k b 64
      let slot : BitVec 32 := word.setWidth 32
      let md := word.extractLsb' 32 8
      let size := 16 + 16 * 2 ^ (md.toNat % 16)
      let legal := word.extractLsb' 40 24 = 0 ∧ mdOk md = true
      let answers := fun (x y : State) (k n : Nat) => y.home = x.home ∧ keepsRegs x y w.cell.uid w.u (w.loadRegs k d 4)
        ∧ (w.clear k d 4 = true → y.loaded w k d 4 false (bytesOfNat (w.dstBytes d 4) (n % 256)))
      let opens := fun (x u : State) (k : Nat) =>
        let va := w.src k a 64
        let slot : BitVec 32 := (w.src k b 64).setWidth 32
        let md := (w.src k b 64).extractLsb' 32 8
        let size := 16 + 16 * 2 ^ (md.toNat % 16)
        ∀ c, x.cell? w.cell.uid = some c → w.u < c.units.length → k < (c.unit w.u).threads.length →
          ∀ st gran v, standStatus x w c slot.toNat va md = (st, gran, v) →
          (u.thread w.cell.uid w.u k).answer = some (BitVec.ofNat 64 (slot.toNat * 256 + st))
          ∧ (st ≠ 0 → u.home = x.home ∧ (u.cell? w.cell.uid).map (·.subs) = some c.subs)
          ∧ (st = 0 → (∃ d x, u.cell? w.cell.uid = some d ∧ x ∈ d.subs ∧ x.slot = slot ∧ x.md = md ∧ x.st = .open ∧ x.widx = 0 ∧ x.ovr = 0 ∧ x.sq = 0
                ∧ x.va = va ∧ x.gran = gran)
              ∧ readBytes u.home.mem (keyBasin c.cl (c.basinOff + slot.toNat)) 16
                  = bytesOfNat 12 ((0 : BitVec 32) ++ md ++ (1 : BitVec 8) ++ (0 : BitVec 16) ++ (0 : BitVec 32)).toNat ++ List.replicate 4 0
              ∧ (∀ j, j < size / 16 → u.fe c (slot.toNat + 16 * j) = false)
              ∧ ∃ m ∈ u.home.msgs, m.cell = w.cell.uid ∧ m.slot = slot ∧ m.kind = .register)
      (ready s w desc = true → ∃ o u, exec (.stand b a d) s = .next (u.ends w desc o) ∧ Acts s w desc o u (fun k x r y =>
        let va := w.src k a 64
        let word := w.src k b 64
        let slot : BitVec 32 := word.setWidth 32
        let md := word.extractLsb' 32 8
        let size := 16 + 16 * 2 ^ (md.toNat % 16)
        let legal := word.extractLsb' 40 24 = 0 ∧ mdOk md = true
        (∀ n, (w.unit.thread k).answer = some n → r = .done ∧ answers x y k n.toNat)
        ∧ ((w.unit.thread k).answer = none →
          (¬legal → r = .trap ⟨tStand, slot.setWidth 64, 0⟩ ∧ y = x)
          ∧ (legal → slot.toNat % 16 ≠ 0 → r = .trap ⟨tMisaligned, slot.setWidth 64, 16⟩ ∧ y = x)
          ∧ (legal → slot.toNat % 16 = 0 → va.toNat % 16 ≠ 0 → r = .trap ⟨tMisaligned, va, 16⟩ ∧ y = x)
          ∧ (legal → slot.toNat % 16 = 0 → va.toNat % 16 = 0 → w.cell.basinSize < slot.toNat + size →
              r = .trap ⟨tBasin, slot.setWidth 64, BitVec.ofNat 64 size⟩ ∧ y = x)
          ∧ (legal → slot.toNat % 16 = 0 → va.toNat % 16 = 0 → slot.toNat + size ≤ w.cell.basinSize → r = .stall ∧ opens x y k))))
      ∧ (ready s w desc = true → w.actors desc = [k] →
        ((w.unit.thread k).answer = none →
          (¬legal → exec (.stand b a d) s = .next (s.all w desc (.trap ⟨tStand, slot.setWidth 64, 0⟩)))
          ∧ (legal → slot.toNat % 16 ≠ 0 → exec (.stand b a d) s = .next (s.all w desc (.trap ⟨tMisaligned, slot.setWidth 64, 16⟩)))
          ∧ (legal → slot.toNat % 16 = 0 → va.toNat % 16 ≠ 0 → exec (.stand b a d) s = .next (s.all w desc (.trap ⟨tMisaligned, va, 16⟩)))
          ∧ (legal → slot.toNat % 16 = 0 → va.toNat % 16 = 0 → w.cell.basinSize < slot.toNat + size →
              exec (.stand b a d) s = .next (s.all w desc (.trap ⟨tBasin, slot.setWidth 64, BitVec.ofNat 64 size⟩)))
          ∧ (legal → slot.toNat % 16 = 0 → va.toNat % 16 = 0 → slot.toNat + size ≤ w.cell.basinSize →
              ∃ u : State, exec (.stand b a d) s = .next (u.all w desc .stall) ∧ opens s u k))
        ∧ (∀ x, (w.unit.thread k).answer = some x → ∃ t, exec (.stand b a d) s = .next t ∧ Goes s t w desc ∧ MemFrame s t w.cell.uid w.u
            ∧ answers s t k x.toNat))
      ∧ (tested s w desc = true → w.wake = false → s.relsDone w 2 3 = false ∨ (∃ k ∈ w.standers d, s.standAwaits w k = true) →
          exec (.stand b a d) s = .next ((s.relStart 2 3 w).stallAll w)))
  ∧ (∀ (s : State) (w : Who) (c : Cell) (slot : Nat) (va : W64) (md : BitVec 8) (cx : Context), s.ctx? c.ctx = some cx →
      let overlap := c.subs.any (fun x => x.st.live && decide (slot < x.slot.toNat + 16 + 16 * 2 ^ (x.md.toNat % 16))
        && decide (x.slot.toNat < slot + 16 + 16 * 2 ^ (md.toNat % 16)))
      let tr := (translate s cx c.cl va .load).1
      let st := (standStatus s w c slot va md).1
      (overlap = true → st = 3)
      ∧ (overlap = false → ((∃ code, tr = .trap code) ∨ tr = .host → st = 4) ∧ (∀ key, tr = .region key → st = 2)
        ∧ (∀ key kid page far, tr = .ok key kid page far → st = 0 ∨ st = 1)))
  ∧ (∀ (a : BitVec 7) (wait : Bool) (s : State) (w : Who) (k : Nat),
      let desc := unstandDesc w a
      let i := if wait then Instr.unstandWait a else Instr.unstand a
      let ea := w.src k a 64
      let out := if wait then LaneOut.block 10 ea else LaneOut.done
      let ends := fun (t : State) (o : LaneOut) => exec i s = .next (t.all w desc o)
      ready s w desc = true →
      (∃ o u, exec i s = .next (u.ends w desc o) ∧ Acts s w desc o u (fun k x r y =>
        let ea := w.src k a 64
        let out := if wait then LaneOut.block 10 ea else LaneOut.done
        (ea.toNat % 16 ≠ 0 → r = .trap ⟨tMisaligned, ea, 16⟩ ∧ y = x)
        ∧ (ea.toNat % 16 = 0 → w.cell.basinSize < ea.toNat + 16 → r = .trap ⟨tBasin, ea, 16⟩ ∧ y = x)
        ∧ (ea.toNat % 16 = 0 → ea.toNat + 16 ≤ w.cell.basinSize → ∀ c, x.cell? w.cell.uid = some c →
          (c.slot? (ea.setWidth 32) = none → r = .trap ⟨tStand, ea, 0⟩ ∧ y = x)
          ∧ (∀ z, c.slot? (ea.setWidth 32) = some z → (z.st = .open ∨ z.st = .frozen) → r = out
              ∧ (∃ d q, y.cell? w.cell.uid = some d ∧ q ∈ d.subs ∧ q = { z with st := .closing })
              ∧ readBytes y.home.mem (keyBasin c.cl (c.basinOff + z.slot.toNat)) 16
                  = bytesOfNat 12 ({ z with st := .closing } : Slot).header.toNat ++ x.readBasin c (z.slot.toNat + 12) 4
              ∧ ∃ m ∈ y.home.msgs, m.cell = w.cell.uid ∧ m.slot = z.slot ∧ m.kind = .closeReq)
          ∧ (∀ z, c.slot? (ea.setWidth 32) = some z → z.st = .closing → r = out ∧ y = x)
          ∧ (∀ z, c.slot? (ea.setWidth 32) = some z → z.st = .closed → r = .done ∧ y = x)
          ∧ (∀ z, c.slot? (ea.setWidth 32) = some z → z.st = .failed → r = .done ∧ y.home = x.home
              ∧ ∀ c, y.cell? w.cell.uid = some c → ∀ q ∈ c.subs, q.slot ≠ z.slot))))
      ∧ (w.actors desc = [k] →
      (ea.toNat % 16 ≠ 0 → ends s (.trap ⟨tMisaligned, ea, 16⟩))
      ∧ (ea.toNat % 16 = 0 → w.cell.basinSize < ea.toNat + 16 → ends s (.trap ⟨tBasin, ea, 16⟩))
      ∧ (ea.toNat % 16 = 0 → ea.toNat + 16 ≤ w.cell.basinSize →
        (w.cell.slot? (ea.setWidth 32) = none → ends s (.trap ⟨tStand, ea, 0⟩))
        ∧ (∀ x, w.cell.slot? (ea.setWidth 32) = some x → (x.st = .open ∨ x.st = .frozen) → ∃ t, ends t out
            ∧ (∃ c y, t.cell? w.cell.uid = some c ∧ y ∈ c.subs ∧ y = { x with st := .closing })
            ∧ readBytes t.home.mem (keyBasin w.cell.cl (w.cell.basinOff + x.slot.toNat)) 16
                = bytesOfNat 12 ({ x with st := .closing } : Slot).header.toNat ++ s.readBasin w.cell (x.slot.toNat + 12) 4
            ∧ ∃ m ∈ t.home.msgs, m.cell = w.cell.uid ∧ m.slot = x.slot ∧ m.kind = .closeReq)
        ∧ (∀ x, w.cell.slot? (ea.setWidth 32) = some x → x.st = .closing → ends s out)
        ∧ (∀ x, w.cell.slot? (ea.setWidth 32) = some x → x.st = .closed → ends s .done)
        ∧ (∀ x, w.cell.slot? (ea.setWidth 32) = some x → x.st = .failed → ∃ t, ends t .done ∧ t.home = s.home
            ∧ ∀ c, t.cell? w.cell.uid = some c → ∀ y ∈ c.subs, y.slot ≠ x.slot))))

/-- R121, R122, R127, R130, R131: at the home, each message that no earlier one of its subscription precedes is answered once: a request registers the subscriber, with the count of the granule as its base, and sends seq 0
with the granule's bytes; a close removes it and sends the final seq; a freeze stops its pushes; a relocation starts them again and catches up. The first three change no memory. -/
def Obligations.HomeAnswers : Prop :=
  ∀ (s : State) (num : Nat) (m : Msg),
    (s.takeMsg num (· == .register) = some m → ∀ c x, s.cell? m.cell = some c → c.slot? m.slot = some x →
      ∃ t, exec (.standpipeRegister num) s = .next t ∧ t.home.mem = s.home.mem ∧ (∀ o ∈ t.clu.owned, o.2.2 / 4 ≠ x.gran)
        ∧ (∃ p ∈ t.home.pipes, p.gran = x.gran ∧ ∃ h ∈ p.subs, h.cell = m.cell ∧ h.slot = m.slot ∧ h.frozen = false ∧ h.md = x.md
            ∧ h.base = ((s.home.pipes.find? (fun p => p.gran == x.gran)).map (·.count)).getD 0)
        ∧ (∀ y ∈ t.home.msgs, y.num = num → y.kind = .data) ∧ ∃ y ∈ t.home.msgs, y.kind = .data ∧ y.cell = m.cell ∧ y.slot = m.slot ∧ y.sq = 0
            ∧ y.data = granBytes s.home.mem x.gran)
    ∧ (s.takeMsg num (· == .closeReq) = some m → ∀ p h, s.homeSub? m.cell m.slot = some (p, h) →
      ∃ t, exec (.standpipeCloseAtHome num) s = .next t ∧ t.home.mem = s.home.mem ∧ t.homeSub? m.cell m.slot = none
        ∧ ∃ y ∈ t.home.msgs, y.kind = .closePush ∧ y.cell = m.cell ∧ y.slot = m.slot ∧ y.sq = p.count - h.base)
    ∧ (s.takeMsg num (· == .freezeReq) = some m → ∀ p h, s.homeSub? m.cell m.slot = some (p, h) →
      ∃ t, exec (.standpipeFreezeAtHome num) s = .next t ∧ t.home.mem = s.home.mem
        ∧ (∀ q ∈ t.home.pipes, q.gran = p.gran → ∀ x ∈ q.subs, x.cell = m.cell → x.slot = m.slot → x.frozen = true)
        ∧ ∃ y ∈ t.home.msgs, y.kind = .freezePush ∧ y.cell = m.cell ∧ y.slot = m.slot ∧ y.sq = p.count - h.base)
    ∧ (s.takeMsg num (· == .relocate) = some m → ∀ p h, s.homeSub? m.cell m.slot = some (p, h) →
      ∃ t, exec (.standpipeRelocate num) s = .next t
        ∧ (∀ q ∈ t.home.pipes, q.gran = p.gran → ∀ x ∈ q.subs, x.cell = m.cell → x.slot = m.slot → x.frozen = false)
        ∧ (h.md.toNat / 16 = 0 ∨ p.count ≠ h.atFreeze → ∃ y ∈ t.home.msgs, y.kind = .catchUp ((p.count - h.atFreeze).toNat - 1) ∧ y.cell = m.cell
            ∧ y.slot = m.slot ∧ y.sq = p.count - h.base))

/-- R116, R123, R124, R127, R129-R131: at the cluster, a push to a LATEST slot replaces its granule, counts an override when it was full, and sets header and granule full; to a RING slot it fills the next granule, or is dropped and
counted when that is full; a close push writes STATE 4 and the final seq, a freeze push STATE 2, a catch-up push lands as a push; a failure writes STATE 5. Each writes the slot's header into the basin,
its low 12 bytes from the cluster's copy and RIDX as it was, and leaves every other byte of memory, every other full bit, and every register and other cell as before.
That a freeze push leaves the header granule's bit is the model's choice (log entry 35). -/
def Obligations.PushesLand : Prop :=
  ∀ (s : State) (num : Nat) (m : Msg) (c : Cell) (x : Slot), s.slotOf m = some (c, x) →
    let key := fun (a : Nat) => keyBasin c.cl (c.basinOff + a)
    let slot := fun (t : State) => (t.cell? c.uid).bind (fun c => c.slot? x.slot)
    let a := x.slot.toNat + 16
    let r := x.slot.toNat + 16 + 16 * (x.widx.toNat % 2 ^ (x.md.toNat % 16))
    let shows := fun (t : State) (y : Slot) (grans : List Nat) => slot t = some y
      ∧ readBytes t.home.mem (key x.slot.toNat) 16 = bytesOfNat 12 y.header.toNat ++ s.readBasin c (x.slot.toNat + 12) 4
      ∧ keepsMem s t ((key x.slot.toNat, 16) :: grans.map (fun g => (key g, 16)))
      ∧ (∀ g, g ≠ feKey c.cl (c.basinOff + x.slot.toNat) → g ∉ grans.map (fun a => feKey c.cl (c.basinOff + a)) → sget t.home.fe g = sget s.home.fe g)
      ∧ (∀ k, k ≠ c.uid → t.cell? k = s.cell? k) ∧ ∀ v, t.unit c.uid v = s.unit c.uid v
    (s.takeMsg num (· == .data) = some m → x.md.toNat / 16 = 0 → x.st.live = true →
      ∃ t, exec (.latestPushLand num) s = .next t ∧ readBytes t.home.mem (key a) 16 = bytesOfNat 16 m.data.toNat ∧ t.fe c a = true ∧ t.fe c x.slot.toNat = true
        ∧ shows t { x with sq := m.sq, ovr := if s.fe c a then satAdd16 x.ovr 1 else x.ovr } [a])
    ∧ (s.takeMsg num (· == .data) = some m → x.md.toNat / 16 ≠ 0 → x.st.live = true → s.fe c r = false →
      ∃ t, exec (.ringPushLand num) s = .next t ∧ readBytes t.home.mem (key r) 16 = bytesOfNat 16 m.data.toNat ∧ t.fe c r = true ∧ t.fe c x.slot.toNat = true
        ∧ shows t { x with sq := m.sq, widx := x.widx + 1 } [r])
    ∧ (s.takeMsg num (· == .data) = some m → x.md.toNat / 16 ≠ 0 → x.st.live = true → s.fe c r = true →
      ∃ t, exec (.ringPushLand num) s = .next t ∧ readBytes t.home.mem (key r) 16 = readBytes s.home.mem (key r) 16 ∧ t.fe c x.slot.toNat = true
        ∧ shows t { x with ovr := satAdd16 x.ovr 1 } [])
    ∧ (s.takeMsg num (· == .closePush) = some m → ∃ t, exec (.closePushLand num) s = .next t ∧ shows t { x with st := .closed, sq := m.sq } [] ∧ t.fe c x.slot.toNat = true)
    ∧ (s.takeMsg num (· == .freezePush) = some m → ∃ t, exec (.freezePushLand num) s = .next t ∧ shows t { x with st := .frozen } [] ∧ t.home.fe = s.home.fe)
    ∧ (∀ n, m.kind = .catchUp n → s.takeMsg num (fun k => match k with | .catchUp _ => true | _ => false) = some m →
      (x.md.toNat / 16 = 0 → ∃ t, exec (.catchUpPushLand num) s = .next t ∧ readBytes t.home.mem (key a) 16 = bytesOfNat 16 m.data.toNat ∧ t.fe c a = true
          ∧ t.fe c x.slot.toNat = true ∧ shows t { x with sq := m.sq, ovr := if s.fe c a then satAdd16 x.ovr 1 else x.ovr } [a])
      ∧ (x.md.toNat / 16 ≠ 0 → s.fe c r = false → ∃ t, exec (.catchUpPushLand num) s = .next t ∧ readBytes t.home.mem (key r) 16 = bytesOfNat 16 m.data.toNat
          ∧ t.fe c r = true ∧ t.fe c x.slot.toNat = true ∧ shows t { x with sq := m.sq, widx := x.widx + 1, ovr := satAdd16 x.ovr n } [r])
      ∧ (x.md.toNat / 16 ≠ 0 → s.fe c r = true → ∃ t, exec (.catchUpPushLand num) s = .next t
          ∧ t.fe c x.slot.toNat = true ∧ shows t { x with ovr := satAdd16 (satAdd16 x.ovr n) 1 } []))
    ∧ (∀ poison, s.subFails c.uid x.slot poison = true → (ldfWaiters c x = [] ∨ c.evicting = true) →
      ∃ t, exec (.subscriptionFail c.uid x.slot poison) s = .next t ∧ shows t { x with st := .failed, poison := poison, late := false } [] ∧ t.fe c x.slot.toNat = true ∧ t.homeSub? c.uid x.slot = none
        ∧ (∀ y ∈ t.home.msgs, ¬(y.cell = c.uid ∧ y.slot = x.slot)))

/-! ## Recipe tiles, rings, copies -/

/-- R136, R138, R303, R304: `rseal` on a BUILDING tile waits, before any effect, for a device-scope release of the thread's stores, which its first issue begins (an interlock: the model's choice, log
entry 30); the completion event then, threads of one bundle in ascending tid, makes the tile RESIDENT with GEN + 1, no owner, the build's pins gone and every line present, and changes no byte of
ordinary memory or of a tile that is not RESIDENT, and the thread goes on; on a RESIDENT tile `rseal` has no effect, and on another it traps with its code, base and record word.
R281, R282: each of these instructions acts for its threads in ascending tid; one that names no tile, or meets its trap, traps without effect, and the others act on what those before them left.
R141, R145, R305, R306: `rdrop.shed`, `rdrop.retire`, `rpin` and `rpin.unpin` wait for the end of a build (wait kind 8). Shed drops the lines of an unpinned RESIDENT tile,
which stays RESIDENT, and makes a POISONED or RETIRED one ABSENT; retire drops the lines and makes the tile RETIRED with PIN 0, and leaves a RETIRED one; a pin is added under the cap, or taken away above 0.
R136, R145, R307: `rsta` writes the record word, PIN, GEN and STATE, to D in every state of the tile, waits for nothing and changes no tile. R90, R303: an address that is not canonical
traps with TRANSLATION, one in no region with PROTECTION and one that is no tile base with MISALIGNED. -/
def Obligations.RecipeTiles : Prop :=
  (∀ (a : BitVec 7) (s : State) (w : Who) (k : Nat) (c : Context) (r : Region),
      let desc := { tileDesc w a true with wait := !w.tids.all (s.sealOver w a) }
      let va := w.src k a 64
      let t := s.tile c.tag va
      let th := w.unit.thread k
      let trap := fun (code : BitVec 8) => exec (.rseal a) s = .next (s.all w desc (.trap ⟨code, va, t.word⟩))
      (ready s w desc = true → ∃ o u, exec (.rseal a) s = .next (u.ends w desc o) ∧ Acts s w desc o u (fun k x r y =>
        let va := w.src k a 64
        let th := w.unit.thread k
        y = x ∧ (∀ z, x.namedTile w va = .error z → r = .trap z)
        ∧ ∀ c rg, x.namedTile w va = .ok (c, rg) → let t := x.tile c.tag va
          (th.stage ≠ 0 → th.answer = none → r = .done)
          ∧ (¬(th.stage ≠ 0 ∧ th.answer = none) → (t.st = .resident → r = .done) ∧ (t.st = .absent → r = .trap ⟨tRecWrite, va, t.word⟩)
            ∧ (t.st = .poisoned → r = .trap ⟨tRecFailed, va, t.word⟩) ∧ (t.st = .retired → r = .trap ⟨tRecRetired, va, t.word⟩)
            ∧ (t.st = .building → r = .stall))))
      ∧ (s.namedTile w va = .ok (c, r) →
      (ready s w desc = true → w.actors desc = [k] → ¬(th.stage ≠ 0 ∧ th.answer = none) →
        (t.st = .resident → exec (.rseal a) s = .next (s.all w desc .done))
        ∧ (t.st = .absent → trap tRecWrite) ∧ (t.st = .poisoned → trap tRecFailed) ∧ (t.st = .retired → trap tRecRetired))
      ∧ (ready s w desc = true → w.actors desc = [k] → th.stage ≠ 0 → th.answer = none → exec (.rseal a) s = .next (s.all w desc .done))
      ∧ (tested s w desc = true → w.tids = [k] → w.wake = false → t.st = .building → th.stage = 0 → w.u < w.cell.units.length →
          k < w.unit.threads.length →
          exec (.rseal a) s = .next ((State.startSeal w a s k).stallAll w)
          ∧ ∀ u, exec (.rseal a) s = .next u → (u.thread w.cell.uid w.u k).stage = 64 * s.fresh + 18 ∧ (u.thread w.cell.uid w.u k).answer = some va
              ∧ (u.thread w.cell.uid w.u k).pc = (s.thread w.cell.uid w.u k).pc ∧ u.home = s.home)))
  ∧ (∀ (s : State) (cell unit tid : Nat) (c : Cell) (cx : Context) (r : Region) (base : W64),
      let th := (c.unit unit).thread tid
      s.cell? cell = some c → s.ctx? c.ctx = some cx → th.answer = some base → cx.region? base = some r → th.st = .eligible → th.stage ≠ 0 → th.ppois = none → th.prw = none →
      (s.tile cx.tag base).st = .building → s.released ⟨c, unit, (c.unit unit).core, tid, 2, 2, th.stage / 64⟩ = true → s.behindMarker cell unit tid (th.stage / 64) = false →
      s.sealsBefore c unit tid = false →
      ∃ u, exec (.rsealComplete cell unit tid) s = .next u
        ∧ (∀ a, sget u.home.mem a ≠ sget s.home.mem a → ∃ t ∈ s.home.tiles, t.st = .resident ∧ ∃ i, keyRec t.ctx (t.base.toNat + 128 * i) ≤ a
            ∧ a < keyRec t.ctx (t.base.toNat + 128 * i) + 128) ∧ (u.tile cx.tag base).st = .resident
        ∧ (u.tile cx.tag base).gen = (s.tile cx.tag base).gen + 1 ∧ (u.tile cx.tag base).owner = none ∧ (u.tile cx.tag base).srcs = []
        ∧ (∀ i, i < r.size / 128 → i ∈ (u.tile cx.tag base).present) ∧ (u.thread cell unit tid).answer = none ∧ (u.thread cell unit tid).stage = th.stage
        ∧ (∀ ctx b, (ctx, b) ≠ (cx.tag, base) → (u.tile ctx b).st = (s.tile ctx b).st ∧ (u.tile ctx b).gen = (s.tile ctx b).gen)
        ∧ ∀ k, k ≠ cell → u.cell? k = s.cell? k)
  ∧ (∀ (a : BitVec 7) (s : State) (w : Who) (k : Nat) (c : Context) (r : Region),
      let desc := tileDesc w a false
      let va := w.src k a 64
      let t := s.tile c.tag va
      let goes := fun (i : Instr) (st : TileSt) (pin : BitVec 32) (lines : List Nat) => ∃ u, exec i s = .next u ∧ Goes s u w desc
        ∧ MemFrame s u w.cell.uid w.u ∧ keepsAllRegs s u w.cell.uid w.u
        ∧ (u.tile c.tag va).st = st ∧ (u.tile c.tag va).pin = pin ∧ (u.tile c.tag va).gen = t.gen ∧ (u.tile c.tag va).present = lines
        ∧ (∀ ctx b, (ctx, b) ≠ (c.tag, va) → u.tile ctx b = s.tile ctx b)
        ∧ keepsMem s u (if t.present = lines then [] else t.present.map (fun l => (keyRec c.tag (va.toNat + 128 * l), 128)))
      ready s w desc = true →
      (∀ (op : Fin 4), ∃ o u, exec (match op with | 0 => .rdropShed a | 1 => .rdropRetire a | 2 => .rpin a | 3 => .rpinUnpin a) s = .next (u.ends w desc o)
        ∧ Acts s w desc o u (fun k x r y =>
          let va := w.src k a 64
          (∀ z, x.namedTile w va = .error z → r = .trap z ∧ y = x)
          ∧ ∀ c rg, x.namedTile w va = .ok (c, rg) →
            let t := x.tile c.tag va
            let tooMany := t.pin = 0 ∧ rg.cap < x.pinnedBytes c.tag rg + rg.size
            let moves := fun (st : TileSt) (pin : BitVec 32) (lines : List Nat) => r = .done ∧ y.cells = x.cells
              ∧ (y.tile c.tag va).st = st ∧ (y.tile c.tag va).pin = pin ∧ (y.tile c.tag va).gen = t.gen ∧ (y.tile c.tag va).present = lines
              ∧ ∀ ctx b, (ctx, b) ≠ (c.tag, va) → y.tile ctx b = x.tile ctx b
            if t.st = .building then r = .block 8 va ∧ y = x
            else match op with
              | 0 => if t.st = .resident then (if t.pin = 0 then moves .resident 0 [] else moves .resident t.pin t.present) else moves .absent t.pin t.present
              | 1 => if t.st = .retired then r = .done ∧ y = x else moves .retired 0 []
              | 2 => if t.st = .retired then r = .trap ⟨tRecRetired, va, t.word⟩ ∧ y = x
                     else if tooMany then r = .trap ⟨tRecCapacity, va, t.word⟩ ∧ y = x else moves t.st (t.pin + 1) t.present
              | 3 => if t.st = .retired then r = .done ∧ y = x else moves t.st (if t.pin = 0 then 0 else t.pin - 1) t.present))
      ∧ (w.actors desc = [k] → s.namedTile w va = .ok (c, r) →
      (t.st = .building → ∀ i, i = .rdropShed a ∨ i = .rdropRetire a ∨ i = .rpin a ∨ i = .rpinUnpin a → exec i s = .next (s.all w desc (.block 8 va)))
      ∧ (t.st = .resident → t.pin = 0 → goes (.rdropShed a) .resident 0 []) ∧ (t.st = .resident → t.pin ≠ 0 → goes (.rdropShed a) .resident t.pin t.present)
      ∧ (t.st = .poisoned ∨ t.st = .retired → goes (.rdropShed a) .absent t.pin t.present) ∧ (t.st = .absent → goes (.rdropShed a) .absent t.pin t.present)
      ∧ (t.st ≠ .building → t.st ≠ .retired → goes (.rdropRetire a) .retired 0 []) ∧ (t.st = .retired → goes (.rdropRetire a) .retired t.pin t.present)
      ∧ (t.st ≠ .building → t.st ≠ .retired →
          let tooMany := t.pin = 0 ∧ r.cap < s.pinnedBytes c.tag r + r.size
          (¬tooMany → goes (.rpin a) t.st (t.pin + 1) t.present) ∧ (tooMany → exec (.rpin a) s = .next (s.all w desc (.trap ⟨tRecCapacity, va, t.word⟩)))
          ∧ goes (.rpinUnpin a) t.st (if t.pin = 0 then 0 else t.pin - 1) t.present)
      ∧ (t.st = .retired → exec (.rpin a) s = .next (s.all w desc (.trap ⟨tRecRetired, va, t.word⟩)) ∧ goes (.rpinUnpin a) .retired t.pin t.present)))
  ∧ (∀ (a d : BitVec 7) (s : State) (w : Who) (k : Nat),
      let desc : Desc := { rds := [(a, 64)], wr := some (d, 64), bad := !w.baseOk a || !w.dataOk d, settles := true }
      let va := w.src k a 64
      let trap := fun (i : TrapInfo) => exec (.rsta a d) s = .next (s.all w desc (.trap i))
      ready s w desc = true →
      (∃ o u, exec (.rsta a d) s = .next (u.ends w desc o) ∧ Acts s w desc o u (fun k x r y =>
        let va := w.src k a 64
        (∀ z, x.namedTile w va = .error z → r = .trap z ∧ y = x)
        ∧ ∀ c rg, x.namedTile w va = .ok (c, rg) → r = .done ∧ y.home = x.home ∧ keepsRegs x y w.cell.uid w.u (w.loadRegs k d 8)
          ∧ (w.clear k d 8 = true → y.loaded w k d 8 false
              (bytesOfNat 8 ((x.tile c.tag va).pin.toNat * 2 ^ 32 + (x.tile c.tag va).gen.toNat * 2 ^ 8 + (x.tile c.tag va).st.code)))))
      ∧ (w.actors desc = [k] →
      (∀ c r, s.namedTile w va = .ok (c, r) → ∃ u, exec (.rsta a d) s = .next u ∧ Goes s u w desc ∧ MemFrame s u w.cell.uid w.u ∧ u.home = s.home
        ∧ (w.clear k d 8 = true → u.loaded w k d 8 false
            (bytesOfNat 8 ((s.tile c.tag va).pin.toNat * 2 ^ 32 + (s.tile c.tag va).gen.toNat * 2 ^ 8 + (s.tile c.tag va).st.code)))
        ∧ keepsRegs s u w.cell.uid w.u (w.loadRegs k d 8))
      ∧ (canonical va = false → trap ⟨tTranslation, va, 0⟩)
      ∧ (∀ c, canonical va = true → s.ctx? w.cell.ctx = some c → c.region? va = none → trap ⟨tProtection, va, 0⟩)
      ∧ (∀ c r, canonical va = true → s.ctx? w.cell.ctx = some c → c.region? va = some r → r.tileBase va ≠ va → trap ⟨tMisaligned, va, BitVec.ofNat 64 r.size⟩)))

/-- R178-R180, R312: `rginit` of a handle and slots that fit the table of R178, with no thread blocked on the ring and no engine claim on it, writes the object with every counter 0 and changes nothing else;
otherwise it traps, and the granule stays.
R179-R181, R313: on a valid ring without fault, `rgwait` takes the slot at Rd and `rgadv.claim` the slot at Cl, for all threads alike, and the counter advances; while there is none, or an earlier waiter is
unserved, the bundle blocks (wait kinds 6 and 7). `rgrel` and `rgadv.pub` advance Rl and W: the thread goes on, with the counter moved, or, while its cell-scope release is incomplete, with the advance
held behind it; they trap where there is nothing to give. That the move may come after the thread has gone on, and that a later ring instruction of the bundle, not ready until then, waits for its
held accesses of the object, is the model's reading (log entry 102). On a ring that is not valid, is faulted or has another producer class all four trap with RING_STATE. Nothing of memory changes but the object. -/
def Obligations.Rings : Prop :=
  (∀ (b a : BitVec 7) (s : State) (w : Who),
      let desc : Desc := { rds := [(a, 64), (b, 64)], once := true, wait := s.ringBehind w a }
      let x := w.src w.lead a 64
      let cfg := (w.src w.lead b 64).toNat
      let h := x.toNat % 2 ^ 32
      let r := ringOf cfg
      let good := x.toNat / 2 ^ 32 = 0 ∧ cfg / 2 ^ 58 = 0 ∧ r.cfgOk w.cell = true ∧ (h + 16 ≤ r.base ∨ r.base + r.count * r.slot ≤ h)
        ∧ w.cell.ringWaiters h = [] ∧ s.engineClaims w.cell.uid h = false
      (tested s w desc = true → s.ringBehind w a = true → w.wake = false → exec (.rginit b a) s = .next (s.stallAll w))
      ∧ (ready s w desc = true →
      (∀ i, handleTrap w.cell x = some i → exec (.rginit b a) s = .next (s.all w desc (.trap i)))
      ∧ (handleTrap w.cell x = none → ¬good → exec (.rginit b a) s = .next (s.all w desc (.trap ⟨tRing, BitVec.ofNat 64 h, 0⟩)))
      ∧ (handleTrap w.cell x = none → good → ∃ t, exec (.rginit b a) s = .next t ∧ Goes s t w desc ∧ MemFrame s t w.cell.uid w.u
          ∧ keepsAllRegs s t w.cell.uid w.u ∧ readBytes t.home.mem (keyBasin w.cell.cl (w.cell.basinOff + h)) 16 = bytesOfNat 16 cfg
          ∧ t.home.fe = s.home.fe ∧ keepsMem s t [(keyBasin w.cell.cl (w.cell.basinOff + h), 16)])))
  ∧ (∀ (a d : BitVec 7) (s : State) (w : Who) (i : Instr) (kind cur : Nat) (r moved : Ring) (empty : Prop),
      let desc : Desc := { rds := [(a, 64)], wr := some (d, w.dstWidth d), once := true, settles := true, wait := s.ringBehind w a }
      let x := w.src w.lead a 64
      let h := x.toNat % 2 ^ 32
      let obj := BitVec.ofNat 64 h
      let range := [(keyBasin w.cell.cl (w.cell.basinOff + h), 16)]
      let waits := empty ∨ (w.woke kind = false ∧ w.cell.blockedOn [kind] obj ≠ [])
      (i = .rgwait a d ∧ kind = 6 ∧ cur = r.rd ∧ empty = (r.rd = r.w) ∧ moved = { r with rd := (r.rd + 1) % (2 * r.count) })
        ∨ (i = .rgadvClaim a d ∧ kind = 7 ∧ cur = r.cl ∧ empty = (r.count ≤ r.d r.rl r.cl) ∧ moved = { r with cl := (r.cl + 1) % (2 * r.count) } ∧ r.prod = 0) →
      ready s w desc = true → handleTrap w.cell x = none → x.toNat / 2 ^ 32 = 0 → s.ring? w.cell h = some r → r.flt = false →
      (waits → ∃ t : State, exec i s = .next (t.all w desc (.block kind obj)) ∧ t.cells = s.cells ∧ { t.ring w.cell h with waiters := 0 } = { r with waiters := 0 }
          ∧ keepsMem s t range ∧ t.home.fe = s.home.fe)
      ∧ (¬waits → ∃ t, exec i s = .next t ∧ Goes s t w desc ∧ MemFrame s t w.cell.uid w.u ∧ { t.ring w.cell h with waiters := 0 } = { moved with waiters := 0 }
          ∧ keepsMem s t range ∧ t.home.fe = s.home.fe ∧ keepsRegs s t w.cell.uid w.u (w.tids.flatMap (fun k => w.regsOf k [(d, w.dstWidth d)]))
          ∧ ∀ k ∈ w.tids, w.quiet k d (w.dstWidth d) = true → t.holds w k d (w.dstWidth d) (BitVec.ofNat 64 (cur % r.count + 256 * (cur / r.count)))))
  ∧ (∀ (a : BitVec 7) (s : State) (w : Who) (i : Instr) (pub : Bool) (r moved : Ring) (empty : Prop),
      let desc : Desc := { rds := [(a, 64)], once := true, settles := true, wait := s.ringBehind w a }
      let x := w.src w.lead a 64
      let h := x.toNat % 2 ^ 32
      let s1 := w.tids.foldl (fun s k => s.beginRelease w k 1 3) s
      let held := s1.basinWaits w w.lead (w.u != 0) (.ring pub) (BitVec.ofNat 64 h) (List.replicate 16 0)
      (i = .rgrel a ∧ pub = false ∧ empty = (r.rl = r.rd) ∧ moved = { r with rl := (r.rl + 1) % (2 * r.count) })
        ∨ (i = .rgadvPub a ∧ pub = true ∧ empty = (r.w = r.cl) ∧ moved = { r with w := (r.w + 1) % (2 * r.count) } ∧ r.prod = 0) →
      ready s w desc = true → handleTrap w.cell x = none → x.toNat / 2 ^ 32 = 0 → s.ring? w.cell h = some r → r.flt = false → s.ringMoves w.cell.uid h = [] →
      (empty → exec i s = .next (s.all w desc (.trap ⟨tRing, BitVec.ofNat 64 h, 0⟩)))
      ∧ (¬empty → ∃ t, exec i s = .next t ∧ Goes s t w desc ∧ MemFrame s t w.cell.uid w.u ∧ keepsAllRegs s t w.cell.uid w.u ∧ t.home.fe = s.home.fe
          ∧ keepsMem s t [(keyBasin w.cell.cl (w.cell.basinOff + h), 16)]
          ∧ (held = false → { t.ring w.cell h with waiters := 0 } = { moved with waiters := 0 })
          ∧ (held = true → t.home = s.home ∧ ∃ e ∈ t.clu.stores, e.kind = .ring pub ∧ e.ph = .held ∧ e.cell = w.cell.uid ∧ e.unit = w.u ∧ e.va = BitVec.ofNat 64 h)))
  ∧ (∀ (a d : BitVec 7) (s : State) (w : Who) (i : Instr) (crew : Bool) (wr : Option (BitVec 7 × Nat)),
      let desc : Desc := { rds := [(a, 64)], wr := wr, once := true, settles := true, wait := s.ringBehind w a }
      let x := w.src w.lead a 64
      let h := x.toNat % 2 ^ 32
      (i = .rgwait a d ∧ crew = false ∧ wr = some (d, w.dstWidth d)) ∨ (i = .rgadvClaim a d ∧ crew = true ∧ wr = some (d, w.dstWidth d))
        ∨ (i = .rgrel a ∧ crew = false ∧ wr = none) ∨ (i = .rgadvPub a ∧ crew = true ∧ wr = none) →
      (tested s w desc = true → s.ringBehind w a = true → w.wake = false → exec i s = .next (s.stallAll w))
      ∧ (ready s w desc = true →
      (∀ t, handleTrap w.cell x = some t → exec i s = .next (s.all w desc (.trap t)))
      ∧ (handleTrap w.cell x = none → (s.ring? w.cell h = none ∨ x.toNat / 2 ^ 32 ≠ 0 ∨ (crew = true ∧ (s.ring w.cell h).prod ≠ 0) ∨ (s.ring w.cell h).flt = true) →
          exec i s = .next (s.all w desc (.trap ⟨tRing, BitVec.ofNat 64 h, 0⟩)))))
  ∧ (∀ (s : State) (cell : Nat) (ring : BitVec 32) (c : Cell) (r : Ring), s.cell? cell = some c → s.ring? c ring.toNat = some r → r.flt = true → c.evicted = false →
      c.evicting = false → s.buildsOf cell = [] → ∃ t, exec (.ringFltTrap cell ring) s = .next t ∧ ∀ u i,
        (((c.unit u).thread i).st = .blocked → (((c.unit u).thread i).wkind = 6 ∨ ((c.unit u).thread i).wkind = 7) → ((c.unit u).thread i).wobj = ring.setWidth 64 →
          (t.thread cell u i).st = .parked ∧ (t.thread cell u i).tcode = tRing)
        ∧ (((c.unit u).thread i).st ≠ .blocked → t.thread cell u i = s.thread cell u i))

/-- R171, R172, R176, R195, R309-R311: `cpy` whose parameters pass takes a place in the cluster's engine with its four words, and asks for a grant when it is big; it traps on a bad parameter and, while 16 are held, stalls with no effect.
R173-R176, R180: a copy claims its slot in order of acceptance; a ready piece of a plain copy into the basin puts the bytes read at its row and sets their full bits, one out of the basin to one line leaves them there, as many as the
engine may still move in this clk, of 256; when it may move no more the piece waits; one that meets a fault ends the copy with a report; a finished copy whose bytes have arrived leaves with its completion: none, the full bit, the
published slot, or a record in its node. That what is left of a piece is looked at before its bytes of a clk move, so that a fault moves none of them, is the model's choice (log entry 113). -/
def Obligations.Copies : Prop :=
  (∀ (c k : BitVec 2) (a : BitVec 7) (s : State) (w : Who),
      let o : CopyOp := ⟨s.fresh, w.cell.uid, w.u, w.lead, w.cell.cl, c ++ k, w.block w.lead a, s.fresh, 0, none, false, false, false⟩
      let full := decide (16 ≤ s.copiesHeld w.cell.cl)
      let desc : Desc := { blockDesc w a .copy with bad := !w.blockOk a || k == 3
                                                    hold := full && (s.checkCopy w.cell { o with num := 0, seq := 0 }).isNone }
      (s.who = some w → w.run = none → uniformTrap w desc = none → s.checkCopy w.cell o = none → full = true → exec (.cpy c k a) s = .next (s.stallAll w))
      ∧ (ready s w desc = true →
        (∀ i, s.checkCopy w.cell o = some i → exec (.cpy c k a) s = .next (s.all w desc (.trap i)))
        ∧ (s.checkCopy w.cell o = none → full = false → ∃ t, exec (.cpy c k a) s = .next t ∧ Goes s t w desc
          ∧ keepsAllRegs s t w.cell.uid w.u ∧ t.home = s.home ∧ t.clu.copies = s.clu.copies ++ [o] ∧ (o.big = false → t.clu.draws = s.clu.draws)
          ∧ (o.big = true → ∃ d ∈ t.clu.draws, d.kind = 1 ∧ d.cell = w.cell.uid ∧ d.num = s.fresh))))
  ∧ (∀ (s : State) (num : Nat) (o : CopyOp) (c : Cell) (cx : Context), s.copy? num = some o → s.copyCell o = some c → s.ctx? c.ctx = some cx →
      let ends := fun (i : Instr) (f : State → Prop) => ∃ t, exec i s = .next t ∧ (∀ x ∈ t.clu.copies, x.num ≠ num) ∧ f t
      let at_ := o.rowAt (o.next c).1 + (o.next c).2
      let left := o.rbytes - (o.next c).2
      let room := 256 - (s.clu.moved.lookup c.cl).getD 0
      let s0 := s.endWait num
      let there := fun (s : State) (key : Nat) => (s.line (key / 128)).present = true ∧ (foreignKey key c.dev = false ∨ (s.line (key / 128)).devs.contains c.dev = true)
      (∀ r, o.comp = 2 → o.claim = none → (∀ x ∈ s.clu.copies, x.cell = o.cell → x.comp = 2 → x.handle = o.handle → x.claim = none → o.num ≤ x.num) →
        s.ring? c o.handle = some r → r.prod = 1 → r.d r.rl r.cl < r.count → ∃ t, exec (.copyRingClaim num) s = .next t
          ∧ (t.copy? num).map (·.claim) = some (some (r.cl, r.base + r.cl % r.count * r.slot)) ∧ (t.ring c o.handle).cl = (r.cl + 1) % (2 * r.count))
      ∧ (s.copyReady c o = true → room = 0 → exec (.copyPiece num) s = .next s0)
      ∧ (s.copyReady c o = true → room ≠ 0 → o.kind = 0 → o.dir = 0 →
          (∀ bs s1, s0.readSpan c cx (o.nextVa c) (s0.pieceLen c cx (o.nextVa c) .load left) (spanFuel (s0.pieceLen c cx (o.nextVa c) .load left)) = (.ok bs, s1) →
            let got := bs.take room
            ∃ t, exec (.copyPiece num) s = .next t ∧ t.readBasin c at_ got.length = got ∧ (∀ j, j < got.length / 16 → t.fe c (at_ + 16 * j) = true)
              ∧ (∀ x, x < keyBasin c.cl (c.basinOff + at_) ∨ keyBasin c.cl (c.basinOff + at_) + got.length ≤ x → sget t.home.mem x = sget s1.home.mem x)
              ∧ (t.copy? num).map (·.bytes) = some (o.bytes + min (s0.pieceLen c cx (o.nextVa c) .load left) room))
          ∧ (∀ code va s1, s0.readSpan c cx (o.nextVa c) (s0.pieceLen c cx (o.nextVa c) .load left) (spanFuel (s0.pieceLen c cx (o.nextVa c) .load left)) = (.fault code va, s1) →
            o.claim = none → ends (.copyPiece num) (fun t => ∃ x ∈ t.sched.traps, x.ctx = c.ctx ∧ x.words
              = [recWord0 s1 c.ctx c.dev c.cl 0 1 code, designator c o.unit, BitVec.ofNat 64 o.bytes, va] ++ o.p)))
      ∧ (s.copyReady c o = true → room ≠ 0 → o.kind = 0 → o.dir = 1 → ∀ key kid s1 all s2,
          let n := s0.pieceLen c cx (o.nextVa c) .store left
          let m := min n room
          s0.writeSpan c cx (o.nextVa c) n (spanFuel n) = (.ok all, s2) → s0.writeSpan c cx (o.nextVa c) m (spanFuel m) = (.ok [(key, kid, m)], s1) →
          s1.spanReady num c.dev [(key, kid, m)] = true → there s1 key → (s1.line (key / 128)).kid = kid → (s1.line (key / 128)).wkey = keyOfId s1.pkg kid →
          ∃ t, exec (.copyPiece num) s = .next t ∧ t.home.mem = writeBytes s1.home.mem key (s1.readBasin c at_ m) ∧ (t.copy? num).map (·.bytes) = some (o.bytes + m))
      ∧ (o.voided = false → (∀ f ∈ s.clu.flits, f.load ≠ .copyData num) → o.bytes = o.total c → (o.comp ≠ 2 ∨ o.claim.isSome = true) → (o.big = false ∨ o.granted = true) →
          (o.comp = 0 → ends (.copyComplete num) (fun t => t.home = s.home))
          ∧ (o.comp = 1 → ends (.copyComplete num) (fun t => t.home.mem = s.home.mem ∧ (o.dir = 1 → t.fe c o.aux = true) ∧ (o.dir ≠ 1 → t.home.fe = s.home.fe)))
          ∧ (∀ r, o.comp = 2 → s.publishes o = true → s.ring? c o.handle = some r → r.w ≠ r.cl →
              ends (.copyComplete num) (fun t => (t.ring c o.handle).w = (r.w + 1) % (2 * r.count)))
          ∧ (∀ n, o.comp = 3 → s.emitTo c.dev c.ctx (o.p.getD 3 0) .plain = some (.here n) → s.spillFull n.dev = false → 2 ≤ n.c → n.bins = [] →
              ends (.copyComplete num) (fun t => ∃ m, t.node? n.dev n.idx = some m ∧ m.bins = [⟨0, s.tb, [bytesOfNat 8 (if o.dir = 1 then o.gva else o.baddr)
                ++ bytesOfNat 8 (o.total c) ++ List.replicate (n.z - 16) 0]⟩]))))

/-! ## Matrix array, draw, power -/

/-- R184-R186, R315: `mxld` and `mxrun` whose parameters pass join the end of the unit's queue with their four words and the format of the unit's last load, and `mxld` sets that format; on a bad parameter they trap with MATRIX_PARAM, or RING_STATE
for a job's ring, and while the queue is full they stall with no effect. R188, R316: `mxq` answers the entries, the discard mark, which it clears, and the planes the queue owns. -/
def Obligations.MatrixInstructions : Prop :=
  (∀ (a : BitVec 7) (s : State) (w : Who) (c : Cell) (run : Bool) (i : Instr),
    let e : MxEnt := ⟨s.fresh, w.cell.uid, w.u, w.cell.cl, run, 0, w.block w.lead a, (c.unit w.u).mxFlags, s.fresh, false, false, 0, 0, none, false⟩
    let bad := if run then e.badJob w.cell e.act.toNat else e.badLoad w.cell
    let noRing := run = true ∧ e.toRing = true ∧ ∀ r, s.ring? w.cell e.ringh = some r → r.prod ≠ 2
    let small := ∃ r, run = true ∧ e.toRing = true ∧ s.ring? w.cell e.ringh = some r ∧ r.prod = 2 ∧ r.slot < e.m * e.ostride
    let good := bad = false ∧ ¬noRing ∧ ¬small
    ∀ full, (full = true ↔ good ∧ 4 ≤ s.mxPlaces w.cell.uid w.u) →
    let desc : Desc := { blockDesc w a .matrix with hold := full }
    i = (if run then .mxrun a else .mxld a) → s.cell? w.cell.uid = some c →
    (s.who = some w → w.run = none → uniformTrap w desc = none → full = true → exec i s = .next (s.stallAll w))
    ∧ (ready s w desc = true →
      (bad = true → exec i s = .next (s.all w desc (.trap ⟨tMatrix, 0, 0⟩)))
      ∧ (bad = false → noRing → exec i s = .next (s.all w desc (.trap ⟨tRing, BitVec.ofNat 64 e.ringh, 0⟩)))
      ∧ (bad = false → small → exec i s = .next (s.all w desc (.trap ⟨tMatrix, 0, 0⟩)))
      ∧ (good → full = false → ∃ t, exec i s = .next t ∧ Goes s t w desc ∧ t.home = s.home
        ∧ keepsRegs s t w.cell.uid w.u [] ∧ t.clu.mx = s.clu.mx ++ [e] ∧ t.clu.arrays = s.clu.arrays
        ∧ (t.unit w.cell.uid w.u).mxFlags = (if run then (c.unit w.u).mxFlags else BitVec.ofNat 5 (w.block w.lead a)[3]!.toNat))))
  ∧ (∀ (d : BitVec 7) (s : State) (w : Who) (c : Cell),
    let desc : Desc := { role := .matrix, wr := some (d, w.dstWidth d), once := true }
    let own := fun (p : Plane) => p.valid && p.owner == some (w.cell.uid, w.u)
    let v := ((s.clu.mx.filter (fun e => e.cell == w.cell.uid && e.unit == w.u && e.reload == 0)).length + (if (c.unit w.u).mxDisc then 8 else 0)
      + (if own (s.array w.cell.cl).shadow then 16 else 0) + (if own (s.array w.cell.cl).active then 32 else 0))
    s.cell? w.cell.uid = some c → ready s w desc = true → ∃ t, exec (.mxq d) s = .next t ∧ Goes s t w desc ∧ t.home = s.home
      ∧ t.clu.mx = s.clu.mx ∧ t.clu.arrays = s.clu.arrays ∧ (t.unit w.cell.uid w.u).mxDisc = false
      ∧ keepsRegs s t w.cell.uid w.u (w.tids.flatMap (fun k => w.regsOf k [(d, w.dstWidth d)]))
      ∧ ∀ k ∈ w.tids, w.quiet k d (w.dstWidth d) = true → t.holds w k d (w.dstWidth d) (BitVec.ofNat 64 v))

/-- R80, R183, R186, R187: the head entry of a queue that could start asks for a grant, and starts when it has one, the array is idle and its turn has come; a load from the basin ends with its 128 columns and its code book in the shadow plane; a job that
starts takes the shadow plane of its queue as the active one and keeps its queue's format; a job's rows are written one after the other from
row 0, each row's 128 sums of block terms, their full bits, and no other byte, and with the last one the job is over. -/
def Obligations.MatrixEvents : Prop :=
  ∀ (s : State) (num : Nat) (e : MxEnt) (c : Cell) (cx : Context), s.mx? num = some e → s.cell? e.cell = some c → s.ctx? c.ctx = some cx →
    let a := s.array e.cl
    (s.mxCould e = true → e.granted = false → ∃ t, exec (if e.isRun then .jobStart num else .mxldStart num) s = .next t ∧ t.home = s.home ∧ t.cells = s.cells
      ∧ t.clu.mx = s.clu.mx ∧ ∃ d ∈ t.clu.draws, d.kind = 2 ∧ d.cell = e.cell ∧ d.num = e.num)
    ∧ (s.mxCould e = true → e.granted = true → s.mxBusy e.cl = false → (s.mxNext e.cl).map (·.num) = some num →
      (e.isRun = false → ∃ t, exec (.mxldStart num) s = .next t ∧ t.home = s.home ∧ t.cells = s.cells ∧ (t.mx? num).map (·.running) = some true
        ∧ (t.array e.cl).shadow = Plane.empty ∧ (t.array e.cl).active = a.active ∧ (t.array e.cl).last = some (unitRank c e.unit % 1000000))
      ∧ (e.isRun = true → e.toRing = false →
        let act := if e.reuse = false ∧ a.shadow.of e.cell e.unit = true then a.shadow else a.active
        let f := (({ a with active := act } : MxArray).tileFor e.cell).flags
        mxAc8 f = mxAc8 e.act.toNat → e.rowsOut c f = false → ∃ t, exec (.jobStart num) s = .next t ∧ t.home = s.home ∧ t.cells = s.cells
          ∧ (t.mx? num).map (·.running) = some true ∧ (t.array e.cl).active = act
          ∧ (t.array e.cl).shadow = (if e.reuse = false ∧ a.shadow.of e.cell e.unit = true then Plane.empty else a.shadow)))
    ∧ (e.isRun = false → e.running = true → s.awaitsBuild num = false → mxBasin e.flags = true → mxSparse e.flags = false → e.reload = 0 →
      let stride := bitsOf (e.w 1) 63 32
      ∃ t, exec (.mxldComplete num) s = .next t ∧ t.home.mem = s.home.mem ∧ t.cells = s.cells ∧ (∀ x ∈ t.clu.mx, x.num ≠ num)
        ∧ (t.array e.cl).active = a.active ∧ (t.array e.cl).shadow = ⟨true, some (e.cell, e.unit), e.p,
            (List.range 128).map (fun n => s.readBasin c (e.w 0 + n * stride) (mxColBytes e.flags)), [],
            if mxFmt e.flags = 0 then [] else (List.range (mxBook e.flags)).map
              (fun i => BitVec.ofNat 16 (natOfBytes (s.readBasin c (bitsOf (e.w 1) 31 0 + 2 * i) 2)))⟩)
    ∧ (e.isRun = true → e.running = true → e.toRing = false → e.claim = none → c.evicted = false →
      let tile := a.tileFor e.cell
      let acts := fun (s : State) (i : Nat) => (List.range (mxK tile.flags / 32)).map (fun b => actBlock s c (mxAc8 tile.flags) (e.aaddr + i * e.astride) e.pitch b)
      let row := fun (s : State) (i : Nat) => (List.range 128).flatMap (fun n => bytesOfNat 4 (mxElement tile (acts s i) n
        (if e.accum then natOfBytes (s.readBasin c (e.oaddr + i * e.ostride + 4 * n) 4) else 0)))
      let out := e.oaddr + e.rows * e.ostride
      ∃ t, exec (.jobEnd num) s = .next t ∧ t.cells = s.cells ∧ t.clu.arrays = s.clu.arrays
        ∧ (e.rows + 1 < e.m → t.mx? num = some { e with rows := e.rows + 1 }) ∧ (e.m ≤ e.rows + 1 → ∀ x ∈ t.clu.mx, x.num ≠ num)
        ∧ t.home.mem = (s.writeBasin c out (row s e.rows)).home.mem
        ∧ keepsMem s t [(keyBasin c.cl (c.basinOff + out), 512)]
        ∧ ∀ j, j < 32 → t.fe c (out + 16 * j) = true)

/-- R195, R319: `draw.req` of a unit with no grant and no request blocks (wait kind 14) and puts a request of the cell's priority on its die's sluice; with a grant held it answers 0; at its wake it answers the tb waited (without the time its cell was evicted: log entry 84). `draw.rel` gives a held grant
back. A grant goes to the request of highest priority, first come first, while the die's budget has room and the die is not hot.
R423, R424: the period's end records the measurement, lowers every budget by a quarter when it passed the cap, keeps them when nothing is queued, and begins the next 10 µs; a hot die is granted nothing until it cools; the thermal trip removes power and
leaves nothing but the fuses, the firmware and what is not the package's memory (what stays is the model's choice: log entry 93). -/
def Obligations.DrawAndPower : Prop :=
  ((∀ (d : BitVec 7) (s : State) (w : Who) (c : Cell),
      let desc : Desc := { wr := some (d, w.dstWidth d), once := true }
      let held := fun (v : W64) => ∃ t, exec (.drawReq d) s = .next t ∧ Goes s t w desc ∧ t.home = s.home ∧ t.clu.draws = s.clu.draws
        ∧ (t.unit w.cell.uid w.u).drawHeld = (c.unit w.u).drawHeld ∧ keepsRegs s t w.cell.uid w.u (w.tids.flatMap (fun k => w.regsOf k [(d, w.dstWidth d)]))
        ∧ ∀ k ∈ w.tids, w.quiet k d (w.dstWidth d) = true → t.holds w k d (w.dstWidth d) v
      s.cell? w.cell.uid = some c → ready s w desc = true →
      (w.wake = false → (c.unit w.u).drawHeld = true → held 0)
      ∧ (∀ v, w.wake = true → (w.unit.thread w.lead).answer = some v → held v)
      ∧ (w.wake = false → (c.unit w.u).drawHeld = false → (c.unit w.u).drawPend = false → ∃ u : State, exec (.drawReq d) s = .next (u.all w desc (.block 14 0))
        ∧ u.home = s.home ∧ (u.unit w.cell.uid w.u).drawPend = true ∧ (∃ x ∈ u.clu.draws, x.kind = 0 ∧ x.cell = w.cell.uid ∧ x.num = w.u)
        ∧ ∀ x ∈ u.clu.draws, x ∉ s.clu.draws → x.die = w.cell.cl / 13 ∧ x.kind = 0 ∧ x.pri = w.cell.pri ∧ x.since = s.tb)
      ∧ (w.wake = false → (c.unit w.u).drawHeld = false → (c.unit w.u).drawPend = true → exec (.drawReq d) s = .next (s.all w desc (.block 14 0))))
    ∧ (∀ (s : State) (w : Who), let desc : Desc := { once := true }
      ready s w desc = true → ∃ t, exec .drawRel s = .next t ∧ Goes s t w desc ∧ keepsRegs s t w.cell.uid w.u [] ∧ t.home = s.home
        ∧ t.clu.draws = s.clu.draws ∧ (t.unit w.cell.uid w.u).drawHeld = false)
    ∧ (∀ (s : State) (die : Nat), s.mayGrant die = true → ∃ d t, d ∈ s.clu.draws ∧ d.die = die ∧ exec (.drawGrant die) s = .next t ∧ t.home = s.home
        ∧ (∀ x ∈ s.clu.draws, x.die = die → x.pri.toNat ≤ d.pri.toNat ∧ (x.pri = d.pri → d.seq ≤ x.seq)) ∧ (∀ x ∈ t.clu.draws, x.seq ≠ d.seq)
        ∧ (d.kind = 0 → ∀ c, s.cell? d.cell = some c → d.num < c.units.length → (t.unit d.cell d.num).drawHeld = true ∧ (t.unit d.cell d.num).drawPend = false
          ∧ ∀ i, ((c.unit d.num).thread i).st = .blocked → ((c.unit d.num).thread i).wkind = 14 →
            (t.thread d.cell d.num i).answer = some (BitVec.ofNat 64 (s.tb - ((c.unit d.num).thread i).wclk * 5 / 8)))
        ∧ (d.kind = 1 → ∀ o ∈ t.clu.copies, o.num = d.num → o.granted = true) ∧ (d.kind = 2 → ∀ o ∈ t.clu.mx, o.num = d.num → o.granted = true)))
  ∧ ((∀ (s : State) (watts : Nat), s.pkg.periodEnd ≤ s.tb → ∃ t, exec (.powerBudgetPeriod watts) s = .next t ∧ { t with pkg := s.pkg } = s ∧ t.pkg.measured = watts
      ∧ t.pkg.periodEnd = s.tb + 10000 ∧ t.pkg.cap = s.pkg.cap
      ∧ ∀ d, d < 8 → (s.pkg.cap < watts → t.pkg.budgets.getD d 0 = s.pkg.budgets.getD d 0 - s.pkg.budgets.getD d 0 / 4)
        ∧ (watts ≤ s.pkg.cap → s.clu.draws = [] → t.pkg.budgets.getD d 0 = s.pkg.budgets.getD d 0))
    ∧ (∀ (s : State) (die : Nat), ∃ t u, exec (.thermalLimit die) s = .next t ∧ exec (.temperatureFall die) s = .next u ∧ t.mayGrant die = false
      ∧ t.pkg.hot.contains die = true ∧ u.pkg.hot.contains die = false ∧ { t.pkg with hot := s.pkg.hot } = s.pkg ∧ { u.pkg with hot := s.pkg.hot } = s.pkg
      ∧ { t with pkg := s.pkg } = s ∧ { u with pkg := s.pkg } = s ∧ ∀ k, k ≠ die → t.pkg.hot.contains k = s.pkg.hot.contains k ∧ u.pkg.hot.contains k = s.pkg.hot.contains k)
    ∧ (∀ s : State, ∃ t, exec .thermalTrip s = .next t ∧ t.pkg.powered = false ∧ t.cells = [] ∧ t.sched = Sched.reset ∧ t.clu = Clusters.reset ∧ t.pkg.keys = []
      ∧ t.pkg.fuseCl = s.pkg.fuseCl ∧ t.pkg.fuseSc = s.pkg.fuseSc ∧ t.pkg.fwHash = s.pkg.fwHash
      ∧ t.home.fe = [] ∧ t.home.lines = [] ∧ (∀ k, farKey k = false → sget t.home.mem k = 0) ∧ (s.home.mem.wf = true → ∀ k, farKey k = true → sget t.home.mem k = sget s.home.mem k)))

/-! ## Nodes, system registers -/

/-- R191-R193, R317: an `emit` to a node of its device, once its device-scope release is complete and its record is read, puts the record into the open bin of its key, opens one, or fires the bin that the record fills as one cell of the node; with the spill area
full it blocks (wait kind 12) and keeps the record it has read; to another device the remote form blocks (wait kind 13) with the emit on its way. Until its release is complete, which the first issue begins, it stalls with no effect (an interlock, by the model's reading: log entry 30). A handle that names no node of the context, or one of the
other kind, traps with EMIT, a misaligned record with MISALIGNED, and one that cannot be read with the read's code.
R191, R192, R318: `tbin.flush` fires every open bin of a node of its device, `tbin.query` answers the records that wait in it and changes nothing; a bin's timer fires it T after its first record; the pull of a remote emit bins its record at a node of the package and the emit is
over, or parks the emitting threads where the record cannot be read, as it cannot at an address of a recipe region. Which record a node of another package takes the state does not hold: that it counts 8 bytes, and
that its launch unit has room for it, is the model's choice (log entry 61); that the two `tbin` forms act on keyed and unkeyed nodes alike is the model's reading (log entry 62). -/
def Obligations.Nodes : Prop :=
  (∀ (b a : BitVec 7) (s : State) (w : Who) (f : EmitForm) (i : Instr),
      let h := w.src w.lead a 64
      let va := w.src w.lead b 64
      let scope : BitVec 3 := if f = .remote then 3 else 2
      let kept := (w.unit.thread w.lead).kept
      let dest := s.emitTo w.cell.dev w.cell.ctx h f
      let waits := (!w.wake || w.woke 2) && (dest.isSome && va.toNat % 8 == 0) && !s.relsDone w scope 2
      let desc : Desc := { rds := [(a, 64), (b, 64)], once := true, settles := true, bad := !w.uniform a || !w.uniform b, wait := waits }
      (i = .emitPlain b a ∧ f = .plain) ∨ (i = .emitKeyed b a ∧ f = .keyed) ∨ (i = .emitRemote b a ∧ f = .remote) →
      (tested s w desc = true → waits = true → w.wake = false → exec i s = .next ((s.relStart scope 2 w).stallAll w))
      ∧ (ready s w desc = true →
      (dest = none → exec i s = .next (s.all w desc (.trap ⟨tEmit, h, 0⟩)))
      ∧ (dest.isSome = true → va.toNat % 8 ≠ 0 → exec i s = .next (s.all w desc (.trap ⟨tMisaligned, va, 8⟩)))
      ∧ (dest = some .there → va.toNat % 8 = 0 → ∃ t : State, exec i s = .next (t.all w desc (.block 13 h))
          ∧ t.home = s.home ∧ t.cells = s.cells
          ∧ ∃ r ∈ t.sched.remotes, r.cell = w.cell.uid ∧ r.unit = w.u ∧ r.tids = w.tids ∧ r.src = w.cell.ctx ∧ r.handle = h ∧ r.va = va)
      ∧ (∀ n cx, dest = some (.here n) → va.toNat % 8 = 0 → s.ctx? w.cell.ctx = some cx →
          (∀ code x s1, kept = [] → s.readSpan w.cell cx va n.z (spanFuel n.z) = (.fault code x, s1) →
            exec i s = .next (s1.all w desc (.trap (readTrap code x w.pc s1 w.cell.ctx))))
          ∧ (∀ rec s1, kept = [] → s.readSpan w.cell cx va n.z (spanFuel n.z) = (.ok rec, s1) → s1.spillFull n.dev = true →
            exec i s = .next ((s1.updThread w.cell.uid w.u w.lead (fun t => { t with kept := rec })).all w desc (.block 12 h)))
          ∧ (kept ≠ [] → s.spillFull n.dev = true → exec i s = .next (s.all w desc (.block 12 h)))
          ∧ (∀ rec s1, (kept = [] ∧ s.readSpan w.cell cx va n.z (spanFuel n.z) = (.ok rec, s1)) ∨ (kept ≠ [] ∧ rec = kept ∧ s1 = s) → s1.spillFull n.dev = false →
            let key : W64 := if n.keyed then BitVec.ofNat 64 (natOfBytes (rec.take 8)) else 0
            let goes := fun (q : State → Prop) => ∃ t, exec i s = .next t ∧ Goes s t w desc ∧ keepsAllRegs s t w.cell.uid w.u ∧ t.home = s1.home ∧ q t
            (∀ x, n.bins.find? (fun x => x.key == key) = some x → x.recs.length + 1 < n.c →
                goes (fun t => ∃ m, t.node? n.dev n.idx = some m ∧ ∃ y ∈ m.bins, y.key = key ∧ y.recs = x.recs ++ [rec] ∧ y.since = x.since))
            ∧ (n.bins.find? (fun x => x.key == key) = none → (n.keyed = false ∨ n.bins.length < Config.maxKeys) → 1 < n.c →
                goes (fun t => ∃ m, t.node? n.dev n.idx = some m ∧ ⟨key, s1.tb, [rec]⟩ ∈ m.bins))
            ∧ (n.bins.find? (fun x => x.key == key) = none → n.keyed = true → Config.maxKeys ≤ n.bins.length →
                goes (fun t => ∃ m, t.node? n.dev n.idx = some m ∧ (key, s1.tb, rec) ∈ m.spill))
            ∧ (∀ x, n.bins.find? (fun x => x.key == key) = some x → n.c ≤ x.recs.length + 1 →
                goes (fun t => ∃ l ∈ t.sched.launches, l.batch = x.recs ++ [rec] ∧ l.node = some n.idx ∧ l.ctx = n.ctx ∧ l.kimg = n.kernel ∧ l.param = n.param ∧ l.count = 1))))))
  ∧ (let fired := fun (t : State) (n : LNode) (b : Bin) => ∃ l ∈ t.sched.launches, l.batch = b.recs ∧ l.node = some n.idx ∧ l.ctx = n.ctx ∧ l.kimg = n.kernel ∧ l.param = n.param ∧ l.count = 1
    (∀ (a d : BitVec 7) (s : State) (w : Who),
      let flush : Desc := { rds := [(a, 64)], once := true, bad := !w.uniform a }
      let query : Desc := { rds := [(a, 64)], wr := some (d, w.dstWidth d), once := true, bad := !w.uniform a }
      let h := w.src w.lead a 64
      let node := if handleFab h = fabidOf s.pkg w.cell.dev then s.ownNode w.cell.dev w.cell.ctx h else none
      (ready s w flush = true → (node = none → exec (.tbinFlush a) s = .next (s.all w flush (.trap ⟨tEmit, h, 0⟩)))
        ∧ ∀ n, node = some n → (n.bins.map (·.key)).Nodup → ∃ t, exec (.tbinFlush a) s = .next t ∧ Goes s t w flush
            ∧ keepsAllRegs s t w.cell.uid w.u ∧ t.home = s.home ∧ ∀ x ∈ n.bins, fired t n x)
      ∧ (ready s w query = true → (node = none → exec (.tbinQuery a d) s = .next (s.all w query (.trap ⟨tEmit, h, 0⟩)))
        ∧ ∀ n, node = some n → ∃ t, exec (.tbinQuery a d) s = .next t ∧ Goes s t w query ∧ t.home = s.home ∧ t.sched = s.sched
            ∧ keepsRegs s t w.cell.uid w.u (w.tids.flatMap (fun k => w.regsOf k [(d, w.dstWidth d)]))
            ∧ ∀ k ∈ w.tids, w.quiet k d (w.dstWidth d) = true →
              t.holds w k d (w.dstWidth d) (BitVec.ofNat 64 ((n.bins.map (fun x => x.recs.length)).sum + n.spill.length))))
    ∧ (∀ (s : State) (dev idx : Nat) (key : W64) (n : LNode) (x : Bin), s.node? dev idx = some n → n.t ≠ 0 → n.bins.find? (fun y => y.key == key) = some x →
      x.since + n.t ≤ s.tb → ∃ t, exec (.binTimerExpiry dev idx key) s = .next t ∧ t.home = s.home ∧ t.cells = s.cells ∧ fired t n x)
    ∧ (∀ (s : State) (num : Nat) (r : RemoteEmit) (c : Cell) (cx : Context), s.sched.remotes.find? (fun x => x.id == num) = some r → s.cell? r.cell = some c →
      s.ctx? r.src = some cx → s.asksHost c r.va = false → (∀ f ∈ s.clu.flits, f.load ≠ .remoteEmit num) →
      let node := (devOfFabid s.pkg (handleFab r.handle)).bind (fun d => s.ownNode d r.src r.handle)
      let z := (node.map (·.z)).getD 8
      let read := s.pullRecord c cx r.va z
      (s.pullSize r = z)
      ∧ (∀ i, i < z → (cx.region? (r.va + BitVec.ofNat 64 i)).isSome = true → (∀ rec s1, read ≠ (.ok rec, s1)))
      ∧ (∀ n rec s1, node = some n → s.spillFull n.dev = false → read = (.ok rec, s1) → n.bins = [] → n.keyed = false → 1 < n.c →
        ∃ t, exec (.remoteEmitPull num) s = .next t ∧ (∀ x ∈ t.sched.remotes, x.id ≠ num) ∧ t.cells = s.cells
          ∧ ∃ m, t.node? n.dev n.idx = some m ∧ m.bins = [⟨0, s.tb, [rec]⟩])
      ∧ (∀ code va s1, node = none → read = (.fault code va, s1) → c.evicted = false → c.evicting = false → s.buildsOf r.cell = [] →
        ∃ t, exec (.remoteEmitPull num) s = .next t ∧ (∀ x ∈ t.sched.remotes, x.id ≠ num) ∧ t.home = s.home
          ∧ ∀ k ∈ r.tids, ((c.unit r.unit).thread k).st = .blocked → ((c.unit r.unit).thread k).wkind = 13 →
            (t.thread r.cell r.unit k).st = .parked ∧ (t.thread r.cell r.unit k).tcode = code)))

/-- R320, R321, R345-R348: `rdsys` completes with the register's 64 bits: DEVID, PMODE, cluster count, CTXCTL, TRAPQ, its head and tail, SLICE, WATCHDOG, RREGION and HANDLER, each with reserved bits 0, and 0 for an instance there is not; above 0x0FF it is for the handler
alone, as every `wrsys` is, and else traps with PRIVILEGE and the register's number.
R320, R347: `wrsys` of the handler stalls, with no effect, for the loads and the device-scope release of its fence and for earlier writes of its register, and then its threads, in ascending tid, each write what they name and go on; the host writes the same registers without a fence. CTXCTL takes TRAPHOST and CHK alone; SLICE and WATCHDOG the nearer bound; TRAPQ its base and a legal
LOG2N, with HEAD and TAIL 0; TRAPQHEAD a value not more than the queue's size behind TAIL. No other register and no other context changes. -/
def Obligations.SystemRegisters : Prop :=
  ((∀ (i : BitVec 11) (a d : BitVec 7) (s : State) (w : Who) (c : Context), s.ctx? w.cell.ctx = some c →
      let desc : Desc := { rds := if hasInstances i then [(a, 32)] else [], wr := some (d, w.dstWidth d), lat := 4, bad := !rdsysNum i, priv := regPriv w i }
      let n := fun (k : Nat) => if hasInstances i then (w.src k a 32).toNat else 0
      ready s w desc = true → ∃ t, exec (.rdsys i a d) s = .next t ∧ RegResult s w desc t (fun k => (s.readReg c i (n k), 0)))
    ∧ (∀ (s : State) (c : Context) (n : Nat),
      s.readReg c 0 n = BitVec.ofNat 64 (c.dev * 2 ^ 16 + (fabidOf s.pkg c.dev).toNat)
      ∧ s.readReg c 1 n = BitVec.ofNat 64 (stacksUp s.pkg * 256 + numDevs s.pkg.mode * 16 + s.pkg.mode.code)
      ∧ s.readReg c 2 n = BitVec.ofNat 64 (devClusters s.pkg c.dev).length ∧ s.readReg c 8 n = c.drawWait
      ∧ s.readReg c 0x100 n = c.tag ++ 0#21 ++ c.topPri ++ 0#6 ++ BitVec.ofBool c.trapHost ++ BitVec.ofBool c.chk
      ∧ s.readReg c 0x101 n = c.trapq ∧ s.readReg c 0x102 n = 0#32 ++ c.tqHead ∧ s.readReg c 0x103 n = 0#32 ++ c.tqTail
      ∧ s.readReg c 0x104 n = 0#32 ++ c.slice ∧ s.readReg c 0x105 n = 0#32 ++ c.watchdog ∧ s.readReg c 0x108 n = c.handler
      ∧ (∀ r, c.regions[n]? = some r → s.readReg c 0x106 n = r.desc ++ r.err ++ BitVec.ofBool r.v)
      ∧ (c.regions.length ≤ n → s.readReg c 0x106 n = 0) ∧ (Config.maxNodes ≤ n → s.readReg c 0x107 n = 0)
      ∧ ((devClusters s.pkg c.dev).length ≤ n → s.readReg c 3 n = 0 ∧ s.readReg c 4 n = 0 ∧ s.readReg c 5 n = 0))
    ∧ (∀ (i : BitVec 11) (a d : BitVec 7) (s : State) (w : Who) (j : Instr) (desc : Desc), s.who = some w → w.cell.handler = false →
      (j = .rdsys i a d ∧ 0x100 ≤ i.toNat ∧ desc = { rds := if hasInstances i then [(a, 32)] else [], wr := some (d, w.dstWidth d), lat := 4, bad := !rdsysNum i, priv := regPriv w i })
        ∨ (j = .wrsys i a d ∧ desc = wrsysDesc s w i a d) →
      wellFormed j = true → w.run = none → (uniformTrap w desc).all (fun x => x.code != tIllegal) = true →
      exec j s = .next (s.trapAll w desc ⟨tPrivilege, 0, i.setWidth 64⟩)))
  ∧ ((∀ (i : BitVec 11) (a d : BitVec 7) (s : State) (w : Who) (k : Nat),
      let desc := wrsysDesc s w i a d
      let n := fun (k : Nat) => if hasInstances i then (w.src k a 32).toNat else 0
      (tested s w desc = true → (∃ t ∈ w.tids, s.loadsOpen w t 3 = true) ∨ s.relsDone w 2 3 = false → w.wake = false →
        exec (.wrsys i a d) s = .next ((s.relStart 2 3 w).stallAll w))
      ∧ (ready s w desc = true →
        (∃ o u, exec (.wrsys i a d) s = .next (u.ends w desc o) ∧ Acts s w desc o u (fun k x r y =>
          ∀ c, x.ctx? w.cell.ctx = some c →
            (∀ t, x.writeReg c i (n k) (w.src k d 64) = some t → r = .done ∧ y = t)
            ∧ (x.writeReg c i (n k) (w.src k d 64) = none → r = .stall ∧ y = x)))
        ∧ (w.actors desc = [k] → ∀ c, s.ctx? w.cell.ctx = some c →
          (∀ t, s.writeReg c i (n k) (w.src k d 64) = some t → exec (.wrsys i a d) s = .next (t.all w desc .done))
          ∧ (s.writeReg c i (n k) (w.src k d 64) = none → exec (.wrsys i a d) s = .next (s.all w desc .stall)))))
    ∧ (∀ (s : State) (c : Context) (v : W64) (n : Nat), s.ctx? c.tag = some c →
      let gives := fun (num : BitVec 11) (d : Context) => ∃ t, s.writeReg c num n v = some t ∧ t.ctx? c.tag = some d ∧ (∀ x, x ≠ c.tag → t.ctx? x = s.ctx? x)
        ∧ { t with sched := s.sched } = s ∧ { t.sched with ctxs := s.sched.ctxs } = s.sched
      let l := (v.extractLsb' 0 5).toNat
      let log := if 1 ≤ l ∧ l ≤ 3 then 4 else min l 16
      gives 0x100 { c with trapHost := v.getLsbD 1, chk := v.getLsbD 0 }
      ∧ gives 0x104 { c with slice := BitVec.ofNat 32 (min 100000000 (max 100000 (v.toNat % 2 ^ 32))) }
      ∧ gives 0x105 { c with watchdog := BitVec.ofNat 32 (min 1000000000 (max 1000000 (v.toNat % 2 ^ 32))) }
      ∧ gives 0x101 { c with tqHead := 0, tqTail := 0, trapq := v.extractLsb' 12 52 ++ 0#7 ++ BitVec.ofNat 5 log }
      ∧ ((c.tqTail - v.setWidth 32).toNat ≤ c.tqSize → gives 0x102 { c with tqHead := v.setWidth 32 })
      ∧ (c.tqSize < (c.tqTail - v.setWidth 32).toNat → gives 0x102 c))
    ∧ (∀ (s : State) (ctx : BitVec 32) (num : BitVec 11) (v : W64) (c : Context), s.hostCtx? ctx = some c → s.waiting = [] → num = 0x100 ∨ num = 0x104 ∨ num = 0x105 →
      ∃ t u x, s.writeReg c num 0 v = some t ∧ s.writeReg c 0x101 0 v = some u ∧ s.writeReg c 0x102 0 v = some x
        ∧ exec (.sysregWrite ctx num v) s = .next t ∧ exec (.trapqWrite ctx v) s = .next u ∧ exec (.trapqheadWrite ctx v) s = .next x))

/-- R348-R350: a region is created from a descriptor that is well formed, that meets no region or mapped page, and whose pin cap fits the device's bound; else ERR says 1, 2 or 3 and the region is as it was. A region that holds a BUILDING or pinned tile is neither replaced nor
destroyed (ERR 4); a destroyed or replaced one leaves no tile. The same for a node: created from its descriptor and kernel header, or ERR 1, 2, 3 or 5; not destroyed while records or launches of it are left (ERR 4).
That an unreadable kernel header is ERR 2 and the lowest code is given (log entry 69), which mapped pages refuse a region (log entry 70), and that ERR 5 answers a V = 0 to a node of another context (log entry 71) are the model's reading. -/
def Obligations.RegionsAndNodes : Prop :=
  ∀ (s : State) (ctx : BitVec 32) (n : Nat) (v : W64) (c : Context), s.hostCtx? ctx = some c → s.waiting = [] →
    (∀ old, c.regions[n]? = some old →
      let done := fun (i : Instr) (r : Region) (q : State → Prop) => ∃ t d, exec i s = .next t ∧ t.ctx? ctx = some d ∧ d.regions[n]? = some r ∧ q t
      let busy := old.v = true ∧ ∃ x ∈ s.home.tiles, x.ctx = c.tag ∧ old.holds x.base = true ∧ (x.st = .building ∨ x.pin ≠ 0)
      (busy → done (.rregionCreate ctx n v) { old with err := 4 } (fun t => t.home = s.home) ∧ done (.rregionDestroy ctx n v) { old with err := 4 } (fun t => t.home = s.home))
      ∧ (∀ b s1, ¬busy → s.fBytes c (descVa v) 64 = (.ok b, s1) →
        (regionOfDesc b = none → done (.rregionCreate ctx n v) { old with err := 1 } (fun t => t.home = s1.home))
        ∧ (∀ r, regionOfDesc b = some r →
          let clash := (s1.otherRegions c n).any r.meets = true ∨ s1.mapsIn c r = true
          let tooBig := capBound s1.pkg.mode < ((s1.otherRegions c n).map Region.cap).sum + r.cap
          (clash → done (.rregionCreate ctx n v) { old with err := 2 } (fun t => t.home = s1.home))
          ∧ (¬clash → tooBig → done (.rregionCreate ctx n v) { old with err := 3 } (fun t => t.home = s1.home))
          ∧ (¬clash → ¬tooBig → old.v = false → done (.rregionCreate ctx n v) { r with desc := v.extractLsb' 6 58 } (fun t => t.home = s1.home
              ∧ (t.ctx? ctx).map (·.reserve) = some true))
          ∧ (¬clash → ¬tooBig → old.v = true → done (.rregionCreate ctx n v) { r with desc := v.extractLsb' 6 58 } (fun t => (t.ctx? ctx).map (·.reserve) = some true
              ∧ ∀ x ∈ t.home.tiles, x.ctx = c.tag → old.holds x.base = false))))
      ∧ (¬busy → old.v = true → done (.rregionDestroy ctx n v) { desc := v.extractLsb' 6 58 } (fun t => ∀ x ∈ t.home.tiles, x.ctx = c.tag → old.holds x.base = false)))
    ∧ (n < Config.maxNodes →
      let reg := fun (t : State) => (t.ctx? ctx).map (fun d => (d.nodeReg n))
      let done := fun (i : Instr) (e : BitVec 5) => ∃ t, exec i s = .next t ∧ t.sched.nodes = s.sched.nodes ∧ reg t = some { c.nodeReg n with err := e }
      (∀ x, s.node? c.dev n = some x → x.ctx = c.tag → s.nodeBusy x = true → done (.noderegRegister ctx n v) 4 ∧ done (.noderegDestroy ctx n v) 4)
      ∧ (∀ x, s.node? c.dev n = some x → x.ctx ≠ c.tag → done (.noderegDestroy ctx n v) 5)
      ∧ (∀ x, s.node? c.dev n = some x → x.ctx = c.tag → s.nodeBusy x = false → ∃ t, exec (.noderegDestroy ctx n v) s = .next t ∧ t.node? c.dev n = none
          ∧ reg t = some ⟨n, v.extractLsb' 6 58, 0⟩ ∧ t.home = s.home)
      ∧ (∀ b s1, s.node? c.dev n = none → s.fBytes c (descVa v) 64 = (.ok b, s1) →
        (nodeOfDesc c n (v ||| 1) b = none → done (.noderegRegister ctx n v) 1)
        ∧ (∀ f h s2, nodeOfDesc c n (v ||| 1) b = some f → s1.readHeader c (BitVec.ofNat 64 (fieldAt b 0 8)) = (.ok h, s2) →
          let x := f h
          let e : BitVec 5 := if x.mismatch then 1 else if h.gang ≠ 0 then 2 else if 4096 * h.basin < x.c * x.z then 3 else 0
          (e ≠ 0 → done (.noderegRegister ctx n v) e)
          ∧ (e = 0 → ∃ t, exec (.noderegRegister ctx n v) s = .next t ∧ t.node? c.dev n = some x ∧ x.ctx = c.tag ∧ x.bins = [] ∧ x.spill = []
              ∧ reg t = some ⟨n, v.extractLsb' 6 58, 0⟩))))

/-- R314, R322-R324, R380: the threads of the handler that issue `sysop.restart`, `.skip` or `.kill` act in ascending tid, each on the named threads of the named cell, and on no other, and go on; on an evicted cell the act waits for its restore; `.killcell` ends every thread of a cell and
poisons its builds. A thread whose designator or range has a reserved bit set traps with ILLEGAL_INSTRUCTION; one that names no cell has no effect.
R325: over a span, `sysop.tlbinv` waits for the accesses already translated and then leaves no translation of the context for it; `sysop.wbrange` waits while stores to its lines are on their way, which drain now, and then no line of it is newer than its memory; `sysop.invrange` also
waits for leases and then holds no far line of it; the wait is a blocking point (wait kind 15) while a line of the host or another device is among them, and else an interlock. Where the span meets an unmapped page they trap with TRANSLATION at it, the lines before it dealt with, and `tlbinv` removes the entries
of that page too (the model's reading: log entry 73). That privilege comes before the tests of the operands is the model's reading (log entry 72). -/
def Obligations.SystemOperations : Prop :=
  (∀ (b a : BitVec 7) (s : State) (w : Who) (k : Nat) (i : Instr) (f : Nat),
      let desc := sysopDesc w f a b true
      let x := w.src k a 64
      let y := w.src k b 64
      let bad := x.extractLsb' 56 8 ≠ 0 ∨ (x.getLsbD 39 = false ∧ (y.getLsbD 7 = true ∨ y.extractLsb' 15 49 ≠ 0 ∨ (y.extractLsb' 8 7).toNat < (y.extractLsb' 0 7).toNat))
      let names := fun (x y : W64) (c : Cell) (u j : Nat) => u = (if x.getLsbD 39 then 0 else (x.extractLsb' 32 7).toNat + 1) ∧ u < c.units.length ∧ j < (c.unit u).threads.length
        ∧ (if x.getLsbD 39 then j = 0 else (y.extractLsb' 0 7).toNat ≤ j ∧ j ≤ (y.extractLsb' 8 7).toNat)
      (i = .sysopRestart b a ∧ f = 0) ∨ (i = .sysopSkip b a ∧ f = 1) ∨ (i = .sysopKill b a ∧ f = 2) → ready s w desc = true →
      (∃ o z, exec i s = .next (z.ends w desc o) ∧ Acts s w desc o z (fun k x r y =>
        let d := w.src k a 64
        let g := w.src k b 64
        let wrong := d.extractLsb' 56 8 ≠ 0 ∨ (d.getLsbD 39 = false ∧ (g.getLsbD 7 = true ∨ g.extractLsb' 15 49 ≠ 0 ∨ (g.extractLsb' 8 7).toNat < (g.extractLsb' 0 7).toNat))
        (wrong → r = .trap ⟨tIllegal, 0, w.word.setWidth 64⟩ ∧ y = x)
        ∧ (¬wrong → r = .done ∧ (x.namedCell w.cell.ctx d = none → y = x)
          ∧ ∀ c, x.namedCell w.cell.ctx d = some c → x.cell? c.uid = some c → c.evicted = false → ∀ u j,
            (names d g c u j → y.thread c.uid u j = (match f with
              | 0 => (x.thread c.uid u j).resume false x.clk
              | 1 => (x.thread c.uid u j).resume true x.clk
              | _ => (x.thread c.uid u j).kill))
            ∧ (¬names d g c u j → y.thread c.uid u j = x.thread c.uid u j))))
      ∧ (w.actors desc = [k] →
      (bad → exec i s = .next (s.all w desc (.trap ⟨tIllegal, 0, w.word.setWidth 64⟩)))
      ∧ (¬bad → s.namedCell w.cell.ctx x = none → exec i s = .next (s.all w desc .done))
      ∧ (∀ c, ¬bad → s.namedCell w.cell.ctx x = some c → s.cell? c.uid = some c →
        let u := if x.getLsbD 39 then 0 else (x.extractLsb' 32 7).toNat + 1
        let named := fun (j : Nat) => u < c.units.length ∧ j < (c.unit u).threads.length ∧ (if x.getLsbD 39 then j = 0 else (y.extractLsb' 0 7).toNat ≤ j ∧ j ≤ (y.extractLsb' 8 7).toNat)
        c.uid ≠ w.cell.uid ∨ u ≠ w.u →
        ∃ t, exec i s = .next t ∧ Goes s t w desc ∧ keepsAllRegs s t w.cell.uid w.u
          ∧ (c.evicted = false → ∀ v j, (c.uid, v) ≠ (w.cell.uid, w.u) → (v = u ∧ named j → t.thread c.uid v j = (match f with
              | 0 => (s.thread c.uid v j).resume false s.clk
              | 1 => (s.thread c.uid v j).resume true s.clk
              | _ => (s.thread c.uid v j).kill)) ∧ (¬(v = u ∧ named j) → t.thread c.uid v j = s.thread c.uid v j))
          ∧ (c.evicted = true → (∀ v j, (c.uid, v) ≠ (w.cell.uid, w.u) → t.thread c.uid v j = s.thread c.uid v j) ∧ ∃ d, t.cell? c.uid = some d
              ∧ ∀ j, named j → (u, j, f) ∈ d.deferred))))
  ∧ (∀ (a : BitVec 7) (s : State) (w : Who) (k : Nat),
      let desc := sysopDesc w 6 a a false
      let x := w.src k a 64
      ready s w desc = true →
      (∃ o z, exec (.sysopKillcell a) s = .next (z.ends w desc o) ∧ Acts s w desc o z (fun k x r y =>
        let d := w.src k a 64
        (d.extractLsb' 56 8 ≠ 0 → r = .trap ⟨tIllegal, 0, w.word.setWidth 64⟩ ∧ y = x)
        ∧ (d.extractLsb' 56 8 = 0 → r = .done ∧ (x.namedCell w.cell.ctx d = none → y = x)
          ∧ ∀ c, x.namedCell w.cell.ctx d = some c → x.cell? c.uid = some c → x.buildsOf c.uid = [] →
            ∀ u j, u < c.units.length → j < (c.unit u).threads.length → (y.thread c.uid u j).st = .exited)))
      ∧ (w.actors desc = [k] →
      (x.extractLsb' 56 8 ≠ 0 → exec (.sysopKillcell a) s = .next (s.all w desc (.trap ⟨tIllegal, 0, w.word.setWidth 64⟩)))
      ∧ (x.extractLsb' 56 8 = 0 → s.namedCell w.cell.ctx x = none → exec (.sysopKillcell a) s = .next (s.all w desc .done))
      ∧ (∀ c, x.extractLsb' 56 8 = 0 → s.namedCell w.cell.ctx x = some c → s.cell? c.uid = some c →
        c.uid ≠ w.cell.uid → w.cell.killed = false → s.buildsOf c.uid = [] → ∃ t, exec (.sysopKillcell a) s = .next t ∧ Goes s t w desc
          ∧ keepsAllRegs s t w.cell.uid w.u ∧ (t.cell? c.uid).map (·.killed) = some true
          ∧ (∀ u j, u < c.units.length → j < (c.unit u).threads.length → (t.thread c.uid u j).st = .exited) ∧ ∀ e ∈ t.clu.mx, e.cell = c.uid → e.running = true)))
  ∧ (∀ (b a : BitVec 7) (s : State) (w : Who),
      let tlb := { sysopDesc w 3 a b true with wait := w.tids.any (s.tlbinvWaits w a b) }
      let acts := fun (i : Instr) (desc : Desc) (inv : Bool) => ready s w desc = true → ∃ o z, exec i s = .next (z.ends w desc o) ∧ Acts s w desc o z (fun k x r y =>
        ∀ c ps e s1, x.ctx? w.cell.ctx = some c → x.pagesOf c w.cell.cl (w.src k a 64) (w.src k b 64) = (ps, e, s1) →
          y.home.mem = x.home.mem
          ∧ (s1.rangeKeys ps inv ≠ [] → r = (if (s1.rangeKeys ps inv).any (outKey w.cell.dev) then .block 15 (w.src k a 64) else .stall))
          ∧ (s1.rangeKeys ps inv = [] → (∀ h ∈ y.home.lines, inPages ps h.line = true → h.dirty = false) ∧ (e = .done → r = .done)
            ∧ (∀ va, e = .bad va → r = .trap ⟨tTranslation, BitVec.ofNat 64 va, 0⟩)
            ∧ (inv = true → ∀ h ∈ y.home.lines, inPages ps h.line = true → outKey c.dev (128 * h.line) = true → h.present = false)))
      (ready s w tlb = true → ∃ o z, exec (.sysopTlbinv b a) s = .next (z.ends w tlb o) ∧ Acts s w tlb o z (fun k x r y =>
        (w.src k b 64 = 0 → r = .done ∧ y = x)
        ∧ (∀ c ps e s1, w.src k b 64 ≠ 0 → x.ctx? w.cell.ctx = some c → x.pagesOf c w.cell.cl (w.src k a 64) (w.src k b 64) = (ps, e, s1) →
          (e = .done → r = .done ∧ ∀ t ∈ y.clu.tlb, t.ctx = c.tag →
            (t.page + 1) * pageBytes t.lvl ≤ (w.src k a 64).toNat ∨ (w.src k a 64).toNat + (w.src k b 64).toNat ≤ t.page * pageBytes t.lvl)
          ∧ (∀ va, e = .bad va → r = .trap ⟨tTranslation, BitVec.ofNat 64 va, 0⟩))))
      ∧ acts (.sysopWbrange b a) { rds := [(a, 64), (b, 64)], wait := s.rangeHold w a b false } false
      ∧ acts (.sysopInvrange b a) { sysopDesc w 5 a b true with wait := s.rangeHold w a b true } true)
  ∧ (∀ (b a : BitVec 7) (s s1 : State) (w : Who) (k : Nat) (c : Context) (ps : List Page) (e : RangeEnd),
      let lo := w.src k a 64
      let n := w.src k b 64
      let tlb := { sysopDesc w 3 a b true with wait := w.tids.any (s.tlbinvWaits w a b) }
      let wb : Desc := { rds := [(a, 64), (b, 64)], wait := s.rangeHold w a b false }
      let inv := { sysopDesc w 5 a b true with wait := s.rangeHold w a b true }
      let far := fun (ks : List Nat) => ks.any (outKey w.cell.dev) = true
      let clean := fun (t : State) => ∀ h ∈ t.home.lines, inPages ps h.line = true → h.dirty = false
      let waits := fun (i : Instr) (desc : Desc) (ks : List Nat) =>
        (ready s w desc = true → ks ≠ [] → far ks → ∃ t : State, exec i s = .next (t.all w desc (.block 15 lo)) ∧ t.home.mem = s.home.mem)
        ∧ (tested s w desc = true → w.wake = false → ks ≠ [] → ¬far ks → ∃ t : State, exec i s = .next (t.stallAll w) ∧ t.home.mem = s.home.mem ∧ t.cells = s.cells
            ∧ (s1.dirtyOn ps ≠ [] → ∀ x ∈ t.dirtyOn ps, x.urged = true))
      s.ctx? w.cell.ctx = some c → s.pagesOf c w.cell.cl lo n = (ps, e, s1) → w.tids = [k] →
      (tested s w tlb = true → w.wake = false → s.tlbinvWaits w a b k = true → exec (.sysopTlbinv b a) s = .next (s.stallAll w))
      ∧ (ready s w tlb = true → n ≠ 0 →
        (e = .done → (∀ x ∈ s.cells, x.subs = []) → ∃ t, exec (.sysopTlbinv b a) s = .next t ∧ Goes s t w tlb
            ∧ keepsAllRegs s t w.cell.uid w.u ∧ t.home.mem = s.home.mem
            ∧ (∀ x ∈ t.clu.tlb, x.ctx = c.tag → (x.page + 1) * pageBytes x.lvl ≤ lo.toNat ∨ lo.toNat + n.toNat ≤ x.page * pageBytes x.lvl)
            ∧ ∀ x ∈ s.clu.tlb, x.ctx ≠ c.tag → x ∈ t.clu.tlb)
        ∧ (∀ va, e = .bad va → (∀ x ∈ s.cells, x.subs = []) →
            ∃ t : State, exec (.sysopTlbinv b a) s = .next (t.all w tlb (.trap ⟨tTranslation, BitVec.ofNat 64 va, 0⟩)) ∧ t.home = s.home))
      ∧ (ready s w tlb = true → n = 0 → exec (.sysopTlbinv b a) s = .next (s.all w tlb .done))
      ∧ waits (.sysopWbrange b a) wb (s1.rangeKeys ps false)
      ∧ (ready s w wb = true → (e = .done → s1.rangeKeys ps false = [] → ∃ t, exec (.sysopWbrange b a) s = .next t ∧ Goes s t w wb ∧ keepsAllRegs s t w.cell.uid w.u
            ∧ t.home.mem = s.home.mem ∧ clean t)
        ∧ (∀ va, e = .bad va → s1.rangeKeys ps false = [] → ∃ t : State, exec (.sysopWbrange b a) s = .next (t.all w wb (.trap ⟨tTranslation, BitVec.ofNat 64 va, 0⟩))
            ∧ t.home.mem = s.home.mem ∧ clean t))
      ∧ waits (.sysopInvrange b a) inv (s1.rangeKeys ps true)
      ∧ (ready s w inv = true → (e = .done → s1.rangeKeys ps true = [] → ∃ t, exec (.sysopInvrange b a) s = .next t ∧ Goes s t w inv ∧ keepsAllRegs s t w.cell.uid w.u
            ∧ t.home.mem = s.home.mem ∧ clean t ∧ ∀ h ∈ t.home.lines, inPages ps h.line = true → outKey c.dev (128 * h.line) = true → h.present = false)
        ∧ (∀ va, e = .bad va → s1.rangeKeys ps true = [] → ∃ t : State, exec (.sysopInvrange b a) s = .next (t.all w inv (.trap ⟨tTranslation, BitVec.ofNat 64 va, 0⟩))
            ∧ t.home.mem = s.home.mem ∧ clean t)))

/-! ## Queues, contexts, the host -/

/-- R354: TAIL takes a value not more than the ring's size ahead of HEAD; QBASE its base and a legal LOG2N, with TAIL and HEAD 0, while the two are equal; both are refused while the queue is unbound. Writing 1 to ERR clears it; HALT takes its bit. No other window changes.
R355-R358: the command at the head of a queue that may start is read at its VA; a bad one fails with BADCMD, a LAUNCH whose header, cell count, fit or patch values fail with 0x02 to 0x05, and one that cannot be read with 0x06: ERR, INDEX and CODE are set, and HEAD is one on. A good LAUNCH puts its
cells on the pending list; a COPY, WAIT or SIGNAL starts; a COPY moves bytes within a line of the L2; a WAIT ends when the counter has reached its value. Which LOG2N a written one out of range becomes is the model's reading (log entry 79), and that a COPY of more
than 2^40 bytes fails with BADCMD (log entry 124). -/
def Obligations.QueueCommands : Prop :=
  (∀ (s : State) (q : Nat) (v : W64) (on : Bool), q < s.sched.queues.length →
      let h := s.queue q
      let gives := fun (i : Instr) (x : HwQueue) => ∃ t, exec i s = .next t ∧ t.queue q = x ∧ (∀ k, k ≠ q → t.queue k = s.queue k) ∧ { t with sched := s.sched } = s
        ∧ { t.sched with queues := s.sched.queues } = s.sched
      let l := (v.extractLsb' 0 5).toNat
      let log := if 1 ≤ l ∧ l ≤ 3 then 4 else min l 16
      (h.bound.isSome = true → (v.setWidth 32 - h.head).toNat ≤ 2 ^ h.log → gives (.qtailWrite q v) { h with tail := v.setWidth 32 })
      ∧ (h.bound = none ∨ 2 ^ h.log < (v.setWidth 32 - h.head).toNat → exec (.qtailWrite q v) s = .next s)
      ∧ (h.bound.isSome = true → h.tail = h.head →
          gives (.qbaseWrite q v) { h with tail := 0, head := 0, qbase := v.extractLsb' 12 52 ++ 0#7 ++ BitVec.ofNat 5 log })
      ∧ (h.bound = none ∨ h.tail ≠ h.head → exec (.qbaseWrite q v) s = .next s)
      ∧ gives (.qctlErrClear q) { h with err := false } ∧ gives (.qctlHalt q on) { h with halt := on })
  ∧ (∀ (s : State) (q : Nat), let h := s.queue q
      let fails := fun (code : BitVec 8) => ∃ t, exec (.launch q) s = .next t ∧ (t.queue q).err = true ∧ (t.queue q).errIndex = h.head ∧ (t.queue q).errCode = code ∧ (t.queue q).head = h.head + 1
      (∀ s1, s.readCmd q = .fault s1 → fails 0x06)
      ∧ (∀ cx b s1, s.readCmd q = .ok cx b s1 →
        let c := cmdOf h.head b
        let starts := fun (i : Instr) (x : Command) => ∃ t, exec i s = .next t ∧ (t.queue q).running = h.running ++ [x] ∧ (t.queue q).head = h.head + 1 ∧ t.home.mem = s1.home.mem
        (cmdBad b = true → fails 0x01)
        ∧ (cmdBad b = false → fieldAt b 0 1 = 1 →
          let n := c.arg2.toNat % 2 ^ 32
          (∀ s2, s1.readHeader cx c.arg0 = (.fault, s2) → fails 0x06) ∧ (∀ s2, s1.readHeader cx c.arg0 = (.bad, s2) → fails 0x02)
          ∧ (∀ hd s2, s1.readHeader cx c.arg0 = (.ok hd, s2) →
            let badCount := n = 0 ∨ (hd.gang ≠ 0 ∧ n % hd.gang ≠ 0)
            let noFit := s2.fitsDevice hd cx.dev cx.reserve = false ∨ cx.poolTooSmall hd = true
            (badCount → fails 0x04) ∧ (¬badCount → noFit → fails 0x03)
            ∧ (∀ k s3, ¬badCount → ¬noFit → s2.patchValues cx (c.arg0 + BitVec.ofNat 64 hd.hbytes) c.arg1 0 hd.patches = (.range k, s3) → fails 0x05)
            ∧ (∀ ps s3, ¬badCount → ¬noFit → s2.patchValues cx (c.arg0 + BitVec.ofNat 64 hd.hbytes) c.arg1 0 hd.patches = (.ok ps, s3) →
              ∃ t, ∃ l ∈ t.sched.launches, ∃ i ∈ t.sched.items, exec (.launch q) s = .next t ∧ l.ctx = cx.tag ∧ l.kimg = c.arg0 ∧ l.param = c.arg1 ∧ l.count = n ∧ l.hdr = hd ∧ l.patches = ps
                ∧ l.next = 0 ∧ l.ended = 0 ∧ l.queue = some q ∧ l.pri.toNat = min (cmdPri b) cx.topPri.toNat ∧ i.kind = .launch l.num ∧ i.ctx = cx.tag ∧ i.dev = cx.dev ∧ i.pri = l.pri
                ∧ (t.queue q).head = h.head + 1 ∧ (t.queue q).running = h.running ++ [{ c with prog := l.num }])))
        ∧ (cmdBad b = false → fieldAt b 0 1 = 2 → starts (.copy q none) { c with finished := c.arg2 == 0 })
        ∧ (∀ v s2 key, cmdBad b = false → fieldAt b 0 1 = 3 → s1.fBytes cx c.arg0 8 = (.ok v, s2) → s1.counterKey cx c.arg0 = some key →
            ∃ t, exec (.wait q none) s = .next t ∧ (t.queue q).head = h.head + 1
              ∧ (t.queue q).running = h.running ++ [{ c with prog := key, finished := decide (c.arg1.toNat ≤ natOfBytes v) }])
        ∧ (cmdBad b = false → fieldAt b 0 1 = 4 → starts (.signal q) { c with finished := true }))
      ∧ (∀ idx cx c, s.cmd? q idx = some (cx, c) → c.finished = false →
        (∀ bs s1 key kid,
          let src := c.arg0 + BitVec.ofNat 64 c.prog
          let dst := c.arg1 + BitVec.ofNat 64 c.prog
          let n := copyStep src dst (c.arg2.toNat - c.prog)
          c.opc = 2 → s.fPiece cx src n = (.ok bs, s1) → s1.fTarget cx dst .store = some (key, kid) → (s1.recall key n).partReady (queueNum q) cx.dev key n = true →
          (s1.line (key / 128)).present = true → (foreignKey key cx.dev = false ∨ (s1.line (key / 128)).devs.contains cx.dev = true) → (s1.line (key / 128)).kid = kid → (s1.line (key / 128)).wkey = keyOfId s1.pkg kid →
          ∃ t, exec (.copy q (some idx)) s = .next t ∧ t.home.mem = writeBytes s1.home.mem key bs
            ∧ t.cmd? q idx = some (cx, { c with prog := c.prog + n, finished := decide (c.arg2.toNat ≤ c.prog + n) }))
        ∧ (c.opc = 3 → (s.line (c.prog / 128)).maybeDirty = false → (s.line (c.prog / 128)).poison = false → c.arg1.toNat ≤ s.counterValue cx c.arg0 c.prog →
            ∃ t, exec (.wait q (some idx)) s = .next t ∧ t.cmd? q idx = some (cx, { c with finished := true }) ∧ t.home = s.home)))

/-- R357, R358: a command whose work is over completes: its counter becomes the unsigned maximum of itself and CVAL, and no other byte changes; with CVA 0 there is none; a counter that cannot be written fails the command with 0x06.
R339, R347, R371, R394, R395, R399: a creation that can be done makes a context with its registers at their reset values and binds its queues; a destruction ends every cell of the context, drops its items, launches and nodes and unbinds its queues; a new root or an invalidate leaves no translation of the
context for the span; the watch limit takes a legal value. That the host's root replace and invalidate take effect at once, beside accesses that have translated (log entry 92), and that a command whose parameters the rules forbid changes nothing (log entry 103), are the model's choices. -/
def Obligations.ContextCommands : Prop :=
  (∀ (s : State) (q : Nat) (idx : BitVec 32) (cx : Context) (c : Command), s.cmd? q idx = some (cx, c) → c.finished = true →
      let gone := fun (t : State) => ∀ x ∈ (t.queue q).running, x.idx ≠ idx
      (c.cva = 0 → ∃ t, exec (.commandComplete q idx) s = .next t ∧ gone t ∧ t.home = s.home ∧ (t.queue q).err = (s.queue q).err)
      ∧ (c.cva ≠ 0 → s.fTarget cx c.cva .atomic = none → ∃ t, exec (.commandComplete q idx) s = .next t ∧ gone t ∧ t.home = s.home ∧ (t.queue q).err = true
          ∧ (t.queue q).errIndex = idx ∧ (t.queue q).errCode = 0x06)
      ∧ (∀ key kid, c.cva ≠ 0 → s.fTarget cx c.cva .atomic = some (key, kid) → (s.recallAtomic key 8).partReady (queueNum q) cx.dev key 8 = true →
          (s.line (key / 128)).present = true → (foreignKey key cx.dev = false ∨ (s.line (key / 128)).devs.contains cx.dev = true) → (s.line (key / 128)).kid = kid → (s.line (key / 128)).wkey = keyOfId s.pkg kid →
          ∃ t, exec (.commandComplete q idx) s = .next t ∧ gone t ∧ readNat t.home.mem key 8 = max (readNat s.home.mem key 8) c.cval.toNat ∧ keepsMem s t [(key, 8)]
            ∧ (t.queue q).err = (s.queue q).err))
  ∧ ((∀ (s : State) (p : CtxParams), s.mayCreate p = true → (∀ c ∈ s.sched.ctxs, c.tag ≠ s.sched.nextTag) →
      ∃ t c, exec (.contextCreate p) s = .next t ∧ t.ctx? s.sched.nextTag = some c ∧ t.sched.nextTag = s.sched.nextTag + 1 ∧ c.dev = p.dev ∧ c.root = p.root ∧ c.queues = p.queues
        ∧ c.topPri = p.topPri ∧ c.trapHost = false ∧ c.chk = false ∧ c.trapq = 0 ∧ c.tqHead = 0 ∧ c.tqTail = 0 ∧ c.slice = 2000000 ∧ c.watchdog = 10000000
        ∧ (∀ n, n < 16 → c.regions[n]? = some { v := false }) ∧ (p.handler = none → c.handler = 0) ∧ c.drawWait = 0 ∧ c.lw = p.lw ∧ c.poolBase = p.poolBase ∧ c.poolSize = p.poolSize
        ∧ (∀ q, q < s.sched.queues.length → (t.queue q).bound = (if q ∈ p.queues then some s.sched.nextTag else (s.queue q).bound)) ∧ t.cells = s.cells ∧ t.home = s.home)
    ∧ (∀ (s : State) (ctx : BitVec 32) (c : Context), s.hostCtx? ctx = some c → ∃ t, exec (.contextDestroy ctx) s = .next t ∧ t.hostCtx? ctx = none
        ∧ (∀ x ∈ t.cells, x.ctx = ctx → x.killed = true) ∧ (∀ i ∈ t.sched.items, i.ctx ≠ ctx) ∧ (∀ l ∈ t.sched.launches, l.ctx ≠ ctx) ∧ (∀ n ∈ t.sched.nodes, n.ctx ≠ ctx)
        ∧ (∀ h ∈ t.sched.queues, h.bound ≠ some ctx) ∧ ((∀ x ∈ s.cells, x.ctx ≠ ctx) → t.ctx? ctx = none))
    ∧ (∀ (s : State) (ctx : BitVec 32) (c : Context) (root : BitVec 48) (va len : W64) (lw : Nat), s.hostCtx? ctx = some c →
      (∃ t, exec (.pageTableRootReplace ctx root) s = .next t ∧ (t.ctx? ctx).map (·.root) = some root
          ∧ ∀ x ∈ t.clu.tlb, x.ctx = ctx → 2 ^ 64 ≤ x.page * pageBytes x.lvl)
      ∧ (len ≠ 0 → ∃ t, exec (.hostTlbInvalidate ctx va len) s = .next t
          ∧ (∀ x ∈ t.clu.tlb, x.ctx = ctx → (x.page + 1) * pageBytes x.lvl ≤ va.toNat ∨ va.toNat + len.toNat ≤ x.page * pageBytes x.lvl) ∧ ∀ x ∈ s.clu.tlb, x.ctx ≠ ctx → x ∈ t.clu.tlb)
      ∧ (lw = 0 ∨ (2 ^ 16 ≤ lw ∧ lw ≤ 2 ^ 40) → ∃ t, exec (.crewWatchLimitSet ctx lw) s = .next t ∧ t.ctx? ctx = some { c with lw := lw }
          ∧ { t with sched := s.sched } = s ∧ ∀ x, x ≠ ctx → t.ctx? x = s.ctx? x)
      ∧ (¬(lw = 0 ∨ (2 ^ 16 ≤ lw ∧ lw ≤ 2 ^ 40)) → exec (.crewWatchLimitSet ctx lw) s = .next s)))

/-- R341, R344, R402, R417, R419, R422, R424: a firmware command of another major version ends with status 0x01 and does nothing else. One of major 1: the mode changes, and no byte of the package's memory survives, only where no context exists; a key slot is loaded or unloaded and its lines leave the L2; a report
carries the nonce and its signature; the cap takes 1,000 W to 3,200 W; an Ethernet register takes its value.
R408-R410: a host read of plain lines that no other agent may have dirty and no flip covers returns their bytes; a host write and a poison clear go to the home as writes; a flip to host bias begins where the host reaches the device, and ends when leases and writes of the block are over; a flip back ends when the host
holds none of its lines, and a released line has no host holder. The model's choices among this: what status a command of major 1 ends with, and that a refused one changes nothing (log entry 85); that poison and far memory stay through a change of mode (log entry 86); under which key a poison
clear writes (log entry 87); and that the host's accesses are under key id 0 (log entry 90). -/
def Obligations.HostAndFirmware : Prop :=
  (∀ (s : State) (m : BitVec 8) (mode : BitVec 2) (slot : BitVec 8) (x : BitVec 512) (nonce : BitVec 256) (watts reg : Nat) (val : W64), s.pkg.booted = true →
      (m ≠ 1 → ∀ i, i = .partitionModeSet m mode ∨ i = .keySlotLoad m slot x ∨ i = .keySlotUnload m slot ∨ i = .attestationReport m nonce ∨ i = .powerCapSet m watts ∨ i = .ethernetConfig m reg val →
        exec i s = .next { s with pkg := { s.pkg with fwStatus := 1 :: s.pkg.fwStatus } })
      ∧ (∀ n, modeOfCode mode = some n → n ≠ s.pkg.mode → s.sched.ctxs = [] → (s.pkg.failed = [] ∨ n = .one) → ∃ t, exec (.partitionModeSet 1 mode) s = .next t ∧ t.pkg.mode = n
          ∧ (∀ k, farKey k = false → sget t.home.mem k = 0) ∧ (s.home.writes = [] → ∀ k, farKey k = true → s.home.mem.wf = true → sget t.home.mem k = sget s.home.mem k) ∧ t.home.fe = [] ∧ t.home.bias = [] ∧ t.clu.tlb = [] ∧ t.clu.lines = []
          ∧ (s.home.writes = [] → ∀ n, (s.line n).poison = true → (t.line n).poison = true))
      ∧ (s.sched.ctxs ≠ [] → ∃ t, exec (.partitionModeSet 1 mode) s = .next t ∧ { t with pkg := { t.pkg with fwStatus := s.pkg.fwStatus } } = s)
      ∧ (slot ≠ 0 → (∃ t, exec (.keySlotLoad 1 slot x) s = .next t ∧ t.pkg.keys.find? (fun k => k.1 == slot.toNat) = some (slot.toNat, Config.unwrapKey x) ∧ t.home.mem = s.home.mem
            ∧ (∀ n, n ≠ slot.toNat → t.pkg.keys.find? (fun k => k.1 == n) = s.pkg.keys.find? (fun k => k.1 == n)) ∧ ∀ h ∈ t.home.lines, h.kid = slot → keySpace (128 * h.line) < 16 → h.present = false)
          ∧ ∃ t, exec (.keySlotUnload 1 slot) s = .next t ∧ (∀ k ∈ t.pkg.keys, k.1 ≠ slot.toNat) ∧ t.home.mem = s.home.mem
            ∧ ∀ h ∈ t.home.lines, h.kid = slot → keySpace (128 * h.line) < 16 → h.present = false)
      ∧ (∃ t r, exec (.attestationReport 1 nonce) s = .next t ∧ t.pkg.reports = r :: s.pkg.reports ∧ r.body.length = 1024 ∧ r.body.take 8 = [0x37, 0x56, 0x54, 0x41, 1, 0, 0, 0]
          ∧ (r.body.drop 8).take 32 = bytesOfNat 32 nonce.toNat ∧ r.sig = Config.sign r.body ∧ t.home = s.home)
      ∧ (∃ t, exec (.powerCapSet 1 watts) s = .next t ∧ t.pkg.cap = (if 1000 ≤ watts ∧ watts ≤ 3200 then watts else s.pkg.cap)
          ∧ { t with pkg := { t.pkg with fwStatus := s.pkg.fwStatus, cap := s.pkg.cap } } = s)
      ∧ ∃ t, exec (.ethernetConfig 1 reg val) s = .next t ∧ t.pkg.ethCfg.find? (fun y => y.1 == reg) = some (reg, val) ∧ { t.pkg with fwStatus := s.pkg.fwStatus, ethCfg := s.pkg.ethCfg } = s.pkg)
  ∧ ((∀ (s : State) (dev len : Nat) (addr : BitVec 48), let key := keyDev dev addr.toNat
      s.hostReaches dev = true → len ≠ 0 → (∀ l ∈ linesOf key len, s.flipping (128 * l) dev = false ∧ s.dirFull l = false ∧ (s.line l).maybeDirty = false ∧ (s.line l).poison = false ∧ (s.line l).kid = 0
        ∧ (s.line l).wkey = keyOfId s.pkg 0) →
      ∃ t, exec (.hostCxlRead dev addr len) s = .next t ∧ t.pkg.hostReads = readBytes s.home.mem key len :: s.pkg.hostReads ∧ t.home.mem = s.home.mem ∧ t.cells = s.cells)
    ∧ (∀ (s : State) (dev : Nat) (addr : BitVec 48) (bs : List Byte), s.hostReaches dev = true → bs ≠ [] → ∃ t, exec (.hostCxlWrite dev addr bs) s = .next t
        ∧ t.home.writes = s.home.writes ++ [⟨s.fresh, dev, keyDev dev addr.toNat, 0, false, bs⟩] ∧ t.home.mem = s.home.mem ∧ t.cells = s.cells)
    ∧ (∀ (s : State) (n : Nat), s.pkg.booted = true → ∃ t, exec (.poisonClear n) s = .next t ∧ t.home.mem = s.home.mem
        ∧ t.home.writes = s.home.writes ++ [⟨s.fresh, homeDev (128 * n) 0, 128 * n, (s.line n).kid, true, List.replicate 128 0⟩])
    ∧ (∀ (s : State) (h : HomeWrite), s.clu.stores = [] → s.home.writes = [h] → h.bytes ≠ [] → s.writeReady (1000 + h.dev) 0 h.key h.bytes.length = true →
        (∀ l ∈ linesOf h.key h.bytes.length, (s.line l).noted = [] ∧ (s.line l).present = true ∧ (foreignKey h.key h.dev = false ∨ (s.line l).devs.contains h.dev = true) ∧ (s.line l).kid = h.kid ∧ (s.line l).wkey = keyOfId s.pkg h.kid) → h.key / 128 = (h.key + (h.bytes.length - 1)) / 128 →
        ((s.line (h.key / 128)).poison = false ∨ h.clear = true → ∃ t, exec (.writePerformed h.num) s = .next t ∧ t.home.mem = writeBytes s.home.mem h.key h.bytes
          ∧ t.home.writes = [] ∧ (t.line (h.key / 128)).poison = false))
    ∧ (∀ (s : State) (dev block : Nat),
      let toHost : Flip := ⟨dev, block, true⟩
      let toDev : Flip := ⟨dev, block, false⟩
      let idle := ∀ f ∈ s.home.flips, ¬(f.dev = dev ∧ f.block = block)
      (idle → s.hostReaches dev = true → (dev, block) ∉ s.home.bias → s.poolIn dev block = false →
          ∃ t, exec (.biasFlipToHost dev block) s = .next t ∧ t.home.flips = toHost :: s.home.flips ∧ t.home.bias = s.home.bias ∧ t.home.mem = s.home.mem)
      ∧ (s.home.flips.contains toHost = true → s.blockQuiet dev block = true → ∃ t, exec (.biasFlipToHost dev block) s = .next t ∧ t.home.flips.contains toHost = false
          ∧ (dev, block) ∈ t.home.bias ∧ t.home.mem = s.home.mem)
      ∧ (idle → (dev, block) ∈ s.home.bias → ∃ t, exec (.biasFlipToDevice dev block) s = .next t ∧ t.home.flips = toDev :: s.home.flips ∧ t.home.bias = s.home.bias)
      ∧ (s.home.flips.contains toDev = true → s.hostHasNone dev block = true → ∃ t, exec (.biasFlipToDevice dev block) s = .next t ∧ t.home.flips.contains toDev = false
          ∧ (dev, block) ∉ t.home.bias ∧ t.home.mem = s.home.mem))
    ∧ (∀ (s : State) (n : Nat), ∃ t, exec (.hostLineRelease n) s = .next t ∧ t.home.mem = s.home.mem ∧ ∀ x ∈ (t.line n).holders, x.who ≠ hostHolder))

/-! ## Placing, eviction, services, ports -/

/-- R10, R13, R14, R32, R38, R361, R362, R143: the launch unit's visit to a launch item that fits starts its next cell on the lowest cluster with room: every thread eligible at its start, x1 to x4 of the spine and k23 of the crews as R32 has them, every other register zero. An item that has waited SLICE.LEN stops
backfilling; a gang or a recipe item with no room makes the cells of its plan pass their eviction point.
R365-R368: an item of higher priority with nothing requested yet raises a request on a cluster of another context that it could take, the one whose cells have the lowest priority. At its end a slice begins anew, unless an item of at least equal priority takes the end for a request. When the watchdog of a request
expires, the eligible threads of the cells it acts on park with SLICE_OVERRUN, but for those whose core is stalled (R382); that those of a bundle in its passes park when these are over (log entry 46), and that the watchdog's end is fixed when the request is raised (log entry 77), are the model's reading. -/
def Obligations.CellsPlaced : Prop :=
  ((∀ (s : State) (dev num cl off : Nat) (i : PendItem) (l : Launch) (cx : Context) (a : BitVec 48) (rest : List (Nat × Nat)), s.ranked dev = [i] → s.item? i.id = some i → i.kind = .launch num →
      s.launch? num = some l → s.ctx? i.ctx = some cx → l.next < l.count → l.hdr.gang = 0 → s.hosts i.dev i.ctx i.id l.hdr (.open (s.binds l)) = (cl, off) :: rest →
      s.poolRoom cx l.hdr.saveBytes = some a → ∃ t, ∃ c ∈ t.cells, exec (.cellPlace dev) s = .next t ∧ c.uid = s.fresh ∧ c.launch = l.num ∧ c.ctx = l.ctx ∧ c.tag = l.tag ∧ c.index = BitVec.ofNat 32 l.next
        ∧ c.count = BitVec.ofNat 32 l.count ∧ c.cl = cl ∧ c.basinOff = off ∧ c.basinSize = 4096 * l.hdr.basin ∧ c.save = a ∧ c.hdr = l.hdr ∧ c.units.length = l.hdr.ncrew + 1 ∧ c.subs = []
        ∧ (∀ u ∈ c.units, u.v = [] ∧ u.wb = 0 ∧ u.cvb = 0 ∧ u.flags = 0 ∧ u.timer = 0 ∧ u.book = 0 ∧ ∀ x ∈ u.threads, x.st = .eligible ∧ x.mr = none)
        ∧ ((c.unit 0).threads.map (·.pc) = [l.kimg + BitVec.ofNat 64 l.hdr.hbytes + BitVec.ofNat 64 (l.hdr.spineOff + 4)])
        ∧ sget (c.unit 0).regs 1 = l.param ∧ sget (c.unit 0).regs 2 = BitVec.ofNat 64 l.next ∧ sget (c.unit 0).regs 3 = BitVec.ofNat 64 l.count ∧ sget (c.unit 0).regs 4 = BitVec.ofNat 64 (4096 * l.hdr.basin)
        ∧ (∀ n, n = 0 ∨ 4 < n → sget (c.unit 0).regs n = 0)
        ∧ ∀ k, k < l.hdr.ncrew → (c.unit (k + 1)).threads.map (·.pc) = List.replicate l.hdr.width (l.kimg + BitVec.ofNat 64 l.hdr.hbytes + BitVec.ofNat 64 (l.hdr.crewOff + 4))
          ∧ sget (c.unit (k + 1)).regs 23 = l.param ∧ (∀ n, n ≠ 23 → sget (c.unit (k + 1)).regs n = 0) ∧ (c.unit (k + 1)).core = k % max (numCores s.pkg cl) 1
          ∧ (c.unit (k + 1)).role = l.hdr.roleOf k)
    ∧ (∀ (s : State) (item : Nat) (i : PendItem) (cx : Context), s.item? item = some i → s.ctx? i.ctx = some cx →
      (i.since + cx.slice.toNat ≤ s.tb → ∃ t, exec (.backfillStop item) s = .next t ∧ t.item? item = some { i with stop := true } ∧ t.cells = s.cells)
      ∧ (s.tb < i.since + cx.slice.toNat → exec (.backfillStop item) s = .next s))
    ∧ (∀ (s : State) (item n num : Nat) (i : PendItem) (h : Header) (res : Bool) (vs cls : List Nat) (j : Instr), s.item? item = some i → s.wants i = some (h, res, n) → s.gathering i = false →
      (j = .gangGatherRoom item ∧ 1 < n ∧ gangHosts n (s.hosts i.dev i.ctx i.id h (.open res)) = none ∧ i.since + 10000 ≤ s.tb ∧ s.hasPool i h n = true ∧ s.gangPlan i h res n = some (vs, cls))
        ∨ (j = .recipeGatherRoom item ∧ i.kind = .recipe num ∧ s.hasPool i h 1 = true ∧ s.recipeHost i h = none ∧ s.recipePlan i h = some (vs, cls)) →
      ∃ t, exec j s = .next t ∧ t.item? item = some { i with gather := vs, room := cls } ∧ t.home = s.home ∧ (∀ c ∈ t.cells, c.uid ∈ vs → c.evicting = true ∧ c.evTb = s.tb)
        ∧ ∀ k, k ∉ vs → t.cell? k = s.cell? k))
  ∧ ((∀ (s : State) (item : Nat) (i : PendItem) (h : Header) (res : Bool), s.item? item = some i → s.wants i = some (h, res, 1) → i.reqs = [] → s.hasPool i h 1 = true →
      let may := fun (cl : Nat) => cl ∈ devClusters s.pkg i.dev ∧ s.target i h res cl = true ∧ s.topOn cl < i.pri.toNat
      (∃ cl, may cl) → ∃ t cl, exec (.preemptRequestRaise item) s = .next t ∧ may cl ∧ (∀ k, may k → s.topOn cl ≤ s.topOn k)
        ∧ t.item? item = some { i with reqs := [(cl, s.tb, s.deadline cl)] } ∧ t.requested cl = true ∧ t.cells = s.cells)
    ∧ (∀ (s : State) (cl : Nat) (x : ClSlice), s.sched.slices.find? (fun y => y.cl == cl) = some x → x.ends ≤ s.tb → s.requested cl = false → s.cellsOn cl ≠ [] →
      let dev := devOfDie s.pkg.mode (cl / 13)
      (∀ cx, s.ranked dev = [] → s.ctx? x.ctx = some cx → cx.slice ≠ 0 → ∃ t, exec (.sliceEnd cl) s = .next t ∧ t.cells = s.cells ∧ t.requested cl = false
        ∧ (t.sched.slices.find? (fun y => y.cl == cl)).map (·.ends) = some (s.tb + cx.slice.toNat))
      ∧ (∀ i h res, s.ranked dev = [i] → s.item? i.id = some i → s.wants i = some (h, res, 1) → i.reqs = [] → s.hasPool i h 1 = true → s.target i h res cl = true → s.topOn cl ≤ i.pri.toNat →
        ∃ t, exec (.sliceEnd cl) s = .next t ∧ t.cells = s.cells ∧ t.item? i.id = some { i with reqs := [(cl, s.tb, s.deadline cl)] }
          ∧ (t.sched.slices.find? (fun y => y.cl == cl)).map (·.ends) = some x.ends))
    ∧ (∀ (s : State) (cl : Nat) (r : Nat × Nat × Nat), (s.sched.items.flatMap (fun i => i.reqs)).find? (fun r => r.1 == cl && decide (r.2.2 ≤ s.tb)) = some r →
      (∀ c ∈ s.actedOn cl, s.buildsOf c.uid = []) →
      ∃ t, exec (.watchdogExpiry cl) s = .next t ∧ ∀ c ∈ s.actedOn cl, s.cell? c.uid = some c → ∀ u j, u < c.units.length →
        (((c.unit u).thread j).st = .eligible → s.inPass c.uid u j = false → s.stalledUnit c u = false →
          (t.thread c.uid u j).st = .parked ∧ (t.thread c.uid u j).tcode = tSlice ∧ (t.thread c.uid u j).pc = ((c.unit u).thread j).pc)
        ∧ (((c.unit u).thread j).st ≠ .eligible ∨ s.inPass c.uid u j = true ∨ s.stalledUnit c u = true → t.thread c.uid u j = s.thread c.uid u j)))

/-- R19, R384-R388, R391, R392: a requested cell passes its eviction point with its gang when none of their threads is eligible; once its engines are quiet, its slots frozen and its stores performed, its record is written at its place in the pool and it leaves its cluster: the spine's PC and registers, the value and full bit of each cistern, the k and v registers of each crew, the full/empty bits and the basin stand where R387-R390
have them. A restore item that fits, with nothing before it that stops it, brings its cell back with the same as the record then has them. R17: a cell whose end conditions hold goes, and its launch with its last cell. -/
def Obligations.EvictionAndRestore : Prop :=
  (∀ (s : State) (cell : Nat) (c : Cell) (cx : Context), s.cell? cell = some c → s.ctx? c.ctx = some cx → c.evicted = false →
    (c.evicting = false → s.cellRequested c = true → s.evictable c = true → ∃ t, exec (.eviction cell) s = .next t ∧ t.home = s.home ∧ t.clu = s.clu
      ∧ (∀ d, t.cell? cell = some d → d.evicting = true ∧ d.evTb = s.tb ∧ ((∀ u, u < c.units.length → s.stalledUnit c u = false) → d.units = c.units)))
    ∧ (let s1 := s.stopEngines c
      let s2 := s1.sendFreezes c
      let x := s2.saveLists c
      let m := c.hdr.layout x.mq.length x.cpy.length x.sub.length
      let shaped := c.units.length = c.hdr.ncrew + 1 ∧ c.basinSize = 4096 * c.hdr.basin ∧ c.cis.length ≤ 64 ∧ (c.cis.filter (fun g => g.mode == .gather)).length ≤ 8
        ∧ c.bars.length ≤ 16 ∧ (∀ u ∈ c.units, u.threads.length ≤ 128 ∧ u.entries.length ≤ 256) ∧ c.hdr.fast ≤ 192
      c.evicting = true →
      (s1.enginesQuiet c = false → exec (.eviction cell) s = .next s1)
      ∧ (s1.enginesQuiet c = true → s2.quiet c = false → exec (.eviction cell) s = .next s2)
      ∧ (s1.enginesQuiet c = true → s2.quiet c = true → c.killed = false → 128 ∣ c.save.toNat → shaped → ∃ t d, exec (.eviction cell) s = .next t ∧ t.cell? cell = some d ∧ d.evicted = true ∧ d.evicting = false ∧ (∀ e ∈ t.clu.draws, e.cell ≠ cell)
        ∧ t.saved c 0 4 = 0x53564B37 ∧ (∀ n, n < 64 → t.saved c (0x200 + 8 * n) 8 = (sget (c.unit 0).regs n).toNat) ∧ t.saved c 0x100 8 = ((c.unit 0).thread 0).pc.toNat
        ∧ (∀ n g, c.cis[n]? = some g → t.saved c (0x400 + 32 * n) 8 = g.value.toNat ∧ t.saved c (0x408 + 32 * n) 1 % 2 = g.full.toNat)
        ∧ (∀ k, k < c.hdr.ncrew → (∀ n, n < 24 → t.saved c (m.crew + k * c.hdr.crewStride + 8 * n) 8 = (sget (c.unit (k + 1)).regs n).toNat)
          ∧ ∀ p j i, (p, j) ∈ c.hdr.physRegs.zipIdx → i < 128 →
            t.saved c (m.crew + k * c.hdr.crewStride + 0x1300 + 512 * j + 4 * i) 4 = (sget (c.unit (k + 1)).v (regV p i)).toNat)
        ∧ (∀ j, j < c.basinSize / 16 → t.saved c (m.fe + j / 8) 1 / 2 ^ (j % 8) % 2 = (s2.fe c (16 * j)).toNat)
        ∧ readBytes t.home.mem (keyDev c.dev (c.save.toNat + m.basin)) c.basinSize = s2.readBasin c 0 c.basinSize)))
  ∧ (∀ (s : State) (item uid cl off : Nat) (i : PendItem) (cx : Context) (c : Cell) (res : Bool), s.item? item = some i → s.ctx? i.ctx = some cx → i.kind = .restore [uid] → s.cell? uid = some c →
    ((s.ranked i.dev).takeWhile (fun x => x.id != item)).any (fun x => x.stop || s.restoreFits x) = false → s.restoreCells [uid] = [c] → s.restoreHosts i [c] = some [(cl, off, res)] → c.deferred = [] → 1 ≤ c.units.length →
    ∃ t d, exec (.restore item) s = .next t ∧ t.cell? uid = some d ∧ t.item? item = none ∧ d.evicted = false ∧ d.cl = cl ∧ d.basinOff = off ∧ d.launch = c.launch ∧ d.units.length = c.units.length
      ∧ (∀ n, 1 ≤ n → n < 64 → sget (d.unit 0).regs n = BitVec.ofNat 64 (readNat s.home.mem (keyDev c.dev (c.save.toNat + (0x200 + 8 * n))) 8))
      ∧ ((d.unit 0).thread 0).pc = BitVec.ofNat 64 (readNat s.home.mem (keyDev c.dev (c.save.toNat + 0x100)) 8)
      ∧ (d.unit 0).timer = BitVec.ofNat 64 (readNat s.home.mem (keyDev c.dev (c.save.toNat + 0x128)) 8)
      ∧ (let x := s.saveLists c
        let m := c.hdr.layout x.mq.length x.cpy.length x.sub.length
        (∀ n g, d.cis[n]? = some g → g.value = BitVec.ofNat 64 (s.saved c (0x400 + 32 * n) 8) ∧ g.full = (s.saved c (0x408 + 32 * n) 8 % 2 == 1))
        ∧ (∀ k, k + 1 < c.units.length → (∀ n, n < 24 → sget (d.unit (k + 1)).regs n = BitVec.ofNat 64 (s.saved c (m.crew + k * c.hdr.crewStride + 8 * n) 8))
          ∧ (c.hdr.fast ≤ 192 → ∀ p j i, (p, j) ∈ c.hdr.physRegs.zipIdx → i < 128 →
            sget (d.unit (k + 1)).v (regV p i) = BitVec.ofNat 32 (s.saved c (m.crew + k * c.hdr.crewStride + 0x1300 + 512 * j + 4 * i) 4)))
        ∧ (c.subs = [] → t.readBasin d 0 c.basinSize = readBytes s.home.mem (keyDev c.dev (c.save.toNat + m.basin)) c.basinSize
          ∧ ∀ j, j < c.basinSize / 16 → t.fe d (16 * j) = (s.saved c (m.fe + j / 8) 1 / 2 ^ (j % 8) % 2 == 1))))
  ∧ (∀ (s : State) (cell : Nat) (c : Cell), s.cell? cell = some c → s.mayEnd c = true → c.evicted = false → ∃ t, exec (.cellEnd cell) s = .next t ∧ t.cell? cell = none
    ∧ (∀ l ∈ t.clu.loads, l.cell ≠ cell) ∧ (∀ d ∈ t.clu.draws, d.cell ≠ cell) ∧ (∀ k d, k ≠ cell → s.cell? k = some d → (t.cell? k).isSome = true)
    ∧ (∀ l, s.launch? c.launch = some l → l.ended + 1 < l.count → t.launch? c.launch = some { l with ended := l.ended + 1 })
    ∧ (∀ l q, s.launch? c.launch = some l → l.count ≤ l.ended + 1 → l.queue = some q → t.launch? c.launch = none
        ∧ ∀ x ∈ (t.queue q).running, x.opc = 1 → x.prog = c.launch → x.finished = true))

/-- R376-R378, R381, R394: the first record whose queue can take it, of those that none of its context precedes, is written at TAIL's place and TAIL goes on by one; every eligible or held thread of a unit whose TIMER stands at a multiple of the watch limit parks with WATCH, one of a bundle in its passes when these are over; the host's retry lets the waiting accesses of the page translate again, and its fail parks the threads that wait for it
with TRANSLATION or PROTECTION.
R398, R399, R405-R407: a walk leaves the leaf it finds in the cluster's and the H-die's TLBs; a line homed elsewhere that is snooped takes no new lease, and is gone when its leases have passed; a holder that answers holds nothing any more, and dirty data it returns is the line's; a gated slice has written its far lines back, and serves data again
after its exit; an H-die in reset holds no far line. The model's reading: threads of a bundle in its passes park when these are over (log entry 46), and a record whose queue's page is not mapped waits, those of its context behind it (log entry 91). -/
def Obligations.TrapServiceAndLinks : Prop :=
  ((∀ (s : State) (dev key : Nat) (kid : BitVec 8) (r : TrapRec) (c : Context), s.nextRecord dev = some (r, c) →
      s.fTarget c (((c.trapq >>> 12) <<< 12) + BitVec.ofNat 64 (64 * (c.tqTail.toNat % c.tqSize))) .store = some (key, kid) →
      (s.recall key 64).partReady (trapNum dev) dev key 64 = true → (s.line (key / 128)).present = true → (foreignKey key dev = false ∨ (s.line (key / 128)).devs.contains dev = true) → (s.line (key / 128)).kid = kid →
      (s.line (key / 128)).wkey = keyOfId s.pkg kid → ∃ t, exec (.trapRecordWrite dev) s = .next t ∧ t.home.mem = writeBytes s.home.mem key (r.words.flatMap (fun w => bytesOfNat 8 w.toNat))
        ∧ (t.ctx? c.tag).map (·.tqTail) = some (c.tqTail + 1) ∧ t.sched.traps.length + 1 = s.sched.traps.length ∧ t.cells = s.cells)
    ∧ (∀ (s : State) (cell u : Nat) (c : Cell), s.cell? cell = some c → u < c.units.length → s.watchDue c u = true → s.buildsOf cell = [] → ∃ t, exec (.watchLimit cell u) s = .next t
      ∧ ∀ j, let x := (c.unit u).thread j
        (x.st = .eligible ∨ x.st = .held → s.inPass cell u j = false →
          (t.thread cell u j).st = .parked ∧ (t.thread cell u j).tcode = tWatch ∧ (t.thread cell u j).pc = x.pc)
        ∧ ((x.st ≠ .eligible ∧ x.st ≠ .held) ∨ s.inPass cell u j = true → t.thread cell u j = x))
    ∧ (∀ (s : State) (ctx : BitVec 32) (page : W64) (cl : Nat), ∃ t, exec (.hostFaultRetry ctx page cl) s = .next t ∧ t.cells = s.cells ∧ t.home = s.home ∧ t.asked ctx page cl = false
      ∧ (∀ x ∈ s.clu.stalls, x.cl = cl → x.ctx = ctx → x.page = page → x.core ≠ 101 → { x with answer := 1 } ∈ t.clu.stalls)
      ∧ ∀ x ∈ s.clu.stalls, ¬(x.cl = cl ∧ x.ctx = ctx ∧ x.page = page) → x ∈ t.clu.stalls)
    ∧ (∀ (s : State) (ctx : BitVec 32) (page : W64) (cl : Nat) (prot : Bool), s.asked ctx page cl = true →
      (∀ x ∈ s.clu.stalls, x.cl = cl → x.ctx = ctx → x.page = page → x.core ≠ 101) → (∀ c ∈ s.cells, c.ctx = ctx → s.buildsOf c.uid = []) →
      ∃ t, exec (.hostFaultFail ctx page cl prot) s = .next t ∧ t.asked ctx page cl = false
      ∧ ∀ c ∈ s.cells, s.cell? c.uid = some c → c.ctx = ctx → c.cl = cl → c.evicted = false → c.evicting = false → ∀ u j,
          ((c.unit u).thread j).st = .blocked → ((c.unit u).thread j).wkind = 16 →
          (∃ x ∈ s.clu.stalls, x.cl = cl ∧ x.ctx = ctx ∧ x.page = page ∧ x.core = coreNo u (c.unit u) ∧ x.holds ((c.unit u).thread j).wobj = true) →
          (t.thread c.uid u j).st = .parked ∧ (t.thread c.uid u j).tcode = (if prot then tProtection else tTranslation) ∧ (t.thread c.uid u j).pc = ((c.unit u).thread j).pc))
  ∧ ((∀ (s : State) (cl lvl : Nat) (ctx : BitVec 32) (va e : W64) (c : Context), s.ctx? ctx = some c → canonical va = true → c.region? va = none → cl < 104 → s.clu.tlb = [] →
      walkFrom s c.dev va 3 c.root.toNat = .leaf lvl e → ∃ t, exec (.pageWalk cl ctx va) s = .next t ∧ t.home = s.home ∧ t.cells = s.cells
        ∧ ⟨cl, ctx, lvl, pageNo lvl va, e, false⟩ ∈ t.clu.tlb ∧ ⟨1000 + tlbDie s.pkg (cl / 13), ctx, lvl, pageNo lvl va, e, false⟩ ∈ t.clu.tlb)
    ∧ (∀ (s : State) (n : Nat), farKey (128 * n) = true → (s.line n).present = true →
      (s.tb < (s.line n).latest → ∃ t, exec (.invalidatingSnoop n) s = .next t ∧ t.home.mem = s.home.mem ∧ (t.line n).snoop = true ∧ (t.line n).present = true)
      ∧ ((s.line n).latest ≤ s.tb → ∃ t, exec (.invalidatingSnoop n) s = .next t ∧ (t.line n).present = false ∧ (t.line n).mine = .i ∧ (t.line n).snoop = false ∧ keepsMem s t [(128 * n, 128)]))
    ∧ (∀ (s : State) (n who : Nat) (x : Holder) (data : Option (BitVec 1024)), (s.line n).holders.find? (fun x => x.who == who) = some x → x.asked = true →
      ∃ t, exec (.snoopAnswer n who data) s = .next t ∧ (∀ y ∈ (t.line n).holders, y.who ≠ who) ∧ (data = none ∨ x.st = .s ∨ x.st = .i → t.home.mem = s.home.mem)
        ∧ (∀ d, data = some d → (x.st = .m ∨ x.st = .e) → readNat t.home.mem (128 * n) 128 = d.toNat))
    ∧ (∀ (s : State) (slice : Nat), slice < 128 → s.home.gated.contains slice = false → ∃ t, exec (.powerGateEntry slice) s = .next t ∧ t.home.mem = s.home.mem ∧ t.home.gated = slice :: s.home.gated
      ∧ ∀ h ∈ t.home.lines, farKey (128 * h.line) = true → (∃ d ∈ h.devs, keySlice s.pkg (128 * h.line) d = slice) → h.mine = .s ∨ h.mine = .i)
    ∧ (∀ (s : State) (slice : Nat), ∃ t, exec (.powerGateExit slice) s = .next t ∧ { t with home := s.home } = s ∧ t.home.mem = s.home.mem ∧ t.home.lines = s.home.lines ∧ t.home.gated.contains slice = false
      ∧ ∀ k, k ≠ slice → t.home.gated.contains k = s.home.gated.contains k)
    ∧ (∀ (s : State) (die : Nat), die < 4 → s.home.hreset.contains die = false → (∀ h ∈ s.home.lines, s.dirDie h.line = die ∨ (∃ d ∈ h.devs, keySlice s.pkg (128 * h.line) d / 32 = die) → h.heldElsewhere = false ∧ h.latest ≤ s.tb) →
      ∃ t, exec (.hdieReset die) s = .next t ∧ t.home.mem = s.home.mem ∧ t.home.hreset.contains die = true
      ∧ ∀ h ∈ s.home.lines, farKey (128 * h.line) = true → (∃ d ∈ h.devs, keySlice s.pkg (128 * h.line) d / 32 = die) → (t.line h.line).present = false ∧ (t.line h.line).mine = .i))

/-- R410, R413-R421: a plane fence that has arrived, with every bulk flit sent before it on its port, is waited for no longer; a flit that fails its CRC is retried, and the ninth failure in a row makes it uncorrectable: it is counted, and a lost directory message poisons its line (which failure that is, is the model's reading: log entry 94); a
port trains to the highest common version, or fails; an Ethernet flit 100 µs old is sent again; a bridge is named, with its members, or fails, and then the host answers no member; bring-up gives each device its FABID.
R344, R420, R421: a power-on reset ends every state but the fuses, the firmware's hashes and memory that is not the package's (that these stay is the model's reading: log entry 93); it goes on to boot when the firmware verifies and the F-die is well; a die that failed its challenge, then or after 100 ms while the package boots (log entry 55), is
out of the harvest map; boot ends when every die has answered or had its time. R354, R415, R417: the host reads the firmware's version, a queue's window and a port's status in BAR0. -/
def Obligations.PortsAndBoot : Prop :=
  ((∀ (s : State) (cl port : Nat) (f : Nat × Nat × Nat), s.clu.fences.find? (fun f => f.1 == cl && f.2.1 == port) = some f →
      let before := ∃ x ∈ s.clu.flits, x.load = .fence f.2.2 ∨ (x.port = port ∧ x.bulk = true ∧ x.src ≠ 2000 ∧ x.num < f.2.2)
      (before → exec (.planeFenceAck cl port) s = .next s)
      ∧ (¬before → ∃ t, exec (.planeFenceAck cl port) s = .next t ∧ f ∉ t.clu.fences ∧ (∀ g ∈ s.clu.fences, g ≠ f → g ∈ t.clu.fences) ∧ t.home = s.home ∧ t.cells = s.cells))
    ∧ (∀ (s : State) (n : Nat) (p : Port) (l : FlitLoad), s.pkg.ports[n]? = some p → n < 64 → p.st = 2 →
      let more := fun (c : BitVec 16) => if c = 0xFFFF then c else c + 1
      let beats := fun (b : Bool) => if b then 8 else 2
      (∀ f, s.clu.flits.find? (fun f => f.port == n && f.load == l) = some f →
        (f.row < 8 → ∃ t, exec (.flitCrcFail n l) s = .next t ∧ t.home = s.home ∧ { f with left := beats f.bulk, row := f.row + 1 } ∈ t.clu.flits
          ∧ t.pkg.ports[n]? = some { p with retry := if f.row = 0 then more p.retry else p.retry })
        ∧ (∀ line, f.row = 8 → p.recent = [] → l = .directory line → ∃ t, exec (.flitCrcFail n l) s = .next t ∧ (t.line line).poison = true ∧ t.home.mem = s.home.mem
          ∧ f ∉ t.clu.flits ∧ (t.pkg.ports[n]?).map (·.uncor) = some (more p.uncor)))
      ∧ ((∀ f ∈ s.clu.flits, ¬(f.port = n ∧ f.load = l)) → ∃ t, exec (.flitCrcFail n l) s = .next t ∧ t.home = s.home
          ∧ (∃ f ∈ t.clu.flits, f.port = n ∧ f.load = l ∧ f.row = 1 ∧ f.src = 2000) ∧ t.pkg.ports[n]? = some { p with retry := more p.retry }))
    ∧ (∀ (s : State) (n : Nat) (lanes : BitVec 4) (vers : List (BitVec 8)) (peer : BitVec 16), lanes = 1 ∨ lanes = 2 ∨ lanes = 4 →
      let good : Port → Prop := fun p => p.st = 2 ∧ p.lanes = lanes ∧ p.peer = peer ∧ p.retry = 0 ∧ p.uncor = 0 ∧ (if 0x11 ∈ vers then p.vmaj = 1 ∧ p.vmin = 1 else p.vmaj = 1 ∧ p.vmin = 0)
      let common := 0x11 ∈ vers ∨ 0x10 ∈ vers
      (n < 64 → n < s.pkg.ports.length → hdieUp s.pkg (n / 16) = true → ∃ t p, exec (.portTrain n lanes vers peer) s = .next t ∧ t.pkg.ports[n]? = some p ∧ (common → good p) ∧ (¬common → p.st = 3)
        ∧ (∀ k, k ≠ n → t.pkg.ports[k]? = s.pkg.ports[k]?) ∧ t.pkg.eports = s.pkg.eports)
      ∧ (64 ≤ n → n < 72 → n - 64 < s.pkg.eports.length → ∃ t p, exec (.portTrain n lanes vers peer) s = .next t ∧ t.pkg.eports[n - 64]? = some p ∧ (common → good p)
        ∧ (¬common → (∀ x ∈ (s.pkg.eports.getD (n - 64) {}).peers, x.1 = peer) → p.st = 3) ∧ t.pkg.ports = s.pkg.ports))
    ∧ (∀ (s : State) (n : Nat) (f : Flit), s.clu.flits.find? (fun f => f.port == 64 + n && f.left == 0 && decide (f.sent + 100000 ≤ s.tb)) = some f →
      ∃ t, exec (.ethernetRetransmitTimeout n) s = .next t ∧ { f with left := if f.bulk then 8 else 2, sent := s.tb } ∈ t.clu.flits ∧ t.home = s.home ∧ (∀ p, s.pkg.eports[n]? = some p → t.pkg.eports[n]? = some { p with retry := if p.retry = 0xFFFF then p.retry else p.retry + 1 }))
    ∧ (∀ (s : State) (b : BitVec 16) (ms : List (BitVec 16)), ms.length ≤ 15 → ∃ t u, exec (.hostGroupBridge ⟨b, ms⟩) s = .next t ∧ exec .bridgeFail t = .next u ∧ t.pkg.bridge = some b ∧ t.pkg.members = ms ∧ t.pkg.bridgeUp = true ∧ { t with pkg := s.pkg } = s ∧ hostReachable u.pkg = false
        ∧ { u with pkg := s.pkg } = s)
    ∧ (∀ (s : State) (ids : List (BitVec 16)), ids.length = numDevs s.pkg.mode → ∃ t, exec (.fabricBringUp ids) s = .next t ∧ { t with pkg := s.pkg } = s ∧ { t.pkg with fabids := s.pkg.fabids } = s.pkg
        ∧ ∀ d, d < ids.length → fabidOf t.pkg d = ids.getD d 0))
  ∧ ((∀ (s : State) (ok : Bool) (bad : List Nat), ∃ t, exec (.powerOnReset ok bad) s = .next t ∧ t.pkg.powered = true ∧ t.pkg.booted = false ∧ t.pkg.booting = (ok && !bad.contains 12) ∧ t.cells = [] ∧ t.sched = Sched.reset ∧ t.clu = Clusters.reset
      ∧ t.pkg.keys = [] ∧ t.pkg.fuseCl = s.pkg.fuseCl ∧ t.pkg.fuseSc = s.pkg.fuseSc ∧ t.pkg.fwHash = s.pkg.fwHash ∧ (∀ k, farKey k = false → sget t.home.mem k = 0)
      ∧ (∀ k, farKey k = true → s.home.mem.wf = true → sget t.home.mem k = sget s.home.mem k) ∧ ∀ d ∈ bad, d < 8 → hmapCl t.pkg d = 0 ∧ hmapSc t.pkg d = 0)
    ∧ (∀ (s : State) (d : Nat), d < 13 → (s.pkg.booting = false ∨ s.tb < 100000000 → exec (.dieChallengeTimeout d) s = .next s)
      ∧ (s.pkg.booting = true → 100000000 ≤ s.tb → ∃ t, exec (.dieChallengeTimeout d) s = .next t ∧ t.pkg.failed.contains d = true ∧ (d < 8 → hmapCl t.pkg d = 0)
        ∧ (d = 12 → s.pkg.failed.contains 12 = false → t.pkg.booting = false) ∧ { t with pkg := s.pkg } = s))
    ∧ (∀ s : State, s.pkg.booting = true → 100000000 < s.tb → s.bootStep.pkg.booted = true ∧ s.bootStep.pkg.booting = false ∧ { s.bootStep with pkg := s.pkg } = s)
    ∧ (∀ s : State, hostReachable s.pkg = true → s.pkg.bridge = none → s.bar0Read 8 = some 0x0103
      ∧ (∀ q, q < 64 → let h := s.sched.queues.getD q {}
          let word := fun (i : Nat) => s.bar0Read (0x10000 + 64 * q + 8 * i)
          word 0 = some h.qbase ∧ word 1 = some (0#32 ++ h.tail) ∧ word 2 = some (0#32 ++ h.head)
          ∧ word 3 = some ((h.bound.getD 0) ++ 0#29 ++ BitVec.ofBool h.err ++ BitVec.ofBool h.halt ++ BitVec.ofBool h.bound.isSome)
          ∧ word 4 = some (h.errIndex ++ 0#24 ++ h.errCode) ∧ ∀ i, 5 ≤ i → i < 8 → word i = some 0)
      ∧ ∀ n, n < 72 → let p := if n < 64 then s.pkg.ports.getD n {} else s.pkg.eports.getD (n - 64) {}
          s.bar0Read (0x20000 + 8 * n) = some (p.peer ++ p.uncor ++ p.retry ++ p.vmaj ++ p.vmin ++ p.lanes ++ 0#2 ++ p.st)))
end

