-- ==== Sys2Proof/Laws/Drive.lean ====
section
/-! SUPPORT. What the shared driver does with an issue that is ready, once for every instruction. -/

namespace Sys2Proof.Machine

theorem updThreads_nil (s : State) (uid u : Nat) (f : Thread → Thread) : s.updThreads uid u [] f = s := rfl

/-- What `who` says of the issuing threads. -/
theorem who_spec {s : State} {w : Who} (h : s.who = some w) :
    s.cell? w.cell.uid = some w.cell ∧ w.unit = w.cell.unit w.u ∧ w.u = s.issue.unit ∧ w.tids ≠ []
      ∧ (∀ t ∈ w.tids, t < 128 ∧ (w.unit.thread t).st = if w.wake then TState.blocked else TState.eligible)
      ∧ w.pc = s.issue.pc ∧ w.word = s.issue.word ∧ w.wake = s.issue.wake ∧ w.clk = s.clk ∧ w.fresh = s.fresh := by
  unfold State.who at h
  cases hc : s.cell? s.issue.cell with
  | none => rw [hc] at h; exact absurd h (by simp)
  | some c =>
    rw [hc] at h
    dsimp only at h
    generalize htids : s.issue.tids.filter (fun t => decide (t < 128) && ((c.unit s.issue.unit).thread t).st ==
      (if s.issue.wake = true then TState.blocked else TState.eligible)) = l at h
    cases he : l.isEmpty with
    | true => rw [he, if_pos rfl] at h; exact absurd h (by simp)
    | false =>
      rw [he, if_neg (by simp)] at h
      have hw := Option.some.inj h
      subst hw
      have hu : c.uid = s.issue.cell := by simpa using List.find?_some hc
      refine ⟨by rw [hu]; exact hc, rfl, rfl, by simpa using he, ?_, rfl, rfl, rfl, rfl, rfl⟩
      intro t ht
      rw [← htids] at ht
      simpa using (List.mem_filter.mp ht).2

/-- The parts of `tested`. -/
theorem tested_spec {s : State} {w : Who} {d : Desc} (h : tested s w d = true) :
    s.who = some w ∧ w.sound = true ∧ w.run = none ∧ uniformTrap w d = none ∧ w.interlocked d = false ∧ d.hold = false
      ∧ (∀ t ∈ w.tids, checking w t = true → threadTrap w d (w.lastPass d) t = none)
      ∧ ((d.settles || !(w.cisSrcs d).isEmpty) = true → ∀ t ∈ w.tids, pendingTrap w t = none)
      ∧ (w.vals.isEmpty = true → w.cisTrap d = none ∧ w.cisEmpty d = none) := by
  simp only [tested, Bool.and_eq_true, decide_eq_true_eq, Option.isNone_iff_eq_none, Bool.not_eq_true'] at h
  obtain ⟨⟨⟨⟨⟨⟨⟨⟨h1, h2⟩, h3⟩, h4⟩, h5⟩, h6⟩, h7⟩, h8⟩, h9⟩ := h
  refine ⟨h1, h2, h3, h4, h5, h6, ?_, ?_, ?_⟩
  · intro t ht hc
    have h7 := List.all_eq_true.mp h7 t ht
    simpa [hc] using h7
  · intro hc t ht
    simp only [hc, Bool.not_true, Bool.false_or, List.all_eq_true] at h8
    simpa using h8 t ht
  · intro hv
    simpa [hv] using h9

/-- A ready issue is tested, and waits for nothing. -/
theorem ready_tested {s : State} {w : Who} {d : Desc} (h : ready s w d = true) : tested s w d = true ∧ d.wait = false := by
  simpa [ready] using h

/-- The parts of `ready`. -/
theorem ready_spec {s : State} {w : Who} {d : Desc} (h : ready s w d = true) :
    s.who = some w ∧ w.sound = true ∧ w.run = none ∧ uniformTrap w d = none ∧ w.interlocked d = false ∧ d.hold = false
      ∧ (∀ t ∈ w.tids, checking w t = true → threadTrap w d (w.lastPass d) t = none)
      ∧ ((d.settles || !(w.cisSrcs d).isEmpty) = true → ∀ t ∈ w.tids, pendingTrap w t = none)
      ∧ (w.vals.isEmpty = true → w.cisTrap d = none ∧ w.cisEmpty d = none) := tested_spec (ready_tested h).1

theorem ready_who {s : State} {w : Who} {d : Desc} (h : ready s w d = true) : s.who = some w := (ready_spec h).1

/-- A ready issue is sound. -/
theorem ready_sound {s : State} {w : Who} {d : Desc} (h : ready s w d = true) :
    (w.u = 0 → w.tids = [0]) ∧ w.cell.hdr.fast ≤ 192 ∧ w.cell.hdr.slow ≤ 64 ∧ w.iss ≠ 0
      ∧ (∀ p ∈ w.unit.pend, p.iss ≠ w.iss) ∧ (∀ p ∈ w.unit.flagPend, p.1 ≠ w.iss) := by
  have h := (ready_spec h).2.1
  simp only [Who.sound, Bool.and_eq_true, decide_eq_true_eq, Bool.or_eq_true, bne_iff_ne, beq_iff_eq, List.all_eq_true] at h
  obtain ⟨⟨⟨⟨⟨⟨h1, h2⟩, h3⟩, -⟩, h4⟩, h5⟩, h6⟩ := h
  exact ⟨fun hu => h1.resolve_left (fun e => e hu), h2, h3, h4, h5, h6⟩

/-- The threads of a ready issue rise in tid. -/
theorem ready_rising {s : State} {w : Who} {d : Desc} (h : ready s w d = true) : w.tids.Pairwise (· < ·) := by
  have h := (ready_spec h).2.1
  simp only [Who.sound, Bool.and_eq_true, decide_eq_true_eq] at h
  exact h.1.1.1.2

theorem filterMap_none {α β : Type} {l : List α} {f : α → Option β} (h : ∀ a ∈ l, f a = none) : l.filterMap f = [] := by
  induction l with
  | nil => rfl
  | cons a r ih => simp [h a (by simp), ih (fun b hb => h b (by simp [hb]))]

/-! ## The issue with its cisterns read -/

@[simp] theorem reads_cell (w : Who) (d : Desc) : (w.reads d).cell = w.cell := rfl
@[simp] theorem reads_u (w : Who) (d : Desc) : (w.reads d).u = w.u := rfl
@[simp] theorem reads_unit (w : Who) (d : Desc) : (w.reads d).unit = w.unit := rfl
@[simp] theorem reads_tids (w : Who) (d : Desc) : (w.reads d).tids = w.tids := rfl
@[simp] theorem reads_pc (w : Who) (d : Desc) : (w.reads d).pc = w.pc := rfl
@[simp] theorem reads_op (w : Who) (d : Desc) (f : BitVec 7) : (w.reads d).op f = w.op f := rfl
@[simp] theorem reads_dstWidth (w : Who) (d : Desc) (f : BitVec 7) : (w.reads d).dstWidth f = w.dstWidth f := rfl
@[simp] theorem reads_when (w : Who) (d e : Desc) : (w.reads d).when e = w.when e := rfl
@[simp] theorem reads_lead (w : Who) (d : Desc) : (w.reads d).lead = w.lead := rfl

theorem lookup_map {l : List Nat} {n : Nat} {f : Nat → W64} {v : W64} (h : (l.map (fun n => (n, f n))).lookup n = some v) : v = f n := by
  induction l with
  | nil => simp at h
  | cons a r ih =>
    simp only [List.map_cons, List.lookup_cons] at h
    split at h
    · next e => rw [← Option.some.inj h, beq_iff_eq.mp e]
    · exact ih h

/-- A source reads the same with the cisterns' values at hand. -/
@[simp] theorem reads_readOp (w : Who) (d : Desc) (t : Nat) (o : Opnd) (n : Nat) : (w.reads d).readOp t o n = w.readOp t o n := by
  cases hv : w.vals.isEmpty with
  | false => unfold Who.reads; rw [hv]; rfl
  | true =>
    cases o with
    | cis k =>
      have hnil : w.vals = [] := by simpa using hv
      have h64 : w.readOp 0 (.cis k) 64 = ((w.cell.cistern? k).map (·.value)).getD 0 := by
        unfold Who.readOp; rw [hnil]; rfl
      have hlook : (match (w.reads d).vals.lookup k with | some v => v | none => ((w.cell.cistern? k).map (·.value)).getD 0)
          = ((w.cell.cistern? k).map (·.value)).getD 0 := by
        split
        · next v h =>
          have h : ((w.newCis d).map (fun n => (n, w.readOp 0 (.cis n) 64))).lookup k = some v := by
            rw [← h]; unfold Who.reads; rw [hv]; rfl
          rw [lookup_map h, h64]
        · rfl
      have h0 : (match w.vals.lookup k with | some v => v | none => ((w.cell.cistern? k).map (·.value)).getD 0)
          = ((w.cell.cistern? k).map (·.value)).getD 0 := by rw [hnil]; rfl
      exact congrArg (fun x : W64 => if n = 32 then (x.setWidth 32).setWidth 64 else x) (hlook.trans h0.symm)
    | _ => rfl

@[simp] theorem reads_src (w : Who) (d : Desc) (t : Nat) (f : BitVec 7) (n : Nat) : (w.reads d).src t f n = w.src t f n := by
  unfold Who.src; rw [reads_op, reads_readOp]

/-! ## A ready issue -/

/-- A tested issue waits for its release or its own accesses, or gets to its instruction's own work, for all its threads. -/
theorem drive_tested {s : State} {w : Who} (desc : Who → Desc) (lane : Who → Nat → State → LaneOut × State)
    (start : Who → State → State := fun _ s => s) (h : tested s w (desc w) = true) :
    drive s desc lane start = .next (if (desc w).wait && !w.tids.isEmpty then (start w s).holdBack w (desc w) [] w.tids
      else s.perform1 w (desc w) [] w.tids lane) := by
  obtain ⟨h1, -, h2, h3, h4, h5, h6, h7, h8⟩ := tested_spec h
  unfold drive
  rw [h1]
  simp only [h2, h3, h4, h5, Bool.or_self, Bool.false_eq_true, if_false]
  have hchk : (w.tids.filter (checking w)).filterMap (fun t => (threadTrap w (desc w) (w.lastPass (desc w)) t).map
      (fun i => (t, LaneOut.trap i))) = [] :=
    filterMap_none (fun t ht => by rw [h6 t (List.mem_filter.mp ht).1 (List.mem_filter.mp ht).2]; rfl)
  rw [hchk]
  have hheld : (if ((desc w).settles || !(w.cisSrcs (desc w)).isEmpty) = true then
      (w.tids.filter (fun t => ([] : List (Nat × LaneOut)).all (fun b => b.1 != t))).filterMap
        (fun t => (pendingTrap w t).map (fun i => (t, i))) else []) = [] := by
    split
    · next hc => exact filterMap_none (fun t ht => by rw [h7 hc t (List.mem_filter.mp ht).1]; rfl)
    · rfl
  rw [hheld]
  have ht : (if w.vals.isEmpty = true then w.cisTrap (desc w) else none) = none := by
    split
    · next hv => exact (h8 hv).1
    · rfl
  have he : (if w.vals.isEmpty = true then w.cisEmpty (desc w) else none) = none := by
    split
    · next hv => exact (h8 hv).2
    · rfl
  simp only [List.append_nil, List.map_nil, updThreads_nil, List.all_nil, List.filter_true, ht, he]

/-- A ready issue gets to its instruction's own work, for all its threads. -/
theorem drive_ready {s : State} {w : Who} (desc : Who → Desc) (lane : Who → Nat → State → LaneOut × State)
    (start : Who → State → State := fun _ s => s) (h : ready s w (desc w) = true) :
    drive s desc lane start = .next (s.perform1 w (desc w) [] w.tids lane) := by
  rw [drive_tested desc lane start (ready_tested h).1, (ready_tested h).2]; rfl

/-- A tested eligible issue that waits for a release or for accesses of its own begins them, and tries again in the next clk. -/
theorem drive_waits {s : State} {w : Who} (desc : Who → Desc) (lane : Who → Nat → State → LaneOut × State)
    (start : Who → State → State := fun _ s => s) (h : tested s w (desc w) = true) (hd : (desc w).wait = true) (hw : w.wake = false) :
    drive s desc lane start = .next ((start w s).stallAll w) := by
  have hne := (who_spec (tested_spec h).1).2.2.2.1
  rw [drive_tested desc lane start h, hd]
  cases ht : w.tids with
  | nil => exact absurd ht hne
  | cons a r => simp [State.holdBack, hw]

/-- Lanes that end each in its own way, and change the state by `f`. -/
theorem runLanes_eq {lane : Nat → State → LaneOut × State} {o : Nat → LaneOut} {f : Nat → State → State} {l : List Nat} {s : State}
    (h : ∀ t ∈ l, ∀ s, lane t s = (o t, f t s)) : runLanes lane l s = (l.map (fun t => (t, o t)), l.foldl (fun s t => f t s) s) := by
  induction l generalizing s with
  | nil => rfl
  | cons t r ih =>
    rw [runLanes, h t (by simp)]
    simp only [List.map_cons, List.foldl_cons]
    rw [ih (fun t ht => h t (by simp [ht]))]

theorem completes_map (o : Nat → LaneOut) (l : List Nat) :
    completes (l.map (fun t => (t, o t))) = l.any (fun t => (o t).code?.isNone) := by
  unfold completes; rw [List.any_map]; rfl

theorem countCis_nil (s : State) (w : Who) : s.countCis w [] = s := rfl

theorem perform1_eq (s : State) (w : Who) (d : Desc) (lane : Who → Nat → State → LaneOut × State) :
    s.perform1 w d [] w.tids lane =
      (let (now, later) := if w.spine || w.wake || w.atOncePass d then (w.tids, []) else
        (w.tids.filter (fun t => (w.tids.take 32).contains t), w.tids.filter (fun t => !(w.tids.take 32).contains t))
       let (os, s1) :=
        if w.single d then
          match w.tids with
          | [] => ([], s)
          | t :: _ => let (o, s1) := lane (w.reads d) t s; (w.tids.map (fun t => (t, o)), s1)
        else runLanes (lane (w.reads d)) now s
       let s2 := if completes os || (!(w.newCis d).isEmpty && completes (runLanes (lane (w.reads d)) later s1).1) then
         s1.countCis (w.reads d) (w.newCis d) else s1
       s2.opening (w.reads d) d w.tids ([] ++ os)) := rfl

/-- Lanes that end each in its own way, one for the bundle or one for each thread: the instruction's own work. -/
theorem perform_ends {s : State} {w : Who} {d : Desc} {lane : Who → Nat → State → LaneOut × State} {o : Nat → LaneOut}
    {f : Nat → State → State} (hne : w.tids ≠ []) (hs : w.single d = true → ∀ i ∈ w.tids, o i = o (w.tids.headD 0))
    (hl : ∀ i ∈ w.tids, ∀ s, lane (w.reads d) i s = (o i, f i s)) :
    s.perform1 w d [] w.tids lane = (s.each w d f).ends w d o := by
  rw [perform1_eq]
  unfold State.ends State.each Who.actors
  cases hsing : w.single d with
  | true =>
    have hat : w.atOncePass d = true := by unfold Who.atOncePass; rw [hsing]; rfl
    have hfp : w.firstPass d = w.tids := by unfold Who.firstPass; rw [hat]; simp
    simp only [hat, Bool.or_true, if_true, hfp]
    match htids : w.tids, hne with
    | t :: r, _ =>
      have h1 := hl t (by rw [htids]; simp)
      have h2 := hs hsing
      rw [htids] at h2
      simp only [List.headD_cons] at h2
      simp only [h1]
      have hos : ((t :: r).map (fun t' => (t', o t))) = (t :: r).map (fun t' => (t', o t')) :=
        List.map_congr_left (fun i hi => by rw [h2 i hi])
      simp only [List.take_succ_cons, List.take_zero, List.foldl_cons, List.foldl_nil, List.nil_append]
      rw [hos, completes_map]
      simp only [runLanes, completes, List.any_nil, Bool.and_false, Bool.or_false]
      rfl
  | false =>
    simp only [Bool.false_eq_true, if_false]
    have key : ∀ (now later : List Nat), (∀ i, i ∈ w.tids ↔ i ∈ now ∨ i ∈ later) →
        (let (os, s1) := runLanes (lane (w.reads d)) now s
         let s2 := if (completes os || (!(w.newCis d).isEmpty && completes (runLanes (lane (w.reads d)) later s1).1)) = true
           then s1.countCis (w.reads d) (w.newCis d) else s1
         s2.opening (w.reads d) d w.tids ([] ++ os)) =
        (if (w.tids.any (fun t => (o t).code?.isNone)) = true then (now.foldl (fun s i => f i s) s).countCis w (w.newCis d)
          else now.foldl (fun s i => f i s) s).opening (w.reads d) d w.tids (now.map (fun t => (t, o t))) := by
      intro now later hm
      rw [runLanes_eq (o := o) (f := f) (fun t ht => hl t ((hm t).2 (Or.inl ht)))]
      dsimp only
      rw [runLanes_eq (o := o) (f := f) (fun t ht => hl t ((hm t).2 (Or.inr ht)))]
      dsimp only
      rw [completes_map, completes_map, List.nil_append]
      have hany : w.tids.any (fun t => (o t).code?.isNone)
          = (now.any (fun t => (o t).code?.isNone) || later.any (fun t => (o t).code?.isNone)) := by
        rw [Bool.eq_iff_iff]
        simp only [Bool.or_eq_true, List.any_eq_true]
        constructor
        · rintro ⟨i, hi, h⟩
          exact ((hm i).1 hi).imp (fun hi => ⟨i, hi, h⟩) (fun hi => ⟨i, hi, h⟩)
        · rintro (⟨i, hi, h⟩ | ⟨i, hi, h⟩)
          · exact ⟨i, (hm i).2 (Or.inl hi), h⟩
          · exact ⟨i, (hm i).2 (Or.inr hi), h⟩
      rw [hany]
      cases hn : (w.newCis d).isEmpty with
      | true =>
        have hn : w.newCis d = [] := by simpa using hn
        rw [hn, countCis_nil, countCis_nil]; simp
      | false => simp only [Bool.not_false, Bool.true_and]; rfl
    unfold Who.firstPass
    cases w.spine || w.wake || w.atOncePass d with
    | true => exact key w.tids [] (by simp)
    | false =>
      simp only [Bool.false_eq_true, if_false]
      refine key (w.tids.filter (fun t => (w.tids.take 32).contains t)) (w.tids.filter (fun t => !(w.tids.take 32).contains t)) (fun i => ?_)
      simp only [List.mem_filter]
      cases (w.tids.take 32).contains i <;> simp

/-- A ready instruction whose lanes end each in its own way. -/
theorem drive_ends {s : State} {w : Who} (desc : Who → Desc) (lane : Who → Nat → State → LaneOut × State)
    (start : Who → State → State := fun _ s => s) (o : Nat → LaneOut) (f : Nat → State → State) (h : ready s w (desc w) = true)
    (hs : w.single (desc w) = true → ∀ i ∈ w.tids, o i = o (w.tids.headD 0))
    (hl : ∀ i ∈ w.tids, ∀ s, lane (w.reads (desc w)) i s = (o i, f i s)) :
    drive s desc lane start = .next ((s.each w (desc w) f).ends w (desc w) o) := by
  rw [drive_ready desc lane start h, perform_ends (who_spec (ready_who h)).2.2.2.1 hs hl]

/-- A ready instruction whose lanes all complete, each with its own effect. -/
theorem drive_each {s : State} {w : Who} (desc : Who → Desc) (lane : Who → Nat → State → LaneOut × State)
    (start : Who → State → State := fun _ s => s) (f : Nat → State → State) (h : ready s w (desc w) = true)
    (hl : ∀ i ∈ w.tids, ∀ s, lane (w.reads (desc w)) i s = (.done, f i s)) :
    drive s desc lane start = .next ((s.each w (desc w) f).all w (desc w) .done) :=
  drive_ends desc lane start (fun _ => .done) f h (fun _ _ _ => rfl) hl

/-- A ready register instruction writes its results and goes on. -/
theorem alu_ready {s : State} {w : Who} (desc : Who → Desc) (f : Who → Nat → W64 × BitVec 5) (h : ready s w (desc w) = true)
    (hd : desc (w.reads (desc w)) = desc w) :
    alu s desc f = .next ((s.results w (desc w) (f (w.reads (desc w)))).all w (desc w) .done) := by
  unfold alu
  refine drive_each desc _ (fun _ s => s) (fun i s =>
    w.raise (w.when (desc w)) (f (w.reads (desc w)) i).2 (match (desc w).wr with
      | some (r, n) => w.write (w.when (desc w)) i r n (f (w.reads (desc w)) i).1 s
      | none => s)) h (fun i _ s => ?_)
  rw [hd]
  cases (desc w).wr <;> rfl

/-! ## Threads that act in turn -/

theorem turns_congr {l : List Nat} {a b x y : Nat → State} (h : ∀ k ∈ l, a k = b k ∧ x k = y k) {s u : State}
    (ht : Turns a x l s u) : Turns b y l s u := by
  induction l generalizing s with
  | nil => exact ht
  | cons k r ih =>
    refine ⟨(h k (by simp)).1 ▸ ht.1, ?_⟩
    rw [← (h k (by simp)).2]
    exact ih (fun j hj => h j (by simp [hj])) ht.2

/-- The threads of a list act one after the other, each in the state that those before it left. -/
theorem runLanes_turns (lane : Nat → State → LaneOut × State) (l : List Nat) (hl : l.Nodup) (s : State) :
    ∃ (o : Nat → LaneOut) (a x : Nat → State), (runLanes lane l s).1 = l.map (fun t => (t, o t)) ∧ Turns a x l s (runLanes lane l s).2
      ∧ ∀ k ∈ l, lane k (a k) = (o k, x k) := by
  induction l generalizing s with
  | nil => exact ⟨fun _ => .done, fun _ => s, fun _ => s, rfl, rfl, fun _ h => absurd h (by simp)⟩
  | cons k r ih =>
    obtain ⟨hk, hr⟩ := List.nodup_cons.mp hl
    obtain ⟨o, a, x, h1, h2, h3⟩ := ih hr (lane k s).2
    have hne : ∀ j ∈ r, j ≠ k := fun j hj e => hk (e ▸ hj)
    refine ⟨fun j => if j = k then (lane k s).1 else o j, fun j => if j = k then s else a j,
      fun j => if j = k then (lane k s).2 else x j, ?_, ⟨by simp, ?_⟩, ?_⟩
    · show (k, (lane k s).1) :: (runLanes lane r (lane k s).2).1 = _
      rw [h1, List.map_cons]
      dsimp only
      rw [if_pos rfl]
      congr 1
      exact List.map_congr_left (fun j hj => by rw [if_neg (hne j hj)])
    · dsimp only
      rw [if_pos rfl]
      exact turns_congr (fun j hj => by rw [if_neg (hne j hj), if_neg (hne j hj)]; exact ⟨rfl, rfl⟩) h2
    · intro j hj
      rcases List.mem_cons.mp hj with rfl | hj
      · simp
      · simp only [if_neg (hne j hj)]; exact h3 j hj

/-- A ready instruction: its acting threads take their turns, each as its lane does, and the issue's clk ends. -/
theorem drive_acts {s : State} {w : Who} (desc : Who → Desc) (lane : Who → Nat → State → LaneOut × State)
    (start : Who → State → State := fun _ s => s) (P : Nat → State → LaneOut → State → Prop) (h : ready s w (desc w) = true)
    (hP : ∀ k ∈ w.actors (desc w), ∀ v, P k v (lane (w.reads (desc w)) k v).1 (lane (w.reads (desc w)) k v).2) :
    ∃ o u, Acts s w (desc w) o u P ∧ drive s desc lane start = .next (u.ends w (desc w) o) := by
  rw [drive_ready desc lane start h]
  have hne := (who_spec (ready_who h)).2.2.2.1
  have hup := ready_rising h
  generalize desc w = d at *
  rw [perform1_eq]
  unfold State.ends Acts
  cases hsing : w.single d with
  | true =>
    have hact : w.actors d = w.tids.take 1 := by unfold Who.actors; rw [hsing]; rfl
    have hat : w.atOncePass d = true := by unfold Who.atOncePass; rw [hsing]; rfl
    have hfp : w.firstPass d = w.tids := by unfold Who.firstPass; rw [hat]; simp
    rw [hact] at hP
    rw [hact, hfp]
    match htids : w.tids, hne with
    | k :: r, _ =>
      rw [htids] at hP
      refine ⟨fun _ => (lane (w.reads d) k s).1, (lane (w.reads d) k s).2,
        ⟨⟨fun _ => s, fun _ => (lane (w.reads d) k s).2, ⟨rfl, rfl⟩, ?_⟩, fun _ _ _ => rfl⟩, ?_⟩
      · intro j hj
        have : j = k := by simpa using hj
        subst this; exact hP j hj s
      · simp only [hat, Bool.or_true, if_true, List.nil_append]
        rw [completes_map]
        simp only [runLanes, completes, List.any_nil, Bool.and_false, Bool.or_false]
        rfl
  | false =>
    have hact : w.actors d = w.firstPass d := by unfold Who.actors; rw [hsing]; rfl
    rw [hact] at hP ⊢
    have key : ∀ (now later : List Nat), now.Nodup → later.Nodup → (∀ i ∈ now, i ∉ later) → (∀ i, i ∈ w.tids ↔ i ∈ now ∨ i ∈ later) →
        w.firstPass d = now →
        ∃ (o : Nat → LaneOut) (u : State), ((∃ a x, Turns a x now s u ∧ ∀ k ∈ now, P k (a k) (o k) (x k)) ∧ (False → ∀ k ∈ w.tids, o k = o w.lead)) ∧
          (let (os, s1) := runLanes (lane (w.reads d)) now s
           let s2 := if (completes os || (!(w.newCis d).isEmpty && completes (runLanes (lane (w.reads d)) later s1).1)) = true
             then s1.countCis (w.reads d) (w.newCis d) else s1
           (Host.Outcome.next (s2.opening (w.reads d) d w.tids ([] ++ os)) : Host.Outcome State Fault Refusal)) =
          .next ((if (w.tids.any (fun t => (o t).code?.isNone)) = true then u.countCis w (w.newCis d) else u).opening (w.reads d) d w.tids
            (now.map (fun t => (t, o t)))) := by
      intro now later hn hl hdis hm hfp
      obtain ⟨o, a, x, h1, h2, h3⟩ := runLanes_turns (lane (w.reads d)) now hn s
      obtain ⟨o', -, -, h1', -, -⟩ := runLanes_turns (lane (w.reads d)) later hl (runLanes (lane (w.reads d)) now s).2
      refine ⟨fun k => if k ∈ now then o k else o' k, (runLanes (lane (w.reads d)) now s).2, ⟨⟨a, x, h2, fun k hk => ?_⟩, fun e => absurd e (by simp)⟩, ?_⟩
      · have := hP k (hfp ▸ hk) (a k)
        rw [h3 k hk] at this
        simpa [hk] using this
      · dsimp only
        rw [h1, h1']
        have e1 : now.map (fun t => (t, if t ∈ now then o t else o' t)) = now.map (fun t => (t, o t)) :=
          List.map_congr_left (fun t ht => by rw [if_pos ht])
        rw [e1, completes_map, completes_map, List.nil_append]
        have hany : w.tids.any (fun t => (if t ∈ now then o t else o' t).code?.isNone)
            = (now.any (fun t => (o t).code?.isNone) || later.any (fun t => (o' t).code?.isNone)) := by
          rw [Bool.eq_iff_iff]
          simp only [Bool.or_eq_true, List.any_eq_true]
          constructor
          · rintro ⟨i, hi, h⟩
            by_cases hin : i ∈ now
            · rw [if_pos hin] at h; exact Or.inl ⟨i, hin, h⟩
            · rw [if_neg hin] at h; exact Or.inr ⟨i, ((hm i).1 hi).resolve_left hin, h⟩
          · rintro (⟨i, hi, h⟩ | ⟨i, hi, h⟩)
            · exact ⟨i, (hm i).2 (Or.inl hi), by rw [if_pos hi]; exact h⟩
            · exact ⟨i, (hm i).2 (Or.inr hi), by rw [if_neg (fun e => hdis i e hi)]; exact h⟩
        rw [hany]
        cases hnc : (w.newCis d).isEmpty with
        | true =>
          have hnc : w.newCis d = [] := by simpa using hnc
          rw [hnc, countCis_nil, countCis_nil]; simp
        | false => simp only [Bool.not_false, Bool.true_and]; rfl
    have hnd : w.tids.Nodup := hup.imp (fun h => Nat.ne_of_lt h)
    simp only [Bool.false_eq_true, if_false]
    unfold Who.firstPass at key ⊢
    cases hc : w.spine || w.wake || w.atOncePass d with
    | true =>
      simp only [hc, if_true] at key ⊢
      exact key w.tids [] hnd List.nodup_nil (fun _ _ h => absurd h (by simp)) (by simp) rfl
    | false =>
      simp only [hc, Bool.false_eq_true, if_false] at key ⊢
      refine key (w.tids.filter (fun t => (w.tids.take 32).contains t)) (w.tids.filter (fun t => !(w.tids.take 32).contains t))
        (hnd.filter _) (hnd.filter _) ?_ (fun i => ?_) rfl
      · intro i hi hj
        have h1 := (List.mem_filter.mp hi).2
        have h2 := (List.mem_filter.mp hj).2
        rw [h1] at h2; exact absurd h2 (by simp)
      · simp only [List.mem_filter]
        cases (w.tids.take 32).contains i <;> simp

end Sys2Proof.Machine
end

