-- ==== Sys2Proof/Laws/State.lean ====
section
/-! SUPPORT. What each named update of the state leaves alone: one lemma per field per update, so that no proof unfolds a
record update. -/

namespace Sys2Proof.Machine

@[simp] theorem State.dropKeyed_clk (s : State) (slot : BitVec 8) : (s.dropKeyed slot).clk = s.clk := rfl
@[simp] theorem State.dropKeyed_fresh (s : State) (slot : BitVec 8) : (s.dropKeyed slot).fresh = s.fresh := rfl
@[simp] theorem State.dropKeyed_agenda (s : State) (slot : BitVec 8) : (s.dropKeyed slot).agenda = s.agenda := rfl
@[simp] theorem State.dropKeyed_waiting (s : State) (slot : BitVec 8) : (s.dropKeyed slot).waiting = s.waiting := rfl
@[simp] theorem State.dropKeyed_served (s : State) (slot : BitVec 8) : (s.dropKeyed slot).served = s.served := rfl
@[simp] theorem State.dropKeyed_due (s : State) (slot : BitVec 8) : (s.dropKeyed slot).due = s.due := rfl
@[simp] theorem State.dropKeyed_phase (s : State) (slot : BitVec 8) : (s.dropKeyed slot).phase = s.phase := rfl
@[simp] theorem State.dropKeyed_turns (s : State) (slot : BitVec 8) : (s.dropKeyed slot).turns = s.turns := rfl
@[simp] theorem State.dropKeyed_issue (s : State) (slot : BitVec 8) : (s.dropKeyed slot).issue = s.issue := rfl
@[simp] theorem State.dropKeyed_pkg (s : State) (slot : BitVec 8) : (s.dropKeyed slot).pkg = s.pkg := rfl
@[simp] theorem State.dropKeyed_sched (s : State) (slot : BitVec 8) : (s.dropKeyed slot).sched = s.sched := rfl
@[simp] theorem State.dropKeyed_cells (s : State) (slot : BitVec 8) : (s.dropKeyed slot).cells = s.cells := rfl
@[simp] theorem State.dropKeyed_clu (s : State) (slot : BitVec 8) : (s.dropKeyed slot).clu = s.clu := rfl
@[simp] theorem State.dropFlip_clk (s : State) (f : Flip) : (s.dropFlip f).clk = s.clk := rfl
@[simp] theorem State.dropFlip_fresh (s : State) (f : Flip) : (s.dropFlip f).fresh = s.fresh := rfl
@[simp] theorem State.dropFlip_agenda (s : State) (f : Flip) : (s.dropFlip f).agenda = s.agenda := rfl
@[simp] theorem State.dropFlip_waiting (s : State) (f : Flip) : (s.dropFlip f).waiting = s.waiting := rfl
@[simp] theorem State.dropFlip_served (s : State) (f : Flip) : (s.dropFlip f).served = s.served := rfl
@[simp] theorem State.dropFlip_due (s : State) (f : Flip) : (s.dropFlip f).due = s.due := rfl
@[simp] theorem State.dropFlip_phase (s : State) (f : Flip) : (s.dropFlip f).phase = s.phase := rfl
@[simp] theorem State.dropFlip_turns (s : State) (f : Flip) : (s.dropFlip f).turns = s.turns := rfl
@[simp] theorem State.dropFlip_issue (s : State) (f : Flip) : (s.dropFlip f).issue = s.issue := rfl
@[simp] theorem State.dropFlip_pkg (s : State) (f : Flip) : (s.dropFlip f).pkg = s.pkg := rfl
@[simp] theorem State.dropFlip_sched (s : State) (f : Flip) : (s.dropFlip f).sched = s.sched := rfl
@[simp] theorem State.dropFlip_cells (s : State) (f : Flip) : (s.dropFlip f).cells = s.cells := rfl
@[simp] theorem State.dropFlip_clu (s : State) (f : Flip) : (s.dropFlip f).clu = s.clu := rfl
@[simp] theorem State.updCopy_clk (s : State) (num : Nat) (f : CopyOp → CopyOp) : (s.updCopy num f).clk = s.clk := rfl
@[simp] theorem State.updCopy_fresh (s : State) (num : Nat) (f : CopyOp → CopyOp) : (s.updCopy num f).fresh = s.fresh := rfl
@[simp] theorem State.updCopy_agenda (s : State) (num : Nat) (f : CopyOp → CopyOp) : (s.updCopy num f).agenda = s.agenda := rfl
@[simp] theorem State.updCopy_waiting (s : State) (num : Nat) (f : CopyOp → CopyOp) : (s.updCopy num f).waiting = s.waiting := rfl
@[simp] theorem State.updCopy_served (s : State) (num : Nat) (f : CopyOp → CopyOp) : (s.updCopy num f).served = s.served := rfl
@[simp] theorem State.updCopy_due (s : State) (num : Nat) (f : CopyOp → CopyOp) : (s.updCopy num f).due = s.due := rfl
@[simp] theorem State.updCopy_phase (s : State) (num : Nat) (f : CopyOp → CopyOp) : (s.updCopy num f).phase = s.phase := rfl
@[simp] theorem State.updCopy_turns (s : State) (num : Nat) (f : CopyOp → CopyOp) : (s.updCopy num f).turns = s.turns := rfl
@[simp] theorem State.updCopy_issue (s : State) (num : Nat) (f : CopyOp → CopyOp) : (s.updCopy num f).issue = s.issue := rfl
@[simp] theorem State.updCopy_pkg (s : State) (num : Nat) (f : CopyOp → CopyOp) : (s.updCopy num f).pkg = s.pkg := rfl
@[simp] theorem State.updCopy_sched (s : State) (num : Nat) (f : CopyOp → CopyOp) : (s.updCopy num f).sched = s.sched := rfl
@[simp] theorem State.updCopy_cells (s : State) (num : Nat) (f : CopyOp → CopyOp) : (s.updCopy num f).cells = s.cells := rfl
@[simp] theorem State.updCopy_home (s : State) (num : Nat) (f : CopyOp → CopyOp) : (s.updCopy num f).home = s.home := rfl
@[simp] theorem State.countMoved_clk (s : State) (cl n : Nat) : (s.countMoved cl n).clk = s.clk := rfl
@[simp] theorem State.countMoved_fresh (s : State) (cl n : Nat) : (s.countMoved cl n).fresh = s.fresh := rfl
@[simp] theorem State.countMoved_agenda (s : State) (cl n : Nat) : (s.countMoved cl n).agenda = s.agenda := rfl
@[simp] theorem State.countMoved_waiting (s : State) (cl n : Nat) : (s.countMoved cl n).waiting = s.waiting := rfl
@[simp] theorem State.countMoved_served (s : State) (cl n : Nat) : (s.countMoved cl n).served = s.served := rfl
@[simp] theorem State.countMoved_due (s : State) (cl n : Nat) : (s.countMoved cl n).due = s.due := rfl
@[simp] theorem State.countMoved_phase (s : State) (cl n : Nat) : (s.countMoved cl n).phase = s.phase := rfl
@[simp] theorem State.countMoved_turns (s : State) (cl n : Nat) : (s.countMoved cl n).turns = s.turns := rfl
@[simp] theorem State.countMoved_issue (s : State) (cl n : Nat) : (s.countMoved cl n).issue = s.issue := rfl
@[simp] theorem State.countMoved_pkg (s : State) (cl n : Nat) : (s.countMoved cl n).pkg = s.pkg := rfl
@[simp] theorem State.countMoved_sched (s : State) (cl n : Nat) : (s.countMoved cl n).sched = s.sched := rfl
@[simp] theorem State.countMoved_cells (s : State) (cl n : Nat) : (s.countMoved cl n).cells = s.cells := rfl
@[simp] theorem State.countMoved_home (s : State) (cl n : Nat) : (s.countMoved cl n).home = s.home := rfl
@[simp] theorem State.updPort_clk (s : State) (p : Nat) (f : Port → Port) : (s.updPort p f).clk = s.clk := rfl
@[simp] theorem State.updPort_fresh (s : State) (p : Nat) (f : Port → Port) : (s.updPort p f).fresh = s.fresh := rfl
@[simp] theorem State.updPort_agenda (s : State) (p : Nat) (f : Port → Port) : (s.updPort p f).agenda = s.agenda := rfl
@[simp] theorem State.updPort_waiting (s : State) (p : Nat) (f : Port → Port) : (s.updPort p f).waiting = s.waiting := rfl
@[simp] theorem State.updPort_served (s : State) (p : Nat) (f : Port → Port) : (s.updPort p f).served = s.served := rfl
@[simp] theorem State.updPort_due (s : State) (p : Nat) (f : Port → Port) : (s.updPort p f).due = s.due := rfl
@[simp] theorem State.updPort_phase (s : State) (p : Nat) (f : Port → Port) : (s.updPort p f).phase = s.phase := rfl
@[simp] theorem State.updPort_turns (s : State) (p : Nat) (f : Port → Port) : (s.updPort p f).turns = s.turns := rfl
@[simp] theorem State.updPort_issue (s : State) (p : Nat) (f : Port → Port) : (s.updPort p f).issue = s.issue := rfl
@[simp] theorem State.updPort_sched (s : State) (p : Nat) (f : Port → Port) : (s.updPort p f).sched = s.sched := rfl
@[simp] theorem State.updPort_cells (s : State) (p : Nat) (f : Port → Port) : (s.updPort p f).cells = s.cells := rfl
@[simp] theorem State.updPort_clu (s : State) (p : Nat) (f : Port → Port) : (s.updPort p f).clu = s.clu := rfl
@[simp] theorem State.updPort_home (s : State) (p : Nat) (f : Port → Port) : (s.updPort p f).home = s.home := rfl
@[simp] theorem State.setLine_clk (s : State) (h : HLine) : (s.setLine h).clk = s.clk := rfl
@[simp] theorem State.setLine_fresh (s : State) (h : HLine) : (s.setLine h).fresh = s.fresh := rfl
@[simp] theorem State.setLine_agenda (s : State) (h : HLine) : (s.setLine h).agenda = s.agenda := rfl
@[simp] theorem State.setLine_waiting (s : State) (h : HLine) : (s.setLine h).waiting = s.waiting := rfl
@[simp] theorem State.setLine_served (s : State) (h : HLine) : (s.setLine h).served = s.served := rfl
@[simp] theorem State.setLine_due (s : State) (h : HLine) : (s.setLine h).due = s.due := rfl
@[simp] theorem State.setLine_phase (s : State) (h : HLine) : (s.setLine h).phase = s.phase := rfl
@[simp] theorem State.setLine_turns (s : State) (h : HLine) : (s.setLine h).turns = s.turns := rfl
@[simp] theorem State.setLine_issue (s : State) (h : HLine) : (s.setLine h).issue = s.issue := rfl
@[simp] theorem State.setLine_pkg (s : State) (h : HLine) : (s.setLine h).pkg = s.pkg := rfl
@[simp] theorem State.setLine_sched (s : State) (h : HLine) : (s.setLine h).sched = s.sched := rfl
@[simp] theorem State.setLine_cells (s : State) (h : HLine) : (s.setLine h).cells = s.cells := rfl
@[simp] theorem State.setLine_clu (s : State) (h : HLine) : (s.setLine h).clu = s.clu := rfl
@[simp] theorem State.send_clk (s : State) (m : Msg) : (s.send m).clk = s.clk := rfl
@[simp] theorem State.send_agenda (s : State) (m : Msg) : (s.send m).agenda = s.agenda := rfl
@[simp] theorem State.send_waiting (s : State) (m : Msg) : (s.send m).waiting = s.waiting := rfl
@[simp] theorem State.send_served (s : State) (m : Msg) : (s.send m).served = s.served := rfl
@[simp] theorem State.send_due (s : State) (m : Msg) : (s.send m).due = s.due := rfl
@[simp] theorem State.send_phase (s : State) (m : Msg) : (s.send m).phase = s.phase := rfl
@[simp] theorem State.send_turns (s : State) (m : Msg) : (s.send m).turns = s.turns := rfl
@[simp] theorem State.send_issue (s : State) (m : Msg) : (s.send m).issue = s.issue := rfl
@[simp] theorem State.send_pkg (s : State) (m : Msg) : (s.send m).pkg = s.pkg := rfl
@[simp] theorem State.send_sched (s : State) (m : Msg) : (s.send m).sched = s.sched := rfl
@[simp] theorem State.send_cells (s : State) (m : Msg) : (s.send m).cells = s.cells := rfl
@[simp] theorem State.send_clu (s : State) (m : Msg) : (s.send m).clu = s.clu := rfl
@[simp] theorem State.setL1_clk (s : State) (x : L1Line) : (s.setL1 x).clk = s.clk := rfl
@[simp] theorem State.setL1_fresh (s : State) (x : L1Line) : (s.setL1 x).fresh = s.fresh := rfl
@[simp] theorem State.setL1_agenda (s : State) (x : L1Line) : (s.setL1 x).agenda = s.agenda := rfl
@[simp] theorem State.setL1_waiting (s : State) (x : L1Line) : (s.setL1 x).waiting = s.waiting := rfl
@[simp] theorem State.setL1_served (s : State) (x : L1Line) : (s.setL1 x).served = s.served := rfl
@[simp] theorem State.setL1_due (s : State) (x : L1Line) : (s.setL1 x).due = s.due := rfl
@[simp] theorem State.setL1_phase (s : State) (x : L1Line) : (s.setL1 x).phase = s.phase := rfl
@[simp] theorem State.setL1_turns (s : State) (x : L1Line) : (s.setL1 x).turns = s.turns := rfl
@[simp] theorem State.setL1_issue (s : State) (x : L1Line) : (s.setL1 x).issue = s.issue := rfl
@[simp] theorem State.setL1_pkg (s : State) (x : L1Line) : (s.setL1 x).pkg = s.pkg := rfl
@[simp] theorem State.setL1_sched (s : State) (x : L1Line) : (s.setL1 x).sched = s.sched := rfl
@[simp] theorem State.setL1_cells (s : State) (x : L1Line) : (s.setL1 x).cells = s.cells := rfl
@[simp] theorem State.setL1_home (s : State) (x : L1Line) : (s.setL1 x).home = s.home := rfl
@[simp] theorem State.shutStores_clk (s : State) (cell u tid : Nat) : (s.shutStores cell u tid).clk = s.clk := rfl
@[simp] theorem State.shutStores_fresh (s : State) (cell u tid : Nat) : (s.shutStores cell u tid).fresh = s.fresh := rfl
@[simp] theorem State.shutStores_agenda (s : State) (cell u tid : Nat) : (s.shutStores cell u tid).agenda = s.agenda := rfl
@[simp] theorem State.shutStores_waiting (s : State) (cell u tid : Nat) : (s.shutStores cell u tid).waiting = s.waiting := rfl
@[simp] theorem State.shutStores_served (s : State) (cell u tid : Nat) : (s.shutStores cell u tid).served = s.served := rfl
@[simp] theorem State.shutStores_due (s : State) (cell u tid : Nat) : (s.shutStores cell u tid).due = s.due := rfl
@[simp] theorem State.shutStores_phase (s : State) (cell u tid : Nat) : (s.shutStores cell u tid).phase = s.phase := rfl
@[simp] theorem State.shutStores_turns (s : State) (cell u tid : Nat) : (s.shutStores cell u tid).turns = s.turns := rfl
@[simp] theorem State.shutStores_issue (s : State) (cell u tid : Nat) : (s.shutStores cell u tid).issue = s.issue := rfl
@[simp] theorem State.shutStores_pkg (s : State) (cell u tid : Nat) : (s.shutStores cell u tid).pkg = s.pkg := rfl
@[simp] theorem State.shutStores_sched (s : State) (cell u tid : Nat) : (s.shutStores cell u tid).sched = s.sched := rfl
@[simp] theorem State.shutStores_cells (s : State) (cell u tid : Nat) : (s.shutStores cell u tid).cells = s.cells := rfl
@[simp] theorem State.shutStores_home (s : State) (cell u tid : Nat) : (s.shutStores cell u tid).home = s.home := rfl
@[simp] theorem State.addItem_clk (s : State) (dev : Nat) (ctx : BitVec 32) (k : ItemKind) (pri : BitVec 3) (sub : Nat × Nat × Nat) : (s.addItem dev ctx k pri sub).clk = s.clk := rfl
@[simp] theorem State.addItem_agenda (s : State) (dev : Nat) (ctx : BitVec 32) (k : ItemKind) (pri : BitVec 3) (sub : Nat × Nat × Nat) : (s.addItem dev ctx k pri sub).agenda = s.agenda := rfl
@[simp] theorem State.addItem_waiting (s : State) (dev : Nat) (ctx : BitVec 32) (k : ItemKind) (pri : BitVec 3) (sub : Nat × Nat × Nat) : (s.addItem dev ctx k pri sub).waiting = s.waiting := rfl
@[simp] theorem State.addItem_served (s : State) (dev : Nat) (ctx : BitVec 32) (k : ItemKind) (pri : BitVec 3) (sub : Nat × Nat × Nat) : (s.addItem dev ctx k pri sub).served = s.served := rfl
@[simp] theorem State.addItem_due (s : State) (dev : Nat) (ctx : BitVec 32) (k : ItemKind) (pri : BitVec 3) (sub : Nat × Nat × Nat) : (s.addItem dev ctx k pri sub).due = s.due := rfl
@[simp] theorem State.addItem_phase (s : State) (dev : Nat) (ctx : BitVec 32) (k : ItemKind) (pri : BitVec 3) (sub : Nat × Nat × Nat) : (s.addItem dev ctx k pri sub).phase = s.phase := rfl
@[simp] theorem State.addItem_turns (s : State) (dev : Nat) (ctx : BitVec 32) (k : ItemKind) (pri : BitVec 3) (sub : Nat × Nat × Nat) : (s.addItem dev ctx k pri sub).turns = s.turns := rfl
@[simp] theorem State.addItem_issue (s : State) (dev : Nat) (ctx : BitVec 32) (k : ItemKind) (pri : BitVec 3) (sub : Nat × Nat × Nat) : (s.addItem dev ctx k pri sub).issue = s.issue := rfl
@[simp] theorem State.addItem_pkg (s : State) (dev : Nat) (ctx : BitVec 32) (k : ItemKind) (pri : BitVec 3) (sub : Nat × Nat × Nat) : (s.addItem dev ctx k pri sub).pkg = s.pkg := rfl
@[simp] theorem State.addItem_cells (s : State) (dev : Nat) (ctx : BitVec 32) (k : ItemKind) (pri : BitVec 3) (sub : Nat × Nat × Nat) : (s.addItem dev ctx k pri sub).cells = s.cells := rfl
@[simp] theorem State.addItem_clu (s : State) (dev : Nat) (ctx : BitVec 32) (k : ItemKind) (pri : BitVec 3) (sub : Nat × Nat × Nat) : (s.addItem dev ctx k pri sub).clu = s.clu := rfl
@[simp] theorem State.addItem_home (s : State) (dev : Nat) (ctx : BitVec 32) (k : ItemKind) (pri : BitVec 3) (sub : Nat × Nat × Nat) : (s.addItem dev ctx k pri sub).home = s.home := rfl
@[simp] theorem State.setWake_clk (s : State) (g : Group) : (s.setWake g).clk = s.clk := rfl
@[simp] theorem State.setWake_fresh (s : State) (g : Group) : (s.setWake g).fresh = s.fresh := rfl
@[simp] theorem State.setWake_agenda (s : State) (g : Group) : (s.setWake g).agenda = s.agenda := rfl
@[simp] theorem State.setWake_waiting (s : State) (g : Group) : (s.setWake g).waiting = s.waiting := rfl
@[simp] theorem State.setWake_served (s : State) (g : Group) : (s.setWake g).served = s.served := rfl
@[simp] theorem State.setWake_due (s : State) (g : Group) : (s.setWake g).due = s.due := rfl
@[simp] theorem State.setWake_phase (s : State) (g : Group) : (s.setWake g).phase = s.phase := rfl
@[simp] theorem State.setWake_turns (s : State) (g : Group) : (s.setWake g).turns = s.turns := rfl
@[simp] theorem State.setWake_pkg (s : State) (g : Group) : (s.setWake g).pkg = s.pkg := rfl
@[simp] theorem State.setWake_sched (s : State) (g : Group) : (s.setWake g).sched = s.sched := rfl
@[simp] theorem State.setWake_cells (s : State) (g : Group) : (s.setWake g).cells = s.cells := rfl
@[simp] theorem State.setWake_clu (s : State) (g : Group) : (s.setWake g).clu = s.clu := rfl
@[simp] theorem State.setWake_home (s : State) (g : Group) : (s.setWake g).home = s.home := rfl
@[simp] theorem State.setIssue_clk (s : State) (g : Group) (port : Nat) : (s.setIssue g port).clk = s.clk := rfl
@[simp] theorem State.setIssue_fresh (s : State) (g : Group) (port : Nat) : (s.setIssue g port).fresh = s.fresh := rfl
@[simp] theorem State.setIssue_agenda (s : State) (g : Group) (port : Nat) : (s.setIssue g port).agenda = s.agenda := rfl
@[simp] theorem State.setIssue_waiting (s : State) (g : Group) (port : Nat) : (s.setIssue g port).waiting = s.waiting := rfl
@[simp] theorem State.setIssue_served (s : State) (g : Group) (port : Nat) : (s.setIssue g port).served = s.served := rfl
@[simp] theorem State.setIssue_due (s : State) (g : Group) (port : Nat) : (s.setIssue g port).due = s.due := rfl
@[simp] theorem State.setIssue_phase (s : State) (g : Group) (port : Nat) : (s.setIssue g port).phase = s.phase := rfl
@[simp] theorem State.setIssue_turns (s : State) (g : Group) (port : Nat) : (s.setIssue g port).turns = s.turns := rfl
@[simp] theorem State.setIssue_pkg (s : State) (g : Group) (port : Nat) : (s.setIssue g port).pkg = s.pkg := rfl
@[simp] theorem State.setIssue_sched (s : State) (g : Group) (port : Nat) : (s.setIssue g port).sched = s.sched := rfl
@[simp] theorem State.setIssue_cells (s : State) (g : Group) (port : Nat) : (s.setIssue g port).cells = s.cells := rfl
@[simp] theorem State.setIssue_clu (s : State) (g : Group) (port : Nat) : (s.setIssue g port).clu = s.clu := rfl
@[simp] theorem State.setIssue_home (s : State) (g : Group) (port : Nat) : (s.setIssue g port).home = s.home := rfl
@[simp] theorem State.setPass_clk (s : State) (r : IssuePort) : (s.setPass r).clk = s.clk := rfl
@[simp] theorem State.setPass_fresh (s : State) (r : IssuePort) : (s.setPass r).fresh = s.fresh := rfl
@[simp] theorem State.setPass_agenda (s : State) (r : IssuePort) : (s.setPass r).agenda = s.agenda := rfl
@[simp] theorem State.setPass_waiting (s : State) (r : IssuePort) : (s.setPass r).waiting = s.waiting := rfl
@[simp] theorem State.setPass_served (s : State) (r : IssuePort) : (s.setPass r).served = s.served := rfl
@[simp] theorem State.setPass_due (s : State) (r : IssuePort) : (s.setPass r).due = s.due := rfl
@[simp] theorem State.setPass_phase (s : State) (r : IssuePort) : (s.setPass r).phase = s.phase := rfl
@[simp] theorem State.setPass_turns (s : State) (r : IssuePort) : (s.setPass r).turns = s.turns := rfl
@[simp] theorem State.setPass_pkg (s : State) (r : IssuePort) : (s.setPass r).pkg = s.pkg := rfl
@[simp] theorem State.setPass_sched (s : State) (r : IssuePort) : (s.setPass r).sched = s.sched := rfl
@[simp] theorem State.setPass_cells (s : State) (r : IssuePort) : (s.setPass r).cells = s.cells := rfl
@[simp] theorem State.setPass_clu (s : State) (r : IssuePort) : (s.setPass r).clu = s.clu := rfl
@[simp] theorem State.setPass_home (s : State) (r : IssuePort) : (s.setPass r).home = s.home := rfl
@[simp] theorem State.updStore_clk (s : State) (num : Nat) (f : StoreEnt → StoreEnt) : (s.updStore num f).clk = s.clk := rfl
@[simp] theorem State.updStore_fresh (s : State) (num : Nat) (f : StoreEnt → StoreEnt) : (s.updStore num f).fresh = s.fresh := rfl
@[simp] theorem State.updStore_agenda (s : State) (num : Nat) (f : StoreEnt → StoreEnt) : (s.updStore num f).agenda = s.agenda := rfl
@[simp] theorem State.updStore_waiting (s : State) (num : Nat) (f : StoreEnt → StoreEnt) : (s.updStore num f).waiting = s.waiting := rfl
@[simp] theorem State.updStore_served (s : State) (num : Nat) (f : StoreEnt → StoreEnt) : (s.updStore num f).served = s.served := rfl
@[simp] theorem State.updStore_due (s : State) (num : Nat) (f : StoreEnt → StoreEnt) : (s.updStore num f).due = s.due := rfl
@[simp] theorem State.updStore_phase (s : State) (num : Nat) (f : StoreEnt → StoreEnt) : (s.updStore num f).phase = s.phase := rfl
@[simp] theorem State.updStore_turns (s : State) (num : Nat) (f : StoreEnt → StoreEnt) : (s.updStore num f).turns = s.turns := rfl
@[simp] theorem State.updStore_issue (s : State) (num : Nat) (f : StoreEnt → StoreEnt) : (s.updStore num f).issue = s.issue := rfl
@[simp] theorem State.updStore_pkg (s : State) (num : Nat) (f : StoreEnt → StoreEnt) : (s.updStore num f).pkg = s.pkg := rfl
@[simp] theorem State.updStore_sched (s : State) (num : Nat) (f : StoreEnt → StoreEnt) : (s.updStore num f).sched = s.sched := rfl
@[simp] theorem State.updStore_cells (s : State) (num : Nat) (f : StoreEnt → StoreEnt) : (s.updStore num f).cells = s.cells := rfl
@[simp] theorem State.updStore_home (s : State) (num : Nat) (f : StoreEnt → StoreEnt) : (s.updStore num f).home = s.home := rfl
@[simp] theorem State.dropStore_clk (s : State) (num : Nat) : (s.dropStore num).clk = s.clk := rfl
@[simp] theorem State.dropStore_fresh (s : State) (num : Nat) : (s.dropStore num).fresh = s.fresh := rfl
@[simp] theorem State.dropStore_agenda (s : State) (num : Nat) : (s.dropStore num).agenda = s.agenda := rfl
@[simp] theorem State.dropStore_waiting (s : State) (num : Nat) : (s.dropStore num).waiting = s.waiting := rfl
@[simp] theorem State.dropStore_served (s : State) (num : Nat) : (s.dropStore num).served = s.served := rfl
@[simp] theorem State.dropStore_due (s : State) (num : Nat) : (s.dropStore num).due = s.due := rfl
@[simp] theorem State.dropStore_phase (s : State) (num : Nat) : (s.dropStore num).phase = s.phase := rfl
@[simp] theorem State.dropStore_turns (s : State) (num : Nat) : (s.dropStore num).turns = s.turns := rfl
@[simp] theorem State.dropStore_issue (s : State) (num : Nat) : (s.dropStore num).issue = s.issue := rfl
@[simp] theorem State.dropStore_pkg (s : State) (num : Nat) : (s.dropStore num).pkg = s.pkg := rfl
@[simp] theorem State.dropStore_sched (s : State) (num : Nat) : (s.dropStore num).sched = s.sched := rfl
@[simp] theorem State.dropStore_cells (s : State) (num : Nat) : (s.dropStore num).cells = s.cells := rfl
@[simp] theorem State.dropStore_home (s : State) (num : Nat) : (s.dropStore num).home = s.home := rfl
@[simp] theorem State.endLoad_clk (s : State) (num : Nat) : (s.endLoad num).clk = s.clk := rfl
@[simp] theorem State.endLoad_fresh (s : State) (num : Nat) : (s.endLoad num).fresh = s.fresh := rfl
@[simp] theorem State.endLoad_agenda (s : State) (num : Nat) : (s.endLoad num).agenda = s.agenda := rfl
@[simp] theorem State.endLoad_waiting (s : State) (num : Nat) : (s.endLoad num).waiting = s.waiting := rfl
@[simp] theorem State.endLoad_served (s : State) (num : Nat) : (s.endLoad num).served = s.served := rfl
@[simp] theorem State.endLoad_due (s : State) (num : Nat) : (s.endLoad num).due = s.due := rfl
@[simp] theorem State.endLoad_phase (s : State) (num : Nat) : (s.endLoad num).phase = s.phase := rfl
@[simp] theorem State.endLoad_turns (s : State) (num : Nat) : (s.endLoad num).turns = s.turns := rfl
@[simp] theorem State.endLoad_issue (s : State) (num : Nat) : (s.endLoad num).issue = s.issue := rfl
@[simp] theorem State.endLoad_pkg (s : State) (num : Nat) : (s.endLoad num).pkg = s.pkg := rfl
@[simp] theorem State.endLoad_sched (s : State) (num : Nat) : (s.endLoad num).sched = s.sched := rfl
@[simp] theorem State.endLoad_cells (s : State) (num : Nat) : (s.endLoad num).cells = s.cells := rfl
@[simp] theorem State.endLoad_home (s : State) (num : Nat) : (s.endLoad num).home = s.home := rfl
@[simp] theorem State.updAnyPort_clk (s : State) (i : Nat) (f : Port → Port) : (s.updAnyPort i f).clk = s.clk := rfl
@[simp] theorem State.updAnyPort_fresh (s : State) (i : Nat) (f : Port → Port) : (s.updAnyPort i f).fresh = s.fresh := rfl
@[simp] theorem State.updAnyPort_agenda (s : State) (i : Nat) (f : Port → Port) : (s.updAnyPort i f).agenda = s.agenda := rfl
@[simp] theorem State.updAnyPort_waiting (s : State) (i : Nat) (f : Port → Port) : (s.updAnyPort i f).waiting = s.waiting := rfl
@[simp] theorem State.updAnyPort_served (s : State) (i : Nat) (f : Port → Port) : (s.updAnyPort i f).served = s.served := rfl
@[simp] theorem State.updAnyPort_due (s : State) (i : Nat) (f : Port → Port) : (s.updAnyPort i f).due = s.due := rfl
@[simp] theorem State.updAnyPort_phase (s : State) (i : Nat) (f : Port → Port) : (s.updAnyPort i f).phase = s.phase := rfl
@[simp] theorem State.updAnyPort_turns (s : State) (i : Nat) (f : Port → Port) : (s.updAnyPort i f).turns = s.turns := rfl
@[simp] theorem State.updAnyPort_issue (s : State) (i : Nat) (f : Port → Port) : (s.updAnyPort i f).issue = s.issue := rfl
@[simp] theorem State.updAnyPort_sched (s : State) (i : Nat) (f : Port → Port) : (s.updAnyPort i f).sched = s.sched := rfl
@[simp] theorem State.updAnyPort_cells (s : State) (i : Nat) (f : Port → Port) : (s.updAnyPort i f).cells = s.cells := rfl
@[simp] theorem State.updAnyPort_clu (s : State) (i : Nat) (f : Port → Port) : (s.updAnyPort i f).clu = s.clu := rfl
@[simp] theorem State.updAnyPort_home (s : State) (i : Nat) (f : Port → Port) : (s.updAnyPort i f).home = s.home := rfl
@[simp] theorem State.setArray_clk (s : State) (a : MxArray) : (s.setArray a).clk = s.clk := rfl
@[simp] theorem State.setArray_fresh (s : State) (a : MxArray) : (s.setArray a).fresh = s.fresh := rfl
@[simp] theorem State.setArray_agenda (s : State) (a : MxArray) : (s.setArray a).agenda = s.agenda := rfl
@[simp] theorem State.setArray_waiting (s : State) (a : MxArray) : (s.setArray a).waiting = s.waiting := rfl
@[simp] theorem State.setArray_served (s : State) (a : MxArray) : (s.setArray a).served = s.served := rfl
@[simp] theorem State.setArray_due (s : State) (a : MxArray) : (s.setArray a).due = s.due := rfl
@[simp] theorem State.setArray_phase (s : State) (a : MxArray) : (s.setArray a).phase = s.phase := rfl
@[simp] theorem State.setArray_turns (s : State) (a : MxArray) : (s.setArray a).turns = s.turns := rfl
@[simp] theorem State.setArray_issue (s : State) (a : MxArray) : (s.setArray a).issue = s.issue := rfl
@[simp] theorem State.setArray_pkg (s : State) (a : MxArray) : (s.setArray a).pkg = s.pkg := rfl
@[simp] theorem State.setArray_sched (s : State) (a : MxArray) : (s.setArray a).sched = s.sched := rfl
@[simp] theorem State.setArray_cells (s : State) (a : MxArray) : (s.setArray a).cells = s.cells := rfl
@[simp] theorem State.setArray_home (s : State) (a : MxArray) : (s.setArray a).home = s.home := rfl
@[simp] theorem State.updMx_clk (s : State) (num : Nat) (f : MxEnt → MxEnt) : (s.updMx num f).clk = s.clk := rfl
@[simp] theorem State.updMx_fresh (s : State) (num : Nat) (f : MxEnt → MxEnt) : (s.updMx num f).fresh = s.fresh := rfl
@[simp] theorem State.updMx_agenda (s : State) (num : Nat) (f : MxEnt → MxEnt) : (s.updMx num f).agenda = s.agenda := rfl
@[simp] theorem State.updMx_waiting (s : State) (num : Nat) (f : MxEnt → MxEnt) : (s.updMx num f).waiting = s.waiting := rfl
@[simp] theorem State.updMx_served (s : State) (num : Nat) (f : MxEnt → MxEnt) : (s.updMx num f).served = s.served := rfl
@[simp] theorem State.updMx_due (s : State) (num : Nat) (f : MxEnt → MxEnt) : (s.updMx num f).due = s.due := rfl
@[simp] theorem State.updMx_phase (s : State) (num : Nat) (f : MxEnt → MxEnt) : (s.updMx num f).phase = s.phase := rfl
@[simp] theorem State.updMx_turns (s : State) (num : Nat) (f : MxEnt → MxEnt) : (s.updMx num f).turns = s.turns := rfl
@[simp] theorem State.updMx_issue (s : State) (num : Nat) (f : MxEnt → MxEnt) : (s.updMx num f).issue = s.issue := rfl
@[simp] theorem State.updMx_pkg (s : State) (num : Nat) (f : MxEnt → MxEnt) : (s.updMx num f).pkg = s.pkg := rfl
@[simp] theorem State.updMx_sched (s : State) (num : Nat) (f : MxEnt → MxEnt) : (s.updMx num f).sched = s.sched := rfl
@[simp] theorem State.updMx_cells (s : State) (num : Nat) (f : MxEnt → MxEnt) : (s.updMx num f).cells = s.cells := rfl
@[simp] theorem State.updMx_home (s : State) (num : Nat) (f : MxEnt → MxEnt) : (s.updMx num f).home = s.home := rfl
@[simp] theorem State.recall_clk (s : State) (key n : Nat) : (s.recall key n).clk = s.clk := rfl
@[simp] theorem State.recall_fresh (s : State) (key n : Nat) : (s.recall key n).fresh = s.fresh := rfl
@[simp] theorem State.recall_agenda (s : State) (key n : Nat) : (s.recall key n).agenda = s.agenda := rfl
@[simp] theorem State.recall_waiting (s : State) (key n : Nat) : (s.recall key n).waiting = s.waiting := rfl
@[simp] theorem State.recall_served (s : State) (key n : Nat) : (s.recall key n).served = s.served := rfl
@[simp] theorem State.recall_due (s : State) (key n : Nat) : (s.recall key n).due = s.due := rfl
@[simp] theorem State.recall_phase (s : State) (key n : Nat) : (s.recall key n).phase = s.phase := rfl
@[simp] theorem State.recall_turns (s : State) (key n : Nat) : (s.recall key n).turns = s.turns := rfl
@[simp] theorem State.recall_issue (s : State) (key n : Nat) : (s.recall key n).issue = s.issue := rfl
@[simp] theorem State.recall_pkg (s : State) (key n : Nat) : (s.recall key n).pkg = s.pkg := rfl
@[simp] theorem State.recall_sched (s : State) (key n : Nat) : (s.recall key n).sched = s.sched := rfl
@[simp] theorem State.recall_cells (s : State) (key n : Nat) : (s.recall key n).cells = s.cells := rfl
@[simp] theorem State.recall_home (s : State) (key n : Nat) : (s.recall key n).home = s.home := rfl
@[simp] theorem State.endWait_clk (s : State) (num : Nat) : (s.endWait num).clk = s.clk := rfl
@[simp] theorem State.endWait_fresh (s : State) (num : Nat) : (s.endWait num).fresh = s.fresh := rfl
@[simp] theorem State.endWait_agenda (s : State) (num : Nat) : (s.endWait num).agenda = s.agenda := rfl
@[simp] theorem State.endWait_waiting (s : State) (num : Nat) : (s.endWait num).waiting = s.waiting := rfl
@[simp] theorem State.endWait_served (s : State) (num : Nat) : (s.endWait num).served = s.served := rfl
@[simp] theorem State.endWait_due (s : State) (num : Nat) : (s.endWait num).due = s.due := rfl
@[simp] theorem State.endWait_phase (s : State) (num : Nat) : (s.endWait num).phase = s.phase := rfl
@[simp] theorem State.endWait_turns (s : State) (num : Nat) : (s.endWait num).turns = s.turns := rfl
@[simp] theorem State.endWait_issue (s : State) (num : Nat) : (s.endWait num).issue = s.issue := rfl
@[simp] theorem State.endWait_pkg (s : State) (num : Nat) : (s.endWait num).pkg = s.pkg := rfl
@[simp] theorem State.endWait_sched (s : State) (num : Nat) : (s.endWait num).sched = s.sched := rfl
@[simp] theorem State.endWait_cells (s : State) (num : Nat) : (s.endWait num).cells = s.cells := rfl
@[simp] theorem State.endWait_clu (s : State) (num : Nat) : (s.endWait num).clu = s.clu := rfl
@[simp] theorem State.updNode_clk (s : State) (dev idx : Nat) (f : LNode → LNode) : (s.updNode dev idx f).clk = s.clk := rfl
@[simp] theorem State.updNode_fresh (s : State) (dev idx : Nat) (f : LNode → LNode) : (s.updNode dev idx f).fresh = s.fresh := rfl
@[simp] theorem State.updNode_agenda (s : State) (dev idx : Nat) (f : LNode → LNode) : (s.updNode dev idx f).agenda = s.agenda := rfl
@[simp] theorem State.updNode_waiting (s : State) (dev idx : Nat) (f : LNode → LNode) : (s.updNode dev idx f).waiting = s.waiting := rfl
@[simp] theorem State.updNode_served (s : State) (dev idx : Nat) (f : LNode → LNode) : (s.updNode dev idx f).served = s.served := rfl
@[simp] theorem State.updNode_due (s : State) (dev idx : Nat) (f : LNode → LNode) : (s.updNode dev idx f).due = s.due := rfl
@[simp] theorem State.updNode_phase (s : State) (dev idx : Nat) (f : LNode → LNode) : (s.updNode dev idx f).phase = s.phase := rfl
@[simp] theorem State.updNode_turns (s : State) (dev idx : Nat) (f : LNode → LNode) : (s.updNode dev idx f).turns = s.turns := rfl
@[simp] theorem State.updNode_issue (s : State) (dev idx : Nat) (f : LNode → LNode) : (s.updNode dev idx f).issue = s.issue := rfl
@[simp] theorem State.updNode_pkg (s : State) (dev idx : Nat) (f : LNode → LNode) : (s.updNode dev idx f).pkg = s.pkg := rfl
@[simp] theorem State.updNode_cells (s : State) (dev idx : Nat) (f : LNode → LNode) : (s.updNode dev idx f).cells = s.cells := rfl
@[simp] theorem State.updNode_clu (s : State) (dev idx : Nat) (f : LNode → LNode) : (s.updNode dev idx f).clu = s.clu := rfl
@[simp] theorem State.updNode_home (s : State) (dev idx : Nat) (f : LNode → LNode) : (s.updNode dev idx f).home = s.home := rfl
@[simp] theorem State.setRun_clk (s : State) (r : IssuePort) : (s.setRun r).clk = s.clk := rfl
@[simp] theorem State.setRun_fresh (s : State) (r : IssuePort) : (s.setRun r).fresh = s.fresh := rfl
@[simp] theorem State.setRun_agenda (s : State) (r : IssuePort) : (s.setRun r).agenda = s.agenda := rfl
@[simp] theorem State.setRun_waiting (s : State) (r : IssuePort) : (s.setRun r).waiting = s.waiting := rfl
@[simp] theorem State.setRun_served (s : State) (r : IssuePort) : (s.setRun r).served = s.served := rfl
@[simp] theorem State.setRun_due (s : State) (r : IssuePort) : (s.setRun r).due = s.due := rfl
@[simp] theorem State.setRun_phase (s : State) (r : IssuePort) : (s.setRun r).phase = s.phase := rfl
@[simp] theorem State.setRun_turns (s : State) (r : IssuePort) : (s.setRun r).turns = s.turns := rfl
@[simp] theorem State.setRun_issue (s : State) (r : IssuePort) : (s.setRun r).issue = s.issue := rfl
@[simp] theorem State.setRun_pkg (s : State) (r : IssuePort) : (s.setRun r).pkg = s.pkg := rfl
@[simp] theorem State.setRun_sched (s : State) (r : IssuePort) : (s.setRun r).sched = s.sched := rfl
@[simp] theorem State.setRun_cells (s : State) (r : IssuePort) : (s.setRun r).cells = s.cells := rfl
@[simp] theorem State.setRun_home (s : State) (r : IssuePort) : (s.setRun r).home = s.home := rfl
@[simp] theorem State.freeRun_clk (s : State) (r : IssuePort) : (s.freeRun r).clk = s.clk := rfl
@[simp] theorem State.freeRun_fresh (s : State) (r : IssuePort) : (s.freeRun r).fresh = s.fresh := rfl
@[simp] theorem State.freeRun_agenda (s : State) (r : IssuePort) : (s.freeRun r).agenda = s.agenda := rfl
@[simp] theorem State.freeRun_waiting (s : State) (r : IssuePort) : (s.freeRun r).waiting = s.waiting := rfl
@[simp] theorem State.freeRun_served (s : State) (r : IssuePort) : (s.freeRun r).served = s.served := rfl
@[simp] theorem State.freeRun_due (s : State) (r : IssuePort) : (s.freeRun r).due = s.due := rfl
@[simp] theorem State.freeRun_phase (s : State) (r : IssuePort) : (s.freeRun r).phase = s.phase := rfl
@[simp] theorem State.freeRun_turns (s : State) (r : IssuePort) : (s.freeRun r).turns = s.turns := rfl
@[simp] theorem State.freeRun_issue (s : State) (r : IssuePort) : (s.freeRun r).issue = s.issue := rfl
@[simp] theorem State.freeRun_pkg (s : State) (r : IssuePort) : (s.freeRun r).pkg = s.pkg := rfl
@[simp] theorem State.freeRun_sched (s : State) (r : IssuePort) : (s.freeRun r).sched = s.sched := rfl
@[simp] theorem State.freeRun_cells (s : State) (r : IssuePort) : (s.freeRun r).cells = s.cells := rfl
@[simp] theorem State.freeRun_home (s : State) (r : IssuePort) : (s.freeRun r).home = s.home := rfl
@[simp] theorem State.tick1_clk (s : State) : (s.tick1).clk = s.clk := rfl
@[simp] theorem State.tick1_agenda (s : State) : (s.tick1).agenda = s.agenda := rfl
@[simp] theorem State.tick1_waiting (s : State) : (s.tick1).waiting = s.waiting := rfl
@[simp] theorem State.tick1_served (s : State) : (s.tick1).served = s.served := rfl
@[simp] theorem State.tick1_due (s : State) : (s.tick1).due = s.due := rfl
@[simp] theorem State.tick1_phase (s : State) : (s.tick1).phase = s.phase := rfl
@[simp] theorem State.tick1_turns (s : State) : (s.tick1).turns = s.turns := rfl
@[simp] theorem State.tick1_issue (s : State) : (s.tick1).issue = s.issue := rfl
@[simp] theorem State.tick1_pkg (s : State) : (s.tick1).pkg = s.pkg := rfl
@[simp] theorem State.tick1_sched (s : State) : (s.tick1).sched = s.sched := rfl
@[simp] theorem State.tick1_cells (s : State) : (s.tick1).cells = s.cells := rfl
@[simp] theorem State.tick1_clu (s : State) : (s.tick1).clu = s.clu := rfl
@[simp] theorem State.tick1_home (s : State) : (s.tick1).home = s.home := rfl
@[simp] theorem State.updCell_clk (s : State) (uid : Nat) (f : Cell → Cell) : (s.updCell uid f).clk = s.clk := rfl
@[simp] theorem State.updCell_fresh (s : State) (uid : Nat) (f : Cell → Cell) : (s.updCell uid f).fresh = s.fresh := rfl
@[simp] theorem State.updCell_agenda (s : State) (uid : Nat) (f : Cell → Cell) : (s.updCell uid f).agenda = s.agenda := rfl
@[simp] theorem State.updCell_waiting (s : State) (uid : Nat) (f : Cell → Cell) : (s.updCell uid f).waiting = s.waiting := rfl
@[simp] theorem State.updCell_served (s : State) (uid : Nat) (f : Cell → Cell) : (s.updCell uid f).served = s.served := rfl
@[simp] theorem State.updCell_due (s : State) (uid : Nat) (f : Cell → Cell) : (s.updCell uid f).due = s.due := rfl
@[simp] theorem State.updCell_phase (s : State) (uid : Nat) (f : Cell → Cell) : (s.updCell uid f).phase = s.phase := rfl
@[simp] theorem State.updCell_turns (s : State) (uid : Nat) (f : Cell → Cell) : (s.updCell uid f).turns = s.turns := rfl
@[simp] theorem State.updCell_issue (s : State) (uid : Nat) (f : Cell → Cell) : (s.updCell uid f).issue = s.issue := rfl
@[simp] theorem State.updCell_pkg (s : State) (uid : Nat) (f : Cell → Cell) : (s.updCell uid f).pkg = s.pkg := rfl
@[simp] theorem State.updCell_sched (s : State) (uid : Nat) (f : Cell → Cell) : (s.updCell uid f).sched = s.sched := rfl
@[simp] theorem State.updCell_clu (s : State) (uid : Nat) (f : Cell → Cell) : (s.updCell uid f).clu = s.clu := rfl
@[simp] theorem State.updCell_home (s : State) (uid : Nat) (f : Cell → Cell) : (s.updCell uid f).home = s.home := rfl
@[simp] theorem State.updCtx_clk (s : State) (tag : BitVec 32) (f : Context → Context) : (s.updCtx tag f).clk = s.clk := rfl
@[simp] theorem State.updCtx_fresh (s : State) (tag : BitVec 32) (f : Context → Context) : (s.updCtx tag f).fresh = s.fresh := rfl
@[simp] theorem State.updCtx_agenda (s : State) (tag : BitVec 32) (f : Context → Context) : (s.updCtx tag f).agenda = s.agenda := rfl
@[simp] theorem State.updCtx_waiting (s : State) (tag : BitVec 32) (f : Context → Context) : (s.updCtx tag f).waiting = s.waiting := rfl
@[simp] theorem State.updCtx_served (s : State) (tag : BitVec 32) (f : Context → Context) : (s.updCtx tag f).served = s.served := rfl
@[simp] theorem State.updCtx_due (s : State) (tag : BitVec 32) (f : Context → Context) : (s.updCtx tag f).due = s.due := rfl
@[simp] theorem State.updCtx_phase (s : State) (tag : BitVec 32) (f : Context → Context) : (s.updCtx tag f).phase = s.phase := rfl
@[simp] theorem State.updCtx_turns (s : State) (tag : BitVec 32) (f : Context → Context) : (s.updCtx tag f).turns = s.turns := rfl
@[simp] theorem State.updCtx_issue (s : State) (tag : BitVec 32) (f : Context → Context) : (s.updCtx tag f).issue = s.issue := rfl
@[simp] theorem State.updCtx_pkg (s : State) (tag : BitVec 32) (f : Context → Context) : (s.updCtx tag f).pkg = s.pkg := rfl
@[simp] theorem State.updCtx_cells (s : State) (tag : BitVec 32) (f : Context → Context) : (s.updCtx tag f).cells = s.cells := rfl
@[simp] theorem State.updCtx_clu (s : State) (tag : BitVec 32) (f : Context → Context) : (s.updCtx tag f).clu = s.clu := rfl
@[simp] theorem State.updCtx_home (s : State) (tag : BitVec 32) (f : Context → Context) : (s.updCtx tag f).home = s.home := rfl
@[simp] theorem State.setMem_clk (s : State) (m : Memory) : (s.setMem m).clk = s.clk := rfl
@[simp] theorem State.setMem_fresh (s : State) (m : Memory) : (s.setMem m).fresh = s.fresh := rfl
@[simp] theorem State.setMem_agenda (s : State) (m : Memory) : (s.setMem m).agenda = s.agenda := rfl
@[simp] theorem State.setMem_waiting (s : State) (m : Memory) : (s.setMem m).waiting = s.waiting := rfl
@[simp] theorem State.setMem_served (s : State) (m : Memory) : (s.setMem m).served = s.served := rfl
@[simp] theorem State.setMem_due (s : State) (m : Memory) : (s.setMem m).due = s.due := rfl
@[simp] theorem State.setMem_phase (s : State) (m : Memory) : (s.setMem m).phase = s.phase := rfl
@[simp] theorem State.setMem_turns (s : State) (m : Memory) : (s.setMem m).turns = s.turns := rfl
@[simp] theorem State.setMem_issue (s : State) (m : Memory) : (s.setMem m).issue = s.issue := rfl
@[simp] theorem State.setMem_pkg (s : State) (m : Memory) : (s.setMem m).pkg = s.pkg := rfl
@[simp] theorem State.setMem_sched (s : State) (m : Memory) : (s.setMem m).sched = s.sched := rfl
@[simp] theorem State.setMem_cells (s : State) (m : Memory) : (s.setMem m).cells = s.cells := rfl
@[simp] theorem State.setMem_clu (s : State) (m : Memory) : (s.setMem m).clu = s.clu := rfl
@[simp] theorem State.unhold_clk (s : State) (i : Instr) : (s.unhold i).clk = s.clk := rfl
@[simp] theorem State.unhold_fresh (s : State) (i : Instr) : (s.unhold i).fresh = s.fresh := rfl
@[simp] theorem State.unhold_agenda (s : State) (i : Instr) : (s.unhold i).agenda = s.agenda := rfl
@[simp] theorem State.unhold_served (s : State) (i : Instr) : (s.unhold i).served = s.served := rfl
@[simp] theorem State.unhold_due (s : State) (i : Instr) : (s.unhold i).due = s.due := rfl
@[simp] theorem State.unhold_phase (s : State) (i : Instr) : (s.unhold i).phase = s.phase := rfl
@[simp] theorem State.unhold_turns (s : State) (i : Instr) : (s.unhold i).turns = s.turns := rfl
@[simp] theorem State.unhold_issue (s : State) (i : Instr) : (s.unhold i).issue = s.issue := rfl
@[simp] theorem State.unhold_pkg (s : State) (i : Instr) : (s.unhold i).pkg = s.pkg := rfl
@[simp] theorem State.unhold_sched (s : State) (i : Instr) : (s.unhold i).sched = s.sched := rfl
@[simp] theorem State.unhold_cells (s : State) (i : Instr) : (s.unhold i).cells = s.cells := rfl
@[simp] theorem State.unhold_clu (s : State) (i : Instr) : (s.unhold i).clu = s.clu := rfl
@[simp] theorem State.unhold_home (s : State) (i : Instr) : (s.unhold i).home = s.home := rfl
@[simp] theorem State.updTile_clk (s : State) (ctx : BitVec 32) (base : W64) (f : Tile → Tile) : (s.updTile ctx base f).clk = s.clk := rfl
@[simp] theorem State.updTile_fresh (s : State) (ctx : BitVec 32) (base : W64) (f : Tile → Tile) : (s.updTile ctx base f).fresh = s.fresh := rfl
@[simp] theorem State.updTile_agenda (s : State) (ctx : BitVec 32) (base : W64) (f : Tile → Tile) : (s.updTile ctx base f).agenda = s.agenda := rfl
@[simp] theorem State.updTile_waiting (s : State) (ctx : BitVec 32) (base : W64) (f : Tile → Tile) : (s.updTile ctx base f).waiting = s.waiting := rfl
@[simp] theorem State.updTile_served (s : State) (ctx : BitVec 32) (base : W64) (f : Tile → Tile) : (s.updTile ctx base f).served = s.served := rfl
@[simp] theorem State.updTile_due (s : State) (ctx : BitVec 32) (base : W64) (f : Tile → Tile) : (s.updTile ctx base f).due = s.due := rfl
@[simp] theorem State.updTile_phase (s : State) (ctx : BitVec 32) (base : W64) (f : Tile → Tile) : (s.updTile ctx base f).phase = s.phase := rfl
@[simp] theorem State.updTile_turns (s : State) (ctx : BitVec 32) (base : W64) (f : Tile → Tile) : (s.updTile ctx base f).turns = s.turns := rfl
@[simp] theorem State.updTile_issue (s : State) (ctx : BitVec 32) (base : W64) (f : Tile → Tile) : (s.updTile ctx base f).issue = s.issue := rfl
@[simp] theorem State.updTile_pkg (s : State) (ctx : BitVec 32) (base : W64) (f : Tile → Tile) : (s.updTile ctx base f).pkg = s.pkg := rfl
@[simp] theorem State.updTile_sched (s : State) (ctx : BitVec 32) (base : W64) (f : Tile → Tile) : (s.updTile ctx base f).sched = s.sched := rfl
@[simp] theorem State.updTile_cells (s : State) (ctx : BitVec 32) (base : W64) (f : Tile → Tile) : (s.updTile ctx base f).cells = s.cells := rfl
@[simp] theorem State.updTile_clu (s : State) (ctx : BitVec 32) (base : W64) (f : Tile → Tile) : (s.updTile ctx base f).clu = s.clu := rfl
@[simp] theorem State.promise_clk (s : State) (k n : Nat) : (s.promise k n).clk = s.clk := rfl
@[simp] theorem State.promise_fresh (s : State) (k n : Nat) : (s.promise k n).fresh = s.fresh := rfl
@[simp] theorem State.promise_agenda (s : State) (k n : Nat) : (s.promise k n).agenda = s.agenda := rfl
@[simp] theorem State.promise_waiting (s : State) (k n : Nat) : (s.promise k n).waiting = s.waiting := rfl
@[simp] theorem State.promise_served (s : State) (k n : Nat) : (s.promise k n).served = s.served := rfl
@[simp] theorem State.promise_due (s : State) (k n : Nat) : (s.promise k n).due = s.due := rfl
@[simp] theorem State.promise_phase (s : State) (k n : Nat) : (s.promise k n).phase = s.phase := rfl
@[simp] theorem State.promise_turns (s : State) (k n : Nat) : (s.promise k n).turns = s.turns := rfl
@[simp] theorem State.promise_issue (s : State) (k n : Nat) : (s.promise k n).issue = s.issue := rfl
@[simp] theorem State.promise_pkg (s : State) (k n : Nat) : (s.promise k n).pkg = s.pkg := rfl
@[simp] theorem State.promise_sched (s : State) (k n : Nat) : (s.promise k n).sched = s.sched := rfl
@[simp] theorem State.promise_cells (s : State) (k n : Nat) : (s.promise k n).cells = s.cells := rfl
@[simp] theorem State.promise_home (s : State) (k n : Nat) : (s.promise k n).home = s.home := rfl
@[simp] theorem State.queueWrite_clk (s : State) (dev key : Nat) (kid : BitVec 8) (bs : List Byte) : (s.queueWrite dev key kid bs).clk = s.clk := rfl
@[simp] theorem State.queueWrite_agenda (s : State) (dev key : Nat) (kid : BitVec 8) (bs : List Byte) : (s.queueWrite dev key kid bs).agenda = s.agenda := rfl
@[simp] theorem State.queueWrite_waiting (s : State) (dev key : Nat) (kid : BitVec 8) (bs : List Byte) : (s.queueWrite dev key kid bs).waiting = s.waiting := rfl
@[simp] theorem State.queueWrite_served (s : State) (dev key : Nat) (kid : BitVec 8) (bs : List Byte) : (s.queueWrite dev key kid bs).served = s.served := rfl
@[simp] theorem State.queueWrite_due (s : State) (dev key : Nat) (kid : BitVec 8) (bs : List Byte) : (s.queueWrite dev key kid bs).due = s.due := rfl
@[simp] theorem State.queueWrite_phase (s : State) (dev key : Nat) (kid : BitVec 8) (bs : List Byte) : (s.queueWrite dev key kid bs).phase = s.phase := rfl
@[simp] theorem State.queueWrite_turns (s : State) (dev key : Nat) (kid : BitVec 8) (bs : List Byte) : (s.queueWrite dev key kid bs).turns = s.turns := rfl
@[simp] theorem State.queueWrite_issue (s : State) (dev key : Nat) (kid : BitVec 8) (bs : List Byte) : (s.queueWrite dev key kid bs).issue = s.issue := rfl
@[simp] theorem State.queueWrite_pkg (s : State) (dev key : Nat) (kid : BitVec 8) (bs : List Byte) : (s.queueWrite dev key kid bs).pkg = s.pkg := rfl
@[simp] theorem State.queueWrite_sched (s : State) (dev key : Nat) (kid : BitVec 8) (bs : List Byte) : (s.queueWrite dev key kid bs).sched = s.sched := rfl
@[simp] theorem State.queueWrite_cells (s : State) (dev key : Nat) (kid : BitVec 8) (bs : List Byte) : (s.queueWrite dev key kid bs).cells = s.cells := rfl
@[simp] theorem State.queueWrite_clu (s : State) (dev key : Nat) (kid : BitVec 8) (bs : List Byte) : (s.queueWrite dev key kid bs).clu = s.clu := rfl
@[simp] theorem State.setFe_clk (s : State) (c : Cell) (a : Nat) (b : Bool) : (s.setFe c a b).clk = s.clk := rfl
@[simp] theorem State.setFe_fresh (s : State) (c : Cell) (a : Nat) (b : Bool) : (s.setFe c a b).fresh = s.fresh := rfl
@[simp] theorem State.setFe_agenda (s : State) (c : Cell) (a : Nat) (b : Bool) : (s.setFe c a b).agenda = s.agenda := rfl
@[simp] theorem State.setFe_waiting (s : State) (c : Cell) (a : Nat) (b : Bool) : (s.setFe c a b).waiting = s.waiting := rfl
@[simp] theorem State.setFe_served (s : State) (c : Cell) (a : Nat) (b : Bool) : (s.setFe c a b).served = s.served := rfl
@[simp] theorem State.setFe_due (s : State) (c : Cell) (a : Nat) (b : Bool) : (s.setFe c a b).due = s.due := rfl
@[simp] theorem State.setFe_phase (s : State) (c : Cell) (a : Nat) (b : Bool) : (s.setFe c a b).phase = s.phase := rfl
@[simp] theorem State.setFe_turns (s : State) (c : Cell) (a : Nat) (b : Bool) : (s.setFe c a b).turns = s.turns := rfl
@[simp] theorem State.setFe_issue (s : State) (c : Cell) (a : Nat) (b : Bool) : (s.setFe c a b).issue = s.issue := rfl
@[simp] theorem State.setFe_pkg (s : State) (c : Cell) (a : Nat) (b : Bool) : (s.setFe c a b).pkg = s.pkg := rfl
@[simp] theorem State.setFe_sched (s : State) (c : Cell) (a : Nat) (b : Bool) : (s.setFe c a b).sched = s.sched := rfl
@[simp] theorem State.setFe_cells (s : State) (c : Cell) (a : Nat) (b : Bool) : (s.setFe c a b).cells = s.cells := rfl
@[simp] theorem State.setFe_clu (s : State) (c : Cell) (a : Nat) (b : Bool) : (s.setFe c a b).clu = s.clu := rfl
@[simp] theorem State.updItem_clk (s : State) (id : Nat) (f : PendItem → PendItem) : (s.updItem id f).clk = s.clk := rfl
@[simp] theorem State.updItem_fresh (s : State) (id : Nat) (f : PendItem → PendItem) : (s.updItem id f).fresh = s.fresh := rfl
@[simp] theorem State.updItem_agenda (s : State) (id : Nat) (f : PendItem → PendItem) : (s.updItem id f).agenda = s.agenda := rfl
@[simp] theorem State.updItem_waiting (s : State) (id : Nat) (f : PendItem → PendItem) : (s.updItem id f).waiting = s.waiting := rfl
@[simp] theorem State.updItem_served (s : State) (id : Nat) (f : PendItem → PendItem) : (s.updItem id f).served = s.served := rfl
@[simp] theorem State.updItem_due (s : State) (id : Nat) (f : PendItem → PendItem) : (s.updItem id f).due = s.due := rfl
@[simp] theorem State.updItem_phase (s : State) (id : Nat) (f : PendItem → PendItem) : (s.updItem id f).phase = s.phase := rfl
@[simp] theorem State.updItem_turns (s : State) (id : Nat) (f : PendItem → PendItem) : (s.updItem id f).turns = s.turns := rfl
@[simp] theorem State.updItem_issue (s : State) (id : Nat) (f : PendItem → PendItem) : (s.updItem id f).issue = s.issue := rfl
@[simp] theorem State.updItem_pkg (s : State) (id : Nat) (f : PendItem → PendItem) : (s.updItem id f).pkg = s.pkg := rfl
@[simp] theorem State.updItem_cells (s : State) (id : Nat) (f : PendItem → PendItem) : (s.updItem id f).cells = s.cells := rfl
@[simp] theorem State.updItem_clu (s : State) (id : Nat) (f : PendItem → PendItem) : (s.updItem id f).clu = s.clu := rfl
@[simp] theorem State.updItem_home (s : State) (id : Nat) (f : PendItem → PendItem) : (s.updItem id f).home = s.home := rfl
@[simp] theorem State.dropItem_clk (s : State) (id : Nat) : (s.dropItem id).clk = s.clk := rfl
@[simp] theorem State.dropItem_fresh (s : State) (id : Nat) : (s.dropItem id).fresh = s.fresh := rfl
@[simp] theorem State.dropItem_agenda (s : State) (id : Nat) : (s.dropItem id).agenda = s.agenda := rfl
@[simp] theorem State.dropItem_waiting (s : State) (id : Nat) : (s.dropItem id).waiting = s.waiting := rfl
@[simp] theorem State.dropItem_served (s : State) (id : Nat) : (s.dropItem id).served = s.served := rfl
@[simp] theorem State.dropItem_due (s : State) (id : Nat) : (s.dropItem id).due = s.due := rfl
@[simp] theorem State.dropItem_phase (s : State) (id : Nat) : (s.dropItem id).phase = s.phase := rfl
@[simp] theorem State.dropItem_turns (s : State) (id : Nat) : (s.dropItem id).turns = s.turns := rfl
@[simp] theorem State.dropItem_issue (s : State) (id : Nat) : (s.dropItem id).issue = s.issue := rfl
@[simp] theorem State.dropItem_pkg (s : State) (id : Nat) : (s.dropItem id).pkg = s.pkg := rfl
@[simp] theorem State.dropItem_cells (s : State) (id : Nat) : (s.dropItem id).cells = s.cells := rfl
@[simp] theorem State.dropItem_clu (s : State) (id : Nat) : (s.dropItem id).clu = s.clu := rfl
@[simp] theorem State.dropItem_home (s : State) (id : Nat) : (s.dropItem id).home = s.home := rfl
@[simp] theorem State.updLaunch_clk (s : State) (num : Nat) (f : Launch → Launch) : (s.updLaunch num f).clk = s.clk := rfl
@[simp] theorem State.updLaunch_fresh (s : State) (num : Nat) (f : Launch → Launch) : (s.updLaunch num f).fresh = s.fresh := rfl
@[simp] theorem State.updLaunch_agenda (s : State) (num : Nat) (f : Launch → Launch) : (s.updLaunch num f).agenda = s.agenda := rfl
@[simp] theorem State.updLaunch_waiting (s : State) (num : Nat) (f : Launch → Launch) : (s.updLaunch num f).waiting = s.waiting := rfl
@[simp] theorem State.updLaunch_served (s : State) (num : Nat) (f : Launch → Launch) : (s.updLaunch num f).served = s.served := rfl
@[simp] theorem State.updLaunch_due (s : State) (num : Nat) (f : Launch → Launch) : (s.updLaunch num f).due = s.due := rfl
@[simp] theorem State.updLaunch_phase (s : State) (num : Nat) (f : Launch → Launch) : (s.updLaunch num f).phase = s.phase := rfl
@[simp] theorem State.updLaunch_turns (s : State) (num : Nat) (f : Launch → Launch) : (s.updLaunch num f).turns = s.turns := rfl
@[simp] theorem State.updLaunch_issue (s : State) (num : Nat) (f : Launch → Launch) : (s.updLaunch num f).issue = s.issue := rfl
@[simp] theorem State.updLaunch_pkg (s : State) (num : Nat) (f : Launch → Launch) : (s.updLaunch num f).pkg = s.pkg := rfl
@[simp] theorem State.updLaunch_cells (s : State) (num : Nat) (f : Launch → Launch) : (s.updLaunch num f).cells = s.cells := rfl
@[simp] theorem State.updLaunch_clu (s : State) (num : Nat) (f : Launch → Launch) : (s.updLaunch num f).clu = s.clu := rfl
@[simp] theorem State.updLaunch_home (s : State) (num : Nat) (f : Launch → Launch) : (s.updLaunch num f).home = s.home := rfl
@[simp] theorem State.dropLaunch_clk (s : State) (num : Nat) : (s.dropLaunch num).clk = s.clk := rfl
@[simp] theorem State.dropLaunch_fresh (s : State) (num : Nat) : (s.dropLaunch num).fresh = s.fresh := rfl
@[simp] theorem State.dropLaunch_agenda (s : State) (num : Nat) : (s.dropLaunch num).agenda = s.agenda := rfl
@[simp] theorem State.dropLaunch_waiting (s : State) (num : Nat) : (s.dropLaunch num).waiting = s.waiting := rfl
@[simp] theorem State.dropLaunch_served (s : State) (num : Nat) : (s.dropLaunch num).served = s.served := rfl
@[simp] theorem State.dropLaunch_due (s : State) (num : Nat) : (s.dropLaunch num).due = s.due := rfl
@[simp] theorem State.dropLaunch_phase (s : State) (num : Nat) : (s.dropLaunch num).phase = s.phase := rfl
@[simp] theorem State.dropLaunch_turns (s : State) (num : Nat) : (s.dropLaunch num).turns = s.turns := rfl
@[simp] theorem State.dropLaunch_issue (s : State) (num : Nat) : (s.dropLaunch num).issue = s.issue := rfl
@[simp] theorem State.dropLaunch_pkg (s : State) (num : Nat) : (s.dropLaunch num).pkg = s.pkg := rfl
@[simp] theorem State.dropLaunch_cells (s : State) (num : Nat) : (s.dropLaunch num).cells = s.cells := rfl
@[simp] theorem State.dropLaunch_clu (s : State) (num : Nat) : (s.dropLaunch num).clu = s.clu := rfl
@[simp] theorem State.dropLaunch_home (s : State) (num : Nat) : (s.dropLaunch num).home = s.home := rfl
@[simp] theorem State.zeroBasin_clk (s : State) (cl off n : Nat) : (s.zeroBasin cl off n).clk = s.clk := rfl
@[simp] theorem State.zeroBasin_fresh (s : State) (cl off n : Nat) : (s.zeroBasin cl off n).fresh = s.fresh := rfl
@[simp] theorem State.zeroBasin_agenda (s : State) (cl off n : Nat) : (s.zeroBasin cl off n).agenda = s.agenda := rfl
@[simp] theorem State.zeroBasin_waiting (s : State) (cl off n : Nat) : (s.zeroBasin cl off n).waiting = s.waiting := rfl
@[simp] theorem State.zeroBasin_served (s : State) (cl off n : Nat) : (s.zeroBasin cl off n).served = s.served := rfl
@[simp] theorem State.zeroBasin_due (s : State) (cl off n : Nat) : (s.zeroBasin cl off n).due = s.due := rfl
@[simp] theorem State.zeroBasin_phase (s : State) (cl off n : Nat) : (s.zeroBasin cl off n).phase = s.phase := rfl
@[simp] theorem State.zeroBasin_turns (s : State) (cl off n : Nat) : (s.zeroBasin cl off n).turns = s.turns := rfl
@[simp] theorem State.zeroBasin_issue (s : State) (cl off n : Nat) : (s.zeroBasin cl off n).issue = s.issue := rfl
@[simp] theorem State.zeroBasin_pkg (s : State) (cl off n : Nat) : (s.zeroBasin cl off n).pkg = s.pkg := rfl
@[simp] theorem State.zeroBasin_sched (s : State) (cl off n : Nat) : (s.zeroBasin cl off n).sched = s.sched := rfl
@[simp] theorem State.zeroBasin_cells (s : State) (cl off n : Nat) : (s.zeroBasin cl off n).cells = s.cells := rfl
@[simp] theorem State.zeroBasin_clu (s : State) (cl off n : Nat) : (s.zeroBasin cl off n).clu = s.clu := rfl
@[simp] theorem State.updQueue_clk (s : State) (q : Nat) (f : HwQueue → HwQueue) : (s.updQueue q f).clk = s.clk := rfl
@[simp] theorem State.updQueue_fresh (s : State) (q : Nat) (f : HwQueue → HwQueue) : (s.updQueue q f).fresh = s.fresh := rfl
@[simp] theorem State.updQueue_agenda (s : State) (q : Nat) (f : HwQueue → HwQueue) : (s.updQueue q f).agenda = s.agenda := rfl
@[simp] theorem State.updQueue_waiting (s : State) (q : Nat) (f : HwQueue → HwQueue) : (s.updQueue q f).waiting = s.waiting := rfl
@[simp] theorem State.updQueue_served (s : State) (q : Nat) (f : HwQueue → HwQueue) : (s.updQueue q f).served = s.served := rfl
@[simp] theorem State.updQueue_due (s : State) (q : Nat) (f : HwQueue → HwQueue) : (s.updQueue q f).due = s.due := rfl
@[simp] theorem State.updQueue_phase (s : State) (q : Nat) (f : HwQueue → HwQueue) : (s.updQueue q f).phase = s.phase := rfl
@[simp] theorem State.updQueue_turns (s : State) (q : Nat) (f : HwQueue → HwQueue) : (s.updQueue q f).turns = s.turns := rfl
@[simp] theorem State.updQueue_issue (s : State) (q : Nat) (f : HwQueue → HwQueue) : (s.updQueue q f).issue = s.issue := rfl
@[simp] theorem State.updQueue_pkg (s : State) (q : Nat) (f : HwQueue → HwQueue) : (s.updQueue q f).pkg = s.pkg := rfl
@[simp] theorem State.updQueue_cells (s : State) (q : Nat) (f : HwQueue → HwQueue) : (s.updQueue q f).cells = s.cells := rfl
@[simp] theorem State.updQueue_clu (s : State) (q : Nat) (f : HwQueue → HwQueue) : (s.updQueue q f).clu = s.clu := rfl
@[simp] theorem State.updQueue_home (s : State) (q : Nat) (f : HwQueue → HwQueue) : (s.updQueue q f).home = s.home := rfl
@[simp] theorem State.dropNode_clk (s : State) (dev idx : Nat) : (s.dropNode dev idx).clk = s.clk := rfl
@[simp] theorem State.dropNode_fresh (s : State) (dev idx : Nat) : (s.dropNode dev idx).fresh = s.fresh := rfl
@[simp] theorem State.dropNode_agenda (s : State) (dev idx : Nat) : (s.dropNode dev idx).agenda = s.agenda := rfl
@[simp] theorem State.dropNode_waiting (s : State) (dev idx : Nat) : (s.dropNode dev idx).waiting = s.waiting := rfl
@[simp] theorem State.dropNode_served (s : State) (dev idx : Nat) : (s.dropNode dev idx).served = s.served := rfl
@[simp] theorem State.dropNode_due (s : State) (dev idx : Nat) : (s.dropNode dev idx).due = s.due := rfl
@[simp] theorem State.dropNode_phase (s : State) (dev idx : Nat) : (s.dropNode dev idx).phase = s.phase := rfl
@[simp] theorem State.dropNode_turns (s : State) (dev idx : Nat) : (s.dropNode dev idx).turns = s.turns := rfl
@[simp] theorem State.dropNode_issue (s : State) (dev idx : Nat) : (s.dropNode dev idx).issue = s.issue := rfl
@[simp] theorem State.dropNode_pkg (s : State) (dev idx : Nat) : (s.dropNode dev idx).pkg = s.pkg := rfl
@[simp] theorem State.dropNode_cells (s : State) (dev idx : Nat) : (s.dropNode dev idx).cells = s.cells := rfl
@[simp] theorem State.dropNode_clu (s : State) (dev idx : Nat) : (s.dropNode dev idx).clu = s.clu := rfl
@[simp] theorem State.dropNode_home (s : State) (dev idx : Nat) : (s.dropNode dev idx).home = s.home := rfl
@[simp] theorem State.dropMoves_clk (s : State) (cell h : Nat) : (s.dropMoves cell h).clk = s.clk := rfl
@[simp] theorem State.dropMoves_fresh (s : State) (cell h : Nat) : (s.dropMoves cell h).fresh = s.fresh := rfl
@[simp] theorem State.dropMoves_agenda (s : State) (cell h : Nat) : (s.dropMoves cell h).agenda = s.agenda := rfl
@[simp] theorem State.dropMoves_waiting (s : State) (cell h : Nat) : (s.dropMoves cell h).waiting = s.waiting := rfl
@[simp] theorem State.dropMoves_served (s : State) (cell h : Nat) : (s.dropMoves cell h).served = s.served := rfl
@[simp] theorem State.dropMoves_due (s : State) (cell h : Nat) : (s.dropMoves cell h).due = s.due := rfl
@[simp] theorem State.dropMoves_phase (s : State) (cell h : Nat) : (s.dropMoves cell h).phase = s.phase := rfl
@[simp] theorem State.dropMoves_turns (s : State) (cell h : Nat) : (s.dropMoves cell h).turns = s.turns := rfl
@[simp] theorem State.dropMoves_issue (s : State) (cell h : Nat) : (s.dropMoves cell h).issue = s.issue := rfl
@[simp] theorem State.dropMoves_pkg (s : State) (cell h : Nat) : (s.dropMoves cell h).pkg = s.pkg := rfl
@[simp] theorem State.dropMoves_sched (s : State) (cell h : Nat) : (s.dropMoves cell h).sched = s.sched := rfl
@[simp] theorem State.dropMoves_cells (s : State) (cell h : Nat) : (s.dropMoves cell h).cells = s.cells := rfl
@[simp] theorem State.dropMoves_home (s : State) (cell h : Nat) : (s.dropMoves cell h).home = s.home := rfl
@[simp] theorem State.updPipe_clk (s : State) (gran : Nat) (f : Pipe → Pipe) : (s.updPipe gran f).clk = s.clk := rfl
@[simp] theorem State.updPipe_fresh (s : State) (gran : Nat) (f : Pipe → Pipe) : (s.updPipe gran f).fresh = s.fresh := rfl
@[simp] theorem State.updPipe_agenda (s : State) (gran : Nat) (f : Pipe → Pipe) : (s.updPipe gran f).agenda = s.agenda := rfl
@[simp] theorem State.updPipe_waiting (s : State) (gran : Nat) (f : Pipe → Pipe) : (s.updPipe gran f).waiting = s.waiting := rfl
@[simp] theorem State.updPipe_served (s : State) (gran : Nat) (f : Pipe → Pipe) : (s.updPipe gran f).served = s.served := rfl
@[simp] theorem State.updPipe_due (s : State) (gran : Nat) (f : Pipe → Pipe) : (s.updPipe gran f).due = s.due := rfl
@[simp] theorem State.updPipe_phase (s : State) (gran : Nat) (f : Pipe → Pipe) : (s.updPipe gran f).phase = s.phase := rfl
@[simp] theorem State.updPipe_turns (s : State) (gran : Nat) (f : Pipe → Pipe) : (s.updPipe gran f).turns = s.turns := rfl
@[simp] theorem State.updPipe_issue (s : State) (gran : Nat) (f : Pipe → Pipe) : (s.updPipe gran f).issue = s.issue := rfl
@[simp] theorem State.updPipe_pkg (s : State) (gran : Nat) (f : Pipe → Pipe) : (s.updPipe gran f).pkg = s.pkg := rfl
@[simp] theorem State.updPipe_sched (s : State) (gran : Nat) (f : Pipe → Pipe) : (s.updPipe gran f).sched = s.sched := rfl
@[simp] theorem State.updPipe_cells (s : State) (gran : Nat) (f : Pipe → Pipe) : (s.updPipe gran f).cells = s.cells := rfl
@[simp] theorem State.updPipe_clu (s : State) (gran : Nat) (f : Pipe → Pipe) : (s.updPipe gran f).clu = s.clu := rfl
@[simp] theorem State.unsubscribe_clk (s : State) (cell : Nat) (a : BitVec 32) : (s.unsubscribe cell a).clk = s.clk := rfl
@[simp] theorem State.unsubscribe_fresh (s : State) (cell : Nat) (a : BitVec 32) : (s.unsubscribe cell a).fresh = s.fresh := rfl
@[simp] theorem State.unsubscribe_agenda (s : State) (cell : Nat) (a : BitVec 32) : (s.unsubscribe cell a).agenda = s.agenda := rfl
@[simp] theorem State.unsubscribe_waiting (s : State) (cell : Nat) (a : BitVec 32) : (s.unsubscribe cell a).waiting = s.waiting := rfl
@[simp] theorem State.unsubscribe_served (s : State) (cell : Nat) (a : BitVec 32) : (s.unsubscribe cell a).served = s.served := rfl
@[simp] theorem State.unsubscribe_due (s : State) (cell : Nat) (a : BitVec 32) : (s.unsubscribe cell a).due = s.due := rfl
@[simp] theorem State.unsubscribe_phase (s : State) (cell : Nat) (a : BitVec 32) : (s.unsubscribe cell a).phase = s.phase := rfl
@[simp] theorem State.unsubscribe_turns (s : State) (cell : Nat) (a : BitVec 32) : (s.unsubscribe cell a).turns = s.turns := rfl
@[simp] theorem State.unsubscribe_issue (s : State) (cell : Nat) (a : BitVec 32) : (s.unsubscribe cell a).issue = s.issue := rfl
@[simp] theorem State.unsubscribe_pkg (s : State) (cell : Nat) (a : BitVec 32) : (s.unsubscribe cell a).pkg = s.pkg := rfl
@[simp] theorem State.unsubscribe_sched (s : State) (cell : Nat) (a : BitVec 32) : (s.unsubscribe cell a).sched = s.sched := rfl
@[simp] theorem State.unsubscribe_cells (s : State) (cell : Nat) (a : BitVec 32) : (s.unsubscribe cell a).cells = s.cells := rfl
@[simp] theorem State.unsubscribe_clu (s : State) (cell : Nat) (a : BitVec 32) : (s.unsubscribe cell a).clu = s.clu := rfl
@[simp] theorem State.dropMsg_clk (s : State) (num : Nat) : (s.dropMsg num).clk = s.clk := rfl
@[simp] theorem State.dropMsg_fresh (s : State) (num : Nat) : (s.dropMsg num).fresh = s.fresh := rfl
@[simp] theorem State.dropMsg_agenda (s : State) (num : Nat) : (s.dropMsg num).agenda = s.agenda := rfl
@[simp] theorem State.dropMsg_waiting (s : State) (num : Nat) : (s.dropMsg num).waiting = s.waiting := rfl
@[simp] theorem State.dropMsg_served (s : State) (num : Nat) : (s.dropMsg num).served = s.served := rfl
@[simp] theorem State.dropMsg_due (s : State) (num : Nat) : (s.dropMsg num).due = s.due := rfl
@[simp] theorem State.dropMsg_phase (s : State) (num : Nat) : (s.dropMsg num).phase = s.phase := rfl
@[simp] theorem State.dropMsg_turns (s : State) (num : Nat) : (s.dropMsg num).turns = s.turns := rfl
@[simp] theorem State.dropMsg_issue (s : State) (num : Nat) : (s.dropMsg num).issue = s.issue := rfl
@[simp] theorem State.dropMsg_pkg (s : State) (num : Nat) : (s.dropMsg num).pkg = s.pkg := rfl
@[simp] theorem State.dropMsg_sched (s : State) (num : Nat) : (s.dropMsg num).sched = s.sched := rfl
@[simp] theorem State.dropMsg_cells (s : State) (num : Nat) : (s.dropMsg num).cells = s.cells := rfl
@[simp] theorem State.dropMsg_clu (s : State) (num : Nat) : (s.dropMsg num).clu = s.clu := rfl
@[simp] theorem State.dropRestore_clk (s : State) (uid : Nat) : (s.dropRestore uid).clk = s.clk := rfl
@[simp] theorem State.dropRestore_fresh (s : State) (uid : Nat) : (s.dropRestore uid).fresh = s.fresh := rfl
@[simp] theorem State.dropRestore_agenda (s : State) (uid : Nat) : (s.dropRestore uid).agenda = s.agenda := rfl
@[simp] theorem State.dropRestore_waiting (s : State) (uid : Nat) : (s.dropRestore uid).waiting = s.waiting := rfl
@[simp] theorem State.dropRestore_served (s : State) (uid : Nat) : (s.dropRestore uid).served = s.served := rfl
@[simp] theorem State.dropRestore_due (s : State) (uid : Nat) : (s.dropRestore uid).due = s.due := rfl
@[simp] theorem State.dropRestore_phase (s : State) (uid : Nat) : (s.dropRestore uid).phase = s.phase := rfl
@[simp] theorem State.dropRestore_turns (s : State) (uid : Nat) : (s.dropRestore uid).turns = s.turns := rfl
@[simp] theorem State.dropRestore_issue (s : State) (uid : Nat) : (s.dropRestore uid).issue = s.issue := rfl
@[simp] theorem State.dropRestore_pkg (s : State) (uid : Nat) : (s.dropRestore uid).pkg = s.pkg := rfl
@[simp] theorem State.dropRestore_cells (s : State) (uid : Nat) : (s.dropRestore uid).cells = s.cells := rfl
@[simp] theorem State.dropRestore_clu (s : State) (uid : Nat) : (s.dropRestore uid).clu = s.clu := rfl
@[simp] theorem State.dropRestore_home (s : State) (uid : Nat) : (s.dropRestore uid).home = s.home := rfl
@[simp] theorem State.dropTlb_clk (s : State) (ctx : BitVec 32) (lo hi : Nat) : (s.dropTlb ctx lo hi).clk = s.clk := rfl
@[simp] theorem State.dropTlb_fresh (s : State) (ctx : BitVec 32) (lo hi : Nat) : (s.dropTlb ctx lo hi).fresh = s.fresh := rfl
@[simp] theorem State.dropTlb_agenda (s : State) (ctx : BitVec 32) (lo hi : Nat) : (s.dropTlb ctx lo hi).agenda = s.agenda := rfl
@[simp] theorem State.dropTlb_waiting (s : State) (ctx : BitVec 32) (lo hi : Nat) : (s.dropTlb ctx lo hi).waiting = s.waiting := rfl
@[simp] theorem State.dropTlb_served (s : State) (ctx : BitVec 32) (lo hi : Nat) : (s.dropTlb ctx lo hi).served = s.served := rfl
@[simp] theorem State.dropTlb_due (s : State) (ctx : BitVec 32) (lo hi : Nat) : (s.dropTlb ctx lo hi).due = s.due := rfl
@[simp] theorem State.dropTlb_phase (s : State) (ctx : BitVec 32) (lo hi : Nat) : (s.dropTlb ctx lo hi).phase = s.phase := rfl
@[simp] theorem State.dropTlb_turns (s : State) (ctx : BitVec 32) (lo hi : Nat) : (s.dropTlb ctx lo hi).turns = s.turns := rfl
@[simp] theorem State.dropTlb_issue (s : State) (ctx : BitVec 32) (lo hi : Nat) : (s.dropTlb ctx lo hi).issue = s.issue := rfl
@[simp] theorem State.dropTlb_pkg (s : State) (ctx : BitVec 32) (lo hi : Nat) : (s.dropTlb ctx lo hi).pkg = s.pkg := rfl
@[simp] theorem State.dropTlb_sched (s : State) (ctx : BitVec 32) (lo hi : Nat) : (s.dropTlb ctx lo hi).sched = s.sched := rfl
@[simp] theorem State.dropTlb_cells (s : State) (ctx : BitVec 32) (lo hi : Nat) : (s.dropTlb ctx lo hi).cells = s.cells := rfl
@[simp] theorem State.dropTlb_home (s : State) (ctx : BitVec 32) (lo hi : Nat) : (s.dropTlb ctx lo hi).home = s.home := rfl
@[simp] theorem State.urgeOn_clk (s : State) (ps : List Page) : (s.urgeOn ps).clk = s.clk := rfl
@[simp] theorem State.urgeOn_fresh (s : State) (ps : List Page) : (s.urgeOn ps).fresh = s.fresh := rfl
@[simp] theorem State.urgeOn_agenda (s : State) (ps : List Page) : (s.urgeOn ps).agenda = s.agenda := rfl
@[simp] theorem State.urgeOn_waiting (s : State) (ps : List Page) : (s.urgeOn ps).waiting = s.waiting := rfl
@[simp] theorem State.urgeOn_served (s : State) (ps : List Page) : (s.urgeOn ps).served = s.served := rfl
@[simp] theorem State.urgeOn_due (s : State) (ps : List Page) : (s.urgeOn ps).due = s.due := rfl
@[simp] theorem State.urgeOn_phase (s : State) (ps : List Page) : (s.urgeOn ps).phase = s.phase := rfl
@[simp] theorem State.urgeOn_turns (s : State) (ps : List Page) : (s.urgeOn ps).turns = s.turns := rfl
@[simp] theorem State.urgeOn_issue (s : State) (ps : List Page) : (s.urgeOn ps).issue = s.issue := rfl
@[simp] theorem State.urgeOn_pkg (s : State) (ps : List Page) : (s.urgeOn ps).pkg = s.pkg := rfl
@[simp] theorem State.urgeOn_sched (s : State) (ps : List Page) : (s.urgeOn ps).sched = s.sched := rfl
@[simp] theorem State.urgeOn_cells (s : State) (ps : List Page) : (s.urgeOn ps).cells = s.cells := rfl
@[simp] theorem State.urgeOn_home (s : State) (ps : List Page) : (s.urgeOn ps).home = s.home := rfl

end Sys2Proof.Machine
end

