-- ==== Sys2Proof/Laws/Store.lean ====
section
/-! SUPPORT. Laws of sparse stores and of memory: reading after writing, the canonical form, which every operation keeps. -/

namespace Sys2Proof.Machine

variable {w : Nat}

/-! ## Reading after writing -/

theorem sget_dropWhile_le (m : Store w) (k j : Nat) (h : k < j) :
    sget (m.dropWhile (fun e => decide (e.1 ≤ k))) j = sget m j := by
  induction m with
  | nil => rfl
  | cons e r ih =>
    obtain ⟨a, v⟩ := e
    by_cases ha : a ≤ k
    · rw [List.dropWhile_cons_of_pos (by simpa using ha), ih]
      simp only [sget]
      rw [if_neg (by omega), if_neg (by omega)]
    · rw [List.dropWhile_cons_of_neg (by simpa using ha)]

theorem sget_dropWhile_ge (m : Store w) (k j : Nat) (h : j ≤ k) :
    sget (m.dropWhile (fun e => decide (e.1 ≤ k))) j = 0 := by
  induction m with
  | nil => rfl
  | cons e r ih =>
    obtain ⟨a, v⟩ := e
    by_cases ha : a ≤ k
    · rw [List.dropWhile_cons_of_pos (by simpa using ha), ih]
    · rw [List.dropWhile_cons_of_neg (by simpa using ha)]
      simp only [sget]
      rw [if_pos (by omega)]

/-- The value just put. -/
theorem sget_sset_same (m : Store w) (k : Nat) (x : BitVec w) : sget (sset m k x) k = x := by
  induction m with
  | nil =>
    simp only [sset]
    split
    · next hx => rw [hx]; rfl
    · simp [sget]
  | cons e r ih =>
    obtain ⟨a, v⟩ := e
    simp only [sset]
    split
    · next h =>
      split
      · next hx => simp [sget, h, hx]
      · simp [sget]
    · split
      · split
        · next hx => rw [sget_dropWhile_ge _ _ _ (Nat.le_refl k), hx]
        · simp [sget]
      · next h1 h2 => simp only [sget]; rw [if_neg h1, if_neg h2, ih]

/-- Every other value stays. -/
theorem sget_sset_other (m : Store w) (k j : Nat) (x : BitVec w) (h : j ≠ k) : sget (sset m k x) j = sget m j := by
  induction m with
  | nil =>
    simp only [sset]
    split
    · rfl
    · simp only [sget, if_neg h]; split <;> rfl
  | cons e r ih =>
    obtain ⟨a, v⟩ := e
    simp only [sset]
    split
    · next hk =>
      split
      · rfl
      · simp only [sget]
        split
        · rw [if_pos (by omega)]
        · rfl
    · split
      · next hka =>
        subst hka
        split
        · by_cases hj : j < k
          · rw [sget_dropWhile_ge _ _ _ (by omega)]; simp [sget, hj]
          · rw [sget_dropWhile_le _ _ _ (by omega)]; simp [sget, hj, h]
        · simp [sget, h]
      · simp only [sget]
        split
        · rfl
        · split
          · rfl
          · exact ih

theorem sget_sset (m : Store w) (k j : Nat) (x : BitVec w) :
    sget (sset m k x) j = if j = k then x else sget m j := by
  by_cases h : j = k
  · subst h; simp [sget_sset_same]
  · simp [sget_sset_other, h]

/-! ## The canonical form -/

theorem swfFrom_mono {m : Store w} {a b : Nat} (h : swfFrom b m = true) (hab : a ≤ b) : swfFrom a m = true := by
  cases m with
  | nil => rfl
  | cons e r => simp only [swfFrom, Bool.and_eq_true, decide_eq_true_eq] at h ⊢; exact ⟨⟨by omega, h.1.2⟩, h.2⟩

theorem swfFrom_sset {m : Store w} {lo k : Nat} {x : BitVec w} (h : swfFrom lo m = true) (hk : lo ≤ k) :
    swfFrom lo (sset m k x) = true := by
  induction m generalizing lo with
  | nil =>
    simp only [sset]
    split
    · rfl
    · next hx => simp only [swfFrom, Bool.and_eq_true, decide_eq_true_eq]; exact ⟨⟨hk, hx⟩, trivial⟩
  | cons e r ih =>
    obtain ⟨a, v⟩ := e
    simp only [swfFrom, Bool.and_eq_true, decide_eq_true_eq] at h
    obtain ⟨⟨h1, h2⟩, h3⟩ := h
    simp only [sset]
    split
    · next hka =>
      split
      · simp only [swfFrom, Bool.and_eq_true, decide_eq_true_eq]; exact ⟨⟨h1, h2⟩, h3⟩
      · next hx => simp only [swfFrom, Bool.and_eq_true, decide_eq_true_eq]; exact ⟨⟨hk, hx⟩, ⟨by omega, h2⟩, h3⟩
    · split
      · next hka =>
        subst hka
        split
        · have : r.dropWhile (fun e => decide (e.1 ≤ k)) = r := by
            cases r with
            | nil => rfl
            | cons f t =>
              simp only [swfFrom, Bool.and_eq_true, decide_eq_true_eq] at h3
              exact List.dropWhile_cons_of_neg (by simpa using h3.1.1)
          rw [this]; exact swfFrom_mono h3 (by omega)
        · next hx => simp only [swfFrom, Bool.and_eq_true, decide_eq_true_eq]; exact ⟨⟨h1, hx⟩, h3⟩
      · next h4 h5 =>
        simp only [swfFrom, Bool.and_eq_true, decide_eq_true_eq]
        exact ⟨⟨h1, h2⟩, ih h3 (by omega)⟩

theorem swf_sset {m : Store w} {k : Nat} {x : BitVec w} (h : swf m = true) : swf (sset m k x) = true :=
  swfFrom_sset h (Nat.zero_le k)

theorem swfFrom_filter {m : Store w} {lo : Nat} (p : Nat × BitVec w → Bool) (h : swfFrom lo m = true) :
    swfFrom lo (m.filter p) = true := by
  induction m generalizing lo with
  | nil => rfl
  | cons e r ih =>
    simp only [swfFrom, Bool.and_eq_true, decide_eq_true_eq] at h
    by_cases hp : p e = true
    · rw [List.filter_cons_of_pos hp]
      simp only [swfFrom, Bool.and_eq_true, decide_eq_true_eq]
      exact ⟨h.1, ih h.2⟩
    · rw [List.filter_cons_of_neg hp]
      exact ih (swfFrom_mono h.2 (by omega))

theorem swf_filter {m : Store w} (p : Nat × BitVec w → Bool) (h : swf m = true) : swf (m.filter p) = true := swfFrom_filter p h

theorem swf_clearRange {m : Store w} {k n : Nat} (h : swf m = true) : swf (clearRange m k n) = true := swf_filter _ h

/-! ## Memory -/

theorem wf_writeBytes {bs : List Byte} {m : Memory} {k : Nat} (h : Memory.wf m = true) : Memory.wf (writeBytes m k bs) = true := by
  induction bs generalizing m k with
  | nil => exact h
  | cons b r ih => exact ih (swf_sset h)

theorem wf_clearBytes {n : Nat} {m : Memory} {k : Nat} (h : Memory.wf m = true) : Memory.wf (clearBytes m k n) = true := by
  induction n generalizing m k with
  | zero => exact h
  | succ n ih => exact ih (swf_sset h)

theorem wf_filter {m : Memory} (p : Host.Cell → Bool) (h : Memory.wf m = true) : Memory.wf (m.filter p) = true := swf_filter p h

theorem wf_clearRange {m : Memory} {k n : Nat} (h : Memory.wf m = true) : Memory.wf (clearRange m k n) = true := swf_clearRange h

theorem wf_nil : Memory.wf [] = true := rfl

/-- A byte outside the bytes written stays. -/
theorem sget_writeBytes_other {bs : List Byte} {m : Memory} {k a : Nat} (h : a < k ∨ k + bs.length ≤ a) :
    sget (writeBytes m k bs) a = sget m a := by
  induction bs generalizing m k with
  | nil => rfl
  | cons b r ih =>
    simp only [List.length_cons] at h
    rw [writeBytes, ih (by omega), sget_sset_other _ _ _ _ (by omega)]

/-- The bytes written are read back. -/
theorem readBytes_writeBytes {bs : List Byte} {m : Memory} {k : Nat} : readBytes (writeBytes m k bs) k bs.length = bs := by
  induction bs generalizing m k with
  | nil => rfl
  | cons b r ih =>
    rw [List.length_cons, readBytes, writeBytes, sget_writeBytes_other (by omega), sget_sset_same, ih]

theorem length_readBytes (m : Memory) (k n : Nat) : (readBytes m k n).length = n := by
  induction n generalizing k with
  | zero => rfl
  | succ n ih => rw [readBytes, List.length_cons, ih]

theorem length_bytesOfNat (n v : Nat) : (bytesOfNat n v).length = n := by
  induction n generalizing v with
  | zero => rfl
  | succ n ih => rw [bytesOfNat, List.length_cons, ih]

/-- The number of the bytes of a number (R5). -/
theorem natOfBytes_bytesOfNat (n v : Nat) : natOfBytes (bytesOfNat n v) = v % 256 ^ n := by
  induction n generalizing v with
  | zero => simp [bytesOfNat, natOfBytes, Nat.mod_one]
  | succ n ih =>
    rw [bytesOfNat, natOfBytes, ih, BitVec.toNat_ofNat]
    have h : v % 256 ^ (n + 1) = v % 256 + 256 * (v / 256 % 256 ^ n) := by
      rw [Nat.pow_succ, Nat.mul_comm, Nat.mod_mul]
    omega

end Sys2Proof.Machine
end

