-- ==== Sys2Proof/Laws/Units.lean ====
section
/-! SUPPORT. Cells, units and threads after an update; what the end of an instruction leaves of registers and threads. -/

namespace Sys2Proof.Machine

/-! ## Lists -/

theorem length_modNth {α : Type} (f : α → α) (n : Nat) (l : List α) : (modNth f n l).length = l.length := by
  induction l generalizing n with
  | nil => cases n <;> rfl
  | cons a r ih => cases n <;> simp [modNth, ih]

theorem getD_modNth_same {α : Type} (f : α → α) (n : Nat) (l : List α) (d : α) (h : n < l.length) :
    (modNth f n l).getD n d = f (l.getD n d) := by
  induction l generalizing n with
  | nil => simp at h
  | cons a r ih =>
    cases n with
    | zero => simp [modNth]
    | succ n => simpa [modNth] using ih n (by simpa using h)

theorem getD_modNth_other {α : Type} (f : α → α) (n m : Nat) (l : List α) (d : α) (h : n ≠ m) :
    (modNth f n l).getD m d = l.getD m d := by
  induction l generalizing n m with
  | nil => cases n <;> rfl
  | cons a r ih =>
    cases n with
    | zero => cases m with
      | zero => exact absurd rfl h
      | succ m => simp [modNth]
    | succ n => cases m with
      | zero => simp [modNth]
      | succ m => simpa [modNth] using ih n m (by omega)

theorem getD_length {α : Type} {l : List α} {n : Nat} {d a : α} (h : l.getD n d ≠ d) : n < l.length := by
  rcases Nat.lt_or_ge n l.length with h1 | h1
  · exact h1
  · exact absurd (by simp [List.getD, List.getElem?_eq_none h1]) h

/-! ## Cells -/

theorem cell?_updCell (s : State) (uid k : Nat) (f : Cell → Cell) (hf : ∀ c, (f c).uid = c.uid) :
    (s.updCell uid f).cell? k = (s.cell? k).map (fun c => if c.uid = uid then f c else c) := by
  unfold State.cell? State.updCell
  dsimp only
  induction s.cells with
  | nil => rfl
  | cons c r ih =>
    simp only [List.map_cons, List.find?_cons]
    have : (if c.uid = uid then f c else c).uid = c.uid := by split <;> simp [hf]
    rw [this]
    cases hk : (c.uid == k)
    · exact ih
    · rfl

theorem cell?_uid {s : State} {k : Nat} {c : Cell} (h : s.cell? k = some c) : c.uid = k := by
  simpa using List.find?_some h

/-- The cell and its unit are there. -/
def State.has (s : State) (uid u : Nat) : Prop := ∃ c, s.cell? uid = some c ∧ u < c.units.length

theorem cell?_updUnit {s : State} {uid u : Nat} {f : UnitSt → UnitSt} {c : Cell} (h : s.cell? uid = some c) :
    (s.updUnit uid u f).cell? uid = some (c.updUnit u f) := by
  unfold State.updUnit
  rw [cell?_updCell s uid uid (fun c => c.updUnit u f) (fun _ => rfl), h, Option.map_some, if_pos (cell?_uid h)]

theorem has_updUnit {s : State} {uid u k v : Nat} {f : UnitSt → UnitSt} (h : s.has uid u) : (s.updUnit k v f).has uid u := by
  obtain ⟨c, hc, hu⟩ := h
  unfold State.updUnit
  refine ⟨if c.uid = k then c.updUnit v f else c, ?_, ?_⟩
  · rw [cell?_updCell s k uid (fun c => c.updUnit v f) (fun _ => rfl), hc]; rfl
  · split
    · simpa [Cell.updUnit, length_modNth] using hu
    · exact hu

theorem unit_updUnit_same {s : State} {uid u : Nat} {f : UnitSt → UnitSt} (h : s.has uid u) :
    (s.updUnit uid u f).unit uid u = f (s.unit uid u) := by
  obtain ⟨c, hc, hu⟩ := h
  unfold State.unit
  rw [cell?_updUnit hc, hc]
  exact getD_modNth_same f u c.units _ hu

theorem unit_updUnit_other {s : State} {uid u v : Nat} {f : UnitSt → UnitSt} (h : u ≠ v) :
    (s.updUnit uid u f).unit uid v = s.unit uid v := by
  unfold State.unit State.updUnit
  rw [cell?_updCell s uid uid (fun c => c.updUnit u f) (fun _ => rfl)]
  cases hc : s.cell? uid with
  | none => rfl
  | some c =>
    rw [Option.map_some, if_pos (cell?_uid hc)]
    exact getD_modNth_other f u v c.units _ h

theorem unit_updUnit_cell {s : State} {uid k u v : Nat} {f : UnitSt → UnitSt} (h : uid ≠ k) :
    (s.updUnit uid u f).unit k v = s.unit k v := by
  unfold State.unit State.updUnit
  rw [cell?_updCell s uid k (fun c => c.updUnit u f) (fun _ => rfl)]
  cases hc : s.cell? k with
  | none => rfl
  | some c => rw [Option.map_some, if_neg (by rw [cell?_uid hc]; exact fun e => h e.symm)]

theorem unit_updCell {s : State} {uid k u : Nat} {f : Cell → Cell} (hf : ∀ c, (f c).uid = c.uid ∧ (f c).units = c.units) :
    (s.updCell uid f).unit k u = s.unit k u := by
  unfold State.unit
  rw [cell?_updCell s uid k f (fun c => (hf c).1)]
  cases s.cell? k with
  | none => rfl
  | some c =>
    rw [Option.map_some]
    dsimp only
    split
    · unfold Cell.unit; rw [(hf c).2]
    · rfl

theorem has_updCell {s : State} {uid k u : Nat} {f : Cell → Cell} (hf : ∀ c, (f c).uid = c.uid ∧ (f c).units = c.units)
    (h : s.has k u) : (s.updCell uid f).has k u := by
  obtain ⟨c, hc, hu⟩ := h
  refine ⟨if c.uid = uid then f c else c, ?_, ?_⟩
  · rw [cell?_updCell s uid k f (fun c => (hf c).1), hc]; rfl
  · split
    · rw [(hf c).2]; exact hu
    · exact hu

theorem unit_of_cells {s t : State} (h : t.cells = s.cells) (uid u : Nat) : t.unit uid u = s.unit uid u := by
  unfold State.unit State.cell?; rw [h]

theorem has_of_cells {s t : State} (h : t.cells = s.cells) {uid u : Nat} (hs : s.has uid u) : t.has uid u := by
  unfold State.has State.cell? at *; rw [h]; exact hs

/-- The unit of an issue is there. -/
theorem has_of_who {s : State} {w : Who} (h : s.who = some w) : s.has w.cell.uid w.u ∧ s.unit w.cell.uid w.u = w.unit := by
  obtain ⟨hc, hu, -, hne, hst, -⟩ := who_spec h
  refine ⟨⟨w.cell, hc, ?_⟩, ?_⟩
  · rcases Nat.lt_or_ge w.u w.cell.units.length with h1 | h1
    · exact h1
    · exfalso
      obtain ⟨t, ht⟩ := List.exists_mem_of_ne_nil _ hne
      have hs := (hst t ht).2
      rw [hu] at hs
      unfold Cell.unit at hs
      rw [List.getD, List.getElem?_eq_none h1] at hs
      simp only [Option.getD_none, UnitSt.absent, UnitSt.thread, List.getD_nil, Thread.absent] at hs
      split at hs <;> exact absurd hs (by simp)
  · unfold State.unit; rw [hc, hu]

/-- The threads of an issue are there. -/
theorem tid_of_who {s : State} {w : Who} (h : s.who = some w) {t : Nat} (ht : t ∈ w.tids) : t < w.unit.threads.length := by
  obtain ⟨-, -, -, -, hst, -⟩ := who_spec h
  have hs := (hst t ht).2
  rcases Nat.lt_or_ge t w.unit.threads.length with h1 | h1
  · exact h1
  · exfalso
    unfold UnitSt.thread at hs
    rw [List.getD, List.getElem?_eq_none h1] at hs
    simp only [Option.getD_none, Thread.absent] at hs
    split at hs <;> exact absurd hs (by simp)

/-! ## Threads -/

theorem unit_updThread {s : State} {uid u tid : Nat} {f : Thread → Thread} (h : s.has uid u) :
    (s.updThread uid u tid f).unit uid u = (s.unit uid u).updThread tid f := unit_updUnit_same h

theorem thread_eq (s : State) (uid u tid : Nat) : s.thread uid u tid = (s.unit uid u).thread tid := by
  unfold State.thread State.unit
  cases s.cell? uid with
  | none => rfl
  | some c => rfl

/-- A property that every step of a fold keeps. -/
theorem foldl_keeps {α : Type} {P : State → Prop} {f : State → α → State} {l : List α} {s : State} (h : P s)
    (hf : ∀ s, P s → ∀ a ∈ l, P (f s a)) : P (l.foldl f s) := by
  induction l generalizing s with
  | nil => exact h
  | cons a r ih => exact ih (hf s h a (by simp)) (fun s hs b hb => hf s hs b (by simp [hb]))

/-! ## The end of an instruction whose threads all go on -/

theorem foldl_id {α : Type} (l : List α) (s : State) : l.foldl (fun s _ => s) s = s := by
  induction l with
  | nil => rfl
  | cons a r ih => exact ih

theorem goingOf_map {pc : W64} {o : Nat → LaneOut} {p : Nat → W64} {l : List Nat} (h : ∀ t ∈ l, (o t).next? pc = some (p t)) :
    goingOf pc (l.map (fun t => (t, o t))) = l.map (fun t => (t, p t)) := by
  unfold goingOf
  rw [List.filterMap_map]
  induction l with
  | nil => rfl
  | cons a r ih =>
    simp only [List.filterMap_cons, Function.comp, h a (by simp), Option.map_some, List.map_cons]
    exact congrArg _ (ih (fun t ht => h t (by simp [ht])))

theorem next_spec {o : LaneOut} {pc p : W64} (h : o.next? pc = some p) :
    o.code? = none ∧ ∀ (s : State) (w : Who) (b : Bool) (m i : Nat), s.stay w b m (i, o) = s := by
  cases o <;> simp [LaneOut.next?] at h <;> exact ⟨rfl, fun _ _ _ _ _ => rfl⟩

/-- The results of the issue are dated at its last pass (R199). -/
def State.dated (s : State) (w : Who) : State :=
  if w.spine || w.wake then s else s.updUnit w.cell.uid w.u (fun u => u.date w.iss w.clk)

/-- The issue has taken its port. -/
def State.taken (s : State) (w : Who) (d : Desc) : State :=
  if w.spine || w.wake then s else { s with issue := { s.issue with took := some (w.portUse d) } }

/-- The cisterns of the issue are read if a thread completes (R52). -/
def State.counted (s : State) (w : Who) (d : Desc) (o : Nat → LaneOut) : State :=
  if w.tids.any (fun t => (o t).code?.isNone) then s.countCis w (w.newCis d) else s

/-- The state after the threads of an instruction that all go on have ended it, step by step. -/
theorem finish_going (s : State) (w : Who) {o : Nat → LaneOut} {p : Nat → W64} (hne : w.tids ≠ [])
    (h : ∀ t ∈ w.tids, (o t).next? w.pc = some (p t)) :
    ∃ bun : Nat → Nat, finish s w (w.tids.map (fun t => (t, o t))) =
      w.tids.foldl (fun s t => s.updThread w.cell.uid w.u t (fun x => x.goOn (p t) w.clk (w.readyFor t) (bun t))) (s.dated w) := by
  refine ⟨fun t => w.bundleFor (w.tids.map (fun t => (t, p t))) w.tids.length s.fresh t (p t), ?_⟩
  unfold finish
  dsimp only
  rw [goingOf_map h]
  have hnil : (w.tids.map (fun t => (t, p t))).isEmpty = false := by simpa using hne
  rw [hnil]
  simp only [List.foldl_map, List.length_map]
  have hs : ∀ (l : List Nat) (s0 : State), (∀ t ∈ l, (o t).next? w.pc = some (p t)) →
      l.foldl (fun s' t => s'.stay w false s.fresh (t, o t)) s0 = s0 := by
    intro l
    induction l with
    | nil => intro s0 _; rfl
    | cons a r ih =>
      intro s0 hl
      rw [List.foldl_cons, (next_spec (hl a (by simp))).2]
      exact ih s0 (fun t ht => hl t (by simp [ht]))
  rw [hs _ _ h]
  have hc : (w.tids.map (fun t => (t, o t))).filterMap (fun o => o.2.code?) = [] := by
    rw [List.filterMap_map]
    exact filterMap_none (fun t ht => (next_spec (h t ht)).1)
  unfold parkAll
  rw [hc]
  rfl

theorem firstPass_one {w : Who} {d : Desc} (h : w.oneClk d = true) : w.firstPass d = w.tids := by
  unfold Who.firstPass
  split
  · rfl
  · next hn =>
    unfold Who.oneClk at h
    simp only [Bool.or_eq_true, not_or] at hn
    simp only [Bool.or_eq_true, hn.1.1, hn.1.2, false_or, Bool.and_eq_true, List.isEmpty_iff, Bool.false_eq_true] at h
    have : w.tids.take 32 = w.tids := by
      have := List.take_append_drop 32 w.tids
      rw [h.1, List.append_nil] at this; exact this
    rw [this]
    exact List.filter_eq_self.mpr (fun a ha => by simpa using ha)

/-- What the issue clk leaves, in one clk or with passes to come. -/
theorem ends_spec (s : State) (w : Who) (d : Desc) (o : Nat → LaneOut) :
    s.ends w d o = if w.oneClk d then finish ((s.counted w d o).taken w d) (w.reads d) (w.tids.map (fun t => (t, o t)))
      else ((s.counted w d o).taken w d).setRun (w.portRec s.issue.port d o) := by
  have hport : (s.counted w d o).issue.port = s.issue.port := by
    unfold State.counted
    split
    · unfold State.countCis
      generalize w.newCis d = l
      have : ∀ (l : List Nat) (s : State), (l.foldl (fun s n => s.updCis w.cell.uid n Cistern.read) s).issue = s.issue := by
        intro l
        induction l with
        | nil => intro s; rfl
        | cons a r ih => intro s; rw [List.foldl_cons, ih]; rfl
      rw [this]
    · rfl
  unfold State.ends
  rw [show (if (w.tids.any (fun t => (o t).code?.isNone)) = true then s.countCis w (w.newCis d) else s) = s.counted w d o from rfl]
  generalize s.counted w d o = s1 at *
  cases hsw : w.spine || w.wake with
  | true =>
    have h1 : w.oneClk d = true := by unfold Who.oneClk; rw [hsw]; rfl
    rw [if_pos h1, firstPass_one h1]
    unfold State.opening State.taken
    rw [if_pos (show ((w.reads d).spine || (w.reads d).wake) = true from hsw), if_pos hsw]
  | false =>
    unfold State.opening State.taken
    have hc : ((w.tids.drop 32).isEmpty && (w.reads d).passClks d (w.tids.take 32) - 1 == 0) = w.oneClk d := by
      unfold Who.oneClk; rw [hsw]; rfl
    simp only [show ((w.reads d).spine || (w.reads d).wake) = false from hsw, hsw, hc, Bool.false_eq_true, if_false]
    rw [← hport]
    split
    · next h1 => rw [firstPass_one h1]; rfl
    · rfl

/-! ## The frame of register instructions -/

theorem Frame.refl (s : State) (uid u : Nat) : Frame s s uid u := ⟨rfl, rfl, rfl, fun _ _ => rfl, rfl, fun _ _ => rfl⟩

theorem Frame.trans {s t r : State} {uid u : Nat} (h : Frame s t uid u) (g : Frame t r uid u) : Frame s r uid u where
  rest := by
    calc { r with cells := s.cells, clu := s.clu, issue := s.issue }
        = { ({ r with cells := t.cells, clu := t.clu, issue := t.issue } : State) with cells := s.cells, clu := s.clu, issue := s.issue } := rfl
      _ = { t with cells := s.cells, clu := s.clu, issue := s.issue } := by rw [g.rest]
      _ = s := h.rest
  clu := by
    calc { r.clu with ports := s.clu.ports, loads := s.clu.loads }
        = { ({ r.clu with ports := t.clu.ports, loads := t.clu.loads } : Clusters) with ports := s.clu.ports, loads := s.clu.loads } := rfl
      _ = { t.clu with ports := s.clu.ports, loads := s.clu.loads } := by rw [g.clu]
      _ = s.clu := h.clu
  loads := g.loads.trans h.loads
  cells := fun k hk => (g.cells k hk).trans (h.cells k hk)
  cell := g.cell.trans h.cell
  units := fun v hv => (g.units v hv).trans (h.units v hv)

theorem Frame.foldl {α : Type} {f : State → α → State} {uid u : Nat} (l : List α) (s : State)
    (h : ∀ s, ∀ a ∈ l, Frame s (f s a) uid u) : Frame s (l.foldl f s) uid u :=
  foldl_keeps (P := fun t => Frame s t uid u) (Frame.refl s uid u) (fun t ht a ha => ht.trans (h t a ha))

theorem frame_updUnit (s : State) (uid u : Nat) (f : UnitSt → UnitSt) : Frame s (s.updUnit uid u f) uid u where
  rest := rfl
  clu := rfl
  loads := rfl
  cells := fun k hk => by
    unfold State.updUnit
    rw [cell?_updCell s uid k (fun c => c.updUnit u f) (fun _ => rfl)]
    cases hc : s.cell? k with
    | none => rfl
    | some c => rw [Option.map_some, if_neg (by rw [cell?_uid hc]; exact hk)]
  cell := by
    unfold State.updUnit
    rw [cell?_updCell s uid uid (fun c => c.updUnit u f) (fun _ => rfl)]
    cases hc : s.cell? uid with
    | none => rfl
    | some c => rw [Option.map_some, if_pos (cell?_uid hc)]; rfl
  units := fun v hv => unit_updUnit_other (fun e => hv e.symm)

theorem frame_updThread (s : State) (uid u tid : Nat) (f : Thread → Thread) : Frame s (s.updThread uid u tid f) uid u :=
  frame_updUnit s uid u _

theorem frame_updCis (s : State) (uid u n : Nat) (f : Cistern → Cistern) : Frame s (s.updCis uid n f) uid u where
  rest := rfl
  clu := rfl
  loads := rfl
  cells := fun k hk => by
    unfold State.updCis
    rw [cell?_updCell s uid k (fun c => { c with cis := modNth f n c.cis }) (fun _ => rfl)]
    cases hc : s.cell? k with
    | none => rfl
    | some c => rw [Option.map_some, if_neg (by rw [cell?_uid hc]; exact hk)]
  cell := by
    unfold State.updCis
    rw [cell?_updCell s uid uid (fun c => { c with cis := modNth f n c.cis }) (fun _ => rfl)]
    cases hc : s.cell? uid with
    | none => rfl
    | some c => rw [Option.map_some, if_pos (cell?_uid hc)]; rfl
  units := fun _ _ => unit_updCell (fun _ => ⟨rfl, rfl⟩)

theorem frame_of_cells {s t : State} (uid u : Nat) (h : t.cells = s.cells) (hr : { t with cells := s.cells, clu := s.clu, issue := s.issue } = s)
    (hc : { t.clu with ports := s.clu.ports, loads := s.clu.loads } = s.clu)
    (hl : t.clu.loads.map (fun l => { l with written := [], old := [] }) = s.clu.loads.map (fun l => { l with written := [], old := [] })) :
    Frame s t uid u where
  rest := hr
  clu := hc
  loads := hl
  cells := fun k _ => by unfold State.cell?; rw [h]
  cell := by unfold State.cell?; rw [h]
  units := fun v _ => unit_of_cells h uid v

theorem taken_cells (s : State) (w : Who) (d : Desc) : (s.taken w d).cells = s.cells := by
  unfold State.taken; split <;> rfl

theorem frame_taken (s : State) (w : Who) (d : Desc) (uid u : Nat) : Frame s (s.taken w d) uid u := by
  refine frame_of_cells uid u (taken_cells s w d) ?_ ?_ ?_ <;> (unfold State.taken; split <;> rfl)

theorem frame_setRun (s : State) (r : IssuePort) (uid u : Nat) : Frame s (s.setRun r) uid u :=
  frame_of_cells uid u rfl rfl rfl rfl

theorem markOver_cells (s : State) (w : Who) (tid : Nat) (o : Opnd) (bs : List Byte) : (s.markOver w tid o bs).cells = s.cells := by
  unfold State.markOver; split <;> rfl

/-- A load without what later writes of its registers leave. -/
def LoadEnt.bare (l : LoadEnt) : LoadEnt := { l with written := [], old := [] }

theorem bare_overBy (l : LoadEnt) (r : Nat) (off : Option Nat) (bs : List Byte) : (l.overBy r off bs).bare = l.bare := by
  cases off <;> rfl

theorem bare_fold {α : Type} (f : LoadEnt → α → LoadEnt) (h : ∀ l a, (f l a).bare = l.bare) (as : List α) (l : LoadEnt) :
    (as.foldl f l).bare = l.bare := by
  induction as generalizing l with
  | nil => rfl
  | cons a r ih => rw [List.foldl_cons, ih, h]

theorem bare_overBytes (l : LoadEnt) (tid : Nat) (o : Opnd) (bs : List Byte) : (l.overBytes tid o bs).bare = l.bare := by
  cases o with
  | v p => exact bare_fold _ (fun l _ => bare_overBy l _ _ _) _ _
  | k n => exact bare_fold _ (fun l _ => bare_overBy l _ _ _) _ _
  | _ => rfl

theorem frame_markOver (s : State) (w : Who) (tid : Nat) (o : Opnd) (bs : List Byte) (uid u : Nat) : Frame s (s.markOver w tid o bs) uid u := by
  refine frame_of_cells uid u (markOver_cells s w tid o bs) ?_ ?_ ?_
  · unfold State.markOver; split <;> rfl
  · unfold State.markOver; split <;> rfl
  · unfold State.markOver
    split
    · rfl
    · dsimp only
      rw [List.map_map]
      apply List.map_congr_left
      intro l _
      dsimp only [Function.comp]
      split
      · exact bare_overBytes l tid o bs
      · rfl

/-! ## Units after reads, writes and flags -/

theorem unit_taken (s : State) (w : Who) (d : Desc) (k v : Nat) : (s.taken w d).unit k v = s.unit k v :=
  unit_of_cells (taken_cells s w d) k v

theorem has_taken {s : State} {w : Who} {d : Desc} {k v : Nat} (h : s.has k v) : (s.taken w d).has k v :=
  has_of_cells (taken_cells s w d) h

theorem unit_setRun (s : State) (r : IssuePort) (k v : Nat) : (s.setRun r).unit k v = s.unit k v := rfl

theorem unit_updCis (s : State) (uid n : Nat) (f : Cistern → Cistern) (k v : Nat) : (s.updCis uid n f).unit k v = s.unit k v :=
  unit_updCell (fun _ => ⟨rfl, rfl⟩)

theorem has_updCis {s : State} {uid n k v : Nat} {f : Cistern → Cistern} (h : s.has k v) : (s.updCis uid n f).has k v :=
  has_updCell (fun _ => ⟨rfl, rfl⟩) h

theorem has_write {s : State} {w : Who} {t : When} {i n k v : Nat} {f : BitVec 7} {x : W64} (h : s.has k v) :
    (w.write t i f n x s).has k v := has_updUnit (has_of_cells (markOver_cells s w i _ _) h)

theorem has_raise {s : State} {w : Who} {t : When} {fl : BitVec 5} {k v : Nat} (h : s.has k v) : (w.raise t fl s).has k v := by
  unfold Who.raise; split
  · exact h
  · exact has_updUnit h

theorem unit_write {s : State} {w : Who} {t : When} {i n : Nat} {f : BitVec 7} {x : W64} (h : s.has w.cell.uid w.u) :
    (w.write t i f n x s).unit w.cell.uid w.u = w.writeUnit t i f n x (s.unit w.cell.uid w.u) := by
  unfold Who.write
  dsimp only
  rw [unit_updUnit_same (has_of_cells (markOver_cells s w i _ _) h), unit_of_cells (markOver_cells s w i _ _)]

theorem unit_raise {s : State} {w : Who} {t : When} {fl : BitVec 5} (h : s.has w.cell.uid w.u) :
    (w.raise t fl s).unit w.cell.uid w.u = if fl = 0 then s.unit w.cell.uid w.u else w.raiseUnit t fl (s.unit w.cell.uid w.u) := by
  unfold Who.raise
  split
  · rfl
  · rw [unit_updUnit_same h]

theorem frame_write (s : State) (w : Who) (t : When) (i n : Nat) (f : BitVec 7) (x : W64) :
    Frame s (w.write t i f n x s) w.cell.uid w.u :=
  (frame_markOver s w i _ _ _ _).trans (frame_updUnit _ _ _ _)

theorem frame_raise (s : State) (w : Who) (t : When) (fl : BitVec 5) : Frame s (w.raise t fl s) w.cell.uid w.u := by
  unfold Who.raise
  split
  · exact Frame.refl _ _ _
  · exact frame_updUnit _ _ _ _

/-- The frame of results. -/
theorem frame_results (s : State) (w : Who) (d : Desc) (f : Nat → W64 × BitVec 5) :
    Frame s (s.results w d f) w.cell.uid w.u := by
  unfold State.results
  refine Frame.foldl _ s (fun s i _ => ?_)
  refine Frame.trans ?_ (frame_raise _ w _ _)
  cases d.wr with
  | none => exact Frame.refl _ _ _
  | some r => exact frame_write s w _ i _ _ _

theorem frame_countCis (s : State) (w : Who) (l : List Nat) (u : Nat) : Frame s (s.countCis w l) w.cell.uid u :=
  Frame.foldl l s (fun s n _ => frame_updCis s _ _ n _)

theorem frame_counted (s : State) (w : Who) (d : Desc) (o : Nat → LaneOut) (u : Nat) : Frame s (s.counted w d o) w.cell.uid u := by
  unfold State.counted
  split
  · exact frame_countCis s w _ u
  · exact Frame.refl _ _ _

theorem frame_dated (s : State) (w : Who) : Frame s (s.dated w) w.cell.uid w.u := by
  unfold State.dated
  split
  · exact Frame.refl _ _ _
  · exact frame_updUnit _ _ _ _

/-- The frame of the end of an instruction whose threads all go on. -/
theorem frame_ends (s : State) (w : Who) (d : Desc) {o : Nat → LaneOut} {p : Nat → W64} (hne : w.tids ≠ [])
    (h : ∀ t ∈ w.tids, (o t).next? w.pc = some (p t)) : Frame s (s.ends w d o) w.cell.uid w.u := by
  rw [ends_spec]
  refine (frame_counted s w d o w.u).trans ((frame_taken _ w d _ _).trans ?_)
  split
  · obtain ⟨bun, hb⟩ := finish_going ((s.counted w d o).taken w d) (w.reads d) (o := o) hne h
    rw [show w.tids = (w.reads d).tids from rfl, hb]
    exact (frame_dated _ (w.reads d)).trans (Frame.foldl _ _ (fun s t _ => frame_updThread s _ _ t _))
  · exact frame_setRun _ _ _ _

theorem frame_all_done (s : State) (w : Who) (d : Desc) (hne : w.tids ≠ []) : Frame s (s.all w d .done) w.cell.uid w.u :=
  frame_ends s w d (o := fun _ => .done) (p := fun _ => nextPc w.pc) hne (fun _ _ => rfl)

/-! ## What is written to one unit -/

/-- The unit after results: each acting thread's write and flags, in order. -/
def Who.resultsUnit (w : Who) (d : Desc) (f : Nat → W64 × BitVec 5) (u : UnitSt) : UnitSt :=
  (w.actors d).foldl (fun u i =>
    let u1 := match d.wr with
      | some (r, n) => w.writeUnit (w.when d) i r n (f i).1 u
      | none => u
    if (f i).2 = 0 then u1 else w.raiseUnit (w.when d) (f i).2 u1) u

theorem has_results {s : State} {w : Who} {d : Desc} {f : Nat → W64 × BitVec 5} {k v : Nat} (h : s.has k v) :
    (s.results w d f).has k v := by
  unfold State.results
  refine foldl_keeps (P := fun t => t.has k v) h (fun t ht i _ => has_raise ?_)
  cases d.wr with
  | none => exact ht
  | some r => exact has_write ht

theorem unit_results {s : State} {w : Who} {d : Desc} {f : Nat → W64 × BitVec 5} (h : s.has w.cell.uid w.u) :
    (s.results w d f).unit w.cell.uid w.u = w.resultsUnit d f (s.unit w.cell.uid w.u) := by
  unfold State.results Who.resultsUnit
  generalize w.actors d = l
  induction l generalizing s with
  | nil => rfl
  | cons i r ih =>
    simp only [List.foldl_cons]
    cases hwr : d.wr with
    | none =>
      simp only [hwr] at ih
      rw [ih (has_raise h), unit_raise h]
    | some x =>
      simp only [hwr] at ih
      rw [ih (has_raise (has_write h)), unit_raise (has_write h), unit_write h]

/-! ## Threads changed one by one -/

theorem thread_updThread_same {s : State} {uid u tid : Nat} {f : Thread → Thread} (h : s.has uid u)
    (ht : tid < (s.unit uid u).threads.length) : (s.updThread uid u tid f).thread uid u tid = f (s.thread uid u tid) := by
  rw [thread_eq, thread_eq, unit_updThread h]
  exact getD_modNth_same f tid _ _ ht

theorem thread_updThread_other {s : State} {uid u tid k : Nat} {f : Thread → Thread} (h : s.has uid u) (hk : tid ≠ k) :
    (s.updThread uid u tid f).thread uid u k = s.thread uid u k := by
  rw [thread_eq, thread_eq, unit_updThread h]
  exact getD_modNth_other f tid k _ _ hk

theorem length_updThread {s : State} {uid u tid : Nat} {f : Thread → Thread} (h : s.has uid u) :
    ((s.updThread uid u tid f).unit uid u).threads.length = (s.unit uid u).threads.length := by
  rw [unit_updThread h]; exact length_modNth _ _ _

/-- Threads changed one by one: a relation of the thread before and after that the change makes and keeps. -/
theorem foldl_updThread {uid u : Nat} {f : Nat → Thread → Thread} {R : Nat → Thread → Thread → Prop} (h1 : ∀ k x, R k x (f k x))
    (h2 : ∀ k x y, R k x y → R k x (f k y)) (l : List Nat) (s : State) (h : s.has uid u)
    (hl : ∀ t ∈ l, t < (s.unit uid u).threads.length) :
    (∀ t ∈ l, R t (s.thread uid u t) ((l.foldl (fun s t => s.updThread uid u t (f t)) s).thread uid u t))
      ∧ (∀ t, t ∉ l → (l.foldl (fun s t => s.updThread uid u t (f t)) s).thread uid u t = s.thread uid u t) := by
  induction l using List.reverseRecOn with
  | nil => exact ⟨fun t ht => absurd ht (by simp), fun _ _ => rfl⟩
  | append_singleton r a ih =>
    rw [List.foldl_append]
    have ih := ih (fun t ht => hl t (by simp [ht]))
    have hhas : (r.foldl (fun s t => s.updThread uid u t (f t)) s).has uid u :=
      foldl_keeps (P := fun t => t.has uid u) h
        (fun t ht k _ => show (t.updThread uid u k (f k)).has uid u from has_updUnit ht)
    have hlen : ((r.foldl (fun s t => s.updThread uid u t (f t)) s).unit uid u).threads.length
        = (s.unit uid u).threads.length := by
      have : ∀ (l : List Nat) (s : State), s.has uid u →
          ((l.foldl (fun s t => s.updThread uid u t (f t)) s).unit uid u).threads.length = (s.unit uid u).threads.length := by
        intro l
        induction l with
        | nil => intro s _; rfl
        | cons b r ih =>
          intro s hs
          rw [List.foldl_cons, ih _ (show (s.updThread uid u b (f b)).has uid u from has_updUnit hs), length_updThread hs]
      exact this r s h
    simp only [List.foldl_cons, List.foldl_nil]
    refine ⟨fun t ht => ?_, fun t ht => ?_⟩
    · by_cases hta : a = t
      · subst hta
        rw [thread_updThread_same hhas (by rw [hlen]; exact hl a (by simp))]
        by_cases har : a ∈ r
        · exact h2 _ _ _ (ih.1 a har)
        · rw [ih.2 a har]; exact h1 _ _
      · rw [thread_updThread_other hhas hta]
        exact ih.1 t (by rcases List.mem_append.mp ht with h3 | h3; exact h3; exact absurd (show a = t by simpa using (List.mem_singleton.mp h3).symm) hta)
    · rw [thread_updThread_other hhas (fun e => ht (by simp [e]))]
      exact ih.2 t (fun h3 => ht (by simp [h3]))

/-- What going on makes of a thread that has neither parked nor exited. -/
def goesTo (pc : W64) (x y : Thread) : Prop :=
  x.st ≠ .exited ∧ x.st ≠ .parked → y.pc = pc ∧ y.st = (if x.mr = some pc then TState.held else TState.eligible) ∧ y.mr = x.mr
    ∧ y.ppois = x.ppois ∧ y.prw = x.prw

theorem goesTo_goOn (x : Thread) (pc : W64) (clk ready bun : Nat) : goesTo pc x (x.goOn pc clk ready bun) := by
  intro h
  unfold Thread.goOn
  rw [if_neg (by simp [h.1, h.2])]
  exact ⟨rfl, rfl, rfl, rfl, rfl⟩

theorem goesTo_again {x y : Thread} {pc : W64} (clk ready bun : Nat) (h : goesTo pc x y) : goesTo pc x (y.goOn pc clk ready bun) := by
  intro hx
  obtain ⟨h1, h2, h3, h4, h5⟩ := h hx
  have hy : y.st ≠ .exited ∧ y.st ≠ .parked := by rw [h2]; split <;> simp
  obtain ⟨g1, g2, g3, g4, g5⟩ := goesTo_goOn y pc clk ready bun hy
  exact ⟨g1, by rw [g2, h3], g3.trans h3, g4.trans h4, g5.trans h5⟩

/-- Threads that go on. -/
theorem foldl_updThread_goOn {uid u clk : Nat} {pc : Nat → W64} {ready bun : Nat → Nat} (l : List Nat) (s : State) (h : s.has uid u)
    (hl : ∀ t ∈ l, t < (s.unit uid u).threads.length) :
    (∀ t ∈ l, goesTo (pc t) (s.thread uid u t)
      ((l.foldl (fun s t => s.updThread uid u t (fun x => x.goOn (pc t) clk (ready t) (bun t))) s).thread uid u t))
      ∧ (∀ t, t ∉ l → (l.foldl (fun s t => s.updThread uid u t (fun x => x.goOn (pc t) clk (ready t) (bun t))) s).thread uid u t
        = s.thread uid u t) :=
  foldl_updThread (f := fun t x => x.goOn (pc t) clk (ready t) (bun t)) (R := fun t x y => goesTo (pc t) x y)
    (fun _ _ => goesTo_goOn _ _ _ _ _) (fun _ _ _ h => goesTo_again _ _ _ h) l s h hl

end Sys2Proof.Machine
end

