-- ==== Sys2Proof/Laws/Results.lean ====
section
/-! SUPPORT. What a register instruction that is ready leaves: `alu_completes`, once for every such instruction. -/

namespace Sys2Proof.Machine

/-! ## Registers of one unit -/

theorem reg_putV_other {w : Who} {t : When} {i p r : Nat} {x : W32} {u : UnitSt} (h : r ≠ regV p i) :
    (w.putV t i p x u).reg r = u.reg r := by
  unfold Who.putV UnitSt.reg
  dsimp only
  rw [sget_sset]
  rw [if_neg h]

theorem reg_putR_other {w : Who} {t : When} {n r : Nat} {x : W64} {u : UnitSt} (h : r ≠ regK n) :
    (w.putR t n x u).reg r = u.reg r := by
  unfold Who.putR UnitSt.reg
  dsimp only
  split
  · rfl
  · rw [sget_sset, if_neg (by unfold regK at h; omega)]

/-- Registers that a write names. -/
def Who.wrote (w : Who) (i : Nat) (f : BitVec 7) (n : Nat) : List Nat :=
  match w.op f with
  | .x k => [regK k]
  | .k k => [regK k]
  | .v p => if n = 64 then [regV p i, regV (p + 1) i] else [regV p i]
  | _ => []

theorem wrote_eq {w : Who} {i : Nat} {f : BitVec 7} {n : Nat} (hn : n = 32 ∨ n = 64) : w.wrote i f n = w.regsOf i [(f, n)] := by
  unfold Who.wrote Who.regsOf
  simp only [List.flatMap_cons, List.flatMap_nil, List.append_nil]
  rcases hn with rfl | rfl <;> cases w.op f <;> rfl

theorem reg_writeUnit_other {w : Who} {t : When} {i n r : Nat} {f : BitVec 7} {x : W64} {u : UnitSt} (h : r ∉ w.wrote i f n) :
    (w.writeUnit t i f n x u).reg r = u.reg r := by
  unfold Who.wrote at h
  unfold Who.writeUnit
  cases ho : w.op f with
  | x k => rw [ho] at h; exact reg_putR_other (by simpa using h)
  | k k => rw [ho] at h; exact reg_putR_other (by simpa using h)
  | v p =>
    rw [ho] at h
    dsimp only at h ⊢
    split
    · next hn =>
      rw [if_pos hn] at h
      rw [reg_putV_other (fun e => h (by simp [e])), reg_putV_other (fun e => h (by simp [e]))]
    · next hn =>
      rw [if_neg hn] at h
      exact reg_putV_other (fun e => h (by simp [e]))
  | _ => rfl

theorem reg_raiseUnit (w : Who) (t : When) (fl : BitVec 5) (u : UnitSt) (r : Nat) : (w.raiseUnit t fl u).reg r = u.reg r := by
  unfold Who.raiseUnit; split <;> rfl

/-! ## Values -/

theorem loaded_nil {w : Who} {off : LoadEnt → Option Nat} (h : ∀ l ∈ w.loads, off l = none) : w.loaded off = [] := by
  unfold Who.loaded
  exact filterMap_none (fun l hl => by rw [h l hl]; simp)

theorem vget_putV {w : Who} {t : When} {i p : Nat} {x : W32} {u : UnitSt}
    (hp : w.flying (regV p i) = []) (hl : ∀ l ∈ w.loads, l.offV i p = none) :
    sget (w.putV t i p x u).v (regV p i) = x := by
  unfold Who.putV
  dsimp only
  rw [sget_sset, if_pos rfl]
  rw [loaded_nil hl]
  unfold Who.settle
  rw [hp]
  simp

theorem vget_putV_other {w : Who} {t : When} {i p r : Nat} {x : W32} {u : UnitSt} (h : r ≠ regV p i) :
    sget (w.putV t i p x u).v r = sget u.v r := by
  unfold Who.putV; dsimp only; rw [sget_sset, if_neg h]

theorem rget_putR {w : Who} {t : When} {n : Nat} {x : W64} {u : UnitSt}
    (hp : w.flying (regK n) = []) (hl : ∀ l ∈ w.loads, l.offR n = none) :
    sget (w.putR t n x u).regs n = x := by
  unfold Who.putR
  dsimp only
  rw [sget_sset, if_pos rfl]
  rw [loaded_nil hl]
  unfold Who.settle
  rw [hp]
  simp

/-- A destination field holds a result in a unit. -/
def Who.holdsIn (w : Who) (u : UnitSt) (i : Nat) (f : BitVec 7) (n : Nat) (x : W64) : Prop :=
  match w.op f with
  | .x k => sget u.regs k = x
  | .k k => sget u.regs k = x
  | .v p => sget u.v (regV p i) = x.setWidth 32 ∧ (n = 64 → sget u.v (regV (p + 1) i) = (x >>> 32).setWidth 32)
  | _ => True

theorem holds_iff (s : State) (w : Who) (i : Nat) (f : BitVec 7) (n : Nat) (x : W64) :
    s.holds w i f n x ↔ w.holdsIn (s.unit w.cell.uid w.u) i f n x := Iff.rfl

/-- A result of the registers only. -/
theorem holdsIn_congr {w : Who} {u v : UnitSt} {i n : Nat} {f : BitVec 7} {x : W64} (hr : v.regs = u.regs) (hv : v.v = u.v)
    (h : w.holdsIn u i f n x) : w.holdsIn v i f n x := by
  unfold Who.holdsIn at *; rw [hr, hv]; exact h

theorem quiet_pending {w : Who} {i n : Nat} {f : BitVec 7} (h : w.quiet i f n = true) {r : Nat} (hr : r ∈ w.regsOf i [(f, n)]) :
    w.flying r = [] ∧ w.loadOn i r = false := by
  unfold Who.quiet at h
  have := List.all_eq_true.mp h r hr
  simpa using this

theorem loadOn_v {w : Who} {i p : Nat} (hi : i < 128) (hp : p < 256) (h : w.loadOn i (regV p i) = false) :
    ∀ l ∈ w.loads, l.offV i p = none := by
  intro l hl
  unfold Who.loadOn at h
  have := List.any_eq_false.mp h l hl
  rw [if_pos (by unfold regV; omega), show regV p i / 128 = p by unfold regV; omega] at this
  simpa using this

theorem loadOn_r {w : Who} {i n : Nat} (h : w.loadOn i (regK n) = false) : ∀ l ∈ w.loads, l.offR n = none := by
  intro l hl
  unfold Who.loadOn at h
  have := List.any_eq_false.mp h l hl
  rw [if_neg (by unfold regK; omega), show regK n - 32768 = n by unfold regK; omega] at this
  simpa using this

/-- A write leaves its value when nothing is in flight on the destination. -/
theorem holdsIn_write {w : Who} {t : When} {i n : Nat} {f : BitVec 7} {x : W64} {u : UnitSt} (hn : n = 32 ∨ n = 64)
    (hi : i < 128) (hp : ∀ p, w.op f = .v p → p < 256 ∧ (n = 64 → p + 1 < 256)) (hq : w.quiet i f n = true) :
    w.holdsIn (w.writeUnit t i f n x u) i f n x := by
  have hq := @quiet_pending w i n f hq
  rw [← wrote_eq hn] at hq
  unfold Who.wrote at hq
  unfold Who.holdsIn Who.writeUnit
  cases ho : w.op f with
  | x k =>
    rw [ho] at hq
    have := @hq (regK k) (by simp)
    exact rget_putR this.1 (loadOn_r this.2)
  | k k =>
    rw [ho] at hq
    have := @hq (regK k) (by simp)
    exact rget_putR this.1 (loadOn_r this.2)
  | v p =>
    rw [ho] at hq
    dsimp only at hq ⊢
    obtain ⟨h1, h2⟩ := hp p ho
    rcases hn with rfl | rfl
    · rw [if_neg (by decide)]
      have := @hq (regV p i) (by simp)
      exact ⟨vget_putV this.1 (loadOn_v hi h1 this.2), fun e => absurd e (by decide)⟩
    · rw [if_pos rfl]
      have ha := @hq (regV p i) (by simp)
      have hb := @hq (regV (p + 1) i) (by simp)
      refine ⟨?_, fun _ => vget_putV hb.1 (loadOn_v hi (h2 rfl) hb.2)⟩
      rw [vget_putV_other (by unfold regV; omega)]
      exact vget_putV ha.1 (loadOn_v hi h1 ha.2)
  | _ => trivial

theorem holdsIn_raise {w : Who} {t : When} {fl : BitVec 5} {u : UnitSt} {i n : Nat} {f : BitVec 7} {x : W64}
    (h : w.holdsIn u i f n x) : w.holdsIn (w.raiseUnit t fl u) i f n x :=
  holdsIn_congr (by unfold Who.raiseUnit; split <;> rfl) (by unfold Who.raiseUnit; split <;> rfl) h

/-- A write of one thread to v registers leaves another's. -/
theorem holdsIn_write_other {w : Who} {t : When} {i j n m : Nat} {f : BitVec 7} {x y : W64} {u : UnitSt} (hij : i ≠ j)
    (hi : i < 128) (hj : j < 128) (hv : ∃ p, w.op f = .v p) (h : w.holdsIn u i f n x) :
    w.holdsIn (w.writeUnit t j f m y u) i f n x := by
  obtain ⟨p, ho⟩ := hv
  unfold Who.holdsIn Who.writeUnit at *
  rw [ho] at h ⊢
  dsimp only at h ⊢
  have hne : ∀ a b, regV a i ≠ regV b j := by unfold regV; omega
  split
  · exact ⟨by rw [vget_putV_other (hne _ _), vget_putV_other (hne _ _)]; exact h.1,
      fun e => by rw [vget_putV_other (hne _ _), vget_putV_other (hne _ _)]; exact h.2 e⟩
  · exact ⟨by rw [vget_putV_other (hne _ _)]; exact h.1, fun e => by rw [vget_putV_other (hne _ _)]; exact h.2 e⟩

/-- Fields that results leave alone. -/
def UnitSt.same (u v : UnitSt) : Prop :=
  v.threads = u.threads ∧ { v with regs := u.regs, v := u.v, pend := u.pend, flags := u.flags, flagPend := u.flagPend } = u

theorem UnitSt.same_refl (u : UnitSt) : u.same u := ⟨rfl, rfl⟩
theorem UnitSt.same_trans {u v x : UnitSt} (h : u.same v) (g : v.same x) : u.same x := by
  refine ⟨g.1.trans h.1, ?_⟩
  calc { x with regs := u.regs, v := u.v, pend := u.pend, flags := u.flags, flagPend := u.flagPend }
      = { ({ x with regs := v.regs, v := v.v, pend := v.pend, flags := v.flags, flagPend := v.flagPend } : UnitSt)
          with regs := u.regs, v := u.v, pend := u.pend, flags := u.flags, flagPend := u.flagPend } := rfl
    _ = { v with regs := u.regs, v := u.v, pend := u.pend, flags := u.flags, flagPend := u.flagPend } := by rw [g.2]
    _ = u := h.2

/-! ## Flags -/

theorem foldl_or (l : List (Nat × Nat × BitVec 5)) (c : Nat) (a b : BitVec 5) :
    l.foldl (fun a p => if p.1 = 0 ∧ p.2.1 < c then a ||| p.2.2 else a) (a ||| b)
      = l.foldl (fun a p => if p.1 = 0 ∧ p.2.1 < c then a ||| p.2.2 else a) a ||| b := by
  induction l generalizing a with
  | nil => rfl
  | cons p r ih =>
    simp only [List.foldl_cons]
    split
    · rw [show a ||| b ||| p.2.2 = (a ||| p.2.2) ||| b by rw [BitVec.or_assoc, BitVec.or_assoc, BitVec.or_comm b]]; exact ih _
    · exact ih _

/-- The unit when the passes of the issue are over. -/
def Who.final (w : Who) (u : UnitSt) : UnitSt := if w.spine || w.wake then u else u.date w.iss w.clk

theorem landed_raise {w : Who} {d : Desc} {fl : BitVec 5} {u : UnitSt} {c : Nat} (hi : w.iss ≠ 0) (hc : w.lands d < c) :
    (w.final (w.raiseUnit (w.when d) fl u)).landed c = (w.final u).landed c ||| fl := by
  unfold Who.final
  cases hs : w.spine with
  | true =>
    rw [Bool.true_or, if_pos rfl, if_pos rfl]
    unfold Who.raiseUnit UnitSt.landed
    rw [if_pos hs]
    exact foldl_or _ _ _ _
  | false =>
    unfold Who.raiseUnit
    rw [hs, Bool.false_or]
    unfold Who.lands at hc
    cases ha : w.atOnce (w.when d) with
    | true =>
      rw [ha] at hc
      simp only [if_true] at hc
      cases hw : w.wake with
      | true =>
        simp only [if_true, Bool.false_eq_true, if_false]
        unfold UnitSt.landed
        simp only [List.foldl_cons]
        rw [if_pos ⟨trivial, hc⟩]; exact foldl_or _ _ _ _
      | false =>
        simp only [if_true, Bool.false_eq_true, if_false]
        unfold UnitSt.landed UnitSt.date
        simp only [List.map_cons, List.foldl_cons]
        rw [if_neg (fun e : (0 : Nat) = w.iss => hi e.symm), if_pos ⟨rfl, hc⟩]; exact foldl_or _ _ _ _
    | false =>
      rw [ha] at hc
      simp only [Bool.false_eq_true, if_false] at hc
      have hw : w.wake = false := by
        unfold Who.atOnce at ha; rw [hs] at ha; revert ha; cases w.wake <;> simp
      rw [hw]
      simp only [Bool.false_eq_true, if_false]
      unfold UnitSt.landed UnitSt.date
      simp only [List.map_cons, List.foldl_cons, if_true]
      rw [if_pos ⟨trivial, by unfold Who.when; dsimp only; omega⟩]; exact foldl_or _ _ _ _

/-- No flag of the unit carries the order number of the issue. -/
theorem landed_final {w : Who} {u : UnitSt} (h : ∀ p ∈ u.flagPend, p.1 ≠ w.iss) (c : Nat) : (w.final u).landed c = u.landed c := by
  unfold Who.final
  split
  · rfl
  · unfold UnitSt.landed UnitSt.date
    have : u.flagPend.map (fun f => if f.1 = w.iss then (0, w.clk + f.2.1, f.2.2) else f) = u.flagPend := by
      conv => rhs; rw [← List.map_id u.flagPend]
      exact List.map_congr_left (fun p hp => by rw [if_neg (h p hp)]; rfl)
    dsimp only
    rw [this]

theorem landed_final_congr {w : Who} {u v : UnitSt} (h1 : v.flags = u.flags) (h2 : v.flagPend = u.flagPend) (c : Nat) :
    (w.final v).landed c = (w.final u).landed c := by
  unfold Who.final
  split
  · unfold UnitSt.landed; rw [h1, h2]
  · unfold UnitSt.landed UnitSt.date; dsimp only; rw [h1, h2]

theorem final_regs (w : Who) (u : UnitSt) : (w.final u).regs = u.regs := by unfold Who.final; split <;> rfl
theorem final_v (w : Who) (u : UnitSt) : (w.final u).v = u.v := by unfold Who.final; split <;> rfl
theorem reg_final (w : Who) (u : UnitSt) (r : Nat) : (w.final u).reg r = u.reg r := by unfold UnitSt.reg; rw [final_regs, final_v]
theorem same_final (w : Who) (u : UnitSt) : u.same (w.final u) := by unfold Who.final; split <;> exact ⟨rfl, rfl⟩

theorem landed_congr {u v : UnitSt} (h1 : v.flags = u.flags) (h2 : v.flagPend = u.flagPend) (c : Nat) : v.landed c = u.landed c := by
  unfold UnitSt.landed; rw [h1, h2]

theorem writeUnit_flags (w : Who) (t : When) (i n : Nat) (f : BitVec 7) (x : W64) (u : UnitSt) :
    (w.writeUnit t i f n x u).flags = u.flags ∧ (w.writeUnit t i f n x u).flagPend = u.flagPend := by
  unfold Who.writeUnit
  cases w.op f <;> dsimp only [Who.putV, Who.putR]
  · exact ⟨rfl, rfl⟩
  · exact ⟨rfl, rfl⟩
  · split <;> exact ⟨rfl, rfl⟩
  all_goals exact ⟨rfl, rfl⟩

/-! ## The unit after the results -/

theorem same_writeUnit (w : Who) (t : When) (i n : Nat) (f : BitVec 7) (x : W64) (u : UnitSt) : u.same (w.writeUnit t i f n x u) := by
  unfold Who.writeUnit
  cases w.op f <;> dsimp only [Who.putV, Who.putR]
  · exact ⟨rfl, rfl⟩
  · exact ⟨rfl, rfl⟩
  · split <;> exact ⟨rfl, rfl⟩
  all_goals exact ⟨rfl, rfl⟩

theorem same_raiseUnit (w : Who) (t : When) (fl : BitVec 5) (u : UnitSt) : u.same (w.raiseUnit t fl u) := by
  unfold Who.raiseUnit; split <;> exact ⟨rfl, rfl⟩

/-- One thread's part of the results. -/
def Who.resultUnit (w : Who) (d : Desc) (f : Nat → W64 × BitVec 5) (u : UnitSt) (i : Nat) : UnitSt :=
  let u1 := match d.wr with
    | some (r, n) => w.writeUnit (w.when d) i r n (f i).1 u
    | none => u
  if (f i).2 = 0 then u1 else w.raiseUnit (w.when d) (f i).2 u1

theorem resultsUnit_eq (w : Who) (d : Desc) (f : Nat → W64 × BitVec 5) (u : UnitSt) :
    w.resultsUnit d f u = (w.actors d).foldl (w.resultUnit d f) u := rfl

theorem same_resultUnit (w : Who) (d : Desc) (f : Nat → W64 × BitVec 5) (u : UnitSt) (i : Nat) : u.same (w.resultUnit d f u i) := by
  unfold Who.resultUnit
  dsimp only
  have h1 : u.same (match d.wr with | some (r, n) => w.writeUnit (w.when d) i r n (f i).1 u | none => u) := by
    cases d.wr with
    | none => exact UnitSt.same_refl u
    | some r => exact same_writeUnit w _ i _ _ _ u
  split
  · exact h1
  · exact UnitSt.same_trans h1 (same_raiseUnit w _ _ _)

theorem same_resultsUnit (w : Who) (d : Desc) (f : Nat → W64 × BitVec 5) (u : UnitSt) : u.same (w.resultsUnit d f u) := by
  rw [resultsUnit_eq]
  generalize w.actors d = l
  induction l generalizing u with
  | nil => exact UnitSt.same_refl u
  | cons i r ih => exact UnitSt.same_trans (same_resultUnit w d f u i) (ih _)

theorem reg_resultUnit {w : Who} {d : Desc} {f : Nat → W64 × BitVec 5} {u : UnitSt} {i r : Nat}
    (hn : ∀ a n, d.wr = some (a, n) → n = 32 ∨ n = 64) (h : r ∉ w.regsOf i d.wr.toList) :
    (w.resultUnit d f u i).reg r = u.reg r := by
  unfold Who.resultUnit
  dsimp only
  have h1 : (match d.wr with | some (r, n) => w.writeUnit (w.when d) i r n (f i).1 u | none => u).reg r = u.reg r := by
    cases hw : d.wr with
    | none => rfl
    | some x =>
      rw [hw] at h
      exact reg_writeUnit_other (by rw [wrote_eq (hn x.1 x.2 hw)]; exact h)
  split
  · exact h1
  · rw [reg_raiseUnit]; exact h1

theorem reg_resultsUnit {w : Who} {d : Desc} {f : Nat → W64 × BitVec 5} {u : UnitSt} {r : Nat}
    (hn : ∀ a n, d.wr = some (a, n) → n = 32 ∨ n = 64) (h : r ∉ (w.actors d).flatMap (fun i => w.regsOf i d.wr.toList)) :
    (w.resultsUnit d f u).reg r = u.reg r := by
  rw [resultsUnit_eq]
  revert h
  generalize w.actors d = l
  intro h
  induction l generalizing u with
  | nil => rfl
  | cons i l ih =>
    simp only [List.flatMap_cons, List.mem_append, not_or] at h
    rw [List.foldl_cons, ih h.2, reg_resultUnit hn h.1]

theorem landed_resultsUnit {w : Who} {d : Desc} {f : Nat → W64 × BitVec 5} {u : UnitSt} {c : Nat} (hi : w.iss ≠ 0)
    (hu : ∀ p ∈ u.flagPend, p.1 ≠ w.iss) (hc : w.lands d < c) :
    (w.final (w.resultsUnit d f u)).landed c = u.landed c ||| (w.actors d).foldl (fun a i => a ||| (f i).2) 0 := by
  rw [resultsUnit_eq, ← landed_final hu]
  generalize w.actors d = l
  have hone : ∀ (u : UnitSt) (i : Nat), (w.final (w.resultUnit d f u i)).landed c = (w.final u).landed c ||| (f i).2 := by
    intro u i
    unfold Who.resultUnit
    dsimp only
    have h1 : (w.final (match d.wr with | some (r, n) => w.writeUnit (w.when d) i r n (f i).1 u | none => u)).landed c
        = (w.final u).landed c := by
      cases d.wr with
      | none => rfl
      | some x => exact landed_final_congr (writeUnit_flags w _ i _ _ _ u).1 (writeUnit_flags w _ i _ _ _ u).2 c
    split
    · next hz => rw [h1, hz]; simp
    · rw [landed_raise hi hc, h1]
  have hfold : ∀ (l : List Nat) (a : BitVec 5), l.foldl (fun a i => a ||| (f i).2) a = a ||| l.foldl (fun a i => a ||| (f i).2) 0 := by
    intro l
    induction l with
    | nil => intro a; simp
    | cons i r ih => intro a; simp only [List.foldl_cons]; rw [ih, ih (0 ||| (f i).2)]; simp [BitVec.or_assoc]
  clear hu
  induction l generalizing u with
  | nil => simp
  | cons i r ih =>
    simp only [List.foldl_cons]
    rw [ih, hone, hfold r (0 ||| (f i).2)]
    simp [BitVec.or_assoc]

/-- Results of different threads do not disturb one another. -/
theorem holdsIn_results {w : Who} {d : Desc} {f : Nat → W64 × BitVec 5} {r : BitVec 7} {n : Nat} (hwr : d.wr = some (r, n))
    (hn : n = 32 ∨ n = 64) (hp : ∀ p, w.op r = .v p → p < 256 ∧ (n = 64 → p + 1 < 256))
    (hone : (∃ k, w.op r = .x k ∨ w.op r = .k k) → (w.actors d).length ≤ 1) (hb : ∀ i ∈ w.actors d, i < 128) (u : UnitSt) {i : Nat}
    (hi : i ∈ w.actors d) (hq : w.quiet i r n = true) : w.holdsIn (w.resultsUnit d f u) i r n (f i).1 := by
  rw [resultsUnit_eq]
  have hstep : ∀ (u : UnitSt), w.holdsIn (w.resultUnit d f u i) i r n (f i).1 := by
    intro u
    unfold Who.resultUnit
    rw [hwr]
    dsimp only
    have := holdsIn_write (t := w.when d) (x := (f i).1) (u := u) hn (hb i hi) hp hq
    split
    · exact this
    · exact holdsIn_raise this
  by_cases hv : ∃ p, w.op r = .v p
  · have hkeep : ∀ (l : List Nat) (u : UnitSt), (∀ j ∈ l, j < 128) → w.holdsIn u i r n (f i).1 →
        w.holdsIn (l.foldl (w.resultUnit d f) u) i r n (f i).1 := by
      intro l
      induction l with
      | nil => intro u _ h; exact h
      | cons j l ih =>
        intro u hl h
        refine ih _ (fun k hk => hl k (by simp [hk])) ?_
        by_cases hij : i = j
        · rw [← hij]; exact hstep u
        · unfold Who.resultUnit
          rw [hwr]
          dsimp only
          have := holdsIn_write_other (t := w.when d) (m := n) (y := (f j).1) hij (hb i hi) (hl j (by simp)) hv h
          split
          · exact this
          · exact holdsIn_raise this
    revert hi hb
    generalize w.actors d = l
    intro hb hi
    induction l generalizing u with
    | nil => simp at hi
    | cons j l ih =>
      rcases List.mem_cons.mp hi with e | hm
      · subst e
        exact hkeep l _ (fun k hk => hb k (by simp [hk])) (hstep u)
      · exact ih _ (fun k hk => hb k (by simp [hk])) hm
  · by_cases hxk : ∃ k, w.op r = .x k ∨ w.op r = .k k
    case neg =>
      unfold Who.holdsIn
      cases ho : w.op r with
      | x k => exact absurd ⟨k, Or.inl ho⟩ hxk
      | k k => exact absurd ⟨k, Or.inr ho⟩ hxk
      | v p => exact absurd ⟨p, ho⟩ hv
      | _ => trivial
    have hl := hone hxk
    match hact : w.actors d, hl with
    | [], _ => rw [hact] at hi; simp at hi
    | [j], _ =>
      rw [hact] at hi
      have : i = j := by simpa using hi
      subst this
      exact hstep u

/-! ## What the tests say of the destination -/

/-- The tests of R208 that hold for the bundle, one by one. -/
theorem uniformTrap_none {w : Who} {d : Desc} (h : uniformTrap w d = none) :
    (¬ (d.side = .spine ∧ w.spine = false)) ∧ (¬ (d.side = .crew ∧ w.spine = true)) ∧ d.bad = false ∧ d.priv = none
      ∧ (∀ r ∈ d.rds, badSrc w.spine r.1 r.2 = false) ∧ (∀ r ∈ d.dsts, badDst w.spine r.1 r.2 = false)
      ∧ (∀ r ∈ d.rds ++ d.dsts, ∀ p ∈ physOf (w.op r.1) r.2, allocated w.cell.hdr p = true) := by
  unfold uniformTrap at h
  dsimp only at h
  split at h
  · exact absurd h (by simp)
  next hill =>
  simp only [Bool.or_eq_true, Bool.and_eq_true, not_or, beq_iff_eq, Bool.not_eq_true', List.any_eq_true] at hill
  obtain ⟨⟨⟨⟨⟨h1, h2⟩, h3⟩, h4⟩, h5⟩, -⟩ := hill
  cases hpr : d.priv with
  | some a => rw [hpr] at h; exact absurd h (by simp)
  | none =>
    rw [hpr] at h
    dsimp only at h
    split at h
    · exact absurd h (by simp)
    · split at h
      · exact absurd h (by simp)
      · next hw =>
        refine ⟨by simpa using h1, h2, by simpa using h3, rfl, ?_, ?_, ?_⟩
        · intro r hr
          exact Bool.eq_false_iff.mpr (fun e => h4 ⟨r, hr, e⟩)
        · intro r hr
          exact Bool.eq_false_iff.mpr (fun e => h5 ⟨r, hr, e⟩)
        · intro r hr p hp
          have hall := List.find?_eq_none.mp hw p (List.mem_flatMap.mpr ⟨r, hr, hp⟩)
          simpa using hall

theorem allocated_lt {h : Header} {p : Nat} (hf : h.fast ≤ 192) (hs : h.slow ≤ 64) (ha : allocated h p = true) : p < 256 := by
  unfold allocated at ha
  simp only [Bool.or_eq_true, Bool.and_eq_true, decide_eq_true_eq] at ha
  omega

/-- The v destination of a ready issue is a physical register. -/
theorem ready_phys {s : State} {w : Who} {d : Desc} (h : ready s w d = true) {r : BitVec 7} {n : Nat} (hwr : d.wr = some (r, n))
    (hn : n = 32 ∨ n = 64) : ∀ p, w.op r = .v p → p < 256 ∧ (n = 64 → p + 1 < 256) := by
  intro p ho
  obtain ⟨-, hf, hs, -⟩ := ready_sound h
  have hall := (uniformTrap_none (ready_spec h).2.2.2.1).2.2.2.2.2.2 (r, n) (by simp [Desc.dsts, hwr])
  rw [ho] at hall
  rcases hn with rfl | rfl
  · exact ⟨allocated_lt hf hs (hall p (by simp [physOf])), fun e => absurd e (by decide)⟩
  · refine ⟨allocated_lt hf hs (hall p ?_), fun _ => allocated_lt hf hs (hall (p + 1) ?_)⟩
    · simp only [physOf, List.mem_map, List.mem_range]; exact ⟨0, by omega, by omega⟩
    · simp only [physOf, List.mem_map, List.mem_range]; exact ⟨1, by omega, rfl⟩

theorem op_x_spine {w : Who} {f : BitVec 7} {k : Nat} (h : w.op f = .x k) : w.u = 0 := by
  unfold Who.op opnd at h
  dsimp only at h
  split at h
  · next hs => simpa [Who.spine] using hs
  · exfalso
    repeat' split at h
    all_goals simp at h

/-- A k or x destination is written once. -/
theorem ready_one {s : State} {w : Who} {d : Desc} (h : ready s w d = true) {r : BitVec 7} {n : Nat} (hwr : d.wr = some (r, n)) :
    (∃ k, w.op r = .x k ∨ w.op r = .k k) → (w.actors d).length ≤ 1 := by
  rintro ⟨k, hk | hk⟩
  · have := (ready_sound h).1 (op_x_spine hk)
    unfold Who.actors
    split
    · rw [this]; simp
    · have hs : w.spine = true := by unfold Who.spine; rw [op_x_spine hk]; rfl
      unfold Who.firstPass
      rw [hs, Bool.true_or, Bool.true_or, if_pos rfl, this]; simp
  · unfold Who.actors
    rw [if_pos]
    · simp
    · unfold Who.single Who.kDst; rw [hwr]; simp [hk]

theorem firstPass_sub {w : Who} {d : Desc} {i : Nat} (h : i ∈ w.firstPass d) : i ∈ w.tids := by
  unfold Who.firstPass at h
  split at h
  · exact h
  · exact (List.mem_filter.mp h).1

theorem actors_sub {w : Who} {d : Desc} {i : Nat} (h : i ∈ w.actors d) : i ∈ w.tids := by
  unfold Who.actors at h
  split at h
  · exact List.mem_of_mem_take h
  · exact firstPass_sub h

/-! ## The end of an instruction -/

theorem unit_foldl_updThread {uid u : Nat} (f : Nat → Thread → Thread) (l : List Nat) (s : State) (h : s.has uid u) :
    (l.foldl (fun s t => s.updThread uid u t (f t)) s).unit uid u
      = l.foldl (fun x t => x.updThread t (f t)) (s.unit uid u) := by
  induction l generalizing s with
  | nil => rfl
  | cons a r ih =>
    rw [List.foldl_cons, ih _ (show (s.updThread uid u a (f a)).has uid u from has_updUnit h), unit_updThread h]; rfl

theorem unit_foldl_updCis (l : List Nat) (s : State) (uid k v : Nat) :
    (l.foldl (fun s n => s.updCis uid n Cistern.read) s).unit k v = s.unit k v := by
  induction l generalizing s with
  | nil => rfl
  | cons a r ih => rw [List.foldl_cons, ih, unit_updCis]

theorem has_foldl_updCis {l : List Nat} {s : State} {uid k v : Nat} (h : s.has k v) :
    (l.foldl (fun s n => s.updCis uid n Cistern.read) s).has k v :=
  foldl_keeps (P := fun t => t.has k v) h (fun _ ht _ _ => has_updCis ht)

theorem has_countCis {l : List Nat} {s : State} {w : Who} {k v : Nat} (h : s.has k v) : (s.countCis w l).has k v := has_foldl_updCis h

theorem has_counted {s : State} {w : Who} {d : Desc} {o : Nat → LaneOut} {k v : Nat} (h : s.has k v) : (s.counted w d o).has k v := by
  unfold State.counted; split
  · exact has_countCis h
  · exact h

theorem unit_counted (s : State) (w : Who) (d : Desc) (o : Nat → LaneOut) (k v : Nat) : (s.counted w d o).unit k v = s.unit k v := by
  unfold State.counted; split
  · exact unit_foldl_updCis _ _ _ _ _
  · rfl

theorem has_dated {s : State} {w : Who} {k v : Nat} (h : s.has k v) : (s.dated w).has k v := by
  unfold State.dated; split
  · exact h
  · exact has_updUnit h

theorem unit_dated {s : State} {w : Who} (h : s.has w.cell.uid w.u) : (s.dated w).unit w.cell.uid w.u = w.final (s.unit w.cell.uid w.u) := by
  unfold State.dated Who.final; split
  · rfl
  · exact unit_updUnit_same h

/-- Only threads of the unit and the dates of its results change when the instruction ends in its issue clk. -/
theorem unit_ends {s : State} {w : Who} {d : Desc} {o : Nat → LaneOut} {p : Nat → W64} (hne : w.tids ≠ [])
    (ho : ∀ t ∈ w.tids, (o t).next? w.pc = some (p t)) (h : s.has w.cell.uid w.u) (h1 : w.oneClk d = true) :
    (s.ends w d o).unit w.cell.uid w.u
      = { w.final (s.unit w.cell.uid w.u) with threads := ((s.ends w d o).unit w.cell.uid w.u).threads } := by
  rw [ends_spec, if_pos h1]
  obtain ⟨bun, ha⟩ := finish_going ((s.counted w d o).taken w d) (w.reads d) (o := o) (p := p) hne ho
  have hh : ((s.counted w d o).taken w d).has w.cell.uid w.u := has_taken (has_counted h)
  have ha' := congrArg (fun s => State.unit s w.cell.uid w.u) ha
  dsimp only [reads_tids, reads_cell, reads_u] at ha'
  rw [unit_foldl_updThread _ _ _ (has_dated (w := w.reads d) hh), show (((s.counted w d o).taken w d).dated (w.reads d)).unit w.cell.uid w.u = (w.reads d).final (s.unit w.cell.uid w.u) by
      rw [← unit_counted s w d o, ← unit_taken (s.counted w d o) w d]; exact unit_dated (w := w.reads d) hh] at ha'
  rw [ha']
  rw [show (w.reads d).final (s.unit w.cell.uid w.u) = w.final (s.unit w.cell.uid w.u) from rfl]
  generalize w.final (s.unit w.cell.uid w.u) = x
  have : ∀ (l : List Nat) (x : UnitSt) (f : Nat → Thread → Thread),
      l.foldl (fun x t => x.updThread t (f t)) x = { x with threads := (l.foldl (fun x t => x.updThread t (f t)) x).threads } := by
    intro l
    induction l with
    | nil => intro x f; rfl
    | cons a r ih => intro x f; rw [List.foldl_cons, ih]; rfl
  exact this _ _ (fun t x => x.goOn (p t) (w.reads d).clk ((w.reads d).readyFor t) (bun t))

/-- An instruction whose passes go on leaves its unit as it is. -/
theorem unit_ends_later {s : State} {w : Who} {d : Desc} {o : Nat → LaneOut} (h1 : w.oneClk d = false) (k v : Nat) :
    (s.ends w d o).unit k v = s.unit k v := by
  rw [ends_spec, if_neg (by rw [h1]; simp), unit_setRun, unit_taken, unit_counted]

/-- What the end of an instruction makes of each thread. -/
theorem completes_ends {s : State} {w : Who} {d : Desc} {o : Nat → LaneOut} {p : Nat → W64} (hne : w.tids ≠ [])
    (ho : ∀ t ∈ w.tids, (o t).next? w.pc = some (p t)) (h : s.has w.cell.uid w.u)
    (hl : ∀ t ∈ w.tids, t < (s.unit w.cell.uid w.u).threads.length)
    (hst : ∀ t ∈ w.tids, (s.thread w.cell.uid w.u t).st ≠ .exited ∧ (s.thread w.cell.uid w.u t).st ≠ .parked) :
    Completes s (s.ends w d o) w d p o := by
  unfold Completes
  cases h1 : w.oneClk d with
  | true =>
    rw [if_pos rfl, ends_spec, if_pos h1]
    obtain ⟨bun, ha⟩ := finish_going ((s.counted w d o).taken w d) (w.reads d) (o := o) (p := p) hne ho
    rw [show w.tids = (w.reads d).tids from rfl, ha]
    have hh : ((s.counted w d o).taken w d).has w.cell.uid w.u := has_taken (has_counted h)
    have hu : (((s.counted w d o).taken w d).dated w).unit w.cell.uid w.u = w.final (s.unit w.cell.uid w.u) := by
      rw [unit_dated hh, unit_taken, unit_counted]
    have hthreads : (w.final (s.unit w.cell.uid w.u)).threads = (s.unit w.cell.uid w.u).threads := (same_final w _).1
    have hc : ∀ i, (((s.counted w d o).taken w d).dated w).thread w.cell.uid w.u i = s.thread w.cell.uid w.u i := by
      intro i; rw [thread_eq, thread_eq, hu]; unfold UnitSt.thread; rw [hthreads]
    have hth := foldl_updThread_goOn (uid := w.cell.uid) (u := w.u) (clk := w.clk) (pc := p) (ready := (w.reads d).readyFor) (bun := bun)
      w.tids (((s.counted w d o).taken w d).dated w) (has_dated hh) (by rw [hu, hthreads]; exact hl)
    refine ⟨fun i hi => ?_, fun i hi => ?_⟩
    · have := hth.1 i hi
      rw [hc] at this
      exact this (hst i hi)
    · rw [← hc i]; exact hth.2 i hi
  | false =>
    rw [if_neg (by simp)]
    refine ⟨fun i => ?_, ?_⟩
    · rw [thread_eq, thread_eq, unit_ends_later h1]
    · rw [ends_spec, if_neg (by rw [h1]; simp)]
      unfold State.setRun putIn
      dsimp only
      split
      · next ha =>
        obtain ⟨x, hx, hp⟩ := List.any_eq_true.mp ha
        exact List.mem_map.mpr ⟨x, hx, by rw [if_pos hp]⟩
      · exact List.mem_cons_self

theorem cis_foldl (l : List Nat) (s : State) (uid : Nat) :
    ((l.foldl (fun s n => s.updCis uid n Cistern.read) s).cell? uid).map (fun c => c.cis)
      = (s.cell? uid).map (fun c => l.foldl (fun l n => modNth Cistern.read n l) c.cis) := by
  induction l generalizing s with
  | nil => rfl
  | cons a r ih =>
    rw [List.foldl_cons, ih]
    unfold State.updCis
    rw [cell?_updCell s uid uid (fun c => { c with cis := modNth Cistern.read a c.cis }) (fun _ => rfl)]
    cases hc : s.cell? uid with
    | none => rfl
    | some c => simp only [Option.map_some]; rw [if_pos (cell?_uid hc)]; rfl

theorem cis_updUnit (s : State) (uid u k : Nat) (f : UnitSt → UnitSt) :
    ((s.updUnit uid u f).cell? k).map (fun c => c.cis) = (s.cell? k).map (fun c => c.cis) := by
  unfold State.updUnit
  rw [cell?_updCell s uid k (fun c => c.updUnit u f) (fun _ => rfl)]
  cases hc : s.cell? k with
  | none => rfl
  | some c => simp only [Option.map_some]; split <;> rfl

theorem cis_of_cells {s t : State} (h : t.cells = s.cells) (k : Nat) :
    (t.cell? k).map (fun c => c.cis) = (s.cell? k).map (fun c => c.cis) := by unfold State.cell?; rw [h]

theorem cis_ends {s : State} {w : Who} {d : Desc} {o : Nat → LaneOut} {p : Nat → W64} (hne : w.tids ≠ [])
    (ho : ∀ t ∈ w.tids, (o t).next? w.pc = some (p t)) : readsCisterns s (s.ends w d o) w d := by
  unfold readsCisterns
  have hany : w.tids.any (fun t => (o t).code?.isNone) = true := by
    obtain ⟨t, ht⟩ := List.exists_mem_of_ne_nil _ hne
    exact List.any_eq_true.mpr ⟨t, ht, by rw [(next_spec (ho t ht)).1]; rfl⟩
  have hcount : ((s.counted w d o).cell? w.cell.uid).map (fun c => c.cis)
      = (s.cell? w.cell.uid).map (fun c => (w.newCis d).foldl (fun l n => modNth Cistern.read n l) c.cis) := by
    unfold State.counted; rw [if_pos hany]; exact cis_foldl _ _ _
  rw [← hcount, ends_spec]
  split
  · obtain ⟨bun, ha⟩ := finish_going ((s.counted w d o).taken w d) (w.reads d) (o := o) (p := p) hne ho
    rw [show w.tids = (w.reads d).tids from rfl, ha]
    have : ∀ (l : List Nat) (s : State), ((l.foldl (fun s t => s.updThread w.cell.uid w.u t
        (fun x => x.goOn (p t) w.clk ((w.reads d).readyFor t) (bun t))) s).cell? w.cell.uid).map (fun c => c.cis)
        = (s.cell? w.cell.uid).map (fun c => c.cis) := by
      intro l
      induction l with
      | nil => intro s; rfl
      | cons a r ih => intro s; rw [List.foldl_cons, ih]; exact cis_updUnit s _ _ _ _
    refine (this _ _).trans ?_
    unfold State.dated
    split
    · exact cis_of_cells (taken_cells _ w d) _
    · rw [cis_updUnit]; exact cis_of_cells (taken_cells _ w d) _
  · exact cis_of_cells (taken_cells _ w d) _

theorem cis_results (s : State) (w : Who) (d : Desc) (f : Nat → W64 × BitVec 5) (k : Nat) :
    ((s.results w d f).cell? k).map (fun c => c.cis) = (s.cell? k).map (fun c => c.cis) := by
  unfold State.results
  refine foldl_keeps (P := fun t => (t.cell? k).map (fun c => c.cis) = (s.cell? k).map (fun c => c.cis)) rfl (fun t ht i _ => ?_)
  refine Eq.trans ?_ ht
  unfold Who.raise
  have hw : ∀ r : BitVec 7 × Nat, ((w.write (w.when d) i r.1 r.2 (f i).1 t).cell? k).map (fun c => c.cis)
      = (t.cell? k).map (fun c => c.cis) := fun r => by
    unfold Who.write; rw [cis_updUnit, cis_of_cells (markOver_cells _ _ _ _ _)]
  split
  · cases d.wr with
    | none => rfl
    | some r => exact hw r
  · rw [cis_updUnit]
    cases d.wr with
    | none => rfl
    | some r => exact hw r

theorem write_issue (s : State) (w : Who) (t : When) (i n : Nat) (f : BitVec 7) (x : W64) : (w.write t i f n x s).issue = s.issue := by
  have h : ∀ tid o bs, (s.markOver w tid o bs).issue = s.issue := fun tid o bs => by unfold State.markOver; split <;> rfl
  exact h _ _ _

theorem raise_issue (s : State) (w : Who) (t : When) (fl : BitVec 5) : (w.raise t fl s).issue = s.issue := by
  unfold Who.raise; split <;> rfl

theorem results_issue (s : State) (w : Who) (d : Desc) (f : Nat → W64 × BitVec 5) : (s.results w d f).issue = s.issue := by
  unfold State.results
  refine foldl_keeps (P := fun t => t.issue = s.issue) rfl (fun t ht i _ => ?_)
  rw [raise_issue]
  cases d.wr with
  | none => exact ht
  | some r => rw [write_issue]; exact ht

/-! ## Register instructions -/

theorem quiet_nat (b : Bool) : b = true ∨ b = false := by cases b <;> simp

/-- A ready register instruction completes: once for every instruction of that shape. -/
theorem regResult_all {s : State} {w : Who} {d : Desc} (f : Nat → W64 × BitVec 5) (h : ready s w d = true)
    (hn : ∀ a n, d.wr = some (a, n) → n = 32 ∨ n = 64) :
    RegResult s w d ((s.results w d f).all w d .done) f := by
  have hwho := ready_who h
  have hspec := who_spec hwho
  have hne := hspec.2.2.2.1
  have hhas := (has_of_who hwho).1
  have hunit := (has_of_who hwho).2
  obtain ⟨-, -, -, hiss, -, hflag⟩ := ready_sound h
  have hl : ∀ t ∈ w.tids, t < (s.unit w.cell.uid w.u).threads.length := by
    intro t ht; rw [hunit]; exact tid_of_who hwho ht
  have hst : ∀ t ∈ w.tids, (s.thread w.cell.uid w.u t).st ≠ .exited ∧ (s.thread w.cell.uid w.u t).st ≠ .parked := by
    intro t ht
    rw [thread_eq, hunit, (hspec.2.2.2.2.1 t ht).2]
    split <;> simp
  have hh : (s.results w d f).has w.cell.uid w.u := has_results hhas
  have hu := unit_results (d := d) (f := f) hhas
  have hs := same_resultsUnit w d f (s.unit w.cell.uid w.u)
  have hth : ∀ i, (s.results w d f).thread w.cell.uid w.u i = s.thread w.cell.uid w.u i := by
    intro i; rw [thread_eq, thread_eq, hu]; unfold UnitSt.thread; rw [hs.1]
  have ho : ∀ t ∈ w.tids, (LaneOut.done).next? w.pc = some (nextPc w.pc) := fun _ _ => rfl
  have hone : w.oneClk d = true → ((s.results w d f).all w d .done).unit w.cell.uid w.u
      = { w.final (w.resultsUnit d f (s.unit w.cell.uid w.u)) with threads := (((s.results w d f).all w d .done).unit w.cell.uid w.u).threads } := by
    intro h1
    rw [← hu]
    exact unit_ends (s := s.results w d f) (o := fun _ => .done) (p := fun _ => nextPc w.pc) hne ho hh h1
  have hlater : w.oneClk d = false → ((s.results w d f).all w d .done).unit w.cell.uid w.u = w.resultsUnit d f (s.unit w.cell.uid w.u) := by
    intro h1
    rw [← hu]
    exact unit_ends_later h1 _ _
  refine ⟨?_, ?_, ?_, ?_, ?_, ?_, ?_⟩
  · have hgo : Completes (s.results w d f) ((s.results w d f).all w d .done) w d (fun _ => nextPc w.pc) (fun _ => .done) :=
      completes_ends (o := fun _ => .done) (p := fun _ => nextPc w.pc) hne ho hh (by rw [hu, hs.1]; exact hl)
        (by intro t ht; rw [hth]; exact hst t ht)
    have hport : (s.results w d f).issue = s.issue := by
      have := (frame_results s w d f).rest
      exact (results_issue s w d f)
    unfold Completes at *
    split
    · next h1 =>
      rw [if_pos h1] at hgo
      refine ⟨fun i hi => ?_, fun i hi => ?_⟩
      · have := hgo.moved i hi
        rw [hth] at this
        exact this
      · rw [hgo.others i hi, hth]
    · next h1 =>
      rw [if_neg h1] at hgo
      refine ⟨fun i => ?_, ?_⟩
      · rw [hgo.stay i, hth]
      · rw [← hport]; exact hgo.port
  · intro r n hwr i hi hq
    rw [holds_iff]
    have hold := holdsIn_results (f := f) hwr (hn r n hwr) (ready_phys h hwr (hn r n hwr)) (ready_one h hwr)
      (fun j hj => (hspec.2.2.2.2.1 j (actors_sub hj)).1) (s.unit w.cell.uid w.u) hi hq
    rcases quiet_nat (w.oneClk d) with h1 | h1
    · rw [hone h1]
      exact holdsIn_congr (u := w.resultsUnit d f (s.unit w.cell.uid w.u)) (final_regs w _) (final_v w _) hold
    · rw [hlater h1]; exact hold
  · intro h1 c hc
    rw [hone h1]
    exact (landed_congr (u := w.final (w.resultsUnit d f (s.unit w.cell.uid w.u))) rfl rfl c).trans
      (landed_resultsUnit hiss (by rw [hunit]; exact hflag) hc)
  · intro r hr
    have hreg := reg_resultsUnit (f := f) (u := s.unit w.cell.uid w.u) hn hr
    rcases quiet_nat (w.oneClk d) with h1 | h1
    · rw [hone h1]; exact (reg_final w _ r).trans hreg
    · rw [hlater h1]; exact hreg
  · unfold keepsUnit
    rcases quiet_nat (w.oneClk d) with h1 | h1
    · rw [hone h1]
      have := (UnitSt.same_trans hs (same_final w _))
      have h2 := this.2
      have h3 := this.1
      rw [← h3] at *
      exact h2
    · rw [hlater h1]
      have h2 := hs.2
      rw [← hs.1] at *
      exact h2
  · have h1 : readsCisterns (s.results w d f) ((s.results w d f).all w d .done) w d :=
      cis_ends (s := s.results w d f) (o := fun _ => .done) (p := fun _ => nextPc w.pc) hne ho
    unfold readsCisterns at *
    rw [h1]
    have h2 := cis_results s w d f w.cell.uid
    cases ha : (s.results w d f).cell? w.cell.uid <;> cases hb : s.cell? w.cell.uid <;> rw [ha, hb] at h2 <;> simp at h2 ⊢
    rw [h2]
  · exact (frame_results s w d f).trans (frame_all_done _ w d hne)

/-- A ready register instruction completes with its results. -/
theorem alu_completes {s : State} {w : Who} (desc : Who → Desc) (f : Who → Nat → W64 × BitVec 5) (h : ready s w (desc w) = true)
    (hd : desc (w.reads (desc w)) = desc w) (hn : ∀ a n, (desc w).wr = some (a, n) → n = 32 ∨ n = 64) :
    ∃ t, alu s desc f = .next t ∧ RegResult s w (desc w) t (f (w.reads (desc w))) :=
  ⟨_, alu_ready desc f h hd, regResult_all (f (w.reads (desc w))) h hn⟩

end Sys2Proof.Machine
end

