-- ==== Sys2Proof/Laws/Ends.lean ====
section
/-! SUPPORT. Instructions whose threads all trap. -/

namespace Sys2Proof.Machine

theorem sortBy_rising {α : Type} (key : α → Nat) (l : List α) (h : (l.map key).Pairwise (· < ·)) : sortBy key l = l := by
  unfold sortBy
  induction l with
  | nil => rfl
  | cons a r ih =>
    obtain ⟨ha, hr⟩ := List.pairwise_cons.mp h
    rw [List.foldr_cons, ih hr]
    cases r with
    | nil => rfl
    | cons b r => rw [insertBy, if_pos (Nat.le_of_lt (ha (key b) (by simp)))]

/-- Threads that all trap with one code park together: one record, its ADDR and AUX those of the first (R374). -/
theorem finish_trap (s : State) (w : Who) (f : Nat → TrapInfo) (c : BitVec 8) (hne : w.tids ≠ [])
    (ht : w.tids.Pairwise (· < ·)) (hc : ∀ i ∈ w.tids, (f i).code = c) :
    finish s w (w.tids.map (fun t => (t, .trap (f t)))) = (s.dated w).park w.cell.uid w.u w.tids (f w.lead) w.pc := by
  unfold finish
  have hg : goingOf w.pc (w.tids.map (fun t => (t, LaneOut.trap (f t)))) = [] := by
    unfold goingOf; rw [List.filterMap_map]; exact filterMap_none (fun _ _ => rfl)
  dsimp only
  rw [hg]
  have hs : ∀ (l : List Nat) (m : Nat) (s0 : State),
      (l.map (fun t => (t, LaneOut.trap (f t)))).foldl (fun s' o => s'.stay w true m o) s0 = s0 := by
    intro l m
    induction l with
    | nil => intro s0; rfl
    | cons a r ih => intro s0; exact ih s0
  simp only [List.isEmpty_nil, List.foldl_nil, hs]
  have hcodes : ((w.tids.map (fun t => (t, LaneOut.trap (f t)))).filterMap (fun o => o.2.code?)) = List.replicate w.tids.length c := by
    rw [List.filterMap_map]
    have : ∀ l : List Nat, (∀ i ∈ l, (f i).code = c) →
        l.filterMap ((fun o : Nat × LaneOut => o.2.code?) ∘ fun t => (t, LaneOut.trap (f t))) = List.replicate l.length c := by
      intro l
      induction l with
      | nil => intro _; rfl
      | cons a r ih =>
        intro h
        rw [List.filterMap_cons_some (b := c) (by show some (f a).code = some c; rw [h a (by simp)]), ih (fun i hi => h i (by simp [hi]))]
        rfl
    exact this _ hc
  unfold parkAll
  rw [hcodes, List.replicate_dedup (by cases h : w.tids with | nil => exact absurd h hne | cons a r => simp)]
  have hfil : (w.tids.map (fun t => (t, LaneOut.trap (f t)))).filter (fun o => o.2.code? == some c)
      = w.tids.map (fun t => (t, LaneOut.trap (f t))) := by
    apply List.filter_eq_self.mpr
    intro a ha
    obtain ⟨i, hi, rfl⟩ := List.mem_map.mp ha
    show (some (f i).code == some c) = true
    rw [hc i hi]; simp
  have hsort : sortBy (·.1) (w.tids.map (fun t => (t, LaneOut.trap (f t)))) = w.tids.map (fun t => (t, LaneOut.trap (f t))) :=
    sortBy_rising _ _ (by rw [List.map_map]; simpa [Function.comp_def] using ht)
  simp only [List.foldl_cons, List.foldl_nil, hfil, hsort]
  match htids : w.tids, hne with
  | t :: r, _ =>
    simp only [List.map_cons, List.map_map]
    have hmap : r.map ((fun x : Nat × LaneOut => x.1) ∘ fun t => (t, LaneOut.trap (f t))) = r := by
      rw [show ((fun x : Nat × LaneOut => x.1) ∘ fun t => (t, LaneOut.trap (f t))) = id from rfl, List.map_id]
    rw [hmap]
    unfold Who.lead
    rw [htids]
    rfl

end Sys2Proof.Machine
end

