-- ==== Sys2Proof/Tests/Slice0.lean ====
section
/-! SUPPORT. Tests of the model: ill-formed terms, words of the spec, small steps with values of the spec, and for each claim a state
that meets its hypotheses. -/

namespace Sys2Proof.Tests
open Machine
/- One theorem at a time: each has a thread with a large stack of its own. -/
set_option Elab.async false

/-! ## A small machine -/

/-- Values at keys. -/
def store {w : Nat} (l : List (Nat × BitVec w)) : Store w := l.foldl (fun r x => sset r x.1 x.2) []

/-- A cell of context 1 on cluster 0: a spine thread with its x registers, a crew of 32 with its k and v registers. -/
def cellWith (x k : List (Nat × W64)) (v : List (Nat × W32)) : Cell :=
  { placedCell false 0 with
    units := [UnitSt.fresh [placedThread 0] (store x) 0 0 0, UnitSt.fresh (List.replicate 32 (placedThread 0)) (store k) 0 0 0].map
      (fun u => { u with v := store v }) }

/-- The booted part with one context and one cell, whose unit `u` issues a word from threads `tids`. -/
def at' (c : Cell) (u : Nat) (tids : List Nat) (word : BitVec 32) : State :=
  { State.reset.withFetchWord 32 0x6D with cells := [c], fresh := 1, issue := ⟨1, u, tids, firstPc, word, 0, false, 0, none⟩ }

/-- The spine issues. -/
def onSpine (x : List (Nat × W64)) : State := at' (cellWith x [] []) 0 [0] 0x6D
/-- The whole crew issues. -/
def onCrew (k : List (Nat × W64)) (v : List (Nat × W32)) : State := at' (cellWith [] k v) 1 (List.range 32) 0x6D

/-- The state after an instruction. -/
def after (i : Instr) (s : State) : State := match exec i s with
  | .next t => t
  | _ => s

/-- The issue gets to its own work. -/
def rdy (s : State) (d : Who → Desc) : Bool := match s.who with
  | some w => ready s w (d w)
  | none => false

/-- The row of an instruction is ready. -/
def rowRdy (row : Who → Instr → Option Row) (i : Instr) (s : State) : Bool :=
  match s.who with
  | some w => match row w i with
    | some r => wellFormed i && ready s w r.1
    | none => false
  | none => false

/-! ## Small steps, with the values of the spec -/

/-- x register `n` of the spine after an instruction. -/
def xr (i : Instr) (x : List (Nat × W64)) (n : Nat) : W64 := (after i (onSpine x)).rreg 1 0 n
/-- v register `p` of thread `t` after an instruction of the whole crew. -/
def vr (i : Instr) (v : List (Nat × W32)) (p t : Nat) : W32 := (after i (onCrew [] v)).vreg 1 1 p t
/-- Sticky flags of the spine after an instruction. -/
def fl (i : Instr) (x : List (Nat × W64)) : BitVec 5 := (((after i (onSpine x)).unit 1 0).landed 1000)
/-- Trap code of a thread after an instruction. -/
def code (i : Instr) (s : State) (u t : Nat) : BitVec 8 := ((after i s).thread 1 u t).tcode
/-- PC of a thread after an instruction. -/
def pcOf (i : Instr) (s : State) (u t : Nat) : W64 := ((after i s).thread 1 u t).pc

/-- R225: the examples after the table, and a wrap at 64 bits. -/
theorem test_add : xr (.sub 3 2 1 3) [(1, 5), (2, 7)] 3 = 0 ∧ xr (.add 2 2 1 3) [(1, 0x7FFFFFFF), (2, 1)] 3 = 0x7FFFFFFF
    ∧ xr (.add 0 2 1 3) [(1, 0x7FFFFFFF), (2, 1)] 3 = 0x80000000 ∧ xr (.add 1 2 1 1) [(1, BitVec.allOnes 64), (2, 2)] 1 = 1 := by decide +kernel

/-- R226, R235: (2^32 - 1) * 2 modulo 2^32, and 5 * -1, by hand. -/
theorem test_mul : xr (.mul 0 2 1 3) [(1, 0xFFFFFFFF), (2, 2)] 3 = 0xFFFFFFFE ∧ xr (.muli 0x7FF 1 3) [(1, 5)] 3 = BitVec.ofInt 64 (-5) := by decide +kernel

/-- R65, R227: -7 / 2 is -3 with remainder -1; a divisor of 0; the minimum by -1. -/
theorem test_div : xr (.div 2 2 1 3) [(1, BitVec.ofInt 64 (-7)), (2, 2)] 3 = BitVec.ofInt 64 (-3)
    ∧ xr (.rem 2 2 1 3) [(1, BitVec.ofInt 64 (-7)), (2, 2)] 3 = BitVec.ofInt 64 (-1)
    ∧ xr (.div 3 2 1 3) [(1, 9)] 3 = BitVec.allOnes 64 ∧ xr (.rem 3 2 1 3) [(1, 9)] 3 = 9
    ∧ xr (.div 2 2 1 3) [(1, 0x8000000000000000), (2, BitVec.allOnes 64)] 3 = 0x8000000000000000 := by decide +kernel

/-- R231: the byte select after the table, an empty field put in, a field taken out with its sign. -/
theorem test_bits : xr (.bsel 2 1 3) [(1, 0x8877665544332211), (2, 0x40870400)] 3 = 0x00775511
    ∧ xr (.bfxS 2 1 3) [(1, 0x80), (2, 0x0107)] 3 = BitVec.allOnes 64 ∧ xr (.bfxN 2 1 3) [(1, 0x80), (2, 0x0107)] 3 = 1
    ∧ xr (.bfi 2 1 3) [(1, 0xF), (2, 0x0408), (3, 0)] 3 = 0xF00 ∧ xr (.brev 0 1 3) [(1, 1)] 3 = 0x80000000 ∧ xr (.clz 1 1 3) [(1, 1)] 3 = 63 := by decide +kernel

/-- R230: a shift by the width or more, and a rotation. -/
theorem test_shift : xr (.shl 1 2 1 3) [(1, 1), (2, 64)] 3 = 0 ∧ xr (.sar 0 2 1 3) [(1, 0x80000000), (2, 40)] 3 = 0xFFFFFFFF
    ∧ xr (.rol 0 2 1 3) [(1, 0x80000001), (2, 1)] 3 = 3 := by decide +kernel

/-- R232, R233: a compare answers all ones; `sel` keys on the destination; a v destination compares at 32 bits. -/
theorem test_cmp_sel : xr (.cmp 0 2 1 3) [(1, 4), (2, 4)] 3 = BitVec.allOnes 64 ∧ xr (.sel 2 1 3) [(1, 4), (2, 5), (3, 1)] 3 = 4
    ∧ xr (.sel 2 1 3) [(1, 4), (2, 5)] 3 = 5 ∧ vr (.cmpi 2 16 121 2) [] 2 15 = 0xFFFFFFFF ∧ vr (.cmpi 2 16 121 2) [] 2 16 = 0 := by decide +kernel

/-- R237: the constant of the text, and the sign of `mvl`. -/
theorem test_constants : vr (.mvl 0x1678 5) [] 5 0 = 0x1678 ∧ vr (.mvh 0x48D1 5) [(regV 5 0, 0x1678)] 5 0 = 0x12345678
    ∧ xr (.mvl 0x3FFFF 4) [] 4 = BitVec.allOnes 64 ∧ xr (.mvh 0xFE00 25) [] 25 = 0x3F800000 := by decide +kernel

/-- R238: the example of the text. -/
theorem test_dot4 : xr (.dot4 0 2 1 3) [(1, 0xFF020301), (2, 0x04050607), (3, 10)] 3 = 41 := by decide +kernel

/-- R239: the words of the text. -/
theorem test_rng : xr (.rng 0 2 1 4) [] 4 = 0x6627E8D5 ∧ xr (.rng 3 2 1 4) [] 4 = 0x9B00DBD8 := by decide +kernel

/-- R261: the table of 1.0 + 2^-24, and its flag. -/
theorem test_fadd_modes : xr (.fadd 0 0 2 1 3) [(1, 0x3F800000), (2, 0x33800000)] 3 = 0x3F800000 ∧ xr (.fadd 1 0 2 1 3) [(1, 0x3F800000), (2, 0x33800000)] 3 = 0x3F800000
    ∧ xr (.fadd 2 0 2 1 3) [(1, 0x3F800000), (2, 0x33800000)] 3 = 0x3F800000 ∧ xr (.fadd 3 0 2 1 3) [(1, 0x3F800000), (2, 0x33800000)] 3 = 0x3F800001
    ∧ fl (.fadd 0 0 2 1 3) [(1, 0x3F800000), (2, 0x33800000)] = flNX := by decide +kernel

/-- R262: +0 and -0. -/
theorem test_fmin : xr (.fmin 0 0 2 1 3) [(2, 0x80000000)] 3 = 0x80000000 ∧ xr (.fmax 0 0 2 1 3) [(2, 0x80000000)] 3 = 0 := by decide +kernel

/-- R267: the example of the text. -/
theorem test_fdot2 : vr (.fdot2 0 1 2 1 3) [(regV 1 0, 0xBFC04040), (regV 2 0, 0x40003F00), (regV 3 0, 0x3FA00000)] 3 0 = 0xBE800000 := by decide +kernel

/-- R268: 1.5 scaled by -149 under rne and rtz, and by -130. -/
theorem test_fscale : xr (.fscale 0 0 2 1 3) [(1, 0x3FC00000), (2, BitVec.ofInt 64 (-149))] 3 = 2 ∧ xr (.fscale 1 0 2 1 3) [(1, 0x3FC00000), (2, BitVec.ofInt 64 (-149))] 3 = 1
    ∧ fl (.fscale 0 0 2 1 3) [(1, 0x3FC00000), (2, BitVec.ofInt 64 (-149))] = flUF ||| flNX
    ∧ xr (.fscale 0 0 2 1 3) [(1, 0x3FC00000), (2, BitVec.ofInt 64 (-130))] 3 = 0x000C0000 ∧ fl (.fscale 0 0 2 1 3) [(1, 0x3FC00000), (2, BitVec.ofInt 64 (-130))] = 0 := by
  decide +kernel

/-- R269: the example of the text. -/
theorem test_fclass : xr (.fclass 3 1 3) [(1, 0x7F800001)] 3 = 0x02000080 := by decide +kernel

/-- R272: the table of conversions to integers. -/
theorem test_cvti : xr (.cvti 0 0 1 3) [(1, 0x40200000)] 3 = 2 ∧ xr (.cvti 0 0 1 3) [(1, 0xC0200000)] 3 = BitVec.ofInt 64 (-2)
    ∧ xr (.cvti 1 1 1 3) [(1, 0xBF400000)] 3 = 0 ∧ fl (.cvti 1 1 1 3) [(1, 0xBF400000)] = flNX ∧ fl (.cvti 0 1 1 3) [(1, 0xBF800000)] = flNV
    ∧ xr (.cvti 0 0 1 3) [(1, 0x4F32D05E)] 3 = 0x7FFFFFFF ∧ xr (.cvti 0 1 1 3) [(1, 0x4F32D05E)] 3 = 0xB2D05E00
    ∧ xr (.cvti 0 0 1 3) [(1, 0xFF800000)] 3 = 0xFFFFFFFF80000000 ∧ fl (.cvti 0 2 1 3) [(1, 0x7FC00000)] = flNV := by decide +kernel

/-- R273: 2^32 - 1 under rtz and rne. -/
theorem test_cvtf : xr (.cvtf 1 1 1 3) [(1, 0xFFFFFFFF)] 3 = 0x4F7FFFFF ∧ xr (.cvtf 0 1 1 3) [(1, 0xFFFFFFFF)] 3 = 0x4F800000 := by decide +kernel

/-- R70, R73, R260: 1 / 0 is infinity with DZ; the root of -1 is the canonical NaN with NV; 0 times infinity in `ffma`. -/
theorem test_float_specials : xr (.fdiv 0 0 2 1 3) [(1, 0x3F800000)] 3 = 0x7F800000 ∧ fl (.fdiv 0 0 2 1 3) [(1, 0x3F800000)] = flDZ
    ∧ xr (.fsqrt 0 0 1 3) [(1, 0xBF800000)] 3 = 0x7FC00000 ∧ xr (.fsqrt 0 0 1 3) [(1, 0x40800000)] 3 = 0x40000000
    ∧ fl (.ffma 0 0 2 1 3) [(1, 0x7F800000), (3, 0x7FC00000)] = flNV := by decide +kernel

/-- R83-R86: the scale byte 0x4C of the text and the four rows of its table, with LIN8 active. -/
theorem test_quantise : vr (.qscl 1 2) [(regV 1 7, 0x40400000)] 2 0 = 0x4C
    ∧ vr (.qenc 1 2) [(regV 1 0, 0x3F800000), (regV 1 1, 0xC0400000), (regV 1 2, 0x40400000), (regV 1 3, 0x3C400000), (regV 2 0, 0x4C)] 2 31 = 128 := by
  decide +kernel

/-- R245: thread 4 is not in the bundle; `lanex.rot.w32` and `lanex.mirror.w16`. -/
theorem test_lanex :
    let s := at' (cellWith [] [] ((List.range 32).map (fun t => (regV 1 t, 1)) ++ (List.range 32).map (fun t => (regV 4 t, BitVec.ofNat 32 (10 * t))))) 1
      ((List.range 32).filter (· != 4)) 0x502102E8
    [0, 1, 2, 3, 5, 6, 7, 31].map (fun t => ((after (.lanex 1 1 1 4 5) s).vreg 1 1 5 t).toNat) = [10, 20, 30, 0, 60, 70, 80, 0]
      ∧ ((after (.lanex 0 2 0 4 5) s).vreg 1 1 5 3, (after (.lanex 0 2 0 4 5) s).vreg 1 1 5 11) = (120, 0) := by decide +kernel

/-- R246-R248: the sum of the thread numbers to a k register, an exclusive scan, the lowest lane, and a named lane. -/
theorem test_crew_sums : (after (.crdu 0 121 88) (onCrew [] [])).rreg 1 1 0 = 496 ∧ vr (.scan 1 0 121 2) [] 2 3 = 3 ∧ vr (.rfirst 121 2) [] 2 9 = 0
    ∧ vr (.rdlane 3 121 2) [(regV 3 0, 7)] 2 9 = 7 := by decide +kernel

/-- R244: votes over the crew. -/
theorem test_poll : vr (.poll 0 3 2) [(regV 3 4, 1)] 2 0 = 0xFFFFFFFF ∧ vr (.poll 1 3 2) [(regV 3 4, 1)] 2 0 = 0
    ∧ (after (.poll 2 121 90) (onCrew [] [])).rreg 1 1 2 = 0xFFFFFFFE := by decide +kernel

/-- R198, R240, R241: a taken branch, the link of a call from word 7 of a block, and a target on word 0 of a block. -/
theorem test_control : pcOf (.br 3 1) (onSpine [(1, 1)]) 0 0 = firstPc + 12 ∧ pcOf (.br 3 1) (onSpine []) 0 0 = firstPc + 4
    ∧ pcOf (.brz 3 1) (onSpine []) 0 0 = firstPc + 12 ∧ xr (.call 3 1) [] 1 = firstPc + 4 ∧ code (.jmp 0x1FFFFFF) (onSpine []) 0 0 = tTarget
    ∧ pcOf (.jr 1) (onSpine [(1, 0x40028)]) 0 0 = 0x40028 := by decide +kernel

/-- R242, R243: `meet` sets MR, `meetr.set` with all ones takes it away, and a bad target traps. -/
theorem test_meet : ((after (.meet 3) (onCrew [] [])).thread 1 1 5).mr = some (firstPc + 12) ∧ code (.meet 7) (onCrew [] []) 1 5 = tTarget
    ∧ ((after (.meetrSet 127) (onCrew [] [])).thread 1 1 5).mr = none ∧ ((after (.meet 1) (onCrew [] [])).thread 1 1 5).st = .held := by decide +kernel

/-- R252-R254: `exit`, `brk` and `trap`; `bar` waits with kind 1, and on the spine an id below 8 is illegal. -/
theorem test_thread_ends : ((after .exit (onSpine [])).thread 1 0 0).st = .exited ∧ code .brk (onSpine []) 0 0 = tBreak ∧ code (.trap 1) (onSpine [(1, 9)]) 0 0 = tUser
    ∧ ((after (.bar 9) (onSpine [])).thread 1 0 0).wkind = 1 ∧ code (.bar 3) (onSpine []) 0 0 = tIllegal := by decide +kernel

/-- R249, R275: bases in and out of range, and a code book that leaves the allocation. -/
theorem test_windows : ((after (.wbase 136 120) (onCrew [] [])).unit 1 1).wb = 136 ∧ code (.wbase 4 120) (onCrew [] []) 1 0 = tWindow
    ∧ ((after (.cview 56 120) (onCrew [] [])).unit 1 1).cvb = 56 ∧ code (.cview 64 120) (onCrew [] []) 1 0 = tWindow
    ∧ ((after (.qcb 1 88) (onCrew [] [])).unit 1 1).book = 1 ∧ code (.qcb 3 88) (onCrew [(0, 65536)] []) 1 0 = tBasin := by decide +kernel

/-- R256: the selectors TID and CREW of a crew, and the launch's cell count. -/
theorem test_rdsp : (after (.rdsp 0 7 0 88) (onCrew [] [])).rreg 1 1 0 = 0 ∧ xr (.rdsp 0 7 0 3) [] 3 = BitVec.allOnes 64 := by decide +kernel

/-- R94, R280, R284, R285: what `st` puts into the basin `ld` reads back, extended by its form; the last byte of the allocation; one beyond it. -/
theorem test_basin : (after (.st 1 4 0 1 3) (onSpine [(1, 64), (3, 0x11228384)])).readBasin (cellWith [] [] []) 64 4 = [0x84, 0x83, 0x22, 0x11]
    ∧ (let s := (after (.sti 1 2 32 1 3) (onSpine [(1, 0), (3, 0x8384)]))
       s.readBasin (cellWith [] [] []) 64 2 = [0x84, 0x83]
        ∧ (after (.ld 1 3 0 5 4) { s with cells := [cellWith [(5, 64)] [] []] }).rreg 1 0 4 = 0xFFFFFFFFFFFF8384
        ∧ (after (.ldi 1 2 32 0 4) { s with cells := [cellWith [] [] []] }).rreg 1 0 4 = 0x8384)
    ∧ code (.ld 1 0 0 1 3) (onSpine [(1, 65536)]) 0 0 = tBasin ∧ code (.ld 1 4 0 1 3) (onSpine [(1, 2)]) 0 0 = tMisaligned
    ∧ code (.ld 1 0 0 1 3) (onSpine [(1, 65535)]) 0 0 = 0 := by decide +kernel

/-- R99, R288, R293-R295: `stf` fills, `ldf.clr` empties, an empty granule blocks; compare-and-swap; `fe.query`. -/
theorem test_full_empty :
    let c := cellWith [(1, 32), (3, 5), (2, 3)] [] []
    let s := after (.stf 0 0 1 3) (at' c 0 [0] 0x6D)
    let t := { s with cells := [c] }
    s.fe c 32 = true ∧ (after (.ldf 0 1 0 1 4) t).fe c 32 = false ∧ (after (.ldf 0 1 0 1 4) t).rreg 1 0 4 = 5
      ∧ ((after (.ldf 0 1 0 1 4) (at' c 0 [0] 0x6D)).thread 1 0 0).wkind = 5
      ∧ (after (.feQuery 2 1 4) t).rreg 1 0 4 = 1 ∧ (after (.feSet 2 1) (at' c 0 [0] 0x6D)).fe c 64 = true
      ∧ (after (.atomb 11 2 1 3) t).readBasin c 32 4 = [3, 0, 0, 0] := by decide +kernel

/-- R20, R374, R380: the record of the example: threads 9 and 20 of crew 2 trap with MISALIGNED. -/
theorem test_trap_record :
    let c : Cell := { cellWith [] [] [] with ctx := 0xA5, tag := 0x13, index := 7, cl := 3
                                             units := List.replicate 4 (UnitSt.fresh (List.replicate 32 (placedThread 0)) [] 0 0 0) }
    let s : State := { onSpine [] with cells := [c], clk := 480000 }
    trapWords s c 3 [9, 20] ⟨tMisaligned, 0x1000000025, 4⟩ 0x4000000128 = [0x000000A50302000A, 0x0000130200000007, 0x0000004000000128, 0x0000001000000025,
      4, 0x0000000000100200, 0, 0x00000000000493E0] := by decide +kernel

/-! ## Words of the spec -/

/-- Every word decodes to its instruction. -/
def reads (l : List (BitVec 32 × Instr)) : Bool := l.all (fun x => decide (decodeWord x.1 = .ok x.2))

/-- OP 0x00-0x0F of the opcode tables (R209-R212): one word of every row, with B 3, A 4, D 6 and F 2 where the row has them. -/
theorem test_decode_arithmetic : reads [
    (0x20610301, .add 2 3 4 6), (0x20610302, .sub 2 3 4 6), (0x20610303, .mul 2 3 4 6), (0x20610304, .mad 2 3 4 6)
    , (0x20610305, .div 2 3 4 6), (0x60610305, .rem 2 3 4 6), (0x50610306, .min 1 1 3 4 6), (0x70610306, .max 1 1 3 4 6)
    , (0x00610307, .and 3 4 6), (0x10610307, .or 3 4 6), (0x20610307, .xor 3 4 6), (0x30610307, .andn 3 4 6), (0x40610307, .orn 3 4 6)
    , (0x50610307, .xnor 3 4 6), (0x60010307, .not 4 6), (0x40610308, .shl 1 3 4 6), (0x50610308, .shr 1 3 4 6)
    , (0x60610308, .sar 1 3 4 6), (0x70610308, .rol 1 3 4 6), (0x80010309, .popc 1 4 6), (0x90010309, .clz 1 4 6)
    , (0xA0010309, .ctz 1 4 6), (0xB0010309, .brev 1 4 6), (0x40610309, .bfxS 3 4 6), (0x50610309, .bfxN 3 4 6)
    , (0x60610309, .bfi 3 4 6), (0x70610309, .bsel 3 4 6), (0x1061030A, .cmp 1 3 4 6), (0x0061030B, .sel 3 4 6), (0x0001030C, .mov 4 6)
    , (0x1001030C, .movPair 4 6), (0x2001030C, .sxb 4 6), (0x3001030C, .sxh 4 6), (0x4001030C, .zxb 4 6), (0x5001030C, .zxh 4 6)
    , (0x6001030C, .sxw 4 6), (0x7001030C, .zxw 4 6), (0x1061030D, .lea 1 3 4 6)] = true := by
  decide +kernel

/-- OP 0x10-0x1F of the opcode tables (R209-R212): one word of every row, with B 3, A 4, D 6 and F 2 where the row has them. -/
theorem test_decode_immediate : reads [
    (0x02A10310, .addi 21 4 6), (0x02A10311, .andi 21 4 6), (0x02A10312, .ori 21 4 6), (0x02A10313, .xori 21 4 6)
    , (0x00210314, .shli 1 4 6), (0x00210315, .shri 1 4 6), (0x00210316, .sari 1 4 6), (0x10210317, .cmpi 1 1 4 6)
    , (0x00054318, .mvl 21 6), (0x00054319, .mvh 21 6), (0x02A1031A, .muli 21 4 6)] = true := by
  decide +kernel

/-- OP 0x20-0x2F of the opcode tables (R209-R212): one word of every row, with B 3, A 4, D 6 and F 2 where the row has them. -/
theorem test_decode_float : reads [
    (0x50610320, .fadd 1 1 3 4 6), (0x50610321, .fsub 1 1 3 4 6), (0x50610322, .fmul 1 1 3 4 6), (0x50610323, .ffma 1 1 3 4 6)
    , (0x50610324, .fmin 1 1 3 4 6), (0x50610325, .fmax 1 1 3 4 6), (0x90610326, .fcmp 1 1 3 4 6), (0x10010327, .fabs 1 4 6)
    , (0x50010327, .fneg 1 4 6), (0x90610327, .fcpys 1 3 4 6), (0x50610328, .fdiv 1 1 3 4 6), (0x50010329, .fsqrt 1 1 4 6)
    , (0x0001032A, .rcp 4 6), (0x1001032A, .rsqrt 4 6), (0x2001032A, .exp2 4 6), (0x3001032A, .log2 4 6), (0x4001032A, .sin 4 6)
    , (0x5001032A, .cos 4 6), (0x6001032A, .tanh 4 6), (0x4061032B, .fdot2 1 0 3 4 6), (0x5061032C, .fscale 1 1 3 4 6)
    , (0x1001032D, .fclass 1 4 6)] = true := by
  decide +kernel

/-- OP 0x30-0x3F of the opcode tables (R209-R212): one word of every row, with B 3, A 4, D 6 and F 2 where the row has them. -/
theorem test_decode_convert : reads [
    (0x40610330, .cvtF16 1 3 4 6), (0x50610330, .cvtBf16 1 3 4 6), (0x60010330, .cvtF32 1 4 6), (0x40010331, .cvtwF16 1 4 6)
    , (0x50010331, .cvtwBf16 1 4 6), (0x20010331, .cvtwF64 4 6), (0x50010332, .cvti 1 1 4 6), (0x50010333, .cvtid 1 1 4 6)
    , (0x50010334, .cvtf 1 1 4 6), (0x50010335, .cvtfd 1 1 4 6), (0x00010336, .qscl 4 6), (0x00010337, .qenc 4 6)
    , (0x00610338, .qdec 3 4 6), (0x00000039, .qcbLin8), (0x20010039, .qcb 2 4), (0x1061033A, .rng 1 3 4 6), (0x2061033B, .dot4 2 3 4 6)] = true := by
  decide +kernel

/-- OP 0x40-0x4F of the opcode tables (R209-R212): one word of every row, with B 3, A 4, D 6 and F 2 where the row has them. -/
theorem test_decode_memory : reads [
    (0xA0610340, .ld 1 2 3 4 6), (0xA0210341, .ldi 1 2 1 4 6), (0xA0610342, .st 1 2 3 4 6), (0xA0210343, .sti 1 2 1 4 6)
    , (0x90610344, .lda 1 1 3 4 6), (0x90610345, .stl 1 1 3 4 6), (0x20610346, .atom 2 3 4 6), (0x20610347, .atomb 2 3 4 6)
    , (0x00200048, .lwait 1), (0x00000049, .lclose), (0x10A0004A, .fence 1 1 1), (0x1061004B, .pf 1 3 4)] = true := by
  decide +kernel

/-- OP 0x50-0x5F of the opcode tables (R209-R212): one word of every row, with B 3, A 4, D 6 and F 2 where the row has them. -/
theorem test_decode_shared : reads [
    (0x30610350, .ldf 1 1 3 4 6), (0x20610351, .stf 1 3 4 6), (0x00610352, .feQuery 3 4 6), (0x10610052, .feSet 3 4)
    , (0x20610052, .feClr 3 4), (0x20010353, .cwr 2 4 6), (0x20610354, .cwrt 2 3 4 6), (0x00010355, .cgath 4 6), (0x00010356, .ccfg 4 6)
    , (0x00610357, .cpeek 3 4 6), (0x00000358, .cdrn 6), (0x02A10059, .cview 21 4), (0x0061035A, .stand 3 4 6), (0x0001005B, .unstand 4)
    , (0x1001005B, .unstandWait 4), (0x0001005C, .rseal 4), (0x0001005D, .rdropShed 4), (0x1001005D, .rdropRetire 4)
    , (0x0001005E, .rpin 4), (0x1001005E, .rpinUnpin 4), (0x0001035F, .rsta 4 6)] = true := by
  decide +kernel

/-- OP 0x60-0x6F of the opcode tables (R209-R212): one word of every row, with B 3, A 4, D 6 and F 2 where the row has them. -/
theorem test_decode_control : reads [
    (0x000540E0, .br 21 1), (0x000540E1, .brz 21 1), (0x00000AE2, .jmp 21), (0x000540E3, .call 21 1), (0x00010064, .jr 4)
    , (0x10010064, .ret 4), (0x00054065, .meet 21), (0x00010066, .meetrSet 4), (0x10000066, .meetrClr), (0x20000366, .meetrRd 6)
    , (0x20010367, .poll 2 4 6), (0x50610368, .lanex 1 1 3 4 6), (0x20010369, .crdu 2 4 6), (0xA001036A, .scan 1 2 4 6)
    , (0x0020006B, .bar 1), (0x02A1006C, .wbase 21 4), (0x0000006D, .nop), (0x1000006D, .exit), (0x2000006D, .yield), (0x3000006D, .brk)
    , (0x4001006D, .trap 4), (0x5001036D, .rfirst 4 6), (0x6061036D, .rdlane 3 4 6), (0x8261036E, .rdsp 1 19 4 6)] = true := by
  decide +kernel

/-- OP 0x70-0x7F of the opcode tables (R209-R212): one word of every row, with B 3, A 4, D 6 and F 2 where the row has them. -/
theorem test_decode_system : reads [
    (0x50010070, .cpy 1 1 4), (0x00610071, .rginit 3 4), (0x00010372, .rgwait 4 6), (0x00010073, .rgrel 4)
    , (0x00010374, .rgadvClaim 4 6), (0x10010074, .rgadvPub 4), (0x00010075, .mxld 4), (0x00010076, .mxrun 4), (0x00000377, .mxq 6)
    , (0x00610078, .emitPlain 3 4), (0x10610078, .emitKeyed 3 4), (0x20610078, .emitRemote 3 4), (0x00010079, .tbinFlush 4)
    , (0x10010379, .tbinQuery 4 6), (0x20C1037A, .rdsys 262 4 6), (0x20C1037B, .wrsys 262 4 6), (0x0061007C, .sysopRestart 3 4)
    , (0x1061007C, .sysopSkip 3 4), (0x2061007C, .sysopKill 3 4), (0x3061007C, .sysopTlbinv 3 4), (0x4061007C, .sysopWbrange 3 4)
    , (0x5061007C, .sysopInvrange 3 4), (0x6001007C, .sysopKillcell 4), (0x0000037D, .drawReq 6), (0x1000007D, .drawRel)] = true := by
  decide +kernel

/-- The worked encodings of chapters 8 to 15 of the spec: integer, control and crew words; floats and conversions; memory; engines. -/
theorem test_worked_words : reads [
    (0x20404181, .add 2 2 1 3), (0x221E4117, .cmpi 2 16 121 2), (0xFFFFEE18, .mvl 0x3FFFF 92), (0x502102E8, .lanex 1 1 1 4 5), (0x30012C69, .crdu 3 4 88)
    , (0x20000466, .meetrRd 8), (0x00020066, .meetrSet 8), (0x0060006B, .bar 3), (0x2000006D, .yield), (0x8000036E, .rdsp 1 0 0 6)
    , (0x0000006D, .nop), (0x1000006D, .exit), (0x005E4094, .shli 2 121 1), (0x3F800319, .mvh 0xFE00 6), (0x00810323, .ffma 0 0 4 4 6)
    , (0x90C10120, .fadd 2 1 6 4 2), (0x704041A5, .fmax 1 3 2 1 3), (0xA0C10426, .fcmp 1 2 6 4 8), (0x804041A7, .fcpys 0 2 1 3), (0x0000412A, .rcp 1 2)
    , (0x504042B0, .cvtBf16 1 2 1 5), (0x40012C32, .cvti 1 0 4 88), (0x10174039, .qcb 1 93), (0x00010437, .qenc 4 8), (0x42C50E26, .fcmp 0 4 22 20 28)] = true := by
  decide +kernel
theorem test_worked_words_memory : reads [
    (0xB03681C0, .ld 1 3 1 90 3), (0xD0810343, .sti 1 5 4 4 6), (0xA00082C5, .stl 1 2 0 2 5), (0xB0A08346, .atom 11 5 2 6)
    , (0x00F7BC47, .atomb 0 7 94 120), (0x5036C450, .ldf 2 1 1 91 8), (0x3001E1D3, .cwr 3 7 67), (0x00013AD5, .cgath 4 117), (0x0BD7055A, .stand 94 92 10)
    , (0x1017805B, .unstandWait 94), (0x1002405E, .rpinUnpin 9), (0x2140004A, .fence 2 2 2), (0x0003005C, .rseal 12), (0x0002805E, .rpin 10), (0x0002805D, .rdropShed 10)
    , (0x00028F5F, .rsta 10 30), (0x03A64E52, .feQuery 29 25 28), (0x00000048, .lwait 0), (0x00000049, .lclose), (0x503BEDC1, .ldi 0 5 1 111 91)] = true := by
  decide +kernel
theorem test_worked_words_engines : reads [
    (0x80170070, .cpy 2 0 92), (0x50020070, .cpy 1 1 8), (0x0BD68071, .rginit 94 90), (0x00170372, .rgwait 92 6), (0x00188073, .rgrel 98)
    , (0x10170074, .rgadvPub 92), (0x00170075, .mxld 92), (0x00180076, .mxrun 96), (0x00000177, .mxq 2), (0x1C988078, .emitKeyed 100 98), (0x101881F9, .tbinQuery 98 3)
    , (0x000002FD, .drawReq 5), (0x008001FA, .rdsys 4 0 3), (0x20E1807C, .sysopKill 7 6)] = true := by
  decide +kernel

/-- R207 and the tables: one word or command for every value that the tables leave out, which the check refuses. -/
theorem test_ill_formed : [Instr.mul 6 1 2 3, .cmp 10 1 2 3, .cmpi 10 1 2 3, .qcb 0 92, .ld 0 7 1 2 3, .ldi 0 7 1 2 3, .st 0 1 1 2 3, .st 0 3 1 2 3, .st 0 7 1 2 3, .sti 0 7 1 2 3
    , .lda 0 5 1 2 3, .stl 0 5 1 2 3, .fence 5 0 1, .fence 1 0 0, .ldf 3 0 1 2 3, .stf 3 1 2 3, .poll 6 1 2, .lanex 0 2 1 1 3, .crdu 14 1 88, .rdsp 0 22 0 3, .rdsp 0 0 1 3
    , .cpy 0 3 1, .rdsys 9 0 3, .rdsys 0x109 0 3, .wrsys 0x103 0 3, .wrsys 0x108 0 3, .wrsys 5 0 3
    , .launch 64, .copy 64 none, .wait 64 none, .signal 64, .commandComplete 64 0, .qtailWrite 64 0, .qbaseWrite 64 0, .qctlErrClear 64, .qctlHalt 64 true].all (fun i => !wellFormed i) = true := by
  decide +kernel

/-! ## A state that meets the hypotheses of each claim -/

/-- The issue has an issuer of which something holds. -/
def on (s : State) (p : Who → Bool) : Bool := match s.who with
  | some w => p w
  | none => false
/-- The issue gets to its own work, and something holds of it. -/
def rdyAnd (s : State) (d : Who → Desc) (p : Who → Bool) : Bool := on s (fun w => ready s w (d w) && p w)
/-- The first three letters of a decoder's answer: it refuses. -/
def refused (x : BitVec 32) : Bool := match decodeWord x with
  | .ok _ => false
  | .error _ => true
/-- The next step is the turn of a group to issue, of which something holds with the state it issues in. -/
def issuesFrom (s : State) (q : Turn → Cell → Context → State → Bool) : Bool :=
  s.pkg.powered && s.agenda.isEmpty && s.served.isEmpty && (s.phase == .turns) && (match s.turns.head? with
    | some (.start uid u tids pc p) => match s.cell? uid with
      | some c => match s.ctx? c.ctx with
        | some cx => q (.start uid u tids pc p) c cx (s.atTurn c u tids pc p)
        | none => false
      | none => false
    | _ => false)
/-- PC of the group whose turn it is. -/
def pcOfTurn : Turn → W64
  | .start _ _ _ pc _ => pc
  | _ => 0
/-- Unit of the group whose turn it is. -/
def unitOfTurn : Turn → Nat
  | .start _ u _ _ _ => u
  | _ => 0
/-- Threads of the group whose turn it is. -/
def tidsOfTurn : Turn → List Nat
  | .start _ _ tids _ _ => tids
  | _ => []
/-- The code of the group is at hand, and something holds of it. -/
def hasCode (g : Turn) (c : Cell) (cx : Context) (s : State) (q : State → Nat → Bool) : Bool :=
  match translate s cx c.cl (pcOfTurn g) .fetch with
  | (.ok key kid _ _, u) => !unreachable u.pkg key && !(u.line (key / 128)).poison && !u.flipping key cx.dev && !(u.line (key / 128)).maybeDirty
      && q (u.underKey (key / 128) kid) key
  | _ => false
/-- The part with one cell, whose spine stands at a word. -/
def withWord (w : Nat) : State := State.reset.withFetchWord 32 w
/-- A machine with a changed cell. -/
def mapCells (s : State) (f : Cell → Cell) : State := { s with cells := s.cells.map f }

theorem witness_SpecWordsDecode : ((0xFFFFFF80 : BitVec 32).extractLsb' 0 7).toNat = 0x00 ∧ ((0x7F : BitVec 32).extractLsb' 0 7).toNat = 0x7F := by decide +kernel

theorem witness_DecodeInvertsEncode : wellFormed (.add 3 127 0 127) = true ∧ encode (.add 3 127 0 127) = some 0x3FE03F81 := by decide +kernel

theorem witness_EncodeInvertsDecode : decodeWord 0x20404181 = .ok (.add 2 2 1 3) := by decide +kernel

theorem witness_StepKeepsMemoryWf : (withWord 0x6D).wf = true ∧ (match Machine.step (withWord 0x6D) with
    | .next t => t.wf
    | _ => false) = true := by decide +kernel

theorem witness_StepRunsDecoded : issuesFrom (withWord 0x20404181) (fun g c cx s => hasCode g c cx s (fun t key =>
    decide ((t.ctrlWord (pcOfTurn g) key).extractLsb' 29 3 = 0) && decide (decodeWord (t.codeWord c (pcOfTurn g) key) = .ok (.add 2 2 1 3)))) = true := by decide +kernel

/-- A dirty word of the spine's thread, 8 bytes at 0x50000. -/
def dirtyWord (seq : Nat) : StoreEnt :=
  ⟨seq, .plain, .dirty, 0, 0, 1, 0, 0, 1, 0x50000, keyDev 0 0x50000, 0, bytesOfNat 8 0x1122, 0, firstPc, 0, false, false, false, [], seq⟩
/-- A machine in a phase of a clk that is no fourth, with no power period to end. -/
def inPhase (ph : Phase) : State :=
  { withWord 0x6D with clk := 5, phase := ph, turns := [], pkg := { (withWord 0x6D).pkg with periodEnd := 10000 } }
/-- A spine thread blocked in a wait. -/
def waiting (kind : Nat) (obj : W64) (word : W32) : State := mapCells { inPhase .waits with due := [.thread 1 0 0], clk := 1 }
  (fun c => c.updUnit 0 (fun u => u.updThread 0 (fun t => { t with st := .blocked, wkind := kind, wobj := obj, word := some word })))
/-- The whole crew of 64 has had its first pass of `add`, on port 0. -/
def aRun : IssuePort :=
  ⟨0, 0, 0, 1, 1, firstPc, 0x20404181, 0, List.range 64, List.range' 32 32, 0, 7, 0, 0, [], 0, [], ⟨[], false, false⟩, (List.range 32).map (fun i => (i, .done)), none⟩
def inPasses : State := { inPhase .turns with clu := { Clusters.reset with ports := [aRun] }, turns := [.pass 0 0 0] }

/-- Each clause: an input; an event whose time has come, the device's choice, regrouping, the turns, their end, an event at the end of
the clk, the next clk; no power, with and without a reset to come; a wait that is over, of both kinds; a pass that goes on. -/
theorem witness_StepOrder :
    (isInput (.powerCapSet 1 2000) = true ∧ (withWord 0).pkg.powered = true ∧ hostReachable (withWord 0).pkg = true
      ∧ fromHost (.powerCapSet 1 2000) = true ∧ hostReachable { (withWord 0).pkg with booted := false } = false ∧ isInput .nop = false)
    ∧ (let s := { inPhase .device with clk := 3277, clu := { Clusters.reset with stores := [dirtyWord 0] } }
       s.tick1.timedEvents.find? s.tick1.wouldAct = some (.dirtyWordTimeout 0))
    ∧ (inPhase .device).tick1.timedEvents.find? (inPhase .device).tick1.wouldAct = none
    ∧ (let s := mapCells { inPhase .waits with clk := 4 } (fun c => c.updUnit 1 (fun u => { u with threads := u.threads.map (fun t => { t with st := .eligible, pc := firstPc, bun := 0 }) }))
       s.due = [] ∧ s.tick1.regroups.find? s.tick1.wouldAct = some (.bundleRegroup 0 0))
    ∧ ((inPhase .waits).tick1.regroups.find? (inPhase .waits).tick1.wouldAct = none ∧ (inPhase .waits).tick1.turnedAway = none)
    ∧ (inPhase .turns).turns = []
    ∧ (let s := mapCells (inPhase .rest) (fun c => { c with units := c.units.map (fun u => { u with threads := u.threads.map (fun t => { t with st := .exited }) }) })
       s.tick1.lastEvents.find? s.tick1.wouldAct = some (.cellEnd 1))
    ∧ ((inPhase .rest).tick1.lastEvents.find? (inPhase .rest).tick1.wouldAct = none ∧ (inPhase .rest).cells ≠ [])
    ∧ (isPowerOn (.powerOnReset true []) = true ∧ isPowerOn (.softError 0) = false)
    ∧ (let s := waiting 12 0 0x1C988078
       (s.running.find? (fun x => x.uid == 1)).isSome = true ∧ (({ s.tick1 with due := [] } : State).wakeGroup (s.cells.headD (placedCell false 0)) 0 0 false).isSome = true
        ∧ plainWake 12 = false ∧ decodeWord 0x1C988078 = .ok (.emitKeyed 100 98))
    ∧ [10, 11].all (fun k => let s := waiting k 64 0x1000005B
       (({ s.tick1 with due := [] } : State).wakeGroup (s.cells.headD (placedCell false 0)) 0 0 false).isSome && plainWake k) = true
    ∧ inPasses.runAt 0 0 0 = some aRun := by decide +kernel

theorem witness_GeneralTraps :
    issuesFrom { withWord 0x6D with home := { (withWord 0x6D).home with mem := writeBytes (withWord 0x6D).home.mem (keyDev 0 0x40000) (bytesOfNat 4 0x20000000) } }
        (fun g c cx s => hasCode g c cx s (fun t key => decide ((t.ctrlWord (pcOfTurn g) key).extractLsb' 29 3 ≠ 0))) = true
    ∧ issuesFrom (withWord 0) (fun g c cx s => hasCode g c cx s (fun t key => decide ((t.ctrlWord (pcOfTurn g) key).extractLsb' 29 3 = 0)
        && refused (t.codeWord c (pcOfTurn g) key)
        && ((t.fetched c cx (unitOfTurn g) (tidsOfTurn g) (pcOfTurn g) (t.codeWord c (pcOfTurn g) key) (t.ctrlWord (pcOfTurn g) key)).who.map (·.run.isNone)) == some true)) = true
    ∧ issuesFrom { withWord 0x6D with turns := [.start 1 0 [0] 0x40000000 0] }
        (fun g c cx s => (translate s cx c.cl (pcOfTurn g) .fetch).1 == .trap tTranslation) = true
    ∧ on (onSpine []) (fun w => (Desc.bad { bad := true }) && w.spine && badDst w.spine 64 64 && badSrc w.spine 65 128
        && (uniformTrap w { priv := some 0x100 } == some ⟨tPrivilege, 0, 0x100⟩) && (uniformTrap w {}).isNone
        && (match rowOf w (.add 0 0 0 64) with
            | some r => (uniformTrap w r.1).isSome
            | none => false) && w.run.isNone) = true
    ∧ on (at' { cellWith [] [] [] with hdr := { placedHeader with fast := 8, ncis := 2 } } 1 [0, 31] 0x6D) (fun w =>
        [(({ rds := [(2, 64), (8, 32)] } : Desc), tWindow, (8 : W64)), ({ rds := [(113, 64), (114, 64)] }, tCistern, 2), ({ wr := some (88, 64) }, tKdiv, 0),
          ({ scalar := true }, tKdiv, 0)].all (fun x => uniformTrap w x.1 == some ⟨x.2.1, 0, x.2.2⟩)
          && !w.converged && allocated w.cell.hdr 7 && !allocated w.cell.hdr 8) = true
    ∧ on (at' ((cellWith [] [] []).updUnit 1 (fun u => { u with role := 3 })) 1 [0, 31] 0x6D) (fun w => !w.spine && (w.unit.role == 3)
        && (uniformTrap w { role := .copy } == some ⟨tRole, 0, 3⟩) && (uniformTrap w { role := .matrix } == some ⟨tRole, 0, 3⟩)) = true := by decide +kernel

/-- A crew under checking, with k register 3 not landed, and v registers 4 and 5 of every thread under a load. -/
def hazards : State :=
  let c := (cellWith [] [] []).updUnit 1 (fun u => { u with threads := u.threads.map (fun t => { t with blk := some (firstPc, true) }), pend := [⟨0, regK 3, 100, 100, 0, 0⟩, ⟨0, regV 9 4, 100, 100, 0, 0⟩] })
  let s := at' c 1 (List.range 32) 0x6D
  { s with sched := { s.sched with ctxs := [{ placedCtx with chk := true }] }
           clu := { s.clu with loads := (List.range 32).map (fun t => ⟨t, 1, 1, t, 0, .v 4, 8, false, 8, 0, keyDev 0 0x50000, 0, 0, 0, false, false, false, false, [], [], [], 0, 0, false, none⟩) } }
/-- A crew with a cistern that is empty and one that is free. -/
def cisterns : State := at' { cellWith [] [] [] with cis := modNth (fun c => { c with mode := .bcast }) 1 (List.replicate 64 Cistern.empty) } 1 (List.range 32) 0x6D

theorem witness_HazardTraps :
    on hazards (fun w => w.loadOn 31 (regV 5 31) && !w.loadOn 31 (regK 3) && !(w.flying (regK 3)).isEmpty
      && [(91, tStallShort), (4, tStale)].all (fun x => match rowOf w (.add 0 x.1 x.1 8) with
        | some r => (uniformTrap w r.1).isNone && !w.interlocked r.1 && w.tids.all (checking w)
            && w.tids.all (fun t => (threadTrap w r.1 (w.lastPass r.1) t).map (·.code) == some x.2)
        | none => false)
      && (match intRow w (.add 0 5 6 5) with
        | some r => (uniformTrap w r.1).isNone && !w.interlocked r.1 && !w.single r.1 && (w.cisSrcs r.1).isEmpty && w.run.isNone && w.oneClk r.1 && w.sound
            && (threadTrap w r.1 (w.lastPass r.1) 31).isSome
        | none => false)) = true
    ∧ on { hazards with clu := Clusters.reset } (fun w => match floatRow w (.fadd 0 0 6 7 9) with
        | some r => (uniformTrap w r.1).isNone && !w.interlocked r.1 && !w.single r.1 && (w.cisSrcs r.1).isEmpty
            && (w.regsOf 4 r.1.rds).all (fun q => !w.loadOn 4 q && (w.flying q).isEmpty) && (w.regsOf 4 r.1.dsts == [regV 9 4])
            && (w.flying (regV 9 4)).all (fun p => decide (w.lastPass r.1 + r.1.lat + 4 * w.slow r.1 < p.lands w.clk)) && !(w.flying (regV 9 4)).isEmpty
            && (threadTrap w r.1 (w.lastPass r.1) 4).isSome && (threadTrap w r.1 (w.lastPass r.1) 5).isNone && w.quiet 5 9 32
        | none => false) = true
    ∧ on cisterns (fun w => w.tids.all (fun t => !checking w t && (pendingTrap w t).isNone)
      && (match rowOf w (.add 0 112 112 8), rowOf w (.add 0 113 113 8) with
        | some r, some q => (uniformTrap w r.1).isNone && (w.cisTrap r.1 == some 0) && (w.cisTrap q.1).isNone && (w.cisEmpty q.1 == some 1) && !w.interlocked q.1
        | _, _ => false)) = true := by decide +kernel

/-- A tile at the base of a region of the context, 16 KiB. -/
def region : Region := { v := true, base := 0x1000000, table := 0x80000, zsel := 0, tiles := 2, cap := 16384 }
def tileAt (st : TileSt) (pin : BitVec 32) (owner : Option Nat) : Tile := ⟨1, 0x1000000, st, 0, pin, 0, owner, none, [0], [], []⟩
def withTile (s : State) (t : List Tile) : State :=
  { s with sched := { s.sched with ctxs := [{ placedCtx with regions := region :: List.replicate 15 {} }] }, home := { s.home with tiles := t } }

theorem witness_TrapEntryAndReturn :
    ((onCrew [] []).cell? 1).isSome = true ∧ (onCrew [] []).buildsOf 1 = [] ∧ ((onCrew [] []).ctx? 1).isSome = true
    ∧ ({ onCrew [] [] with sched := Sched.reset } : State).ctx? 1 = none
    ∧ (withTile (onSpine []) [tileAt .building 0 (some 1)]).buildsOf 1 = [tileAt .building 0 (some 1)]
    ∧ [TState.held, .blocked, .parked, .eligible, .exited].all (fun st => ({ placedThread 0 with st := st } : Thread).st == st) = true := by decide +kernel

/-- A crew of 64 whose whole bundle issues, and the state in which its next pass comes. -/
def wideCrew : State := at' { cellWith [] [] [] with hdr := { placedHeader with width := 64 }, units := [UnitSt.fresh [placedThread 0] [] 0 0 0, UnitSt.fresh (List.replicate 64 (placedThread 0)) [] 0 0 0] } 1 (List.range 64) 0x20404181
def nextPass (s : State) : State := match s.clu.ports with
  | r :: _ => s.setPass r
  | [] => s

theorem witness_InstructionEnds : rdy (onCrew [] []) (fun _ => {}) = true
    ∧ on (onCrew [] []) (fun w => (LaneOut.done.next? w.pc).isSome && ((LaneOut.jump 0x40008).next? w.pc).isSome && w.oneClk {}) = true
    ∧ on wideCrew (fun w => ready wideCrew w {} && !w.oneClk {}) = true
    ∧ [aRun, { aRun with left := 1 }].all (fun r => on (nextPass { wideCrew with clu := { wideCrew.clu with ports := [r] } }) (fun w =>
        (w.run == some r) && (match rowOf w (.add 2 2 1 3) with
          | some x => (uniformTrap w x.1).isNone && decide (w.passClks x.1 (r.rest.take 32) = 1)
          | none => false) && r.watch.isNone && r.outs.all (fun o => o.2 == .done) && (w.tids == List.range 64))) = true := by decide +kernel

theorem witness_IntegerResults : rowRdy intRow (.add 3 4 5 6) (onSpine [(4, 7)]) = true ∧ rowRdy intRow (.cmpi 2 16 121 127) (onCrew [] []) = false
    ∧ rowRdy intRow (.cmpi 2 16 121 87) (onCrew [] []) = true ∧ rowRdy intRow (.mvh 0 63) (onSpine []) = true := by decide +kernel

theorem witness_FloatResults : rowRdy floatRow (.fadd 3 0 4 5 6) (onSpine []) = true ∧ rowRdy floatRow (.cvtid 0 2 4 8) (onCrew [] []) = true := by decide +kernel

theorem witness_SpecialAndCrewResults : rowRdy (fun w i => specialRow w i) (.rcp 4 6) (onSpine []) = true ∧ rowRdy crewRow (.poll 0 3 2) (onCrew [] []) = true
    ∧ rowRdy crewRow (.crdu 0 121 88) (onCrew [] []) = true ∧ rowRdy crewRow (.meetrRd 8) (onCrew [] []) = true := by decide +kernel

theorem witness_SelectChooses : rdyAnd (onSpine [(1, 4), (2, 5), (3, 1)]) (fun w => { rds := [(1, w.dstWidth 3), (2, w.dstWidth 3), (3, w.dstWidth 3)], wr := some (3, w.dstWidth 3), lat := 4 })
      (fun w => w.quiet 0 3 64 && decide (w.src 0 3 64 ≠ 0)) = true
    ∧ rdyAnd (onCrew [] []) (fun w => { rds := [(1, w.dstWidth 3), (2, w.dstWidth 3), (3, w.dstWidth 3)], wr := some (3, w.dstWidth 3), lat := 4 })
      (fun w => w.quiet 31 3 32 && decide (w.src 31 3 32 = 0)) = true := by decide +kernel

theorem witness_DivisionValues : rdyAnd (onSpine [(1, 7)]) (fun _ => { rds := [(1, 64), (2, 64)], wr := some (3, 64), lat := 16 }) (fun w => w.quiet 0 3 64) = true
    ∧ rdy (onCrew [] []) (fun _ => { rds := [(1, 32), (2, 32)], wr := some (3, 32), lat := 12 }) = true
    ∧ ((0xFFFFFFFF00000000 : W64).setWidth 32 = (0 : W32)) ∧ ((0x1FFFFFFFF : W64).setWidth 32 = BitVec.allOnes 32)
    ∧ ((0x180000000 : W64).setWidth 32 = BitVec.intMin 32) := by decide +kernel

theorem witness_IntegerValues : (0 : W64).toNat % 256 < min ((0x2000 : W64).toNat % 256 + (0x2000 : W64).toNat / 256 % 256) 32 ∧ (List.replicate 128 (0 : W64)).length = 128 := by decide +kernel

theorem witness_RoundingIsCorrect : (-1 : Int) < 0 ∧ 2 * 3 = (2 * 1 + 1) * 2 ^ ((0 : Int) - -1).toNat := by decide

theorem witness_ExactValuesKept : 0x7C01 < 2 ^ f16.width ∧ isNan (unpack f16 0x7C01) = true ∧ isSnan (unpack f16 0x7C01) = true ∧ isNan (unpack f16 0x7C00) = false := by decide +kernel

theorem witness_SpecialOperands : isNan (.nan true) = true ∧ typeMax 0 < ((toQuantum .rne false 1 40 0).1 : Int) ∧ -((toQuantum .rne true 1 40 0).1 : Int) < typeMin 0
    ∧ (typeMin 1 ≤ ((toQuantum .rne false 1 (-1) 0).1 : Int) ∧ ((toQuantum .rne false 1 (-1) 0).1 : Int) ≤ typeMax 1) := by decide +kernel

theorem witness_CrewState : rdyAnd (onCrew [] []) (fun w => { side := .crew, rds := [(121, w.predWidth 121)], wr := some (88, 128), bad := !w.isK 88, lat := 6 }) (fun w => w.quiet w.lead 88 128) = true
    ∧ [((168 : Nat), (120 : BitVec 7)), (56, 120), (176, 120), (64, 120), (4, 120)].all (fun x => rdyAnd (onCrew [] []) (fun _ => { side := .crew, rds := [(x.2, 64)], scalar := true, lat := 2 })
        (fun w => (w.src w.lead x.2 64 + (BitVec.ofNat 11 x.1).signExtend 64).toNat == x.1)) = true
    ∧ rdy (onCrew [] []) (fun _ => { side := .crew, once := true }) = true
    ∧ [(0 : W64), 65504, 65520, 8].all (fun a => rdyAnd (onCrew [(0, a)] []) (fun _ => { side := .crew, rds := [(88, 32)], once := true, basin := true })
        (fun w => w.src w.lead 88 32 == a)) = true ∧ 65504 + 2 * 16 = (cellWith [] [] []).basinSize ∧ (cellWith [] [] []).basinSize < 65520 + 2 * 16 := by decide +kernel

theorem witness_ReadsSpecialValues : rdyAnd (onCrew [] []) (fun w => rdspDesc w 1 21 120 8) (fun w => w.quiet 31 8 64) = true ∧ rdy (onSpine []) (fun w => rdspDesc w 0 10 0 3) = true
    ∧ rdy (onSpine []) (fun w => rdspDesc w 0 19 0 3) = true := by decide +kernel

theorem witness_Branches : rdy (onSpine []) (fun _ => {}) = true ∧ rdy (onSpine []) (fun _ => { rds := [(1, 64)] }) = true
    ∧ rdyAnd (onCrew [] []) (fun w => { rds := [(1, match w.op 1 with | .v _ | .spec _ | .tid | .ones => 32 | _ => 64)] }) (fun w => w.op 1 == .v 1) = true
    ∧ rdyAnd (onSpine []) (fun _ => { wr := some (1, 64), lat := 4 }) (fun w => w.quiet 0 1 64 && (w.pc + 4 * (3 : BitVec 18).signExtend 64 == 0x40010)
        && ((w.pc + 4 * (7 : BitVec 18).signExtend 64).toNat / 4 % 8 == 0)) = true := by decide +kernel

theorem witness_MeetingRegisters : rdyAnd (onCrew [] []) (fun _ => { side := .crew }) (fun w => ((w.pc + 4 * (1 : BitVec 18).signExtend 64).toNat / 4 % 8 == 2)
        && ((w.pc + 4 * (7 : BitVec 18).signExtend 64).toNat / 4 % 8 == 0)) = true
    ∧ rdyAnd (onCrew [] []) (fun _ => { side := .crew, rds := [(127, 64)] }) (fun w => w.src 0 127 64 == BitVec.allOnes 64) = true
    ∧ rdyAnd (onCrew [(0, 0x40004)] []) (fun _ => { side := .crew, rds := [(88, 64)] }) (fun w => w.src 0 88 64 == 0x40004) = true
    ∧ rdyAnd (onCrew [(0, 0x40000)] []) (fun _ => { side := .crew, rds := [(88, 64)] }) (fun w => (w.src 31 88 64).toNat / 4 % 8 == 0) = true
    ∧ on (onSpine []) (fun w => w.u == 0) = true := by decide +kernel

/-- A cell of which only the spine has not ended. -/
def lastThread : State := at' { cellWith [] [] [] with units := [UnitSt.fresh [placedThread 0] [] 0 0 0, UnitSt.fresh (List.replicate 32 Thread.absent) [] 0 0 0] } 0 [0] 0x6D
/-- Threads whose release has begun, at an agent and a storage scope, with order number 1. -/
def begun (s : State) (u : Nat) (tids : List Nat) (scope : BitVec 3) (q : BitVec 2) : State :=
  mapCells s (fun c => c.updUnit u (fun x => tids.foldl (fun x t => x.updThread t (fun t => { t with stage := stageOf 1 scope q })) x))
/-- With a dirty word of the spine's thread. -/
def withDirty (s : State) : State := { s with clu := { s.clu with stores := [dirtyWord 0] } }
/-- The issue gets to its own work, with descriptions that look at the state. -/
def rdyS (s : State) (d : State → Who → Desc) (p : State → Who → Bool) : Bool := rdyAnd s (d s) (p s)
/-- The issue passes its general tests and waits for no interlock. -/
def triesS (s : State) (d : State → Who → Desc) (p : State → Who → Bool) : Bool :=
  on s (fun w => tested s w (d s w) && (d s w).wait && !w.wake && p s w)
/-- What `bar` and `exit` wait for. -/
def barDesc (i : BitVec 4) (s : State) (w : Who) : Desc := { bad := w.spine && decide (i.toNat < 8), settles := true, wait := !s.relsDone w 1 3 }
def exitDesc (_ : State) (_ : Who) : Desc := { settles := true }

theorem witness_ThreadControl : rdyAnd (onCrew [] []) (fun _ => {}) (fun w => !(onCrew [] []).cellRequested w.cell) = true
    ∧ (let s := onCrew [] []
       let t := { s with sched := { s.sched with items := [⟨1, 0, 1, .launch 1, 0, 0, (0, 0, 0), 0, false, [(0, 0, 0)], [], [], []⟩] } }
       rdyAnd t (fun _ => {}) (fun w => t.cellRequested w.cell)) = true
    ∧ rdyAnd (onSpine []) (fun _ => { rds := [(1, 64)] }) (fun _ => true) = true
    ∧ rdyS (onCrew [] []) exitDesc (fun s w => w.oneClk (exitDesc s w) && (((s.all w (exitDesc s w) .exit).dropExited 1).cell? 1).all
        (fun c => c.units.any (fun u => u.threads.any (fun x => x.st != .exited)))) = true
    ∧ rdyS { lastThread with cells := lastThread.cells.map (fun c => { c with subs := [⟨16, 0, .open, 0, 0, 0, 0x50000, keyDev 0 0x50000 / 16, false, false⟩] }) } exitDesc
        (fun s w => (((s.all w (exitDesc s w) .exit).dropExited 1).cell? 1).all
          (fun c => c.units.all (fun u => u.threads.all (fun x => x.st == .exited)) && c.subs.length == 1)) = true
    ∧ rdyS (onCrew [] []) (barDesc 0) (fun _ w => w.tids.length == 32) = true ∧ rdyS (begun (onSpine []) 0 [0] 1 3) (barDesc 8) (fun _ _ => true) = true
    ∧ triesS (withDirty (onSpine [])) (barDesc 8) (fun s w => !s.relsDone w 1 3) = true := by decide +kernel

/-- A crew held at one meeting point, and arrived at a barrier. -/
def meeting : Cell := (cellWith [] [] []).updUnit 1 (fun u => { u with threads := u.threads.map (fun t => { t with st := .held, mr := some firstPc }) })
def atBarrier : Cell :=
  let c := (cellWith [] [] []).updUnit 1 (fun u => { u with threads := u.threads.map (fun t => { t with st := .blocked, wkind := 1, wobj := 8 }) })
  let d := c.updUnit 0 (fun u => { u with threads := u.threads.map (fun t => { t with st := .blocked, wkind := 1, wobj := 8 }) })
  { d with bars := modNth (fun b => { b with arrived := (0, 0) :: (List.range 32).map (fun t => (1, t)) }) 8 d.bars }

theorem witness_ReleasesAndBundles : (meeting.unit 1).meets firstPc = true ∧ atBarrier.barDone 8 = true ∧ 8 < atBarrier.bars.length ∧ (onCrew [] []).clk % 4 = 0
    ∧ (onCrew [] []).inPass 1 1 0 = false := by decide +kernel

/-- The whole crew as issuers of a load or store; one thread of it; the spine. -/
def someCrew (tids : List Nat) (k : List (Nat × W64)) (v : List (Nat × W32)) : State := at' (cellWith [] k v) 1 tids 0x6D
/-- Values of a v register, one a thread. -/
def lanes (p : Nat) (f : Nat → W32) : List (Nat × W32) := (List.range 32).map (fun t => (regV p t, f t))
def isOk : Accept → Bool
  | .ok _ => true
  | _ => false
def isTrap : Accept → Bool
  | .trap _ => true
  | _ => false
/-- A page of the second GiB that only the host can serve. -/
def hostPage (s : State) : State := s.poke (keyDev 0 0x20008) (bytesOfNat 8 0x20)

/-- What comes before the own checks of a load and a store, by their registers. -/
def ldD (n : Nat) (a : BitVec 7) (b : Option (BitVec 7)) (d : BitVec 7) (bsn acq : Bool) (s : State) (w : Who) : Desc :=
  loadDesc s w n a b d bsn acq (fun t => w.src t a 64 + ((b.map (w.offset t)).getD 0))
def stD (n : Nat) (a : BitVec 7) (b : Option (BitVec 7)) (d : BitVec 7) (bsn rel : Bool) (_ : State) (w : Who) : Desc :=
  storeDesc w n a b d bsn rel (fun t => w.src t a 64 + ((b.map (w.offset t)).getD 0))
/-- A store of the spine's thread that is held back. -/
def heldBack (s : State) : State := { s with clu := { s.clu with stores := [{ dirtyWord 0 with kind := .marker 2 3, ph := .held, bytes := [] }] } }

theorem witness_BasinLoads :
    rdyS (onCrew [(0, 65536)] (lanes 1 (fun t => BitVec.ofNat 32 (2 ^ 32 - 4 * (t + 1))))) (ldD 4 88 (some 1) 2 true false)
        (fun s w => (w.actors (ldD 4 88 (some 1) 2 true false s w)).all (fun t => w.inBasin (w.src t 88 64 + w.offset t 1) 4 && w.clear t 2 4) && s.unitIdle w) = true
    ∧ rdyS (onSpine [(1, 0xFFF8)]) (ldD 8 1 none 3 true false) (fun s w => w.inBasin (w.src 0 1 64) 8 && s.unitIdle w) = true
    ∧ rdyS (onSpine [(1, 1)]) (ldD 2 1 (some 0) 3 true false) (fun _ w => decide ((w.src 0 1 64 + w.offset 0 0).toNat % 2 ≠ 0)) = true
    ∧ rdyS (onSpine [(1, 65536)]) (ldD 1 1 (some 0) 3 true false) (fun _ w => decide (w.cell.basinSize < (w.src 0 1 64 + w.offset 0 0).toNat + 1)) = true
    ∧ rdyS (onSpine [(1, 4)]) (stD 8 1 (some 0) 3 true false) (fun _ w => decide ((w.src 0 1 64 + w.offset 0 0).toNat % 8 ≠ 0)) = true
    ∧ rdyS (onSpine [(1, 65536)]) (stD 8 1 (some 0) 3 true false) (fun _ w => decide (w.cell.basinSize < (w.src 0 1 64 + w.offset 0 0).toNat + 8)) = true
    ∧ wellFormed (.st 1 5 0 1 3) = true := by decide +kernel

theorem witness_BasinStores :
    rdyS (onCrew [(0, 65536)] (lanes 1 (fun t => BitVec.ofNat 32 (2 ^ 32 - 4 * (t + 1))))) (stD 4 88 (some 1) 2 true false)
        (fun s w => (w.actors (stD 4 88 (some 1) 2 true false s w)).all (fun t => w.inBasin (w.src t 88 64 + w.offset t 1) 4) && s.unitIdle w) = true
    ∧ rdyS (onSpine [(1, 0)]) (stD 1 1 none 3 true false) (fun _ w => w.inBasin (w.src 0 1 64) 1) = true
    ∧ rdyS (onSpine [(1, 65520)]) (stD 16 1 (some 0) 2 true true) (fun s w => w.inBasin (w.src 0 1 64 + w.offset 0 0) 16 && s.unitIdle w) = true
    ∧ rdyS (heldBack (onSpine [(1, 0)])) (stD 4 1 none 3 true false) (fun s w => (w.actors (stD 4 1 none 3 true false s w) == [0]) && w.inBasin (w.src 0 1 64) 4
        && s.basinWaits w 0 ((stD 4 1 none 3 true false s w).scalar && !w.spine) .plain (w.src 0 1 64) (w.data 0 3 4)) = true
    ∧ wellFormed (.st 1 4 1 88 2) = true ∧ wellFormed (.sti 1 0 0 1 3) = true ∧ wellFormed (.stf 2 0 1 2) = true := by decide +kernel

theorem witness_BasinAtomics :
    [(0 : BitVec 4), 15].all (fun f => rdyS (someCrew [31] [] [(regV 4 31, 65532)]) (fun s w => atomDesc s w f 4 1 2 true)
        (fun s w => (w.actors (atomDesc s w f 4 1 2 true) == [31]) && w.inBasin (w.src 31 4 64) 4 && s.unitIdle w && w.clear 31 2 4)) = true
    ∧ rdyS (onSpine [(4, 65528)]) (fun s w => atomDesc s w 12 4 1 2 true) (fun s w => (w.actors (atomDesc s w 12 4 1 2 true) == [0]) && w.inBasin (w.src 0 4 64) 8
        && s.unitIdle w) = true
    ∧ rdyS (heldBack (onSpine [(4, 0)])) (fun s w => atomDesc s w 0 4 1 2 true) (fun s w => (w.actors (atomDesc s w 0 4 1 2 true) == [0]) && w.inBasin (w.src 0 4 64) 4
        && s.basinWaits w 0 (w.u != 0 && w.kDst (atomDesc s w 0 4 1 2 true)) (.atomic 0 (w.src 0 1 32) (w.src 0 2 32) none) (w.src 0 4 64) (List.replicate 4 0)) = true := by
  decide +kernel

/-- A slot of one granule at basin address 16, which watches 16 bytes at 0x50000. -/
def slot16 : Slot := ⟨16, 0, .open, 0, 0, 0, 0x50000, keyDev 0 0x50000 / 16, false, false⟩

theorem witness_FullEmpty :
    let c := cellWith [(1, 32), (5, 65520), (6, 1), (7, 17), (8, 65264)] [] []
    let s := (at' c 0 [0] 0x6D).setFe c 32 true
    let t := { s with cells := [{ c with subs := [{ slot16 with st := .failed }] }], home := { s.home with fe := [] } }
    let desc := fun (n : Nat) (s : State) (w : Who) => { ldD n 1 (some 0) 4 true true s w with
      wait := w.tids.any (fun t => s.basinBehind w t (w.src t 1 64 + w.offset t 0) n) }
    rdyS s (desc 16) (fun s w => (w.actors (desc 16 s w) == [0]) && w.inBasin (w.src 0 1 64 + w.offset 0 0) 16 && s.fe w.cell 32 && w.clear 0 4 16) = true
      ∧ rdyS (at' c 0 [0] 0x6D) (desc 4) (fun s w => !s.fe w.cell 32 && (w.cell.failedSlot 32).isNone) = true
      ∧ rdyS t (desc 4) (fun s w => !s.fe w.cell 32 && (w.cell.failedSlot 32).isSome) = true
      ∧ wellFormed (.ldf 2 1 0 1 4) = true
      ∧ [((5 : BitVec 7), (6 : BitVec 7), (1 : Nat)), (8, 7, 17)].all (fun x => rdyAnd s (fun w => { rds := [(x.1, 64), (x.2.1, 32)], bad := !w.baseOk x.1, basin := true })
          (fun w => ((w.src 0 x.2.1 32).toNat == x.2.2) && decide ((w.src 0 x.1 64).toNat % 16 = 0) && decide ((w.src 0 x.1 64).toNat + 16 * x.2.2 ≤ w.cell.basinSize)
            && s.clu.feOps.all (fun o => s.feCore o != some (w.cell.cl, coreNo w.u w.unit)))) = true
      ∧ rdyAnd s (fun w => { rds := [(0, 64), (6, 32)], wr := some (4, w.dstWidth 4), bad := !w.baseOk 0 || !w.dataOk 4, basin := true }) (fun w => w.src 0 0 64 == 0) = true
      ∧ (s.cell? 1).isSome = true
      ∧ rdyS { someCrew [] [] [] with cells := [cellWith [] [] (lanes 8 (fun t => BitVec.ofNat 32 (32 * t + t / 30 * 65536 + t / 31)))], issue := { (onCrew [] []).issue with tids := List.range 32 } }
          (ldD 4 8 (some 120) 4 true true) (fun s w => let ea := fun t => w.src t 8 64 + w.offset t 120
            w.inBasin (ea 29) 4 && ((ea 30).toNat % 4 == 0) && !w.inBasin (ea 30) 4 && decide ((ea 31).toNat % 4 ≠ 0) && !s.fe w.cell (ea 29).toNat
              && w.clear 29 4 4) = true := by decide +kernel

/-- The answer to a global load of thread 0, and what is there when it is accepted. -/
def acceptOf (s : State) (w : Who) (va : W64) (acc : Access) : Accept × State :=
  s.accept w 0 va acc
/-- The line of 0x50000 in the L1 of the spine's core, leased. -/
def inL1 (s : State) : State := { s with clu := { s.clu with lines := [⟨0, 0, keyDev 0 0x50000 / 128, 7, BitVec.allOnes 32, 100, 0⟩] } }
/-- The line of 0x50000, poisoned. -/
def poisoned (s : State) : State := { s with home := { s.home with lines := [{ HLine.fresh (keyDev 0 0x50000 / 128) with poison := true }] } }

theorem witness_GlobalLoads :
    [inL1 (onSpine [(1, 0x50000)]), onSpine [(1, 0x50000)]].map (fun s => rdyS s (ldD 8 1 (some 0) 3 false false) (fun s w =>
        (w.actors (ldD 8 1 (some 0) 3 false false s w) == [0]) && isOk (acceptOf s w 0x50000 .load).1 && s.unitIdle w && w.clear 0 3 8
        && decide (w.loadDst 3 8 ≠ .none) && (w.loadDst 0 8 == .none) && ((acceptOf s w 0x50000 .load).2.l1Read 0 0 (keyDev 0 0x50000) 8 0).isSome)) = [true, false]
    ∧ [onSpine [(1, 0x50000)], poisoned (onSpine [(1, 0x50000)])].all (fun s => rdyS s (ldD 8 1 (some 0) 0 false true) (fun s w =>
        (w.loadDst 0 8 == .none) && isOk (acceptOf s w 0x50000 .load).1)) = true
    ∧ rdyS (onSpine [(1, 0x40000000)]) (ldD 4 1 none 3 false false) (fun s w => isTrap (acceptOf s w 0x40000000 .load).1) = true
    ∧ rdyS (hostPage (onSpine [(1, 0x40000000)])) (ldD 4 1 none 3 false false) (fun s w => (acceptOf s w 0x40000000 .load).1 == .host) = true
    ∧ rdyS (withTile (onSpine [(1, 0x1000080)]) [tileAt .building 0 (some 9)]) (ldD 8 1 none 3 false false) (fun s w =>
        ((acceptOf s w 0x1000080 .load).1 == .wait) && s.buildingAt 1 0x1000080 && (acceptOf s w 0x1000080 .load).2.buildingAt 1 0x1000080
        && !s.masked 0 0 0 (keyRec 1 0x1000080)) = true
    ∧ rdyS (withDirty (withTile (onSpine [(1, 0x1000080)]) [{ tileAt .resident 0 none with present := [] }])) (ldD 8 1 none 3 false false) (fun s w =>
        let u := (acceptOf s w 0x1000080 .load).2
        ((acceptOf s w 0x1000080 .load).1 == .wait) && !s.buildingAt 1 0x1000080 && !u.buildingAt 1 0x1000080 && !u.behindMarker 1 0 0 u.fresh) = true
    ∧ (let s := withTile (onSpine [(1, 0x1000080)]) [tileAt .building 0 (some 9)]
       rdyS { s with clu := { s.clu with stores := [{ dirtyWord 0 with cell := 9, va := 0x1000080, key := keyRec 1 0x1000080 }] } } (ldD 8 1 none 3 false false) (fun s w =>
        ((acceptOf s w 0x1000080 .load).1 == .wait) && s.buildingAt 1 0x1000080 && (List.range 8).all (fun j => s.masked 0 0 0 (keyRec 1 0x1000080 + j))
        && ((acceptOf s w 0x1000080 .load).2.l1Read 0 0 (keyRec 1 0x1000080) 8 0).isSome && w.clear 0 3 8 && (acceptOf s w 0x1000080 .load).2.unitIdle w)) = true := by decide +kernel

/-- A crew whose thread `t` loads, stores or exchanges at 0x50000 + 32 * t, but threads 30 and 31, which miss every page or an alignment. -/
def apart : State := onCrew [] (lanes 8 (fun t => BitVec.ofNat 32 (0x50000 + 32 * t + t / 31)) ++ lanes 9 (fun t => if t = 30 then 1 else 0))

/-- R281: several acting threads, some of which the access refuses. -/
theorem witness_SeveralThreads :
    rdyS apart (ldD 4 8 (some 120) 2 false false) (fun s w => let ea := fun t => w.src t 8 64 + w.offset t 120
        isOk (s.accept w 4 (ea 4) .load).1 && isTrap (s.accept w 30 (ea 30) .load).1 && decide ((ea 31).toNat % 4 ≠ 0 ) && w.clear 4 2 4) = true
    ∧ rdyS apart (stD 4 8 none 2 false false) (fun s w => let ea := fun t => w.src t 8 64
        isOk (s.accept w 4 (ea 4) .store).1 && isTrap (s.accept w 30 (ea 30) .store).1 && decide ((ea 31).toNat % 4 ≠ 0)) = true
    ∧ rdyS apart (fun s w => atomDesc s w 0 8 2 4 false) (fun s w => isOk (s.accept w 4 (w.src 4 8 64) .atomic).1 && isTrap (s.accept w 30 (w.src 30 8 64) .atomic).1
        && decide ((w.src 31 8 64).toNat % 4 ≠ 0)) = true
    ∧ rdyS (onCrew [] (lanes 8 (fun t => BitVec.ofNat 32 (32 * t + t / 30 * 65536 + t / 31)))) (ldD 4 8 none 2 true false) (fun s w =>
        w.inBasin (w.src 29 8 64) 4 && !w.inBasin (w.src 30 8 64) 4 && ((w.src 30 8 64).toNat % 4 == 0) && decide ((w.src 31 8 64).toNat % 4 ≠ 0)
        && s.threadIdle w 29 false && w.clear 29 2 4) = true := by decide +kernel

theorem witness_GlobalStores :
    rdyS (onSpine [(1, 0x50000)]) (stD 8 1 (some 0) 3 false false) (fun s w => (w.actors (stD 8 1 (some 0) 3 false false s w) == [0])
        && isOk (acceptOf s w 0x50000 .store).1) = true
    ∧ rdyS (onSpine [(1, 0x50000)]) (stD 4 1 (some 0) 3 false true) (fun s w => isOk (acceptOf s w 0x50000 .store).1) = true
    ∧ rdyS (onSpine [(1, 0x40000000)]) (stD 4 1 none 3 false false) (fun s w => isTrap (acceptOf s w 0x40000000 .store).1) = true
    ∧ rdyS (hostPage (onSpine [(1, 0x40000000)])) (stD 4 1 none 3 false false) (fun s w => (acceptOf s w 0x40000000 .store).1 == .host) = true := by decide +kernel

theorem witness_Acceptance : canonical 0x0200000000000000 = false ∧ canonical 0x01FFFFFFFFFFFFFF = false ∧ canonical 0x00FFFFFFFFFFFFFF = true ∧ placedCtx.region? 0x40000000 = none
    ∧ (translate (onSpine []) placedCtx 0 0x40000000 .load).1 = .trap tTranslation ∧ (translate (hostPage (onSpine [])) placedCtx 0 0x40000000 .store).1 = .host
    ∧ (translate (onSpine []) placedCtx 0 0x50000 .atomic).1 = .ok (keyDev 0 0x50000) 0 (2 ^ 30) false ∧ unreachable (onSpine []).pkg (keyDev 0 0x50000) = false := by decide +kernel

theorem witness_AtomicsAndPrefetch :
    rdyS (onSpine [(4, 0x50000)]) (fun s w => atomDesc s w 11 4 1 2 false) (fun s w => (w.actors (atomDesc s w 11 4 1 2 false) == [0])
        && isOk (acceptOf s w (w.src 0 4 64) .atomic).1 && decide (w.loadDst 2 4 ≠ .none) && decide (w.loadDst 0 4 = .none)) = true
    ∧ rdyS (onSpine [(4, 0x40000000)]) (fun s w => atomDesc s w 1 4 1 2 false) (fun s w => isTrap (acceptOf s w 0x40000000 .atomic).1) = true
    ∧ rdyS (hostPage (onSpine [(4, 0x40000000)])) (fun s w => atomDesc s w 1 4 1 2 false) (fun s w => (acceptOf s w 0x40000000 .atomic).1 == .host) = true
    ∧ rdyAnd (onSpine [(4, 0x50000)]) (fun w => { rds := [(4, 64), (0, w.offWidth 0)], bad := !w.baseOk 4 || !w.offOk 0 })
        (fun w => (w.tids == [0]) && (match translate (onSpine []) placedCtx 0 (w.src 0 4 64 + w.offset 0 0) .load with
          | (.ok key _ _ _, u) => (key == keyDev 0 0x50000) && !(u.line (key / 128)).poison && u.clu.owned.all (fun o => o.2.2 / 32 != key / 128) && !unreachable u.pkg key
          | _ => false)) = true := by decide +kernel

/-- A load of 8 bytes at 0x50000 into x3. -/
def aLoad (n : Nat) (far : Bool) : LoadEnt := ⟨n, 1, 0, 0, 7, .r 3, 8, false, 8, 0x50000, keyDev 0 0x50000, 0, 0, 0, false, false, far, false, [], [], [], firstPc, 0, false, none⟩
/-- The spine with a load of an open batch outstanding. -/
def loading (far : Bool) : State :=
  let s := at' ((cellWith [] [] []).updUnit 0 (fun u => { u with batches := [⟨7, 1, false⟩] })) 0 [0] 0x6D
  { s with clu := { s.clu with loads := [aLoad 3 far] } }

/-- What `lwait` and `fence` wait for. -/
def lwaitDesc (n : Nat) (s : State) (w : Who) : Desc :=
  let t := s.lwaitStart w
  { once := true, settles := true, wait := decide (n < t.outstanding w.cell.uid w.u) && !t.farBatch w.cell.uid w.u }
def fenceDesc (g : BitVec 3) (o q : BitVec 2) (s : State) (w : Who) : Desc :=
  { settles := true, wait := (decide (o ≠ 2) && w.tids.any (fun t => s.loadsOpen w t q)) || (decide (o = 3) && !s.relsDone w g q) }

theorem witness_BatchesAndFences :
    rdyS (loading true) (lwaitDesc 0) (fun s w => let t := s.lwaitStart w
      decide (0 < ((t.unit 1 0).batches.filter (·.closed)).length) && t.clu.loads.any (fun l => l.on 1 0 && l.far && (t.batches 1 0).any (fun b => b.num == l.batch && b.closed))
        && (w.unit.thread w.lead).answer.isNone) = true
    ∧ rdyS (loading false) (lwaitDesc 1) (fun s w => (((s.lwaitStart w).unit 1 0).batches.filter (·.closed)).length == 1) = true
    ∧ triesS (loading false) (lwaitDesc 0) (fun s w => decide (0 < (((s.lwaitStart w).unit 1 0).batches.filter (·.closed)).length)
        && !(s.lwaitStart w).clu.loads.any (fun l => l.on 1 0 && l.far)) = true
    ∧ rdyS (mapCells (loading false) (fun c => c.updUnit 0 (fun u => u.updThread 0 (fun t => { t with answer := some 0 })))) (lwaitDesc 0)
        (fun s w => (w.unit.thread w.lead).answer.isSome && ((s.unit 1 0).batches.all (fun b => !b.closed))) = true
    ∧ rdyAnd (loading false) (fun _ => { once := true }) (fun _ => true) = true
    ∧ [(2 : BitVec 2), 1].all (fun o => rdyS (onCrew [] []) (fenceDesc 4 o 3) (fun _ w => w.tids.length == 32)) = true ∧ rdyS (loading false) (fenceDesc 2 2 3) (fun _ _ => true) = true
    ∧ rdyS (begun (onCrew [] []) 1 (List.range 32) 4 3) (fenceDesc 4 3 3) (fun s w => s.relsDone w 4 3) = true
    ∧ triesS (loading false) (fenceDesc 2 0 3) (fun s w => (fenceDesc 2 0 3 s w).wait) = true ∧ triesS (withDirty (onSpine [])) (fenceDesc 2 3 2) (fun s w => (fenceDesc 2 3 2 s w).wait) = true
    ∧ [onSpine [], withDirty (onSpine [])].map (fun s => on s (fun w => (s.shutStores 1 0 0).released (w.release 0 2 2 s.fresh))) = [true, false]
    ∧ on (onSpine []) (fun w => (onSpine []).released (w.release 0 4 2 7)) = true := by decide +kernel

/-- A machine with entries on the store path and loads under way. -/
def onPath (stores : List StoreEnt) (loads : List LoadEnt) : State := { onSpine [] with clk := 3277, fresh := 9, clu := { Clusters.reset with stores := stores, loads := loads } }
/-- A marker of a device release, and an atomic. -/
def aMarker (seq : Nat) : StoreEnt := { dirtyWord seq with kind := .marker 2 3, ph := .held, bytes := [] }
def anAtomic (seq : Nat) : StoreEnt := { dirtyWord seq with kind := .atomic 1 5 0 none, ph := .drained }

/-- The line of 0x50000 is in the L2. -/
def here (s : State) : State :=
  { s with home := { s.home with lines := [{ (s.line (keyDev 0 0x50000 / 128)) with present := true }] } }

theorem witness_StorePath :
    (onPath [dirtyWord 1] []).nextDrain (dirtyWord 1) = true ∧ (dirtyWord 1).born + 2048 ≤ (onPath [] []).tb ∧ (onSpine []).tb < (dirtyWord 1).born + 2048
    ∧ (onPath [{ dirtyWord 1 with ph := .sent }] []).nextDrain { dirtyWord 1 with ph := .sent } = false
    ∧ (let e := { dirtyWord 1 with ph := .sent }
       let s := { onPath [e] [] with home := { (onSpine []).home with lines := [{ HLine.fresh (keyDev 0 0x50000 / 128) with present := true, leases := [(1, 0, 100000)] }] } }
       (s.leaders e).all (fun x => x.ph == .drained) = true ∧ s.writeReady e.cl e.l1 e.key e.bytes.length = false)
    ∧ [[aMarker 1], [{ aMarker 1 with seq := 2 }, dirtyWord 1]].map (fun l => (onPath l []).released ⟨cellWith [] [] [], 0, 0, 0, 2, 3, (l.headD (aMarker 0)).seq⟩) = [true, false]
    ∧ (onPath [aMarker 1] []).behindMarker 1 0 0 1 = false
    ∧ [{ dirtyWord 1 with ph := .drained }, { dirtyWord 1 with ph := .drained, more := [(keyDev 0 0x50000, bytesOfNat 4 7)] }, anAtomic 1].all (fun e => let s := here (onPath [e] [])
        s.firstAtHome e && s.writeReady e.cl e.l1 e.key e.bytes.length && !unreachable s.pkg e.key && (s.tileRefuses e.ctx e.key).isNone && s.nothingHeld && decide (e.bytes ≠ [])
        && (s.line (e.key / 128)).present && !foreignKey e.key (devOfCl s.pkg e.cl) && !(s.line (e.key / 128)).poison && ((s.line (e.key / 128)).kid == e.kid) && ((s.line (e.key / 128)).wkey == keyOfId s.pkg e.kid)) = true
    ∧ (let e := { dirtyWord 1 with ph := .drained }
       let t := { onPath [e] [] with home := { (onPath [e] []).home with lines := [{ HLine.fresh (keyDev 0 0x50000 / 128) with poison := true, present := true }] } }
       t.firstAtHome e && ((t.cell? e.cell).isSome) && t.writeReady 0 0 (keyDev 0 0x50000) 8 && (t.line (keyDev 0 0x50000 / 128)).poison && t.nothingHeld) = true := by decide +kernel

theorem witness_HomeEvents :
    let n := keyDev 0 0x50000 / 128
    let l := (onSpine []).line n
    let withLine := fun (h : HLine) => ({ onPath [] [aLoad 3 false] with home := { (onSpine []).home with lines := [h] } } : State)
    let s := withLine { l with present := true }
    let t := withLine { l with present := true, k := 3, leases := [(0, 0, 2048)] }
    let f : Fetch := ⟨4, 0, 0, n, 0, false, 5⟩
    let q := { s with clu := { s.clu with fetches := [f], loads := [] } }
    (s.mustWait (aLoad 3 false) = false ∧ s.nothingHeld = true ∧ (s.line n).poison = false ∧ unreachable s.pkg (keyDev 0 0x50000) = false ∧ s.l1Read 0 0 (keyDev 0 0x50000) 8 0 = none
        ∧ ((inL1 s).l1Read 0 0 (keyDev 0 0x50000) 8 0).isSome = false ∧ (poisoned s).mustWait (aLoad 3 false) = false)
      ∧ (q.lineThere n = true ∧ q.leaseReady 0 0 n = true ∧ (q.line n).kid = 0 ∧ (q.line n).wkey = keyOfId q.pkg 0 ∧ (q.line n).present = true ∧ q.nothingHeld = true)
      ∧ ((t.line n).latest = 2048 ∧ (t.line n).latest ≤ t.tb ∧ (t.line n).latest ≠ (t.line n).raised)
      ∧ (let u := { s with clu := { s.clu with owned := [(0, 1, keyDev 0 0x50000 / 4)], stores := [{ dirtyWord 1 with ph := .drained }] } }
         u.wantsWord 0 1 (keyDev 0 0x50000 / 4) = true)
      ∧ (keySpace (128 * n) < 2 ^ 32 ∧ q.writeWaits n = false ∧ (q.line n).latest ≤ q.tb) := by decide +kernel

/-- Cisterns 1 to 5: BCAST empty and full, GATHER open, full, and BCAST of the crews' class. -/
def someCis : List Cistern := modNth (fun c => { c with mode := .bcast, cls := 2 }) 5 (modNth (fun c => { c with mode := .gather, g := 1, full := true }) 4
  (modNth (fun c => { c with mode := .gather, g := 1 }) 3 (modNth (fun c => { c with mode := .bcast, full := true }) 2
  (modNth (fun c => { c with mode := .bcast }) 1 (List.replicate 64 Cistern.empty)))))
def spineCis (x : List (Nat × W64)) : State := at' { cellWith x [] [] with cis := someCis } 0 [0] 0x6D
def crewCis : State := at' { cellWith [] [] [] with cis := someCis } 1 (List.range 32) 0x6D

/-- What `cgath` into cistern field `d` waits for. -/
def gathDesc (a d : BitVec 7) (s : State) (w : Who) : Desc :=
  { side := .crew, rds := [(a, if (w.cell.cis! (w.cisNo d)).op = 2 ∨ (w.cell.cis! (w.cisNo d)).op = 4 then 64 else 32)], cis := some d, once := true, settles := true, basin := true
    wait := !s.relsDone w 1 3 }

theorem witness_CisternInstructions :
    [(65, false), (66, true)].all (fun x => rdyAnd (spineCis []) (fun _ => { rds := [(1, 64)], cis := some x.1, once := true, settles := true })
        (fun w => let c := w.cell.cis! (w.cisNo x.1)
          c.mode == .bcast && inClass w.spine c.cls && (c.full == x.2) && c.pending.isNone && (w.cell.blockedOn [3] (BitVec.ofNat 64 (w.cisNo x.1)) == []))) = true
    ∧ rdyAnd crewCis (fun w => { rds := [(1, 64)], wr := some (2, w.dstWidth 2), cis := some 117, once := true, settles := true, bad := !w.statusOk 2 }) (fun _ => true) = false
    ∧ rdyAnd crewCis (fun w => { rds := [(88, 64)], wr := some (2, w.dstWidth 2), cis := some 117, once := true, settles := true, bad := !w.statusOk 2 })
        (fun w => (w.cisNo 117 == 5) && inClass w.spine (w.cell.cis! 5).cls) = true
    ∧ [(0x10002 : W64), 3].all (fun v => rdyAnd (spineCis [(1, v)]) (fun _ => { side := .spine, rds := [(1, 64)], cis := some 127 })
        (fun w => (cfgWordOk v w.cell.hdr.ncrew == (v == 0x10002)) && decide (w.cell.gathers 63 < 8) && (w.cisNo 127 == 63) && ((w.cell.cis! 63).mask == 0))) = true
    ∧ rdyAnd crewCis (fun _ => { cis := some 117, once := true }) (fun _ => true) = true ∧ rdyAnd (spineCis []) (fun _ => { cis := some 67, once := true }) (fun _ => true) = true
    ∧ rdyAnd (spineCis []) (fun w => { wr := some (3, 64), wr2 := some (4, w.dstWidth 4), cis := some 66, settles := (w.cell.cis! (w.cisNo 66)).full, bad := !w.statusOk 4, whole := true })
        (fun _ => true) = true
    ∧ [((113 : BitVec 7), CMode.bcast, false), (115, .gather, false), (116, .gather, true)].all (fun x => rdyS crewCis (gathDesc 121 x.1)
        (fun s w => let c := w.cell.cis! (w.cisNo x.1)
          (c.mode == x.2.1) && (c.full == x.2.2) && s.relsDone w 1 3)) = true
    ∧ triesS { crewCis with clu := { crewCis.clu with stores := [{ dirtyWord 0 with unit := 1 }] } } (gathDesc 121 115) (fun s w => !s.relsDone w 1 3) = true := by decide +kernel

theorem witness_CisternEvents :
    (onSpine []).landable (cellWith [] [] []) ⟨5, 0, [0], 7, 3⟩ = true ∧ ({ Cistern.empty with mode := .gather, g := 1, mask := 1 } : Cistern).complete = true
    ∧ (let c := cellWith [] [] []
       let d := { c with cis := modNth (fun x => { x with mode := .bcast }) 0 c.cis
                         units := [c.unit 0, UnitSt.fresh (List.replicate 32 Thread.absent) [] 0 0 0] }
       (d.updUnit 0 (fun u => u.updThread 0 (fun t => { t with st := .blocked, wkind := 2, wobj := 0 }))).orphan 0 0 = true) := by decide +kernel

/-- The spine with a slot in a state. -/
def withSlot (st : SubSt) : State := at' { cellWith [(1, 16), (2, 65520), (3, 24), (4, 65536)] [] [] with subs := [{ slot16 with st := st }] } 0 [0] 0x6D

/-- What `stand` waits for: x1 the address, x2 the slot word, D x3. -/
def standDesc (s : State) (w : Who) : Desc :=
  let d : Desc := { rds := [(1, 64), (2, 64)], wr := some (3, w.dstWidth 3), bad := !w.baseOk 1 || !w.dataOk 3 }
  { d with wait := !s.relsDone w 2 3 || (w.standers 3).any (s.standAwaits w) }
/-- The spine's thread with an answer for `stand`. -/
def answered (s : State) : State := mapCells s (fun c => c.updUnit 0 (fun u => u.updThread 0 (fun t => { t with answer := some 0x1001 })))

theorem witness_Subscriptions :
    [((0x50000 : W64), (0x1500000010 : W64)), (0x50000, 0x10000000010), (0x50000, 24), (0x50008, 16), (0x50000, 65520)].all (fun x =>
      rdyS (onSpine [(1, x.1), (2, x.2)]) standDesc (fun s w => (w.actors (standDesc s w) == [0]) && (w.src 0 1 64 == x.1) && (w.src 0 2 64 == x.2) && (w.unit.thread 0).answer.isNone)) = true
    ∧ rdyS (answered (onSpine [(1, 0x50000), (2, 16)])) standDesc (fun s w => (w.actors (standDesc s w) == [0]) && (w.unit.thread 0).answer.isSome && w.clear 0 3 4) = true
    ∧ triesS (withDirty (onSpine [(1, 0x50000), (2, 16)])) standDesc (fun s w => (w.standers 3 == [0]) && !s.relsDone w 2 3) = true
    ∧ (let s := answered (onSpine [(1, 0x50000), (2, 16)])
       triesS { s with home := { s.home with msgs := [⟨3, 1, 16, .register, 0, 0⟩] } } standDesc (fun s w => s.relsDone w 2 3 && s.standAwaits w 0)) = true
    ∧ [(0x50000 : W64), 0x40000000].all (fun va => rdyS (onSpine [(1, va), (2, 16)]) standDesc (fun s w => (w.actors (standDesc s w) == [0]) && (w.unit.thread 0).answer.isNone
        && decide ((standStatus s w w.cell 16 va 0).1 = 0 ↔ va = 0x50000))) = true
    ∧ mdOk 0 = true ∧ mdOk 0x14 = true ∧ mdOk 0x15 = false
    ∧ on (onSpine []) (fun w => ((standStatus (onSpine []) w w.cell 16 0x50000 0).1 == 0) && ((standStatus (onSpine []) w w.cell 16 0x40000000 0).1 == 4)) = true
    ∧ on (withSlot .open) (fun w => (standStatus (withSlot .open) w w.cell 32 0x50000 0).1 == 3) = true
    ∧ [SubSt.open, .frozen, .closing, .closed, .failed].all (fun st => rdyAnd (withSlot st) (fun w => unstandDesc w 1)
        (fun w => (w.src 0 1 64 == 16) && ((w.cell.slot? 16).map (·.st) == some st))) = true
    ∧ [(2 : BitVec 7), 3, 4].all (fun a => rdy (withSlot .open) (fun w => unstandDesc w a)) = true ∧ (cellWith [] [] []).slot? (65520 : W64).toNat = none := by decide +kernel

/-- A machine with one message for the slot at 16, whose subscriber the home knows. -/
def messaged (k : MsgKind) (x : Slot) (cell : Nat) : State :=
  let s := at' { cellWith [] [] [] with subs := [x] } 0 [0] 0x6D
  { s with fresh := 9, home := { s.home with msgs := [⟨3, cell, 16, k, 2, 0xAB⟩], pipes := [⟨keyDev 0 0x50000 / 16, 5, [⟨1, 16, 1, 0x50000, x.md, 2, k == .relocate, 3⟩]⟩] } }

theorem witness_HomeAnswers :
    [MsgKind.register, .closeReq, .freezeReq, .relocate].all (fun k => ((messaged k slot16 1).takeMsg 3 (· == k)).isSome && ((messaged k slot16 1).homeSub? 1 16).isSome
        && (((messaged k slot16 1).cell? 1).bind (fun c => c.slot? 16)).isSome) = true := by decide +kernel

theorem witness_PushesLand :
    [(MsgKind.data, (0 : BitVec 8)), (.data, 0x14), (.closePush, 0), (.freezePush, 0x11), (.catchUp 1, 0), (.catchUp 1, 0x11)].all (fun x =>
      let y := { slot16 with md := x.2, widx := 17 }
      let s := messaged x.1 y 1
      (s.takeMsg 3 (· == x.1)).isSome && (s.slotOf ⟨3, 1, 16, x.1, 2, 0xAB⟩).isSome && y.st.live && !s.fe (cellWith [] [] []) (16 + 16 + 16 * (17 % 2 ^ (x.2.toNat % 16)))) = true
    ∧ ((messaged .data { slot16 with md := 0x11 } 1).setFe (cellWith [] [] []) 32 true).fe (cellWith [] [] []) 32 = true
    ∧ (let s := messaged .data slot16 1
       let t := match exec (.softError (keyDev 0 0x50000 / 128)) s with
         | .next t => t
         | _ => s
       t.subFails 1 16 true = true) ∧ ldfWaiters (cellWith [] [] []) slot16 = [] := by decide +kernel

/-- What `rseal` of the tile at x1 waits for. -/
def sealDesc (s : State) (w : Who) : Desc := { tileDesc w 1 true with wait := !w.tids.all (s.sealOver w 1) }

theorem witness_RecipeTiles :
    [TileSt.absent, .resident, .poisoned, .retired].all (fun st => [0, 2].all (fun pin => let s := withTile (onSpine [(1, 0x1000000)]) [tileAt st pin none]
      rdyS s sealDesc (fun s w => (w.actors (sealDesc s w) == [0]) && (match s.namedTile w 0x1000000 with
        | .ok (c, r) => ((s.tile c.tag 0x1000000).st == st) && (r.size == 16384) && ((w.unit.thread 0).stage == 0)
        | _ => false)) && rdyAnd s (fun w => tileDesc w 1 false) (fun w => w.actors (tileDesc w 1 false) == [0]))) = true
    ∧ (let s := withTile (onSpine [(1, 0x1000000)]) [tileAt .building 0 (some 1)]
       triesS s sealDesc (fun s w => (w.tids == [0]) && !w.wake && ((w.unit.thread 0).stage == 0) && (pendingTrap w 0).isNone && decide (w.u < w.cell.units.length)
        && decide (0 < w.unit.threads.length) && ((s.tile 1 0x1000000).st == .building)) && rdyAnd s (fun w => tileDesc w 1 false) (fun _ => true)) = true
    ∧ (let s := begun (withTile (onSpine [(1, 0x1000000)]) [tileAt .resident 0 none]) 0 [0] 2 2
       rdyS s sealDesc (fun _ w => decide ((w.unit.thread 0).stage ≠ 0) && (w.unit.thread 0).answer.isNone) = true)
    ∧ (let s := mapCells (begun (withTile (onSpine []) [tileAt .building 0 (some 1)]) 0 [0] 2 2) (fun c => c.updUnit 0 (fun u => u.updThread 0 (fun t => { t with answer := some 0x1000000 })))
       s.released ⟨s.cells.headD (placedCell false 0), 0, 0, 0, 2, 2, 1⟩ = true ∧ s.behindMarker 1 0 0 1 = false ∧ (s.thread 1 0 0).st = .eligible ∧ (s.thread 1 0 0).stage / 64 = 1
        ∧ (s.tile 1 0x1000000).st = .building)
    ∧ (let s := withTile (onSpine []) [tileAt .absent 0 none, { tileAt .resident 1 none with base := 0x1004000 }]
       region.cap < s.pinnedBytes 1 region + region.size)
    ∧ [(0x1000000 : W64), 0x1004000, 0x1000010, 0x1008000].map (fun a => (region.holds a, region.tileBase a == a)) = [(true, true), (true, true), (true, false), (false, true)]
    ∧ rdy (onSpine [(1, 0x1008000)]) (fun w => { rds := [(1, 64)], wr := some (3, 64), bad := !w.baseOk 1 || !w.dataOk 3, settles := true }) = true := by decide +kernel

/-- A ring of two slots at 256 with its object at 16, whose handle is in x1. -/
def withRing (prod w cl rd rl : Nat) (flt : Bool) : State := (onSpine [(1, 16)]).putRing (cellWith [] [] []) 16 ⟨256, 16, 2, prod, w, cl, rd, rl, flt, 0, true⟩

theorem witness_Rings :
    [((16 : W64), (0x0002001000000100 : W64)), (65520, 0x0040001000000100), (16, 0x0001001000000100), (8, 0), (65536, 0)].all (fun x =>
      rdyAnd (onSpine [(1, x.1), (2, x.2)]) (fun _ => { rds := [(1, 64), (2, 64)], once := true, basin := true })
        (fun w => (w.src 0 1 64 == x.1) && ((handleTrap w.cell x.1).isSome == decide (x.1 = 8 ∨ x.1 = 65536)))) = true
    ∧ [0x0002001000000100, 0x0040001000000100, 0x0001001000000100].map (fun n => (ringOf n).cfgOk (cellWith [] [] [])) = [true, true, false]
    ∧ on (onSpine []) (fun w => (w.cell.ringWaiters 16 == []) && !(onSpine []).engineClaims 1 16) = true
    ∧ [(1, 1, 0, 0), (0, 0, 0, 0), (2, 2, 0, 0), (1, 2, 0, 0), (1, 1, 1, 0)].all (fun x => let s := withRing 0 x.1 x.2.1 x.2.2.1 x.2.2.2 false
        rdyAnd s (fun w => { rds := [(1, 64)], wr := some (3, w.dstWidth 3), once := true, settles := true, basin := true })
          (fun w => (handleTrap w.cell (w.src 0 1 64)).isNone && ((s.ring? w.cell 16).map (fun r => (r.w, r.cl, r.rd, r.rl)) == some x))
        && rdyAnd s (fun _ => { rds := [(1, 64)], once := true, settles := true, basin := true }) (fun w => (s.ringMoves w.cell.uid 16 == [])
          && !(s.beginRelease w 0 1 3).basinWaits w 0 false (.ring false) 16 (List.replicate 16 0))) = true
    ∧ (let s := withDirty (withRing 0 1 1 1 0 false)
       on s (fun w => (s.beginRelease w 0 1 3).basinWaits w 0 false (.ring false) 16 (List.replicate 16 0)) = true)
    ∧ ((withRing 1 0 0 0 0 false).ring? (cellWith [] [] []) 16).map (·.prod) = some 1 ∧ ((withRing 0 0 0 0 0 true).ring? (cellWith [] [] []) 16).map (·.flt) = some true
    ∧ (onSpine []).ring? (cellWith [] [] []) 16 = none := by decide +kernel

/-- A parameter block in x1 to x4 (and k0 to k3). -/
def withBlock (p : List W64) : State := onSpine ((p.zipIdx).map (fun x => (x.2 + 1, x.1)))
/-- A copy under way: 32 bytes from 0x50000 to basin address 256. -/
def aCopy (f : BitVec 4) (p : List W64) (bytes : Nat) (claim : Option (Nat × Nat)) : CopyOp := ⟨3, 1, 0, 0, 0, f, p, 3, bytes, claim, false, false, false⟩
def toBasin (aux : W64) : List W64 := [0x50000, 0x0001002000000100, 0, aux]
def fromBasin (aux : W64) : List W64 := [0x50000, 0x0001002000000100, 0x0001000000000000, aux]
def copying (s : State) (o : CopyOp) : State := { s with fresh := 9, clu := { s.clu with copies := [o] } }
/-- A node of the context with no bin, and one with an open bin. -/
def aNode (keyed : Bool) (bins : List Bin) : LNode := ⟨0, 2, 1, 0, 0x60000, 0x99, 16, 2, 5, keyed, 0, placedHeader, bins, []⟩
def withNode (s : State) (n : LNode) : State := { s with sched := { s.sched with nodes := [n] } }
def handle : W64 := 0x100000002

theorem witness_Copies :
    [(toBasin 0, (0 : BitVec 2), (none : Option (BitVec 8))), ([0x50008, 0, 0, 0], 0, some tCopy), (toBasin 16, 2, some tRing), (toBasin handle, 3, some tEmit)].all (fun x =>
      rdyAnd (withBlock x.1) (fun w => { blockDesc w 1 .copy with bad := !w.blockOk 1 || (0 : BitVec 2) == 3 }) (fun w =>
        ((withBlock x.1).checkCopy w.cell ⟨0, 1, 0, 0, 0, x.2.1 ++ (0 : BitVec 2), w.block 0 1, 0, 0, none, false, false, false⟩).map (·.code) == x.2.2)) = true
    ∧ (let s := withBlock (toBasin 0)
       16 ≤ ({ s with clu := { s.clu with copies := List.replicate 16 (aCopy 0 (toBasin 0) 0 none) } } : State).copiesHeld 0)
    ∧ (aCopy 0 (toBasin 0) 0 none).big = false ∧ (aCopy 0 [0x50000, 0xFFFFFFF000000100, 0, 0] 0 none).big = true
    ∧ (let s := copying (withRing 1 0 0 0 0 false) (aCopy 8 (toBasin 16) 0 none)
       ((s.ring? (cellWith [] [] []) 16).map (fun r => (r.prod, decide (r.d r.rl r.cl < r.count))) = some (1, true)) ∧ (s.copyCell (aCopy 8 (toBasin 16) 0 none)).isSome = true)
    ∧ (let c := cellWith [] [] []
       [(0x50000, tBreak), (0x40000000, tTranslation)].all (fun x => let o := aCopy 0 [BitVec.ofNat 64 x.1, 0x0001002000000100, 0, 0] 0 none
         let s := copying (onSpine []) o
         s.copyReady c o && (match s.endWait 3 |>.readSpan c placedCtx (o.nextVa c) 32 (spanFuel 32) with
           | (.ok bs, _) => (bs.length == 32) && (x.2 == tBreak)
           | (.fault code _, _) => code == x.2
           | _ => false)) = true)
    ∧ (let c := cellWith [] [] []
       let o := aCopy 0 (fromBasin 0) 0 none
       let s := here (copying (onSpine []) o)
       let full := { s with clu := { s.clu with moved := [(0, 256)] } }
       (full.copyReady c o = true ∧ 256 - (full.clu.moved.lookup c.cl).getD 0 = 0 ∧ 256 - (s.clu.moved.lookup c.cl).getD 0 = 256
        ∧ (s.endWait 3).pieceLen c placedCtx (o.nextVa c) .store (o.rbytes - (o.next c).2) = 32)
       ∧ s.copyReady c o = true ∧ (match (s.endWait 3).writeSpan c placedCtx (o.nextVa c) 32 (spanFuel 32) with
         | (.ok [(key, kid, n)], s1) => s1.spanReady 3 0 [(key, kid, n)] && (s1.line (key / 128)).present && !foreignKey key 0 && (n == 32) && ((s1.line (key / 128)).kid == kid) && ((s1.line (key / 128)).wkey == keyOfId s1.pkg kid)
         | _ => false) = true)
    ∧ [(0 : BitVec 4), 4, 8, 12].all (fun f => (aCopy f (toBasin 0) 32 none).bytes == (aCopy f (toBasin 0) 32 none).total (cellWith [] [] [])) = true
    ∧ ((withRing 1 0 1 0 0 false).ring? (cellWith [] [] []) 16).map (fun r => r.w == r.cl) = some false
    ∧ (let s := withNode (onSpine []) (aNode false [])
       (match s.emitTo 0 1 handle .plain with
         | some (.here n) => decide (2 ≤ n.c) && n.bins.isEmpty && !s.spillFull n.dev
         | _ => false) = true) := by decide +kernel

/-- A matrix entry of the spine. -/
def anEntry (run granted running : Bool) (p : List W64) : MxEnt := ⟨3, 1, 0, 0, run, 0, p, 0, 3, granted, running, 0, 0, none, false⟩
/-- A BF16 tile in the basin at 0, and a job of one row from 0 to 1024. -/
def aLoad128 : List W64 := [0, 0x0000010000000000, 0, 16]
def aJob : List W64 := [0, 0x0000020000000400, 1, 0]
def matrix (s : State) (es : List MxEnt) : State := { s with fresh := 9, clu := { s.clu with mx := es } }

theorem witness_MatrixInstructions :
    [(aLoad128, false, false), ([0, 0, 0, 16], false, true), (aJob, true, false), ([0, 0, 0, 0], true, true)].all (fun x => rdyAnd (withBlock x.1) (fun w => blockDesc w 1 .matrix) (fun w =>
      let e : MxEnt := ⟨0, 1, 0, 0, x.2.1, 0, w.block 0 1, 0, 0, false, false, 0, 0, none, false⟩
      (if x.2.1 then e.badJob w.cell e.act.toNat else e.badLoad w.cell) == x.2.2)) = true
    ∧ [(0, (16 : Nat)), (2, 1024)].all (fun x => let s := (withBlock [0, 0x0000020000000000, 0x1000000801, 0]).putRing (cellWith [] [] []) 16 ⟨8192, x.2, 2, x.1, 0, 0, 0, 0, false, 0, true⟩
        rdyAnd s (fun w => blockDesc w 1 .matrix) (fun w => let e : MxEnt := ⟨0, 1, 0, 0, true, 0, w.block 0 1, 0, 0, false, false, 0, 0, none, false⟩
          !e.badJob w.cell 0 && e.toRing && ((s.ring? w.cell e.ringh).map (·.prod) == some x.1))) = true
    ∧ (let s := (withBlock [0, 0x0000020000000000, 0x1000000801, 0]).putRing (cellWith [] [] []) 16 ⟨8192, 496, 2, 2, 0, 0, 0, 0, false, 0, true⟩
       (s.ring? (cellWith [] [] []) 16).map (fun r => decide (r.slot < 1 * 512)) = some true)
    ∧ 4 ≤ (matrix (onSpine []) (List.replicate 4 (anEntry true false false aJob))).mxPlaces 1 0
    ∧ rdyAnd (onSpine []) (fun w => { role := .matrix, wr := some (3, w.dstWidth 3), once := true }) (fun w => w.quiet 0 3 64) = true := by decide +kernel

theorem witness_MatrixEvents :
    [false, true].all (fun run => [false, true].all (fun granted => let e := anEntry run granted false (if run then aJob else aLoad128)
      let s := matrix (onSpine []) [e]
      s.mxCould e && !s.mxBusy 0 && (granted == ((s.mxNext 0).map (·.num) == some 3)))) = true
    ∧ (anEntry true true false aJob).toRing = false ∧ mxAc8 (((onSpine []).array 0).tileFor 1).flags = mxAc8 (0 : BitVec 5).toNat ∧ (anEntry true true false aJob).rowsOut (cellWith [] [] []) 0 = false
    ∧ (let e := anEntry false true true aLoad128
       (matrix (onSpine []) [e]).awaitsBuild 3 = false ∧ mxBasin e.flags = true ∧ mxSparse e.flags = false ∧ e.reload = 0)
    ∧ [(anEntry true true true [0, 0x0000020000000400, 2, 0], false), (anEntry true true true aJob, true)].all (fun x => !x.1.toRing && x.1.claim.isNone && (decide (x.1.m ≤ x.1.rows + 1) == x.2)) = true := by
  decide +kernel

theorem witness_DrawAndPower :
    [false, true].all (fun held => [false, true].all (fun pend => rdyAnd (at' ((cellWith [] [] []).updUnit 0 (fun u => { u with drawHeld := held, drawPend := pend })) 0 [0] 0x6D)
      (fun w => { wr := some (3, w.dstWidth 3), once := true }) (fun w => (w.wake == false) && (w.unit.drawHeld == held) && (w.unit.drawPend == pend)))) = true
    ∧ (let s := withWord 0x6D
       let t := { mapCells s (fun c => c.updUnit 0 (fun u => u.updThread 0 (fun t => { t with st := .blocked, wkind := 14, word := some 0x000001FD, answer := some 7 }))) with fresh := 1, issue := ⟨1, 0, [0], firstPc, 0x000001FD, 0, true, 0, none⟩ }
       rdyAnd t (fun w => { wr := some (3, w.dstWidth 3), once := true }) (fun w => w.wake && ((w.unit.thread w.lead).answer == some 7)) = true)
    ∧ rdy (onSpine []) (fun _ => { once := true }) = true
    ∧ (let s := { onSpine [] with clu := { Clusters.reset with draws := [⟨0, 0, 1, 0, 3, 1, 0⟩, ⟨0, 1, 1, 3, 7, 2, 0⟩] } }
       s.mayGrant 0 = true ∧ (s.nextDraw 0).map (·.seq) = some 2)
    ∧ (withWord 0x6D).home.mem.wf = true ∧ (onSpine []).pkg.periodEnd ≤ (onSpine []).tb ∧ (onSpine []).pkg.cap < 3201 ∧ (onSpine []).clu.draws = [] := by decide +kernel

theorem witness_Nodes :
    [(handle, (0x50000 : W64), EmitForm.plain, false), (handle, 0x50004, .plain, false), (0x300000002, 0x50000, .plain, false), (handle, 0x50000, .keyed, true)].all (fun x =>
      let s := withNode (onSpine [(1, x.1), (2, x.2.1)]) (aNode x.2.2.2 [])
      rdyAnd s (fun w => { rds := [(1, 64), (2, 64)], once := true, settles := true, bad := !w.uniform 1 || !w.uniform 2 })
        (fun w => ((s.emitTo w.cell.dev w.cell.ctx (w.src 0 1 64) x.2.2.1).isSome == (x.1 == handle)) && s.relsDone w 2 2 && (w.unit.thread 0).kept.isEmpty)) = true
    ∧ [(2 : BitVec 3), 3].all (fun g => triesS (withDirty (withNode (onSpine [(1, handle), (2, 0x50000)]) (aNode false [])))
        (fun s w => { rds := [(1, 64), (2, 64)], once := true, settles := true, bad := !w.uniform 1 || !w.uniform 2, wait := (!w.wake || w.woke 2) && !s.relsDone w g 2 })
        (fun s w => !s.relsDone w g 2 && (s.emitTo 0 1 handle .plain).isSome && ((w.src 0 2 64).toNat % 8 == 0))) = true
    ∧ [0, 268435456].all (fun room => let s := mapCells (withNode (onSpine [(1, handle), (2, 0x50000)]) (aNode false [])) (fun c => c.updUnit 0 (fun u => u.updThread 0 (fun t => { t with kept := List.replicate 16 1 })));
        rdyS { s with sched := { s.sched with spillRoom := room } } (fun _ w => { rds := [(1, 64), (2, 64)], once := true, settles := true, bad := !w.uniform 1 || !w.uniform 2 })
          (fun s w => !(w.unit.thread w.lead).kept.isEmpty && (s.spillFull 0 == decide (room = 0)))) = true
    ∧ (let s := withNode (onSpine []) { aNode false [] with dev := 1 }
       ({ s with pkg := { s.pkg with mode := .two, fabids := [0, 1] } } : State).emitTo 0 1 0x100010002 .remote = some .there)
    ∧ on (onSpine []) (fun w => (match (onSpine []).readSpan w.cell placedCtx 0x50000 16 (spanFuel 16) with
        | (.ok rec, s1) => (rec.length == 16) && !s1.spillFull 0
        | _ => false)) = true
    ∧ (let s := onSpine []
       ({ s with sched := { s.sched with spillRoom := 0 } } : State).spillFull 0 = true)
    ∧ ((aNode false [⟨0, 0, [[]]⟩]).bins.find? (fun x => x.key == 0)).map (fun x => (decide (x.recs.length + 1 < 3), decide (2 ≤ x.recs.length + 1))) = some (true, true)
    ∧ (List.replicate Config.maxKeys (⟨7, 0, []⟩ : Bin)).length = Config.maxKeys
    ∧ [handle, 0x100000003].map (fun h => let s := withNode (onSpine [(1, h)]) (aNode false [⟨0, 0, [[]]⟩])
        (rdyAnd s (fun w => { rds := [(1, 64)], once := true, bad := !w.uniform 1 }) (fun w => (s.ownNode w.cell.dev w.cell.ctx h).isSome),
         rdy s (fun w => { rds := [(1, 64)], wr := some (3, w.dstWidth 3), once := true, bad := !w.uniform 1 }))) = [(true, true), (false, true)]
    ∧ 0 + (aNode false []).t ≤ ({ onSpine [] with clk := 8 } : State).tb
    ∧ ((onSpine []).readSpan (cellWith [] [] []) placedCtx 0x40000000 8 (spanFuel 8)).1 = .fault tTranslation 0x40000000
    ∧ (((onSpine []).pullRecord (cellWith [] [] []) placedCtx 0x50000 8).1 == .ok (List.replicate 8 0)) = true
    ∧ (((onSpine []).pullRecord (cellWith [] [] []) placedCtx 0x40000000 8).1 == .fault tTranslation 0x40000000) = true
    ∧ (({ placedCtx with regions := [region] } : Context).region? (0x1000000 + BitVec.ofNat 64 4)).isSome = true ∧ handleFab handle = fabidOf (onSpine []).pkg 0
    ∧ (onSpine []).asksHost (cellWith [] [] []) 0x50000 = false ∧ (onSpine []).awaitsBuild 7 = false ∧ (devOfFabid (onSpine []).pkg 9).isNone = true ∧ (withNode (onSpine []) (aNode false [])).ownNode 0 1 handle = some (aNode false []) := by decide +kernel

/-- The spine of a cell of the handler. -/
def asHandler (x : List (Nat × W64)) : State := at' { cellWith x [] [] with handler := true } 0 [0] 0x6D

theorem witness_SystemRegisters :
    [((0x005 : BitVec 11), true), (0x108, false)].all (fun x => rdyAnd (asHandler []) (fun w => { rds := if hasInstances x.1 then [(1, 32)] else [], wr := some (3, w.dstWidth 3), lat := 4, bad := !rdsysNum x.1, priv := regPriv w x.1 })
      (fun w => ((asHandler []).ctx? w.cell.ctx).isSome && (hasInstances x.1 == x.2) && w.quiet 0 3 64)) = true
    ∧ (placedCtx.regions[15]?).isSome = true ∧ placedCtx.regions.length ≤ 16 ∧ Config.maxNodes ≤ 65536 ∧ (devClusters (asHandler []).pkg 0).length ≤ 104
    ∧ on (onSpine []) (fun w => !w.cell.handler && (0x100 ≤ (0x100 : BitVec 11).toNat) && wellFormed (.rdsys 0x100 0 3) && wellFormed (.wrsys 0x105 0 3)
        && (uniformTrap w { rds := [], wr := some (3, w.dstWidth 3), lat := 4, bad := !rdsysNum 0x100, priv := regPriv w 0x100 }).all (fun x => x.code != tIllegal)
        && (uniformTrap w (wrsysDesc (onSpine []) w 0x105 0 3)).all (fun x => x.code != tIllegal) && w.run.isNone) = true
    ∧ [(0x105 : BitVec 11), 0x106].all (fun i => rdyS (asHandler []) (fun s w => wrsysDesc s w i 1 3)
        (fun s w => (w.actors (wrsysDesc s w i 1 3) == [0]) && (s.writeReg placedCtx i 0 0).isSome)) = true
    ∧ (let s := asHandler [(1, 1), (3, 0x70001)]
       rdyS { s with home := { s.home with lines := [{ HLine.fresh (keyDev 0 0x70000 / 128) with holders := [⟨9, .m, true⟩] }] } } (fun s w => wrsysDesc s w 0x106 1 3)
        (fun s w => (s.ctx? 1).all (fun c => (s.writeReg c 0x106 (w.src 0 1 32).toNat (w.src 0 3 64)).isNone))) = true
    ∧ triesS (withDirty (asHandler [])) (fun s w => wrsysDesc s w 0x105 1 3) (fun s w => !s.relsDone w 2 3) = true
    ∧ ((placedCtx.tqTail - (0xFFFFFFFF : W64).setWidth 32).toNat ≤ placedCtx.tqSize ∧ placedCtx.tqSize < (placedCtx.tqTail - (0xFFFFFFFE : W64).setWidth 32).toNat)
    ∧ ((onSpine []).hostCtx? 1).isSome = true ∧ (onSpine []).waiting = [] := by decide +kernel

/-- A region or node descriptor at 0x70000, and the kernel of the node at 0x78000. -/
def withDesc (s : State) (b : List Byte) : State := s.poke (keyDev 0 0x70000) b
def regionDesc (base tiles cap : Nat) : List Byte := bytesOfNat 8 base ++ bytesOfNat 8 0x80000 ++ bytesOfNat 4 0 ++ bytesOfNat 4 tiles ++ bytesOfNat 8 cap ++ bytesOfNat 32 0
def nodeDesc (z n : Nat) : List Byte := bytesOfNat 8 0x78000 ++ bytesOfNat 8 0 ++ bytesOfNat 4 (z + n * 2 ^ 16) ++ bytesOfNat 4 0 ++ bytesOfNat 40 0
/-- A kernel header with `basin` pages, a gang, and one word of each section. -/
def kernel (basin gang : Nat) : List Byte := bytesOfNat 4 0x4837564B ++ bytesOfNat 2 0x0100 ++ bytesOfNat 2 1 ++ bytesOfNat 8 0 ++ bytesOfNat 4 128 ++ bytesOfNat 4 64 ++ bytesOfNat 4 0
  ++ bytesOfNat 4 32 ++ bytesOfNat 4 32 ++ bytesOfNat 4 32 ++ bytesOfNat 2 0 ++ bytesOfNat 2 8 ++ bytesOfNat 2 basin ++ bytesOfNat 1 0 ++ bytesOfNat 1 gang ++ bytesOfNat 80 0
def withKernel (s : State) (b : List Byte) : State := s.poke (keyDev 0 0x78000) b
def readsOk : Span (List Byte) → Bool
  | .ok _ => true
  | _ => false

theorem witness_RegionsAndNodes :
    ((onSpine []).hostCtx? 1).isSome = true
    ∧ [(TileSt.building, (0 : BitVec 32), true), (.resident, 1, true), (.resident, 0, false)].all (fun x => let s := withTile (onSpine []) [tileAt x.1 x.2.1 none]
        (s.home.tiles.any (fun t => region.holds t.base && (t.st == .building || t.pin != 0))) == x.2.2) = true
    ∧ [(0x80000000, 1, 16384), (0x80000000, 65536, 0), (0x80000000, 65537, 0), (0x50000000 / 3, 1, 0)].map (fun x =>
        let s := withDesc (onSpine []) (regionDesc x.1 x.2.1 x.2.2)
        match s.fBytes placedCtx (descVa 0x70001) 64 with
        | (.ok b, s1) => (regionOfDesc b).map (fun r => (decide (capBound s1.pkg.mode < ((s1.otherRegions placedCtx 0).map Region.cap).sum + r.cap), (s1.otherRegions placedCtx 0).any r.meets))
        | _ => none) = [some (false, false), some (false, false), none, none]
    ∧ (regionOfDesc (regionDesc 0x80000000 1 (2 ^ 27 + 16384))).map (fun r => decide (capBound .one < r.cap)) = some true
    ∧ (let s := withDesc (onSpine []) (regionDesc 0x10000 1 0)
       (regionOfDesc (regionDesc 0x10000 1 0)).map (s.mapsIn placedCtx) = some true)
    ∧ (let s := withNode (onSpine []) (aNode false [⟨0, 0, [[]]⟩])
       (s.node? 0 2).map s.nodeBusy = some true ∧ ((withNode s (aNode false [])).node? 0 2).map s.nodeBusy = some false)
    ∧ ((withNode (onSpine []) { aNode false [] with ctx := 7 }).node? 0 2).map (·.ctx) = some 7
    ∧ [(16, 256, 1, 0), (16, 256, 0, 0), (16, 257, 1, 0), (16, 256, 1, 2)].map (fun x => let s := withKernel (withDesc (onSpine []) (nodeDesc x.1 x.2.1)) (kernel x.2.2.1 x.2.2.2)
        match s.fBytes placedCtx (descVa 0x70001) 64 with
        | (.ok b, s1) => ((nodeOfDesc placedCtx 2 0x70001 b).isSome, (match s1.readHeader placedCtx (BitVec.ofNat 64 (fieldAt b 0 8)) with
            | (.ok h, _) => some (h.gang, 4096 * h.basin)
            | _ => none))
        | _ => (false, none)) = [(true, some (0, 4096)), (true, some (0, 0)), (false, some (0, 4096)), (true, some (2, 4096))] := by decide +kernel

/-- A handler's spine and a cell 5 of the same launch. -/
def handling (x : List (Nat × W64)) (evicted : Bool) : State :=
  let s := asHandler x
  { s with cells := s.cells ++ [{ cellWith [] [] [] with uid := 2, index := 5, evicted := evicted }] }

/-- The handler names 64 bytes of a page, of the device or of the host, with a store of theirs on its way to its home. -/
def ranged (far : Bool) : State :=
  let s := asHandler [(1, 0x50000), (2, 64)]
  { s with clu := { Clusters.reset with tlb := if far then [⟨0, 1, 0, pageNo 0 0x50000, 0x5F, false⟩] else []
                                        stores := [{ dirtyWord 0 with ph := .drained, key := if far then keyHost (0x50000 % pageBytes 0) else keyDev 0 0x50000 }] } }

theorem witness_SystemOperations :
    [((0x8000000005 : W64), (0 : W64), some 2), (5, 0x1F00, some 2), (5, 0x0001, some 2), (0x0100000000000005, 0, some 2), (6, 0, none)].all (fun x => rdyAnd (handling [(1, x.1), (2, x.2.1)] false)
      (fun w => sysopDesc w 0 1 2 true) (fun w => (w.actors (sysopDesc w 0 1 2 true) == [0]) && (((handling [] false).namedCell w.cell.ctx (w.src 0 1 64)).map (·.uid) == x.2.2))) = true
    ∧ ((handling [] true).cell? 2).map (·.evicted) = some true
    ∧ rdyAnd (handling [(1, 5)] false) (fun w => sysopDesc w 6 1 1 false) (fun w => !w.cell.killed && ((handling [] false).buildsOf 2 == [])) = true
    ∧ [((0x50000 : W64), (64 : W64)), (0x40000000, 1)].all (fun x => let s := asHandler [(1, x.1), (2, x.2)]
        rdyAnd s (fun w => sysopDesc w 3 1 2 true) (fun w =>
          let r := s.pagesOf placedCtx 0 x.1 x.2
          (w.tids == [0]) && (if x.1 = 0x50000 then r.2.1 == .done else r.2.1 == .bad 0x40000000) && !s.tlbinvWaits w 1 2 0
            && s.cells.all (fun c => c.subs.isEmpty) && (r.2.2.rangeKeys r.1 false).isEmpty && (r.2.2.rangeKeys r.1 true).isEmpty)
        && rdy s (fun w => sysopDesc w 5 1 2 true) && rdy (onSpine [(1, x.1), (2, x.2)]) (fun _ => { rds := [(1, 64), (2, 64)] })) = true
    ∧ rdy (asHandler [(1, 0x50000)]) (fun w => sysopDesc w 3 1 2 true) = true
    ∧ (let s := { asHandler [(1, 0x50000), (2, 64)] with clu := { Clusters.reset with stores := [{ dirtyWord 0 with ph := .drained }] } }
       let r := s.pagesOf placedCtx 0 0x50000 64
       on s (fun w => s.tlbinvWaits w 1 2 0) = true ∧ r.2.2.rangeKeys r.1 false ≠ [] ∧ (r.2.2.rangeKeys r.1 false).any (outKey 0) = false ∧ r.2.2.dirtyOn r.1 ≠ [])
    ∧ [keyHost 0x1000, keyDev 1 0x1000].map (outKey 0) = [true, true]
    ∧ [false, true].all (fun far => let s := ranged far
        let p := s.pagesOf placedCtx 0 0x50000 64
        (p.2.1 == .done) && [false, true].all (fun inv => !(p.2.2.rangeKeys p.1 inv).isEmpty && ((p.2.2.rangeKeys p.1 inv).any (outKey 0) == far) && !(p.2.2.dirtyOn p.1).isEmpty)
          && (if far then rdyS s (fun s w => { rds := [(1, 64), (2, 64)], wait := s.rangeHold w 1 2 false }) (fun _ w => w.tids == [0])
                && rdyS s (fun s w => { sysopDesc w 5 1 2 true with wait := s.rangeHold w 1 2 true }) (fun _ _ => true)
              else triesS s (fun s w => { rds := [(1, 64), (2, 64)], wait := s.rangeHold w 1 2 false }) (fun _ w => w.tids == [0])
                && triesS s (fun s w => { sysopDesc w 5 1 2 true with wait := s.rangeHold w 1 2 true }) (fun _ _ => true)
                && triesS s (fun s w => { sysopDesc w 3 1 2 true with wait := w.tids.any (s.tlbinvWaits w 1 2) }) (fun s w => s.tlbinvWaits w 1 2 0))) = true
    ∧ (asHandler []).home.lines = [] := by decide +kernel

/-- A queue of the context with its ring at 0x70000. -/
def queued (h : HwQueue) (cmd : List Byte) : State :=
  let s := onSpine []
  { s.poke (keyDev 0 0x70000) cmd with sched := { s.sched with queues := h :: s.sched.queues.drop 1 } }
def aQueue (running : List Command) : HwQueue := { qbase := 0x70004, tail := 1, head := 0, bound := some 1, running := running }
/-- A command: the word at +0, then CVA, CVAL and the arguments. -/
def cmdBytes (w cva cval a0 a1 a2 : Nat) : List Byte := bytesOfNat 8 w ++ bytesOfNat 8 cva ++ bytesOfNat 8 cval ++ bytesOfNat 8 a0 ++ bytesOfNat 8 a1 ++ bytesOfNat 8 a2 ++ bytesOfNat 16 0
def readsCmd (s : State) (q : Context → List Byte → State → Bool) : Bool := match s.readCmd 0 with
  | .ok cx b s1 => q cx b s1
  | _ => false
def aCommand (opc : BitVec 8) (finished : Bool) (cva : W64) (prog : Nat) : Command := ⟨0, opc, cva, 9, 0x50000, 0x51000, 32, prog, finished⟩

theorem witness_QueueCommands :
    0 < (onSpine []).sched.queues.length ∧ (aQueue []).bound.isSome = true ∧ ((16 : W64).setWidth 32 - (aQueue []).head).toNat ≤ 2 ^ (aQueue []).log ∧ 2 ^ (aQueue []).log < ((17 : W64).setWidth 32 - (aQueue []).head).toNat
    ∧ (match ({ queued (aQueue []) [] with sched := { (queued (aQueue []) []).sched with queues := [{ aQueue [] with qbase := 0x40000004 }] } } : State).readCmd 0 with
        | .fault _ => true
        | _ => false) = true
    ∧ [(cmdBytes 0 0 0 0 0 0, true), (cmdBytes 1 0 0 0x78000 0x50000 1, false), (cmdBytes 2 0 0 0x50000 0x51000 0x10000000001, true), (cmdBytes 2 0 0 0x50000 0x51000 0, false),
        (cmdBytes 3 0 0 0x50000 0 0, false), (cmdBytes 3 0 0 0x50004 0 0, true), (cmdBytes 4 0x50000 7 0 0 0, false), (cmdBytes 5 0 0 0 0 0, true)].all (fun x =>
        readsCmd (queued (aQueue []) x.1) (fun _ b _ => cmdBad b == x.2)) = true
    ∧ [(1, 0, 1, true), (1, 2, 1, false), (0, 0, 0, false)].all (fun x => readsCmd (withKernel (queued { aQueue [] with bound := some 1 } (cmdBytes 1 0 0 0x78000 0x50000 x.2.2.1)) (kernel x.1 x.2.1)) (fun cx b s1 =>
        match s1.readHeader cx 0x78000 with
        | (.ok hd, s2) =>
          let n := (cmdOf 0 b).arg2.toNat
          (x.2.2.2 == !(n == 0 || (hd.gang != 0 && n % hd.gang != 0))) && s2.fitsDevice hd cx.dev cx.reserve && cx.poolTooSmall hd
            && !({ cx with poolBase := 0x100000, poolSize := 0x10000000 } : Context).poolTooSmall hd && (match (s2.patchValues cx 0x78080 0x50000 0 hd.patches).1 with
              | .ok _ => true
              | _ => false)
        | _ => false)) = true
    ∧ ((withKernel (onSpine []) (kernel 513 0)).readHeader placedCtx 0x78000).1 = .bad ∧ ((onSpine []).readHeader placedCtx 0x40000000).1 = .fault
    ∧ ((withKernel (onSpine []) []).poke (keyDev 0 0x50000) (bytesOfNat 4 1024) |>.patchValues placedCtx 0x78080 0x50000 0 [(1, 0, 0)]).1 = .range 0
    ∧ (let s := queued (aQueue [aCommand 2 false 0 0, { aCommand 3 false 0 (keyDev 0 0x50000) with idx := 1, arg1 := 0 }]) []
       (s.cmd? 0 0).map (fun x => x.2.opc) = some 2 ∧ (s.cmd? 0 1).map (fun x => x.2.opc) = some 3
        ∧ readsOk (s.fPiece placedCtx 0x50000 32).1 = true ∧ s.fTarget placedCtx 0x51000 .store = some (keyDev 0 0x51000, 0)
        ∧ (let t := { s with home := { s.home with lines := [{ s.line (keyDev 0 0x51000 / 128) with present := true }] } }
           (t.recall (keyDev 0 0x51000) 32).partReady (queueNum 0) 0 (keyDev 0 0x51000) 32 = true ∧ (t.line (keyDev 0 0x51000 / 128)).present = true
            ∧ foreignKey (keyDev 0 0x51000) 0 = false ∧ t.fTarget placedCtx 0x51000 .store = some (keyDev 0 0x51000, 0))
        ∧ (s.line (keyDev 0 0x51000 / 128)).wkey = keyOfId s.pkg 0 ∧ (s.line (keyDev 0 0x50000 / 128)).maybeDirty = false) := by decide +kernel

def someParams : CtxParams := ⟨0, 0x10000, [], [1, 2], 7, 2 ^ 16, 0x100000, 0x10000000, none⟩

theorem witness_ContextCommands :
    [(0 : W64), 0x40000000, 0x50000].all (fun cva => let s := queued (aQueue [aCommand 4 true cva 0]) []
      ((s.cmd? 0 0).map (fun x => x.2.finished) == some true) && ((s.fTarget placedCtx cva .atomic).isSome == decide (cva ≠ 0x40000000))) = true
    ∧ (let s := here (queued (aQueue [aCommand 4 true 0x50000 0]) [])
       (s.recallAtomic (keyDev 0 0x50000) 8).partReady (queueNum 0) 0 (keyDev 0 0x50000) 8 = true ∧ (s.line (keyDev 0 0x50000 / 128)).present = true
        ∧ foreignKey (keyDev 0 0x50000) 0 = false ∧ (s.line (keyDev 0 0x50000 / 128)).kid = 0 ∧ (s.line (keyDev 0 0x50000 / 128)).wkey = keyOfId s.pkg 0)
    ∧ ({ onSpine [] with sched := { (onSpine []).sched with nextTag := 2 } } : State).mayCreate someParams = true
    ∧ ((onSpine []).hostCtx? 1).isSome = true ∧ (2 ^ 16 ≤ 2 ^ 40 ∧ ¬(65535 = 0 ∨ (2 ^ 16 ≤ 65535 ∧ 65535 ≤ 2 ^ 40))) := by decide +kernel

theorem witness_HostAndFirmware :
    let s := onSpine []
    let n := keyDev 0 0x50000 / 128
    let empty := { s with sched := Sched.reset }
    (s.pkg.booted = true ∧ s.sched.ctxs ≠ [] ∧ empty.sched.ctxs = [] ∧ modeOfCode 1 = some .two ∧ Mode.two ≠ empty.pkg.mode ∧ empty.pkg.failed = [] ∧ (16 : BitVec 8) ≠ 0 ∧ empty.home.writes = [] ∧ empty.home.mem.wf = true)
    ∧ (s.hostReaches 0 = true ∧ (linesOf (keyDev 0 0x50000) 256).all (fun l => !s.flipping (128 * l) 0 && !s.dirFull l && !(s.line l).maybeDirty && !(s.line l).poison && (s.line l).kid == 0
        && (s.line l).wkey == keyOfId s.pkg 0) = true)
    ∧ [(false, false), (true, true)].all (fun x => let h : HomeWrite := ⟨5, 0, keyDev 0 0x50000, 0, x.1, bytesOfNat 8 7⟩
        let t := { s with home := { s.home with writes := [h], lines := [{ HLine.fresh n with poison := x.2, present := true }] } }
        t.clu.stores == [] && t.writeReady 1000 0 h.key 8 && (linesOf h.key 8).all (fun l => (t.line l).noted == [] && (t.line l).present && !foreignKey h.key h.dev && (t.line l).kid == h.kid && (t.line l).wkey == keyOfId t.pkg h.kid)
          && (!(t.line n).poison || h.clear) && h.key / 128 == (h.key + 7) / 128) = true
    ∧ (s.home.flips = [] ∧ (0, 5) ∉ s.home.bias ∧ s.poolIn 0 5 = false)
    ∧ [true, false].all (fun b => let t := { s with home := { s.home with flips := [⟨0, 5, b⟩] } }
        t.home.flips.contains ⟨0, 5, b⟩ && t.blockQuiet 0 5 && t.hostHasNone 0 5) = true := by decide +kernel

/-- A launch of four cells whose next is the second, an item, and a context with a save pool. -/
def aLaunch (h : Header) : Launch := ⟨7, 3, 1, 0x3FF80, 0x99, 4, h, [], 5, false, 1, 0, some 0, none, [], false, none⟩
def anItem (k : ItemKind) (ctx : BitVec 32) (reqs : List (Nat × Nat × Nat)) : PendItem := ⟨2, 0, ctx, k, 5, 0, (0, 0, 0), 0, false, reqs, [], [], []⟩
def roomy (tag : BitVec 32) : Context := { placedCtx with tag := tag, poolBase := 0x100000, poolSize := 0x10000000, slice := 100, watchdog := 50, lw := 65536 }
def pendingOn (s : State) (l : List PendItem) (h : Header) : State :=
  { s with fresh := 9, sched := { s.sched with ctxs := [roomy 1, roomy 2], items := l, launches := [aLaunch h] } }
/-- Every thread of every cell in a state. -/
def allThreads (s : State) (f : Thread → Thread) : State := mapCells s (fun c => { c with units := c.units.map (fun u => { u with threads := u.threads.map f }) })
/-- A part with two clusters, the first full with a cell at its eviction point. -/
def crowded : State :=
  let s := mapCells (allThreads (onSpine []) (fun t => { t with st := .parked })) (fun c => { c with basinSize := 0x200000 })
  { s with clk := 100000, pkg := { s.pkg with fuseCl := 3 :: List.replicate 7 0 } }
def alone : Header := { placedHeader with gang := 0 }

theorem witness_CellsPlaced :
    (let i := anItem (.launch 7) 1 []
     let s := pendingOn (onSpine []) [i] alone
     s.ranked 0 = [i] ∧ s.item? 2 = some i ∧ s.launch? 7 = some (aLaunch alone) ∧ s.ctx? 1 = some (roomy 1) ∧ (s.hosts 0 1 2 alone (.open false)).head? = some (0, 65536)
      ∧ (s.poolRoom (roomy 1) alone.saveBytes).isSome = true ∧ s.tb < i.since + (roomy 1).slice.toNat ∧ i.since + (roomy 1).slice.toNat ≤ ({ s with clk := 160 } : State).tb)
    ∧ (let i := anItem (.launch 7) 1 []
       let h := { placedHeader with gang := 2 }
       let s := pendingOn crowded [i] h
       s.wants i = some (h, false, 2) ∧ s.gathering i = false ∧ gangHosts 2 (s.hosts 0 1 2 h (.open false)) = none ∧ i.since + 10000 ≤ s.tb ∧ s.hasPool i h 2 = true ∧ s.gangPlan i h false 2 = some ([1], [1, 0]))
    ∧ (let i := anItem (.recipe 7) 1 []
       let s0 := pendingOn crowded [i] alone
       let s := { s0 with pkg := { s0.pkg with fuseCl := 1 :: List.replicate 7 0 } }
       s.wants i = some (alone, false, 1) ∧ s.gathering i = false ∧ s.hasPool i alone 1 = true ∧ s.recipeHost i alone = none ∧ s.recipePlan i alone = some ([1], [0]))
    ∧ (let i := anItem (.launch 7) 2 []
       let s := pendingOn (onSpine []) [i] alone
       s.wants i = some (alone, false, 1) ∧ s.hasPool i alone 1 = true ∧ 0 ∈ devClusters s.pkg 0 ∧ s.target i alone false 0 = true ∧ s.topOn 0 < i.pri.toNat)
    ∧ [[], [anItem (.launch 7) 2 []]].all (fun l => let s0 := pendingOn (onSpine []) l alone
        let s := { s0 with sched := { s0.sched with slices := [⟨0, 1, 0, 0⟩] } }
        (s.sched.slices.find? (fun y => y.cl == 0) == some ⟨0, 1, 0, 0⟩) && !s.requested 0 && !(s.cellsOn 0).isEmpty && devOfDie s.pkg.mode 0 == 0 && s.ranked 0 == l
          && ((s.ctx? 1).map (·.slice) == some 100) && l.all (fun i => s.target i alone false 0 && decide (s.topOn 0 ≤ i.pri.toNat))) = true
    ∧ (let s := pendingOn (onSpine []) [anItem (.launch 7) 2 [(0, 0, 0)]] alone
       (s.sched.items.flatMap (fun i => i.reqs)).find? (fun r => r.1 == 0 && decide (r.2.2 ≤ s.tb)) = some (0, 0, 0) ∧ (s.actedOn 0).map (·.uid) = [1] ∧ s.buildsOf 1 = []
        ∧ ((s.cellsOn 0).map (fun c => ((c.unit 0).thread 0).st)) = [.eligible]) := by decide +kernel

/-- The cell on its way out: past its eviction point. -/
def leaving : State := mapCells (pendingOn (allThreads (onSpine []) (fun t => { t with st := .parked })) [] alone) (fun c => { c with evicting := true, save := 0x100000 })

theorem witness_EvictionAndRestore :
    (let s := pendingOn (allThreads (onSpine []) (fun t => { t with st := .parked })) [anItem (.launch 7) 2 [(0, 0, 0)]] alone
     (s.cell? 1).map (fun c => (c.evicted, c.evicting, s.cellRequested c, s.evictable c)) = some (false, false, true, true))
    ∧ (match leaving.cell? 1 with
        | some c => decide (leaving.stopEngines c = leaving) && leaving.enginesQuiet c && decide (leaving.sendFreezes c = leaving) && leaving.quiet c && !c.killed && c.evicting
            && decide (128 ∣ c.save.toNat) && !c.evicted && decide (c.units.length = c.hdr.ncrew + 1) && decide (c.basinSize = 4096 * c.hdr.basin)
            && decide (c.cis.length ≤ 64) && decide ((c.cis.filter (fun g => g.mode == .gather)).length ≤ 8) && decide (c.bars.length ≤ 16)
            && c.units.all (fun u => decide (u.threads.length ≤ 128) && decide (u.entries.length ≤ 256)) && decide (c.hdr.fast ≤ 192)
        | none => false) = true
    ∧ [matrix leaving [anEntry true true true aJob], { withDirty leaving with fresh := 9 }].map (fun s => match s.cell? 1 with
        | some c => let s1 := s.stopEngines c
          (s1.enginesQuiet c, (s1.sendFreezes c).quiet c)
        | none => (true, true)) = [(false, true), (true, false)]
    ∧ (let s := mapCells (pendingOn (onSpine []) [anItem (.restore [1]) 1 []] alone) (fun c => { c with evicted := true, save := 0x100000 })
       (match s.cell? 1 with
        | some c => !((s.ranked 0).takeWhile (fun x => x.id != 2)).any (fun x => x.stop || s.restoreFits x) && s.restoreCells [1] == [c]
            && s.restoreHosts (anItem (.restore [1]) 1 []) [c] == some [(0, 0, false)] && c.deferred.isEmpty && decide (1 ≤ c.units.length)
        | none => false) = true)
    ∧ (let s := mapCells (pendingOn (allThreads (onSpine []) (fun t => { t with st := .exited })) [] alone) (fun c => { c with launch := 7 })
       (s.cell? 1).map (fun c => (s.mayEnd c, c.evicted, s.launch? c.launch)) = some (true, false, some (aLaunch alone)) ∧ (aLaunch alone).ended + 1 < (aLaunch alone).count)
    ∧ (let l := { aLaunch alone with ended := 3 }
       l.count ≤ l.ended + 1 ∧ l.queue = some 0) := by decide +kernel

/-- A context whose trap queue of 16 records stands at 0x70000, told at the host or at a node. -/
def trapping (host : Bool) : State :=
  let s := withNode (onSpine []) (aNode false [])
  { s with sched := { s.sched with ctxs := [{ roomy 1 with trapq := 0x70004, trapHost := host, handler := handle }], traps := [⟨0, 1, List.replicate 8 3, false, 0, 0⟩] }, clk := 7, home := { s.home with lines := [{ s.line (keyDev 0 0x70000 / 128) with present := true }] } }
def onPage (s : State) : State := { s with clu := { s.clu with stalls := [⟨0, 100, 1, 0x40000000, 65536, 0⟩] } }
/-- A line of host memory, held here. -/
def farLine : Nat := keyHost 0x1000 / 128

theorem witness_TrapServiceAndLinks :
    [true, false].all (fun x => let s := trapping x
      match s.nextRecord 0 with
      | some (r, c) => let va := ((c.trapq >>> 12) <<< 12) + BitVec.ofNat 64 (64 * (c.tqTail.toNat % c.tqSize))
        (s.fTarget c va .store == some (keyDev 0 0x70000, 0)) && ((s.noticeNode c r.fromHandler).isSome == !x) && !s.spillFull 0 && (s.recall (keyDev 0 0x70000) 64).partReady (trapNum 0) 0 (keyDev 0 0x70000) 64
          && (s.line (keyDev 0 0x70000 / 128)).present && !foreignKey (keyDev 0 0x70000) 0 && (s.line (keyDev 0 0x70000 / 128)).kid == 0 && (s.line (keyDev 0 0x70000 / 128)).wkey == keyOfId s.pkg 0
      | none => false) = true
    ∧ (let s := mapCells (pendingOn (onSpine []) [] alone) (fun c => c.updUnit 0 (fun u => { u with timer := 65536 }))
       (s.cell? 1).map (fun c => (s.watchDue c 0, decide (0 < c.units.length))) = some (true, true) ∧ s.buildsOf 1 = [])
    ∧ (let s := onPage (allThreads (onSpine []) (fun t => { t with st := .blocked, wkind := 16, wobj := 0x40000008 }))
       s.asked 1 0x40000000 0 = true ∧ s.clu.stalls.all (fun x => x.core != 101) = true ∧ s.buildsOf 1 = [] ∧ s.clu.stalls.all (fun x => x.holds 0x40000008 && x.core == coreNo 0 ((cellWith [] [] []).unit 0)) = true)
    ∧ (let s := onSpine []
       s.ctx? 1 = some placedCtx ∧ canonical 0x50000 = true ∧ placedCtx.region? 0x50000 = none ∧ s.clu.tlb = [] ∧ walkFrom s 0 0x50000 3 placedCtx.root.toNat = .leaf 2 0x1F)
    ∧ [(100, true), (0, false)].all (fun x => let s := { onSpine [] with home := { (onSpine []).home with lines := [{ HLine.fresh farLine with present := true, mine := .m, leases := [(0, 0, x.1)] }] } }
        farKey (128 * farLine) && (s.line farLine).present && (decide (s.tb < (s.line farLine).latest) == x.2)) = true
    ∧ (let x : Holder := ⟨9, .m, true⟩
       let s := { onSpine [] with home := { (onSpine []).home with lines := [{ HLine.fresh 7 with holders := [x] }] } }
       (s.line 7).holders.find? (fun y => y.who == 9) = some x ∧ x.asked = true)
    ∧ (let s := onSpine []
       s.home.gated.contains 127 = false ∧ s.home.hreset.contains 3 = false ∧ s.home.lines = []) := by decide +kernel

/-- The part with port 3 up, a fence of a release, and flits under way. -/
def porting (fs : List Flit) : State :=
  let s := onSpine []
  { s with pkg := { s.pkg with ports := modNth (fun _ => { st := 2, lanes := 4 }) 3 s.pkg.ports }
           clk := 160000, clu := { s.clu with fences := [(0, 3, 5)], flits := fs } }
/-- A flit that a home sends, which has failed `k` times. -/
def aFlit (port : Nat) (bulk : Bool) (load : FlitLoad) (left k : Nat) : Flit := ⟨4, port, 1000, 9, bulk, some 0, load, left, k, 0⟩

theorem witness_PortsAndBoot :
    [[], [aFlit 3 true .other 8 0], [aFlit 3 false (.fence 5) 2 0]].map (fun fs => ((porting fs).clu.fences.find? (fun f => f.1 == 0 && f.2.1 == 3),
        (porting fs).clu.flits.any (fun x => x.load == .fence 5 || (x.port == 3 && x.bulk && x.src != 2000 && decide (x.num < 5)))))
      = [(some (0, 3, 5), false), (some (0, 3, 5), true), (some (0, 3, 5), true)]
    ∧ [(FlitLoad.other, 7), (.directory 7, 8)].all (fun x => let s := porting [aFlit 3 true x.1 8 x.2]
        (s.clu.flits.find? (fun f => f.port == 3 && f.load == x.1) == some (aFlit 3 true x.1 8 x.2)) && (match s.pkg.ports[3]? with
        | some p => p.st == 2 && p.recent.isEmpty
        | none => false)) = true
    ∧ (porting []).clu.flits = []
    ∧ ((1 : BitVec 4) = 1 ∧ 3 < (porting []).pkg.ports.length ∧ hdieUp (porting []).pkg (3 / 16) = true ∧ 71 - 64 < (porting []).pkg.eports.length)
    ∧ (let f := aFlit 66 true .other 0 0
       (porting [f]).clu.flits.find? (fun f => f.port == 64 + 2 && f.left == 0 && decide (f.sent + 100000 ≤ (porting [f]).tb)) = some f)
    ∧ [(0x10 : BitVec 16)].length = numDevs (onSpine []).pkg.mode
    ∧ (let s := { onSpine [] with sched := Sched.reset }
       hostReachable s.pkg = true ∧ s.pkg.bridge = none ∧ s.pkg.booting = false ∧ s.tb < 100000000 ∧ ({ s with clk := 160000002 } : State).tb = 100000001 ∧ (12 : Nat) < 13 ∧ s.pkg.failed.contains 12 = false ∧ [9].all (fun d => decide (d < 13))) := by decide +kernel

end Sys2Proof.Tests
end

section
/-! SUPPORT. Integer division (R65, R227): the results of `div` and `rem` are the library's division of words of the operation's width,
but for the quotient by 0. -/

namespace Sys2Proof.Machine

/-! ## Words -/

theorem setWidth_ofInt {k w : Nat} (h : k ≤ w) (i : Int) : (BitVec.ofInt w i).setWidth k = BitVec.ofInt k i := by
  apply BitVec.eq_of_toInt_eq
  rw [← BitVec.signExtend_eq_setWidth_of_le _ h, BitVec.toInt_signExtend_eq_toInt_bmod_of_le _ h, BitVec.toInt_ofInt, BitVec.toInt_ofInt]
  exact Int.bmod_bmod_of_dvd (Nat.pow_dvd_pow 2 h)

theorem setWidth_sx32 (x : W64) : (sx32 x).setWidth 32 = x.setWidth 32 := by
  apply BitVec.eq_of_toInt_eq
  rw [← BitVec.signExtend_eq_setWidth_of_le _ (by decide), BitVec.toInt_signExtend_eq_toInt_bmod_of_le _ (by decide), sx32,
    BitVec.toInt_signExtend_of_le (by decide), BitVec.toInt_bmod_cancel]

theorem ofInt_two_pow_sub_one (n : Nat) : BitVec.ofInt n (2 ^ n - 1) = BitVec.allOnes n := by
  have hc : (2 ^ n - 1 : Int) = ((2 ^ n - 1 : Nat) : Int) := by rw [Nat.cast_sub Nat.one_le_two_pow]; simp
  apply BitVec.eq_of_toNat_eq
  rw [hc, BitVec.ofInt_natCast, BitVec.toNat_ofNat, BitVec.toNat_allOnes]
  exact Nat.mod_eq_of_lt (Nat.sub_lt (Nat.two_pow_pos n) Nat.one_pos)

theorem toInt_eq_zero {n : Nat} {x : BitVec n} : x.toInt = 0 ↔ x = 0 := by
  rw [← BitVec.toInt_inj]
  exact (congrArg (x.toInt = ·) BitVec.toInt_zero.symm).to_iff

/-! ## Quotient and remainder at a width -/

theorem remn_eq_tmod (i j : Int) : remn i j = i.tmod j := by
  unfold remn
  split
  · next h => rw [h, Int.tmod_zero]
  · rfl

/-- The quotient reduced to the width: the minimum by -1 included, as the library's `sdiv` wraps there too. -/
theorem ofInt_quot_toInt {n : Nat} (x y : BitVec n) :
    BitVec.ofInt n (quot n x.toInt y.toInt) = if y = 0 then BitVec.allOnes n else x.sdiv y := by
  unfold quot
  split
  · next h => rw [if_pos (toInt_eq_zero.mp h), ofInt_two_pow_sub_one]
  · next h =>
    rw [if_neg (h ∘ toInt_eq_zero.mpr)]
    apply BitVec.eq_of_toInt_eq
    rw [BitVec.toInt_ofInt, BitVec.toInt_sdiv]

theorem ofInt_remn_toInt {n : Nat} (x y : BitVec n) : BitVec.ofInt n (remn x.toInt y.toInt) = x.srem y := by
  rw [remn_eq_tmod, ← BitVec.toInt_srem, BitVec.ofInt_toInt]

theorem ofInt_quot_toNat {n : Nat} (x y : BitVec n) :
    BitVec.ofInt n (quot n x.toNat y.toNat) = if y = 0 then BitVec.allOnes n else x / y := by
  have h0 : (y.toNat : Int) = 0 ↔ y = 0 := by simp [BitVec.toNat_eq]
  unfold quot
  split
  · next h => rw [if_pos (h0.mp h), ofInt_two_pow_sub_one]
  · next h => rw [if_neg (h ∘ h0.mpr), ← Int.ofNat_tdiv, BitVec.ofInt_natCast, BitVec.udiv_def]

theorem ofInt_remn_toNat {n : Nat} (x y : BitVec n) : BitVec.ofInt n (remn x.toNat y.toNat) = x % y := by
  rw [remn_eq_tmod, ← Int.ofNat_tmod, BitVec.ofInt_natCast, BitVec.umod_def]

/-! ## The results of `div` and `rem`, form by form (R227) -/

theorem divResult_s32_quot (a b : W64) : (divResult false 0 a b).setWidth 32
    = if b.setWidth 32 = (0 : W32) then BitVec.allOnes 32 else (a.setWidth 32).sdiv (b.setWidth 32) := by
  rw [← ofInt_quot_toInt, ← setWidth_ofInt (w := 64) (by decide)]
  exact setWidth_sx32 _

theorem divResult_s32_rem (a b : W64) : (divResult true 0 a b).setWidth 32 = (a.setWidth 32).srem (b.setWidth 32) := by
  rw [← ofInt_remn_toInt, ← setWidth_ofInt (w := 64) (by decide)]
  exact setWidth_sx32 _

theorem divResult_n32_quot (a b : W64) : divResult false 1 a b
    = (if b.setWidth 32 = (0 : W32) then BitVec.allOnes 32 else a.setWidth 32 / b.setWidth 32).setWidth 64 := by
  rw [← ofInt_quot_toNat, ← setWidth_ofInt (w := 64) (by decide)]
  rfl

theorem divResult_n32_rem (a b : W64) : divResult true 1 a b = (a.setWidth 32 % b.setWidth 32 : W32).setWidth 64 := by
  rw [← ofInt_remn_toNat, ← setWidth_ofInt (w := 64) (by decide)]
  rfl

theorem divResult_s64_quot (a b : W64) : divResult false 2 a b = if b = 0 then BitVec.allOnes 64 else a.sdiv b :=
  ofInt_quot_toInt a b

theorem divResult_s64_rem (a b : W64) : divResult true 2 a b = a.srem b := ofInt_remn_toInt a b

theorem divResult_n64_quot (a b : W64) : divResult false 3 a b = if b = 0 then BitVec.allOnes 64 else a / b :=
  ofInt_quot_toNat a b

theorem divResult_n64_rem (a b : W64) : divResult true 3 a b = a % b := ofInt_remn_toNat a b

/-! ## Truncating division of words -/

theorem tmod_nonpos {i : Int} (j : Int) (h : i ≤ 0) : i.tmod j ≤ 0 := by
  have hneg : 0 ≤ (-i).tmod j := Int.tmod_nonneg j (by omega)
  rw [Int.neg_tmod] at hneg
  omega

/-- Truncating division; the one pair left out is that whose quotient does not fit the width. -/
theorem sdiv_srem_truncate {n : Nat} {x y : BitVec n} (hy : y ≠ 0) (ho : ¬(x = BitVec.intMin n ∧ y = BitVec.allOnes n)) :
    (x.sdiv y).toInt * y.toInt + (x.srem y).toInt = x.toInt ∧ (x.srem y).toInt.natAbs < y.toInt.natAbs
      ∧ (0 ≤ x.toInt → 0 ≤ (x.srem y).toInt) ∧ (x.toInt ≤ 0 → (x.srem y).toInt ≤ 0) := by
  have hq : (x.sdiv y).toInt = x.toInt.tdiv y.toInt :=
    BitVec.toInt_sdiv_of_ne_or_ne x y (by rw [BitVec.neg_one_eq_allOnes]; exact not_and_or.mp ho)
  have hpos : 0 < y.toInt.natAbs := Int.natAbs_pos.mpr (hy ∘ toInt_eq_zero.mp)
  rw [hq, BitVec.toInt_srem]
  refine ⟨Int.tdiv_mul_add_tmod _ _, ?_, Int.tmod_nonneg _, tmod_nonpos _⟩
  rw [Int.natAbs_tmod]
  exact Nat.mod_lt _ hpos

theorem udiv_umod_euclid {n : Nat} {x y : BitVec n} (hy : y ≠ 0) :
    (x / y).toNat * y.toNat + (x % y).toNat = x.toNat ∧ (x % y).toNat < y.toNat := by
  rw [BitVec.toNat_udiv, BitVec.toNat_umod]
  exact ⟨Nat.div_add_mod' _ _, Nat.mod_lt _ (Nat.pos_of_ne_zero (fun h => hy (BitVec.eq_of_toNat_eq h)))⟩

theorem intMin_sdiv_allOnes (n : Nat) : (BitVec.intMin n).sdiv (BitVec.allOnes n) = BitVec.intMin n := by
  rw [← BitVec.neg_one_eq_allOnes, BitVec.intMin_sdiv_neg_one]

theorem srem_allOnes {n : Nat} (hn : 0 < n) (x : BitVec n) : x.srem (BitVec.allOnes n) = 0 := by
  rw [← toInt_eq_zero, BitVec.toInt_srem, BitVec.toInt_allOnes, if_pos hn, Int.tmod_neg, Int.tmod_one]

/-! ## The completion of `div` and `rem` -/

/-- `alu_completes` for D := g(a, b), the shape of most integer instructions. -/
theorem alu2_completes {s : State} {w : Who} {n lat : Nat} {d a b : BitVec 7} (g : W64 → W64 → W64) (hn : n = 32 ∨ n = 64)
    (h : ready s w (descAB n d a b lat) = true) :
    ∃ t, alu2 n d a b lat g s = .next t
      ∧ RegResult s w (descAB n d a b lat) t (fun i => (g (w.src i a n) (w.src i b n), 0)) := by
  have hc := alu_completes (fun _ => descAB n d a b lat) (fun x t => (g (x.src t a n) (x.src t b n), 0)) h rfl
    (fun _ m hm => by obtain ⟨-, rfl⟩ := Prod.mk.inj (Option.some.inj hm); exact hn)
  simp only [reads_src] at hc
  exact hc

theorem alu2_goes_and_holds {s : State} {w : Who} {n lat : Nat} {d a b : BitVec 7} (g : W64 → W64 → W64) (hn : n = 32 ∨ n = 64)
    (h : ready s w (descAB n d a b lat) = true) :
    ∃ t, alu2 n d a b lat g s = .next t ∧ Goes s t w (descAB n d a b lat)
      ∧ ∀ i ∈ w.actors (descAB n d a b lat), w.quiet i d n = true → t.holds w i d n (g (w.src i a n) (w.src i b n)) := by
  obtain ⟨t, ht, hr⟩ := alu2_completes g hn h
  exact ⟨t, ht, hr.goes, hr.value d n rfl⟩

/-! ## Division by 0, and the statement -/

theorem divResult_zero_32 (f : BitVec 2) (a b : W64) (hf : f.toNat < 2) (hb : b.setWidth 32 = (0 : W32)) :
    (divResult false f a b).setWidth 32 = BitVec.allOnes 32 ∧ (divResult true f a b).setWidth 32 = a.setWidth 32 := by
  have hcases : f = 0 ∨ f = 1 := by revert f; decide
  obtain rfl | rfl := hcases
  · rw [divResult_s32_quot, divResult_s32_rem, hb]
    exact ⟨if_pos rfl, BitVec.srem_zero⟩
  · rw [divResult_n32_quot, divResult_n32_rem, hb, if_pos rfl]
    exact ⟨rfl, by rw [BitVec.setWidth_setWidth_of_le _ (by decide), BitVec.setWidth_eq]; exact BitVec.umod_zero⟩

theorem divResult_zero_64 (f : BitVec 2) (a : W64) (hf : 2 ≤ f.toNat) :
    divResult false f a 0 = BitVec.allOnes 64 ∧ divResult true f a 0 = a := by
  have hcases : f = 2 ∨ f = 3 := by revert f; decide
  obtain rfl | rfl := hcases
  · rw [divResult_s64_quot, divResult_s64_rem]
    exact ⟨if_pos rfl, BitVec.srem_zero⟩
  · rw [divResult_n64_quot, divResult_n64_rem]
    exact ⟨if_pos rfl, BitVec.umod_zero⟩

theorem divResult_n32_euclid {a b : W64} (hb : b.setWidth 32 ≠ (0 : W32)) :
    (divResult false 1 a b).toNat * (b.toNat % 2 ^ 32) + (divResult true 1 a b).toNat = a.toNat % 2 ^ 32
      ∧ (divResult true 1 a b).toNat < b.toNat % 2 ^ 32 := by
  rw [divResult_n32_quot, divResult_n32_rem, if_neg hb, BitVec.toNat_setWidth_of_le (by decide), BitVec.toNat_setWidth_of_le (by decide),
    ← BitVec.toNat_setWidth, ← BitVec.toNat_setWidth]
  exact udiv_umod_euclid hb

/-- Settles O17: each form is the library's division at its width, whose laws the clauses are, and `div` and `rem` complete as register
instructions do, whatever their values. -/
theorem divisionValues : Obligations.DivisionValues := by
  unfold Obligations.DivisionValues
  refine ⟨divResult_zero_32, divResult_zero_64, ?signed64, ?signed32, ?least64, ?least32, ?unsigned64, fun a b => divResult_n32_euclid, ?completes⟩
  case signed64 =>
    intro a b hb ho
    rw [divResult_s64_quot, divResult_s64_rem, if_neg hb]
    exact sdiv_srem_truncate hb ho
  case signed32 =>
    intro a b hb ho
    rw [divResult_s32_quot, divResult_s32_rem, if_neg hb]
    exact sdiv_srem_truncate hb ho
  case least64 =>
    rw [divResult_s64_quot, divResult_s64_rem, if_neg (by decide)]
    exact ⟨intMin_sdiv_allOnes 64, srem_allOnes (by decide) _⟩
  case least32 =>
    intro a b ha hb
    rw [divResult_s32_quot, divResult_s32_rem, ha, hb, if_neg (by decide)]
    exact ⟨intMin_sdiv_allOnes 32, srem_allOnes (by decide) _⟩
  case unsigned64 =>
    intro a b hb
    rw [divResult_n64_quot, divResult_n64_rem, if_neg hb]
    exact udiv_umod_euclid hb
  case completes =>
    intro f b a d s w n desc h
    have hn : n = 32 ∨ n = 64 := (ite_eq_or_eq _ _ _).symm
    exact ⟨alu2_goes_and_holds (divResult false f) hn h, alu2_goes_and_holds (divResult true f) hn h⟩

end Sys2Proof.Machine
end

section
/-! SUPPORT. Words of format R (R205), and `sel` (R233): a register instruction whose three sources have its destination's width. -/

namespace Sys2Proof

/-! ## Fields of a word -/

/-- The fields of a word of format R, and the two halves of its OP that pick the decoder's table and row. -/
theorem bits_formatR (f : BitVec 4) (b a d op : BitVec 7) :
    bits (f ++ b ++ a ++ d ++ op) 28 4 = f ∧ bits (f ++ b ++ a ++ d ++ op) 21 7 = b ∧ bits (f ++ b ++ a ++ d ++ op) 14 7 = a
      ∧ bits (f ++ b ++ a ++ d ++ op) 7 7 = d ∧ bits (f ++ b ++ a ++ d ++ op) 4 3 = op.extractLsb' 4 3
      ∧ bits (f ++ b ++ a ++ d ++ op) 0 4 = op.extractLsb' 0 4 := by
  unfold bits
  refine ⟨?_, ?_, ?_, ?_, BitVec.extractLsb'_append_eq_of_add_le (by decide), BitVec.extractLsb'_append_eq_of_add_le (by decide)⟩
  · iterate 3 rw [BitVec.extractLsb'_append_eq_of_le (by decide)]
    exact BitVec.extractLsb'_append_eq_left
  · iterate 3 rw [BitVec.extractLsb'_append_eq_of_le (by decide)]
    exact BitVec.extractLsb'_append_eq_right
  · iterate 2 rw [BitVec.extractLsb'_append_eq_of_le (by decide)]
    exact BitVec.extractLsb'_append_eq_right
  · rw [BitVec.extractLsb'_append_eq_of_le (by decide)]
    exact BitVec.extractLsb'_append_eq_right

/-- The table of OP 0x00-0x0F has `sel` with F 0 in row 0x0B. -/
theorem decodeWord_sel {x : BitVec 32} (ht : bits x 4 3 = 0) (hr : bits x 0 4 = 11) (hf : bits x 28 4 = 0) :
    decodeWord x = .ok (.sel (bits x 21 7) (bits x 14 7) (bits x 7 7)) := by
  have harith : decodeArith x = .ok (.sel (bits x 21 7) (bits x 14 7) (bits x 7 7)) := by
    unfold decodeArith
    rw [hr]
    exact if_pos hf
  have hraw : decodeRaw x = decodeArith x := by
    unfold decodeRaw
    rw [ht]
    rfl
  unfold decodeWord
  rw [hraw, harith]
  rfl

namespace Machine

/-! ## Selection -/

theorem dstWidth_eq_or (w : Who) (d : BitVec 7) : w.dstWidth d = 32 ∨ w.dstWidth d = 64 := by
  unfold Who.dstWidth
  split
  · exact Or.inl rfl
  · exact Or.inr rfl

/-- What comes before the own work of `sel`: D is a source too. -/
def selDesc (b a d : BitVec 7) (w : Who) : Desc :=
  { rds := [(a, w.dstWidth d), (b, w.dstWidth d), (d, w.dstWidth d)], wr := some (d, w.dstWidth d), lat := 4 }

theorem execSel_completes {s : State} {w : Who} {b a d : BitVec 7} (h : ready s w (selDesc b a d w) = true) :
    ∃ t, exec (.sel b a d) s = .next t ∧ RegResult s w (selDesc b a d w) t (fun i =>
      (if w.src i d (w.dstWidth d) ≠ 0 then w.src i a (w.dstWidth d) else w.src i b (w.dstWidth d), 0)) := by
  have hc := alu_completes (selDesc b a d) (fun x t =>
    (if x.src t d (x.dstWidth d) ≠ 0 then x.src t a (x.dstWidth d) else x.src t b (x.dstWidth d), 0)) h rfl
    (fun _ n hn => by obtain ⟨-, rfl⟩ := Prod.mk.inj (Option.some.inj hn); exact dstWidth_eq_or w d)
  simp only [reads_src, reads_dstWidth] at hc
  exact hc

/-- Settles O16: the word by its fields, and the choice by the result that `sel` leaves as a register instruction. -/
theorem selectChooses : Obligations.SelectChooses := by
  unfold Obligations.SelectChooses
  refine ⟨?word, ?choice⟩
  case word =>
    intro b a d
    obtain ⟨hf, hb, ha, hd, ht, hr⟩ := bits_formatR 0 b a d 0x0B
    rw [decodeWord_sel ht hr hf, hb, ha, hd]
  case choice =>
    intro b a d s w n desc h
    obtain ⟨t, ht, hres⟩ := execSel_completes h
    refine ⟨t, ht, fun i hi hq hne => ?_, fun i hi hq hz => ?_, hres.regs, hres.frame⟩
    · have hv := hres.value d n rfl i hi hq
      rwa [if_pos hne] at hv
    · have hv := hres.value d n rfl i hi hq
      rwa [if_neg (not_not.mpr hz)] at hv

end Machine
end Sys2Proof
end

section
/-! SUPPORT. Meeting registers (R21, R242, R243): what `meet`, `meetr.set` and `meetr.clr` leave of threads that pass their tests, and the
one clause of `Obligations.MeetingRegisters` that fails: one record parks several threads in the place of the lowest (R59, R376), in
whatever order the issue lists them, so `meet` on a spine parks its threads as listed only where they rise in tid. -/

namespace Sys2Proof.Machine

/-! ## Targets (R198) -/

theorem targetOk_iff (t : W64) : targetOk t = true ↔ t.toNat % 4 = 0 ∧ t.toNat / 4 % 8 ≠ 0 := by
  have hlow : t.extractLsb' 0 2 = 0 ↔ t.toNat % 4 = 0 := by
    rw [← BitVec.toNat_inj, BitVec.extractLsb'_toNat, Nat.shiftRight_zero]; rfl
  have hword : t.extractLsb' 2 3 = 0 ↔ t.toNat / 4 % 8 = 0 := by
    rw [← BitVec.toNat_inj, BitVec.extractLsb'_toNat, Nat.shiftRight_eq_div_pow]; rfl
  rw [targetOk, Bool.and_eq_true, beq_iff_eq, bne_iff_ne, hlow, ne_eq, hword]

/-! ## One unit after a pass that sets MRs -/

/-- The state in which the threads of the pass have had their MR set. -/
def State.setMrs (s : State) (w : Who) (d : Desc) (m : Nat → Option W64) : State :=
  (w.firstPass d).foldl (fun s i => s.setMr w i (m i)) s

theorem each_setMr {w : Who} {d : Desc} (h : w.single d = false) (s : State) (m : Nat → Option W64) :
    s.each w d (fun i s => s.setMr w i (m i)) = s.setMrs w d m := by
  unfold State.each State.setMrs Who.actors
  rw [if_neg (by rw [h]; decide)]

theorem has_setMrs {s : State} {w : Who} {d : Desc} {m : Nat → Option W64} {k v : Nat} (h : s.has k v) : (s.setMrs w d m).has k v :=
  foldl_keeps (P := fun t => t.has k v) h (fun _ ht _ _ => has_updUnit ht)

theorem frame_setMrs (s : State) (w : Who) (d : Desc) (m : Nat → Option W64) : Frame s (s.setMrs w d m) w.cell.uid w.u :=
  Frame.foldl _ s (fun s i _ => frame_updThread s _ _ i _)

theorem setMrs_issue (s : State) (w : Who) (d : Desc) (m : Nat → Option W64) : (s.setMrs w d m).issue = s.issue :=
  foldl_keeps (P := fun t => t.issue = s.issue) rfl (fun _ ht _ _ => ht)

theorem cis_setMrs (s : State) (w : Who) (d : Desc) (m : Nat → Option W64) (k : Nat) :
    ((s.setMrs w d m).cell? k).map (fun c => c.cis) = (s.cell? k).map (fun c => c.cis) :=
  foldl_keeps (P := fun t => (t.cell? k).map (fun c => c.cis) = (s.cell? k).map (fun c => c.cis)) rfl
    (fun t ht _ _ => (cis_updUnit t _ _ _ _).trans ht)

/-- Setting MRs changes no number of threads, and of the unit only threads. -/
theorem unit_setMrs {s : State} {w : Who} {d : Desc} {m : Nat → Option W64} (h : s.has w.cell.uid w.u) :
    ((s.setMrs w d m).unit w.cell.uid w.u).threads.length = (s.unit w.cell.uid w.u).threads.length
      ∧ keepsAllRegs s (s.setMrs w d m) w.cell.uid w.u := by
  refine (foldl_keeps (P := fun t => t.has w.cell.uid w.u ∧ (t.unit w.cell.uid w.u).threads.length = (s.unit w.cell.uid w.u).threads.length
    ∧ keepsAllRegs s t w.cell.uid w.u) ⟨h, rfl, rfl⟩ ?_).2
  rintro t ⟨ht, hlen, hregs⟩ i -
  refine ⟨has_updUnit ht, (length_updThread ht).trans hlen, ?_⟩
  unfold keepsAllRegs State.setMr
  rw [unit_updThread ht]
  exact hregs

theorem thread_setMrs {s : State} {w : Who} {d : Desc} (m : Nat → Option W64) (h : s.has w.cell.uid w.u)
    (hl : ∀ i ∈ w.firstPass d, i < (s.unit w.cell.uid w.u).threads.length) :
    (∀ i ∈ w.firstPass d, (s.setMrs w d m).thread w.cell.uid w.u i = { s.thread w.cell.uid w.u i with mr := m i })
      ∧ (∀ i, i ∉ w.firstPass d → (s.setMrs w d m).thread w.cell.uid w.u i = s.thread w.cell.uid w.u i) :=
  foldl_updThread (f := fun i x => { x with mr := m i }) (R := fun i x y => y = { x with mr := m i })
    (fun _ _ => rfl) (fun _ _ _ e => by rw [e]) _ s h hl

/-! ## The end of the issue clk -/

/-- A unit in which no result carries the order number of the issue has nothing to date. -/
theorem final_eq_self {w : Who} {u : UnitSt} (hp : ∀ p ∈ u.pend, p.iss ≠ w.iss) (hf : ∀ p ∈ u.flagPend, p.1 ≠ w.iss) :
    w.final u = u := by
  have hpend : u.pend.map (fun p => if p.iss = w.iss then { p with iss := 0, land := w.clk + p.land, lock := w.clk + p.lock } else p) = u.pend :=
    (List.map_congr_left (fun p h => if_neg (hp p h))).trans (List.map_id _)
  have hflag : u.flagPend.map (fun f => if f.1 = w.iss then (0, w.clk + f.2.1, f.2.2) else f) = u.flagPend :=
    (List.map_congr_left (fun p h => if_neg (hf p h))).trans (List.map_id _)
  unfold Who.final UnitSt.date
  rw [hpend, hflag, ite_self]

/-- The unit of a ready issue is there, and its threads, which have neither parked nor exited. -/
theorem ready_threads {s : State} {w : Who} {d : Desc} (h : ready s w d = true) :
    s.has w.cell.uid w.u ∧ ∀ i ∈ w.tids, i < (s.unit w.cell.uid w.u).threads.length
      ∧ (s.thread w.cell.uid w.u i).st ≠ .exited ∧ (s.thread w.cell.uid w.u i).st ≠ .parked := by
  have hwho := ready_who h
  obtain ⟨hhas, hunit⟩ := has_of_who hwho
  obtain ⟨-, -, -, -, hst, -⟩ := who_spec hwho
  refine ⟨hhas, fun i hi => ?_⟩
  rw [thread_eq, hunit, (hst i hi).2]
  exact ⟨tid_of_who hwho hi, by split <;> decide, by split <;> decide⟩

/-- Threads that all complete change nothing of their unit but threads. -/
theorem all_done_keepsAllRegs {s : State} {w : Who} {d : Desc} (hne : w.tids ≠ []) (h : s.has w.cell.uid w.u)
    (hp : ∀ p ∈ (s.unit w.cell.uid w.u).pend, p.iss ≠ w.iss) (hf : ∀ p ∈ (s.unit w.cell.uid w.u).flagPend, p.1 ≠ w.iss) :
    keepsAllRegs s (s.all w d .done) w.cell.uid w.u := by
  unfold keepsAllRegs
  cases h1 : w.oneClk d with
  | true =>
    have hu := unit_ends (o := fun _ => .done) (p := fun _ => nextPc w.pc) hne (fun _ _ => rfl) h h1
    rw [final_eq_self hp hf] at hu
    unfold State.all
    rw [hu]
  | false =>
    unfold State.all
    rw [unit_ends_later h1]

theorem keepsAllRegs_trans {s t r : State} {uid u : Nat} (h : keepsAllRegs s t uid u) (g : keepsAllRegs t r uid u) : keepsAllRegs s r uid u := by
  unfold keepsAllRegs at *
  rw [← h, ← g]

theorem readsCisterns_of_cis {s t r : State} {w : Who} {d : Desc}
    (h : (t.cell? w.cell.uid).map (fun c => c.cis) = (s.cell? w.cell.uid).map (fun c => c.cis)) (g : readsCisterns t r w d) :
    readsCisterns s r w d := by
  have hmap : ∀ x : Option Cell, x.map (fun c => (w.newCis d).foldl (fun l n => modNth Cistern.read n l) c.cis)
      = (x.map (fun c => c.cis)).map (fun l => (w.newCis d).foldl (fun l n => modNth Cistern.read n l) l) :=
    fun x => by rw [Option.map_map]; rfl
  unfold readsCisterns at *
  rw [g, hmap, h, ← hmap]

/-! ## Meeting registers -/

/-- Every thread of the pass has its MR set to `m`, and the issuing threads complete: they go on at the next word in this clk, held where
that is the new MR, or when their passes are over (R21, R24). Nothing else changes but the cisterns that are read. -/
structure SetsMr (s t : State) (w : Who) (d : Desc) (m : Nat → Option W64) : Prop where
  /-- the unit but for its threads -/
  regs : keepsAllRegs s t w.cell.uid w.u
  /-- the rest of the machine -/
  frame : Frame s t w.cell.uid w.u
  /-- cistern sources -/
  cis : readsCisterns s t w d
  /-- threads that do not issue -/
  others : ∀ i, i ∉ w.tids → t.thread w.cell.uid w.u i = s.thread w.cell.uid w.u i
  /-- the threads of the pass -/
  mr : ∀ i ∈ w.firstPass d, (t.thread w.cell.uid w.u i).mr = m i
  /-- the threads of an issue whose passes take one clk -/
  now : w.oneClk d = true → ∀ i ∈ w.tids, i ∈ w.firstPass d ∧ (t.thread w.cell.uid w.u i).pc = nextPc w.pc
    ∧ (t.thread w.cell.uid w.u i).st = (if m i = some (nextPc w.pc) then .held else .eligible)
  /-- the port and the threads of an issue whose passes go on -/
  later : w.oneClk d = false → w.portRec s.issue.port d (fun _ => .done) ∈ t.clu.ports
    ∧ ∀ i ∈ w.tids, (i ∉ w.firstPass d → t.thread w.cell.uid w.u i = s.thread w.cell.uid w.u i)
      ∧ (t.thread w.cell.uid w.u i).pc = (s.thread w.cell.uid w.u i).pc ∧ (t.thread w.cell.uid w.u i).st = (s.thread w.cell.uid w.u i).st

theorem setMrs_done {s : State} {w : Who} {d : Desc} (m : Nat → Option W64) (h : ready s w d = true) :
    SetsMr s ((s.setMrs w d m).all w d .done) w d m := by
  obtain ⟨hhas, hthreads⟩ := ready_threads h
  obtain ⟨-, -, -, hne, -⟩ := who_spec (ready_who h)
  obtain ⟨-, -, -, -, hpend, hflag⟩ := ready_sound h
  obtain ⟨hlen, hkeep⟩ := unit_setMrs (d := d) (m := m) hhas
  obtain ⟨hset, hother⟩ := thread_setMrs m hhas (fun i hi => (hthreads i (firstPass_sub hi)).1)
  rw [← (has_of_who (ready_who h)).2] at hpend hflag
  have hstay : ∀ i, ((s.setMrs w d m).thread w.cell.uid w.u i).pc = (s.thread w.cell.uid w.u i).pc
      ∧ ((s.setMrs w d m).thread w.cell.uid w.u i).st = (s.thread w.cell.uid w.u i).st := by
    intro i
    by_cases hi : i ∈ w.firstPass d
    · rw [hset i hi]; exact ⟨rfl, rfl⟩
    · rw [hother i hi]; exact ⟨rfl, rfl⟩
  have hgoes : Goes (s.setMrs w d m) ((s.setMrs w d m).all w d .done) w d :=
    completes_ends hne (fun _ _ => rfl) (has_setMrs hhas) (fun i hi => by rw [hlen]; exact (hthreads i hi).1)
      (fun i hi => by rw [(hstay i).2]; exact (hthreads i hi).2)
  have hcis : readsCisterns (s.setMrs w d m) ((s.setMrs w d m).all w d .done) w d :=
    cis_ends (o := fun _ => .done) (p := fun _ => nextPc w.pc) hne (fun _ _ => rfl)
  have hregs : keepsAllRegs (s.setMrs w d m) ((s.setMrs w d m).all w d .done) w.cell.uid w.u :=
    all_done_keepsAllRegs hne (has_setMrs hhas) (congrArg UnitSt.pend hkeep ▸ hpend) (congrArg UnitSt.flagPend hkeep ▸ hflag)
  have hfirst : ∀ {i}, i ∉ w.tids → i ∉ w.firstPass d := fun hi hf => hi (firstPass_sub hf)
  unfold Goes Completes at hgoes
  refine ⟨keepsAllRegs_trans hkeep hregs, (frame_setMrs s w d m).trans (frame_all_done _ w d hne),
    readsCisterns_of_cis (cis_setMrs s w d m _) hcis, ?others, ?mr, ?now, ?later⟩
  case others =>
    intro i hi
    rw [← hother i (hfirst hi)]
    split at hgoes
    · exact hgoes.others i hi
    · exact hgoes.stay i
  case mr =>
    intro i hi
    have hm : ((s.setMrs w d m).thread w.cell.uid w.u i).mr = m i := by rw [hset i hi]
    split at hgoes
    · obtain ⟨-, -, hmr, -⟩ := hgoes.moved i (firstPass_sub hi)
      exact hmr.trans hm
    · rw [hgoes.stay i, hm]
  case now =>
    intro h1 i hi
    rw [if_pos h1] at hgoes
    have hf : i ∈ w.firstPass d := by rwa [firstPass_one h1]
    obtain ⟨hpc, hst, -⟩ := hgoes.moved i hi
    rw [hset i hf] at hst
    exact ⟨hf, hpc, hst⟩
  case later =>
    intro h1
    rw [h1, if_neg Bool.false_ne_true] at hgoes
    refine ⟨setMrs_issue s w d m ▸ hgoes.port, fun i hi => ?_⟩
    rw [hgoes.stay i]
    exact ⟨hother i, hstay i⟩

/-! ## The three instructions -/

theorem execMeet_sets {s : State} {w : Who} (o : BitVec 18) (h : ready s w { side := .crew } = true)
    (ht : targetOk (relTarget w.pc o) = true) :
    ∃ t, exec (.meet o) s = .next t ∧ SetsMr s t w { side := .crew } (fun _ => some (relTarget w.pc o)) := by
  refine ⟨_, ?_, setMrs_done _ h⟩
  rw [← each_setMr rfl]
  exact drive_each (fun _ => { side := .crew }) _ (fun _ s => s) _ h (fun i _ s => if_pos ht)

theorem execMeetrClr_sets {s : State} {w : Who} (h : ready s w { side := .crew } = true) :
    ∃ t, exec .meetrClr s = .next t ∧ SetsMr s t w { side := .crew } (fun _ => none) := by
  refine ⟨_, ?_, setMrs_done _ h⟩
  rw [← each_setMr rfl]
  exact drive_each (fun _ => { side := .crew }) _ (fun _ s => s) _ h (fun _ _ _ => rfl)

/-- The MR that `meetr.set` sets: all ones are none (R243). -/
def mrOf (x : W64) : Option W64 := if x = BitVec.allOnes 64 then none else some x

theorem execMeetrSet_sets {s : State} {w : Who} (a : BitVec 7) (h : ready s w { side := .crew, rds := [(a, 64)] } = true)
    (ht : ∀ i ∈ w.tids, w.src i a 64 = BitVec.allOnes 64 ∨ targetOk (w.src i a 64) = true) :
    ∃ t, exec (.meetrSet a) s = .next t ∧ SetsMr s t w { side := .crew, rds := [(a, 64)] } (fun i => mrOf (w.src i a 64)) := by
  refine ⟨_, ?_, setMrs_done _ h⟩
  rw [← each_setMr rfl]
  refine drive_each (fun _ => { side := .crew, rds := [(a, 64)] }) _ (fun _ s => s) _ h (fun i hi s => ?_)
  rw [reads_src]
  by_cases hx : w.src i a 64 = BitVec.allOnes 64
  · rw [show mrOf (w.src i a 64) = none from if_pos hx]
    exact if_pos hx
  · rw [show mrOf (w.src i a 64) = some (w.src i a 64) from if_neg hx]
    exact (if_neg hx).trans (if_pos ((ht i hi).resolve_left hx))

theorem drive_traps {s : State} {w : Who} (desc : Who → Desc) (lane : Who → Nat → State → LaneOut × State) (x : Nat → TrapInfo)
    (h : ready s w (desc w) = true) (hs : w.single (desc w) = false)
    (hl : ∀ i ∈ w.tids, ∀ s, lane (w.reads (desc w)) i s = (.trap (x i), s)) :
    drive s desc lane = .next (s.ends w (desc w) (fun i => .trap (x i))) := by
  rw [drive_ends desc lane (fun _ s => s) (fun i => .trap (x i)) (fun _ s => s) h (fun e => absurd (hs.symm.trans e) (by decide)) hl]
  unfold State.each
  rw [foldl_id]

theorem execMeet_traps {s : State} {w : Who} (o : BitVec 18) (h : ready s w { side := .crew } = true)
    (ht : ¬ targetOk (relTarget w.pc o) = true) :
    exec (.meet o) s = .next (s.all w { side := .crew } (.trap ⟨tTarget, relTarget w.pc o, 0⟩)) :=
  drive_traps (fun _ => { side := .crew }) _ (fun _ => ⟨tTarget, relTarget w.pc o, 0⟩) h rfl
    (fun _ _ s => (if_neg ht).trans (congrArg (·, s) (if_neg ht)))

theorem execMeetrSet_traps {s : State} {w : Who} (a : BitVec 7) (h : ready s w { side := .crew, rds := [(a, 64)] } = true)
    (ht : ∀ i ∈ w.tids, w.src i a 64 ≠ BitVec.allOnes 64 ∧ ¬ targetOk (w.src i a 64) = true) :
    exec (.meetrSet a) s = .next (s.ends w { side := .crew, rds := [(a, 64)] } (fun i => .trap ⟨tTarget, w.src i a 64, 0⟩)) := by
  refine drive_traps (fun _ => { side := .crew, rds := [(a, 64)] }) _ (fun i => ⟨tTarget, w.src i a 64, 0⟩) h rfl (fun i hi s => ?_)
  obtain ⟨hones, hbad⟩ := ht i hi
  rw [reads_src]
  exact ((if_neg hones).trans (if_neg hbad)).trans (congrArg (·, s) (if_neg hbad))

/-! ## On the spine (R208) -/

theorem run_none_of_spine {s : State} {w : Who} (h : s.who = some w) (hu : w.u = 0) : w.run = none := by
  have hunit : s.issue.unit = 0 := (who_spec h).2.2.1 ▸ hu
  unfold State.who at h
  cases hc : s.cell? s.issue.cell with
  | none => rw [hc] at h; exact absurd h (by simp)
  | some c =>
    rw [hc] at h
    dsimp only at h
    obtain ⟨-, hw⟩ := Option.ite_none_left_eq_some.mp h
    rw [← Option.some.inj hw]
    exact if_pos (Or.inr hunit)

/-- A test that holds for the whole bundle traps all its threads before the instruction's own work. -/
theorem drive_uniformTrap {s : State} {w : Who} {x : TrapInfo} (desc : Who → Desc) (lane : Who → Nat → State → LaneOut × State)
    (start : Who → State → State) (h : s.who = some w) (hr : w.run = none) (ht : uniformTrap w (desc w) = some x) :
    drive s desc lane start = .next (s.trapAll w (desc w) x) := by
  unfold drive State.trapAll
  rw [h]
  simp only [hr, ht]

theorem execMeet_spine {s : State} {w : Who} (o : BitVec 18) (h : s.who = some w) (hu : w.u = 0) (hup : w.tids.Pairwise (· < ·)) :
    exec (.meet o) s = .next (s.park w.cell.uid w.u w.tids ⟨tIllegal, 0, w.word.setWidth 64⟩ w.pc) := by
  have hspine : w.spine = true := beq_iff_eq.mpr hu
  have ht : uniformTrap w { side := .crew } = some ⟨tIllegal, 0, w.word.setWidth 64⟩ := by
    unfold uniformTrap
    rw [hspine]
    rfl
  have hd : exec (.meet o) s = .next (s.trapAll w { side := .crew } ⟨tIllegal, 0, w.word.setWidth 64⟩) :=
    drive_uniformTrap (fun _ => { side := .crew }) _ (fun _ s => s) h (run_none_of_spine h hu) ht
  rw [hd]
  obtain ⟨-, -, -, hne, -⟩ := who_spec h
  unfold State.trapAll State.opening
  rw [hspine, Bool.true_or, if_pos rfl,
    finish_trap s w (fun _ => ⟨tIllegal, 0, w.word.setWidth 64⟩) tIllegal hne hup (fun _ _ => rfl)]
  unfold State.dated
  rw [hspine, Bool.true_or, if_pos rfl]

/-! ## The word, and the whole of the statement that holds -/

theorem decodeWord_meet (o : BitVec 18) : decodeWord (o ++ (0 : BitVec 7) ++ (0x65 : BitVec 7)) = .ok (.meet o) := by
  generalize hx : o ++ (0 : BitVec 7) ++ (0x65 : BitVec 7) = x
  have htable : bits x 4 3 = 6 := hx ▸ BitVec.extractLsb'_append_eq_of_add_le (by decide)
  have hrow : bits x 0 4 = 5 := hx ▸ BitVec.extractLsb'_append_eq_of_add_le (by decide)
  have hc : bits x 7 7 = 0 := by
    rw [← hx, bits, BitVec.extractLsb'_append_eq_of_le (by decide)]
    exact BitVec.extractLsb'_append_eq_right
  have ho : bits x 14 18 = o := by
    rw [← hx, bits, BitVec.extractLsb'_append_eq_of_le (by decide)]
    exact BitVec.extractLsb'_append_eq_left
  have hcontrol : decodeControl x = .ok (.meet (bits x 14 18)) := by
    unfold decodeControl
    rw [hrow]
    exact if_pos hc
  have hraw : decodeRaw x = decodeControl x := by
    unfold decodeRaw
    rw [htable]
    rfl
  unfold decodeWord
  rw [hraw, hcontrol, ho]
  rfl

/-- Every clause of `Obligations.MeetingRegisters`, the last for threads that rise in tid. -/
theorem meetingRegisters_of_rising (o : BitVec 18) (a : BitVec 7) (s : State) (w : Who) :
    let rel := w.pc + 4 * o.signExtend 64
    let ok := fun (t : W64) => t.toNat % 4 = 0 ∧ t.toNat / 4 % 8 ≠ 0
    (let desc : Desc := { side := .crew }
     ready s w desc = true →
      (ok rel → ∃ t, exec (.meet o) s = .next t ∧ SetsMr s t w desc (fun _ => some rel))
      ∧ (¬ok rel → exec (.meet o) s = .next (s.all w desc (.trap ⟨tTarget, rel, 0⟩)))
      ∧ (∃ t, exec .meetrClr s = .next t ∧ SetsMr s t w desc (fun _ => none)))
    ∧ (let desc : Desc := { side := .crew, rds := [(a, 64)] }
       ready s w desc = true →
        ((∀ i ∈ w.tids, w.src i a 64 = BitVec.allOnes 64 ∨ ok (w.src i a 64)) →
          ∃ t, exec (.meetrSet a) s = .next t ∧ SetsMr s t w desc (fun i => mrOf (w.src i a 64)))
        ∧ ((∀ i ∈ w.tids, w.src i a 64 ≠ BitVec.allOnes 64 ∧ ¬ok (w.src i a 64)) →
          exec (.meetrSet a) s = .next (s.ends w desc (fun i => .trap ⟨tTarget, w.src i a 64, 0⟩))))
    ∧ decodeWord (o ++ (0 : BitVec 7) ++ (0x65 : BitVec 7)) = .ok (.meet o)
    ∧ (s.who = some w → w.u = 0 → w.tids.Pairwise (· < ·) →
        exec (.meet o) s = .next (s.park w.cell.uid w.u w.tids ⟨tIllegal, 0, w.word.setWidth 64⟩ w.pc)) := by
  simp only [← targetOk_iff]
  exact ⟨fun h => ⟨execMeet_sets o h, execMeet_traps o h, execMeetrClr_sets h⟩,
    fun h => ⟨execMeetrSet_sets a h, execMeetrSet_traps a h⟩, decodeWord_meet o, execMeet_spine o⟩

/-! ## The clause that fails -/

/-- A spine of two threads, listed from the higher, that issues `meet`. No run reaches it: a spine has one thread (R10). -/
def twoOnSpine : State :=
  Tests.at' { Tests.cellWith [] [] [] with units := [UnitSt.fresh [placedThread 0, placedThread 0] [] 0 0 0] } 0 [1, 0] 0x65

/-- Places in the arbitration order (R59, R376) of the trap records that an outcome leaves. -/
def ranksAfter : Host.Outcome State Fault Refusal → List Nat
  | .next t => t.sched.traps.map (·.rank)
  | _ => []

theorem issuer_of_on {s : State} {p : Who → Bool} (h : Tests.on s p = true) : ∃ w, s.who = some w ∧ p w = true := by
  unfold Tests.on at h
  split at h
  · next w hw => exact ⟨w, hw, h⟩
  · exact absurd h (by decide)

/-- `meet` on the spine of `twoOnSpine` leaves a record in the place of thread 0, where parking `w.tids` as listed gives that of thread 1. -/
theorem twoOnSpine_meet_ranks : Tests.on twoOnSpine (fun w => w.u == 0 && ranksAfter (exec (.meet 0) twoOnSpine)
    != ranksAfter (.next (twoOnSpine.park w.cell.uid w.u w.tids ⟨tIllegal, 0, w.word.setWidth 64⟩ w.pc))) = true := by decide +kernel

/-- Refutes O25 by its last clause, which takes any threads of unit 0 in any order: `twoOnSpine` traps with a record that stands in the
place of its lowest thread, and not in that of the thread listed first. -/
theorem not_meetingRegisters : ¬ Obligations.MeetingRegisters := by
  unfold Obligations.MeetingRegisters
  intro h
  obtain ⟨w, hw, hp⟩ := issuer_of_on twoOnSpine_meet_ranks
  obtain ⟨hu, hranks⟩ := Bool.and_eq_true_iff.mp hp
  obtain ⟨-, -, -, hspine⟩ := h 0 0 twoOnSpine w
  exact bne_iff_ne.mp hranks (congrArg ranksAfter (hspine hw (beq_iff_eq.mp hu)))

end Sys2Proof.Machine
end
